-- ==== Sys2Proof/Word.lean ====
section
/-! DEFINITION. The word types of the machine: bytes, lane words, scalar words, lane masks and the 32 lanes of a
vector register (spec 00 R4, R6; spec 01 R11). -/

namespace Sys2Proof

/-- A byte of memory, scratch or a tile (R4). -/
abbrev Byte := BitVec 8

/-- The 32-bit contents of one lane of a V register (R11). -/
abbrev Word32 := BitVec 32

/-- The 64-bit contents of an S register, a counter or an instruction word (R11, R18, R198). -/
abbrev Word64 := BitVec 64

/-- One bit for each lane: bit l stands for lane l (R29). -/
abbrev Mask := BitVec 32

/-- The 32 lanes of one vector register, lane 0 first (R11). -/
abbrev Lanes := Vector Word32 32

end Sys2Proof
end

