-- ==== Sys2Proof/Syntax.lean ====
section
/-! DEFINITION. The syntax of the machine: register fields, modifiers, the parameters of the device's own steps, and
the ONE inductive `Instr` with a constructor for every row of spec/opcode_table.json. The first 184 constructors are
the instructions of the opcode map (spec 01 R36); the other 85 are the steps that spec 95 lists beside them, which
have no encoding. -/

namespace Sys2Proof

/-! ## Register fields and guards (R28 to R32) -/

/-- G and GN of the common fields (R28, R29). -/
structure Guard where
  p : BitVec 3
  neg : Bool
  deriving DecidableEq, Repr

/-- A register field of 8 bits with its X bit (R30 to R32). -/
structure Reg where
  n : BitVec 8
  x : Bool
  deriving DecidableEq, Repr

/-- A B field that names a V register, with the latch hint RU (R34). -/
structure BReg where
  r : Reg
  ru : Bool
  deriving DecidableEq, Repr

/-- A B operand that is a V register, or an S register under .S (R93, R102). -/
inductive BSrc where
  | v (r : Reg) (ru : Bool)
  | s (r : Reg)
  deriving DecidableEq, Repr

/-- A shift count of LSHL and LSHR: a V register, or an S register under .S (R188). -/
inductive CountSrc where
  | v (r : Reg)
  | s (r : Reg)
  deriving DecidableEq, Repr

/-! ## Modifiers of rows 0 to 3 (R80) -/

/-- None, .SAT or .N.SAT of SADD, SSUB and SMUL. -/
inductive SatMode where
  | wrap | sat | nsat
  deriving DecidableEq, Repr

/-- SAT and N of the vector integer instructions. -/
structure IntMod where
  sat : Bool
  n : Bool
  deriving DecidableEq, Repr

/-- Conditions of VCMP and LCMP, codes 0 to 5 (R80, R188). -/
inductive Cond where
  | eq | ne | lt | le | gt | ge
  deriving DecidableEq, Repr

/-- Conditions of FCMP and DCMP, codes 0 to 7 (R107). -/
inductive FCond where
  | eq | ne | lt | le | gt | ge | un | or
  deriving DecidableEq, Repr

/-- Format tags, codes 0 to 15 (R52). -/
inductive Tag where
  | raw | i32 | n32 | f32 | dLo | dHi | h2 | b2 | e4x4 | e5x4 | e2x8 | i8x4 | i4x8 | f6ax5 | f6bx5 | limb
  deriving DecidableEq, Repr

/-- Rounding modifiers (R57). -/
inductive Round where
  | rn | rz | rp | rm
  deriving DecidableEq, Repr

/-- Widths of SLD and SST (R86). -/
inductive ScalarFmt where
  | n8 | n16 | n32 | n64 | i8 | i16 | i32
  deriving DecidableEq, Repr

/-! ## Memory modifiers (R133, R136, R142, R143) -/

/-- ORD of format M (R133). -/
inductive MemOrd where
  | weak | rlx | acq | rel | ar
  deriving DecidableEq, Repr

/-- SCOPE codes 0 to 5 (R133, R206). -/
inductive Scope where
  | grp | core | rect | die | pkg | sys
  deriving DecidableEq, Repr

/-- SCOPE and S of format M: a buffer index in an S register at a scope, or the window form with its nibble (R128). -/
inductive BufSel where
  | reg (s : BitVec 7) (scope : Scope)
  | window (nibble : BitVec 4)
  deriving DecidableEq, Repr

/-- The memory operand of loads and stores: order, buffer, OFF and the offset register (R30, R135). -/
structure MemArg where
  ord : MemOrd
  buf : BufSel
  off : BitVec 14
  a : Reg
  deriving DecidableEq, Repr

/-- The memory operand of LDSP and STSP, whose offset is an S register that is never indirect (R135). -/
structure SpArg where
  ord : MemOrd
  buf : BufSel
  off : BitVec 14
  a : BitVec 7
  deriving DecidableEq, Repr

/-- The memory operand of ATOM, ATOMC and RED, with AOFF (R142). -/
structure AtomArg where
  ord : MemOrd
  buf : BufSel
  aoff : BitVec 10
  a : Reg
  deriving DecidableEq, Repr

/-- FMT of loads and stores, codes 0 to 15 (R136). -/
inductive MemFmt where
  | raw | i32 | n32 | f32 | f64 | h2 | b2 | e4x4 | e5x4 | e2x8 | i8x4 | i4x8 | n8 | i8 | n16 | i16
  deriving DecidableEq, Repr

/-- FMT and AW of atomics (R142). -/
inductive AtomTy where
  | raw | b64 | i32 | i64 | n32 | n64 | f32 | f64
  deriving DecidableEq, Repr

/-- AOP of atomics (R143). -/
inductive AtomOp where
  | swap | add | and | or | xor | min | max
  deriving DecidableEq, Repr

/-- KIND of FENCE (R149). -/
inductive FenceKind where
  | ar | acq | rel
  deriving DecidableEq, Repr

/-- Tier codes of PLACE and of frames (R361, R375). -/
inductive Tier where
  | hbm | lpddr | pool
  deriving DecidableEq, Repr

/-! ## Float, conversion and dot-product modifiers (R103, R114, R116, R118) -/

/-- Type codes of CVT (R114). -/
inductive CvtTy where
  | i32 | n32 | f32 | f64 | i64 | n64 | e8m0
  deriving DecidableEq, Repr

/-- PF and N of PACK and UNPK (R116). -/
inductive PackFmt where
  | f16 | bf16 | e4m3 | e5m2 | e2m1 | i8 | n8 | i4 | n4 | e3m2 | e2m3
  deriving DecidableEq, Repr

/-- Modifiers of DOT4: integer elements with TA, TB, NACC, SAT, or FP8 elements with TA, TB, SAT, RM (R118). -/
inductive Dot4Mod where
  | int (ta tb nacc sat : Bool)
  | fp (ta tb sat : Bool) (rnd : Round)
  deriving DecidableEq, Repr

/-- Modifiers of DOT8 (R118). -/
inductive Dot8Mod where
  | int (ta tb nacc sat : Bool)
  | fp (sat : Bool) (rnd : Round)
  deriving DecidableEq, Repr

/-! ## Cross-lane and limb modifiers (R178, R184, R188, R189) -/

/-- SEG of SHFL: segment widths 32, 2, 4, 8, 16 (R178). -/
inductive Seg where
  | w32 | w2 | w4 | w8 | w16
  deriving DecidableEq, Repr

/-- MODE of SHFL (R178). -/
inductive ShflMode where
  | idx | up | down | xor
  deriving DecidableEq, Repr

/-- OP and destination of VOTE (R181). -/
inductive VoteDst where
  | any (p : BitVec 3)
  | all (p : BitVec 3)
  | ballot (d : Reg)
  | count (d : Reg)
  deriving DecidableEq, Repr

/-- MIN, MAX, AND, OR and XOR of REDX and SCANX on integers (R178). -/
inductive RedIntOp where
  | min | max | and | or | xor
  deriving DecidableEq, Repr

/-- OP, TY, SAT and RM of REDX and SCANX, in the patterns that R178 allows. -/
inductive RedKind where
  | intAdd (n sat : Bool)
  | intOp (n : Bool) (op : RedIntOp)
  | fAdd (dbl : Bool) (rnd : Round)
  | fMin (dbl : Bool)
  | fMax (dbl : Bool)
  deriving DecidableEq, Repr

/-- The source lane of BCAST (R180). -/
inductive BcastSrc where
  | lane (k : BitVec 5)
  | s (r : Reg)
  deriving DecidableEq, Repr

/-- .ANY and .ALL of MATCH with their destinations (R183). -/
inductive MatchDst where
  | any (d : Reg)
  | all (p : BitVec 3)
  deriving DecidableEq, Repr

/-- WC of LBIND: widths 2, 4, 8, 16, 32 (R184). -/
inductive LimbW where
  | w2 | w4 | w8 | w16 | w32
  deriving DecidableEq, Repr

/-- CPE and CI of LADD and LSUB: no predicate, or Pk with or without a carry-in (R189). -/
inductive Carry where
  | none
  | out (k : BitVec 3) (ci : Bool)
  deriving DecidableEq, Repr

/-! ## Counter, copy and matrix modifiers -/

/-- ORD of the counter instructions (R206). -/
inductive CtrOrd where
  | rlx | acq | rel | ar
  deriving DecidableEq, Repr

/-- RW and RH: a side 2^n for n from 0 to 4, or the launch rectangle's own side (R206). -/
inductive Side where
  | s1 | s2 | s4 | s8 | s16 | full
  deriving DecidableEq, Repr

/-- SCOPE of the counter instructions with the sides of a sub-rectangle (R206). -/
inductive CtrScope where
  | grp | core | rect (w h : Side) | die | pkg | sys
  deriving DecidableEq, Repr

/-- Order and scope of a counter instruction (R206). -/
structure CtrMod where
  ord : CtrOrd
  scope : CtrScope
  deriving DecidableEq, Repr

/-- FA and FB of MMA and MVB, codes 0 to 9 (R228). -/
inductive MatFmt where
  | f64 | f16 | bf16 | e4m3 | e5m2 | e2m1 | i8 | n8 | i4 | n4
  deriving DecidableEq, Repr

/-- FMT of MZERO, MLD and MST (R238). -/
inductive TileFmt where
  | raw | i32 | f32 | f64
  deriving DecidableEq, Repr

/-- The fields of MMA beside its guard (R227). K = 0 encodes 64. -/
structure MmaArg where
  tb : Bool
  z : Bool
  rb : Bool
  ra : Bool
  fb : MatFmt
  fa : MatFmt
  n1 : BitVec 5
  k : BitVec 6
  sb : BitVec 7
  sa : BitVec 7
  t : Reg
  deriving DecidableEq, Repr

/-- The column of MRD and MWR: COL, or an S register under .S (R238). -/
inductive ColSrc where
  | imm (c : BitVec 5)
  | s (r : Reg)
  deriving DecidableEq, Repr

/-! ## Control modifiers (R191, R197) -/

/-- COND of BRC. -/
inductive BrcCond where
  | any | all | none | nall
  deriving DecidableEq, Repr

/-- COND of BRU. -/
inductive BruCond where
  | eq | ne | ltu | geu
  deriving DecidableEq, Repr

/-- COUNT of WAIT, or an S register under .S. -/
inductive WaitSrc where
  | imm (n : BitVec 11)
  | s (r : Reg)
  deriving DecidableEq, Repr

/-- SEL of RDSR, with RDSR.FLAGS.CLR as a selector of its own (R197). -/
inductive RdsrSel where
  | lane | group | groups | wgid | wgidx | cx | cy | die | hedge | lseq | flags | flagsClr | cycle | limbw | lcore
  | lrcore
  deriving DecidableEq, Repr

/-! ## Parameters of the device's own steps -/

/-- The fault kinds, codes 1 to 18 (R341). -/
inductive FaultCode where
  | illop | illclause | regbound | tagmis | bufidx | bufbound | bufright | xlat | migr | acchaz | limbmask | limbdiv
  | limbovf | cnthandle | cntquota | uncorr | sdc | specviol
  deriving DecidableEq, Repr

/-- A counter at its home: class 0 of a group, class 1 and 2 of a hedge, class 3 at a physical address (R198 to R201). -/
inductive CtrKey where
  | c0 (group index : Nat)
  | c1 (hedge lcore slot : Nat)
  | c2 (hedge cluster index : Nat)
  | c3 (addr : Nat)
  deriving DecidableEq, Repr

/-- Where HOME_ADD takes its add from: a group's outstanding operation, or an add in flight (R209). -/
inductive AddSrc where
  | group (g p : Nat)
  | queue (i : Nat)
  deriving DecidableEq, Repr

/-- A launch rectangle and die set in logical coordinates (R291, R385). -/
structure Rect where
  x0 : Nat
  y0 : Nat
  lw : Nat
  lh : Nat
  dies : Nat
  deriving DecidableEq, Repr

/-- The parameters of a hedge (R380); `cmask` and `lmask` are its channel set (R359), `contextBase` the physical base of
its context area with the request area (R348, R392). -/
structure HedgeParams where
  id : Nat
  rect : Rect
  slots : List Nat
  checked : Bool
  debug : Bool
  gCores : List Nat
  features : BitVec 256
  /-- Scratch share per core; the default of three pages for each slot number where none is set (R249, R287). -/
  scratchPages : Option Nat
  clusterCounters : Nat
  waiterSlice : Nat
  watchQuota : Nat
  shadowQuota : Nat
  pinQuota : Nat
  stalledShare : Nat
  /-- Superblock quotas: of each die L2, and of each home slice (R309). -/
  l2blocks : Nat
  sliceBlocks : Nat
  l2tlb : Nat
  walkers : Nat
  turns : Nat
  /-- Bandwidth token rates of the tiers, in GB/s of the whole package (R360; log 90, DESIGN CHOICE). -/
  tokenHbm : Nat
  tokenLpddr : Nat
  tokenPool : Nat
  cmask : BitVec 48
  lmask : BitVec 16
  quotaHbm : Nat
  quotaLpddr : Nat
  quotaPool : Nat
  logLines : Nat
  nslot : Nat
  guestSize : Nat
  vsatp : Word64
  hgatp : Word64
  contextBase : Nat
  deriving DecidableEq, Repr

/-- Where a service call comes from: a slot of the request area, or the SBI extension with its argument words (R394). -/
inductive CallSrc where
  | slot (hedge slot : Nat)
  | sbi (hedge : Nat) (w0 w1 w2 w3 : Word64)
  deriving DecidableEq, Repr

/-- One FX96 or integer contribution to a reduction window (R440). -/
structure Contribution where
  i : BitVec 96
  nan : Bool
  pinf : Bool
  ninf : Bool
  ovf : Bool
  deriving DecidableEq, Repr

/-- What a peer asks for (R435, R436, R438, R439). -/
inductive PeerOp where
  | cadd (handle : Word64) (amount : Word64)
  | cnext (handle : Word64) (amount : Word64)
  | cinit (handle : Word64) (value : Word64)
  | watch (handle threshold : Word64) (target amount : Word64) (ar : Bool)
  | rmaWrite (buf : Nat) (off : Nat) (data : List Byte) (notify : Option Word64)
  | rmaAtomic (buf : Nat) (off : Nat) (op : AtomOp) (ty : AtomTy) (operand : Word64)
  | rmaRead (buf : Nat) (off : Nat) (len : Nat)
  | contribute (buf : Nat) (off : Nat) (ty : AtomTy) (c : Contribution)
  /-- The source hedge has moved to another package, or the peer has switched its route to where this hedge went (R414,
  R442). -/
  | moved (faddr : BitVec 48)
  | switched
  deriving DecidableEq, Repr

/-- A request of a peer: source package, hedge and epoch, the target hedge, and the operation (R435). -/
structure PeerReq where
  faddr : BitVec 48
  phedge : Nat
  epoch : BitVec 32
  hedge : Nat
  op : PeerOp
  deriving DecidableEq, Repr

/-- Atomic operations of a G-die thread (R328). -/
inductive AmoOp where
  | swap | add | and | or | xor | min | max | minu | maxu
  deriving DecidableEq, Repr

/-- The accesses of a G-die thread (R328): width in bytes, acquire and release bits, data. -/
inductive GOp where
  | load (bytes : Nat)
  | store (bytes : Nat) (data : Word64)
  | fence (acq rel : Bool)
  | lr (bytes : Nat) (acq rel : Bool)
  | sc (bytes : Nat) (acq rel : Bool) (data : Word64)
  | amo (bytes : Nat) (op : AmoOp) (acq rel : Bool) (data : Word64)
  /-- No access: bytes that the thread's software sends to another package through the SBI extension (R432). -/
  | send (faddr : BitVec 48) (data : List Byte)
  /-- A read of a counter by its handle, with or without an acquire, as R429 has a thread acquire one of a cluster file (R328,
  R429; log 63, PRESUMED). -/
  | ctr (handle : Word64) (acq : Bool)
  deriving DecidableEq, Repr

/-- A failure of storage or logic that comes from outside the model, as it is detected (R173, R305, R344): what failed, in the
hedge, group, workgroup or die of number n that it is attributed to, at lane, line or counter i where it has one. -/
inductive ErrEvent where
  /-- A correctable error attributed to hedge n: it is corrected. -/
  | corrected
  /-- A correctable error in page i of hedge n's scratch share on a core: it is corrected. -/
  | pageFix (core : Nat)
  /-- A scrub cycle of die n's scratch pool ends. -/
  | scrubCycle
  /-- An uncorrectable error in group n's V, S, P or accumulator state, as the group reads it in lane i, or in its
  frontier. -/
  | state
  /-- An error or a failed translation in a clause fetched ahead for hedge n and not reached. -/
  | fetchAhead
  /-- An uncorrectable error in line i of hedge n in a core's L1, which shows when the line is consumed or written back
  dirty. -/
  | l1Line (core : Nat)
  /-- An uncorrectable error in line i of workgroup n's scratch, which shows when it is consumed. -/
  | scratch
  /-- A page of die n's scratch pool fails at its scrub, or has been corrected too often: then its contents move, and the
  owner's core is named. -/
  | page (moved : Option (Nat × Nat))
  /-- An uncorrectable error in hedge n's counter i of a cluster file. -/
  | counter (cluster : Nat)
  /-- An error in die n's crossbar or cluster file that belongs to no single hedge. -/
  | die
  /-- An uncorrectable error that the replay of hedge n's interval log consumes, in a rollback that the service kernel asks
  for (R407). -/
  | replay
  deriving DecidableEq, Repr

/-- What the service kernel writes into its tables and key slots (R244, R359, R362, R364, R433, R439, R440), and a counter that
it presets (R353). -/
inductive TableWrite where
  | interleave (hedge index : Nat) (w0 w1 : Word64)
  | route (hedge index : Nat) (w0 w1 w2 w3 : Word64)
  | bank (hedge index : Nat) (w0 w1 w2 w3 : Word64)
  | window (hedge index : Nat) (w0 w1 w2 w3 : Word64)
  | clearAcc (hedge index word : Nat)
  | cinit (hedge : Nat) (handle value : Word64)
  /-- Dynamic-capacity extents: how many frames of the CXL pool are visible from now on (R362). -/
  | extents (frames : Nat)
  /-- The pool key that a hedge has agreed with the packages sharing its pool is loaded into its key slot (R364). -/
  | poolKey (hedge : Nat) (key : BitVec 512)
  deriving DecidableEq, Repr

/-- The cache that writes a dirty line back (R313): an L1, a die L2 or a home slice. -/
inductive CacheLevel where
  | l1 (core : Nat)
  | l2 (die : Nat)
  | home (slice : Nat)
  deriving DecidableEq, Repr

/-- The sector that a rollback's record shows: by a guest virtual address, or met at its home (R412). -/
inductive RollAt where
  | va (a : Nat)
  | home (pa : Nat)
  deriving DecidableEq, Repr

/-- Why a rollback is asked for (R406, R412). -/
inductive RollCause where
  | uncorr | sdc | shadow | service
  deriving DecidableEq, Repr

/-! ## The instructions and steps -/

/-- One constructor for every row of spec/opcode_table.json, in the table's order, but that steps which only an outside
agent brings about come last. -/
inductive Instr where
  /-- SMOV (R81). -/
  | smov (g : Guard) (d a : Reg)
  /-- SLI (R81). -/
  | sli (g : Guard) (d : Reg) (imm : Word32)
  /-- SLIH (R81). -/
  | slih (g : Guard) (d : Reg) (imm : Word32)
  /-- SADD (R82). -/
  | sadd (g : Guard) (m : SatMode) (d a b : Reg)
  /-- SADD_IMM (R83). -/
  | saddImm (g : Guard) (d a : Reg) (imm : Word32)
  /-- SSUB (R82). -/
  | ssub (g : Guard) (m : SatMode) (d a b : Reg)
  /-- SSUB_IMM (R83). -/
  | ssubImm (g : Guard) (d a : Reg) (imm : Word32)
  /-- SMUL (R82). -/
  | smul (g : Guard) (m : SatMode) (d a b : Reg)
  /-- SMUL_IMM (R83). -/
  | smulImm (g : Guard) (d a : Reg) (imm : Word32)
  /-- SMULH (R82). -/
  | smulh (g : Guard) (n : Bool) (d a b : Reg)
  /-- SMULH_IMM (R83). -/
  | smulhImm (g : Guard) (d a : Reg) (imm : Word32)
  /-- SAND (R81). -/
  | sand (g : Guard) (d a b : Reg)
  /-- SAND_IMM (R83). -/
  | sandImm (g : Guard) (d a : Reg) (imm : Word32)
  /-- SOR (R81). -/
  | sor (g : Guard) (d a b : Reg)
  /-- SOR_IMM (R83). -/
  | sorImm (g : Guard) (d a : Reg) (imm : Word32)
  /-- SXOR (R81). -/
  | sxor (g : Guard) (d a b : Reg)
  /-- SXOR_IMM (R83). -/
  | sxorImm (g : Guard) (d a : Reg) (imm : Word32)
  /-- SSHL (R81). -/
  | sshl (g : Guard) (d a b : Reg)
  /-- SSHL_IMM (R83). -/
  | sshlImm (g : Guard) (d a : Reg) (imm : Word32)
  /-- SSHR (R81). -/
  | sshr (g : Guard) (d a b : Reg)
  /-- SSHR_IMM (R83). -/
  | sshrImm (g : Guard) (d a : Reg) (imm : Word32)
  /-- SSRA (R81). -/
  | ssra (g : Guard) (d a b : Reg)
  /-- SSRA_IMM (R83). -/
  | ssraImm (g : Guard) (d a : Reg) (imm : Word32)
  /-- SMIN (R82). -/
  | smin (g : Guard) (n : Bool) (d a b : Reg)
  /-- SMIN_IMM (R83). -/
  | sminImm (g : Guard) (d a : Reg) (imm : Word32)
  /-- SMAX (R82). -/
  | smax (g : Guard) (n : Bool) (d a b : Reg)
  /-- SMAX_IMM (R83). -/
  | smaxImm (g : Guard) (d a : Reg) (imm : Word32)
  /-- SCLZ (R81). -/
  | sclz (g : Guard) (d a : Reg)
  /-- SPOP (R81). -/
  | spop (g : Guard) (d a : Reg)
  /-- SBFE (R85). -/
  | sbfe (g : Guard) (i : Bool) (d a b : Reg)
  /-- SBFI (R85). -/
  | sbfi (g : Guard) (d a b c : Reg)
  /-- SCMP (R84). -/
  | scmp (g : Guard) (d a b : Reg)
  /-- SCMP_IMM (R84). -/
  | scmpImm (g : Guard) (d a : Reg) (imm : Word32)
  /-- SSEL (R84). -/
  | ssel (g : Guard) (mask : BitVec 5) (d a b c : Reg)
  /-- SLD (R87). -/
  | sld (g : Guard) (f : ScalarFmt) (m : MemArg) (d : Reg)
  /-- SST (R87). -/
  | sst (g : Guard) (f : ScalarFmt) (m : MemArg) (d : Reg)
  /-- SLDK (R89). -/
  | sldk (g : Guard) (d a : Reg) (imm : Word32)
  /-- VMOVS_VS (R90). -/
  | vmovsVs (g : Guard) (tag : Tag) (hi : Bool) (d a : Reg)
  /-- VMOVS_SV (R90). -/
  | vmovsSv (g : Guard) (d a b : Reg)
  /-- VMOVS_PS (R90). -/
  | vmovsPs (g : Guard) (d : BitVec 3) (a : Reg)
  /-- VMOVS_SP (R90). -/
  | vmovsSp (g : Guard) (d : Reg) (a : BitVec 3)
  /-- VMOVS_DS (R90). -/
  | vmovsDs (g : Guard) (d a : Reg)
  /-- VADD (R92). -/
  | vadd (g : Guard) (m : IntMod) (d a : Reg) (b : BSrc)
  /-- VSUB (R92). -/
  | vsub (g : Guard) (m : IntMod) (d a : Reg) (b : BSrc)
  /-- VMUL (R92). -/
  | vmul (g : Guard) (m : IntMod) (d a : Reg) (b : BSrc)
  /-- VMULH (R92). -/
  | vmulh (g : Guard) (n : Bool) (d a : Reg) (b : BSrc)
  /-- VMAD (R92). -/
  | vmad (g : Guard) (m : IntMod) (d a : Reg) (b : BSrc) (c : Reg)
  /-- VMADW (R94). -/
  | vmadw (g : Guard) (m : IntMod) (d a : Reg) (b : BSrc) (c : Reg)
  /-- VABS (R92). -/
  | vabs (g : Guard) (sat : Bool) (d a : Reg)
  /-- VMIN (R92). -/
  | vmin (g : Guard) (n : Bool) (d a : Reg) (b : BSrc)
  /-- VMAX (R92). -/
  | vmax (g : Guard) (n : Bool) (d a : Reg) (b : BSrc)
  /-- VCMP (R95). -/
  | vcmp (g : Guard) (cc : Cond) (n : Bool) (d : BitVec 3) (a : Reg) (b : BSrc)
  /-- VSEL (R96). -/
  | vsel (g : Guard) (d a : Reg) (b : BSrc) (c : BitVec 3)
  /-- VMOV (R96). -/
  | vmov (g : Guard) (d a : Reg)
  /-- VLI (R96). -/
  | vli (g : Guard) (tag : Tag) (d : Reg) (imm : Word32)
  /-- VAND (R97). -/
  | vand (g : Guard) (d a : Reg) (b : BSrc)
  /-- VOR (R97). -/
  | vor (g : Guard) (d a : Reg) (b : BSrc)
  /-- VXOR (R97). -/
  | vxor (g : Guard) (d a : Reg) (b : BSrc)
  /-- VNOT (R97). -/
  | vnot (g : Guard) (d a : Reg)
  /-- VSHL (R97). -/
  | vshl (g : Guard) (d a : Reg) (b : BSrc)
  /-- VSHR (R97). -/
  | vshr (g : Guard) (d a : Reg) (b : BSrc)
  /-- VSRA (R97). -/
  | vsra (g : Guard) (d a : Reg) (b : BSrc)
  /-- VROT (R97). -/
  | vrot (g : Guard) (d a : Reg) (b : BSrc)
  /-- VCLZ (R97). -/
  | vclz (g : Guard) (d a : Reg)
  /-- VPOP (R97). -/
  | vpop (g : Guard) (d a : Reg)
  /-- VBFE (R98). -/
  | vbfe (g : Guard) (i : Bool) (lenM1 pos : BitVec 5) (d a : Reg)
  /-- VBFI (R98). -/
  | vbfi (g : Guard) (lenM1 pos : BitVec 5) (d a : Reg) (b : BReg)
  /-- VBREV (R97). -/
  | vbrev (g : Guard) (d a : Reg)
  /-- VPERMB (R99). -/
  | vpermb (g : Guard) (d a : Reg) (b : BReg) (c : Reg)
  /-- FADD (R105). -/
  | fadd (g : Guard) (nb : Bool) (rnd : Round) (d a : Reg) (b : BSrc)
  /-- FSUB (R105). -/
  | fsub (g : Guard) (nb : Bool) (rnd : Round) (d a : Reg) (b : BSrc)
  /-- FMUL (R105). -/
  | fmul (g : Guard) (nb : Bool) (rnd : Round) (d a : Reg) (b : BSrc)
  /-- FFMA (R105). -/
  | ffma (g : Guard) (nc nb : Bool) (rnd : Round) (d a : Reg) (b : BSrc) (c : Reg)
  /-- FMIN (R106). -/
  | fmin (g : Guard) (d a : Reg) (b : BSrc)
  /-- FMAX (R106). -/
  | fmax (g : Guard) (d a : Reg) (b : BSrc)
  /-- FCMP (R107). -/
  | fcmp (g : Guard) (cc : FCond) (d : BitVec 3) (a : Reg) (b : BSrc)
  /-- FCLASS (R108). -/
  | fclass (g : Guard) (dbl : Bool) (d a : Reg)
  /-- FRND (R109). -/
  | frnd (g : Guard) (dbl : Bool) (rnd : Round) (d a : Reg)
  /-- HADD2 (R110). -/
  | hadd2 (g : Guard) (bf nb : Bool) (rnd : Round) (d a : Reg) (b : BSrc)
  /-- HMUL2 (R110). -/
  | hmul2 (g : Guard) (bf nb : Bool) (rnd : Round) (d a : Reg) (b : BSrc)
  /-- HFMA2 (R110). -/
  | hfma2 (g : Guard) (bf nc nb : Bool) (rnd : Round) (d a : Reg) (b : BSrc) (c : Reg)
  /-- HMIN2 (R110). -/
  | hmin2 (g : Guard) (bf : Bool) (d a : Reg) (b : BSrc)
  /-- HMAX2 (R110). -/
  | hmax2 (g : Guard) (bf : Bool) (d a : Reg) (b : BSrc)
  /-- DADD (R111). -/
  | dadd (g : Guard) (nb : Bool) (rnd : Round) (d a : Reg) (b : BSrc)
  /-- DMUL (R111). -/
  | dmul (g : Guard) (nb : Bool) (rnd : Round) (d a : Reg) (b : BSrc)
  /-- DFMA (R111). -/
  | dfma (g : Guard) (nc nb : Bool) (rnd : Round) (d a : Reg) (b : BSrc) (c : Reg)
  /-- DCMP (R111). -/
  | dcmp (g : Guard) (cc : FCond) (d : BitVec 3) (a : Reg) (b : BSrc)
  /-- DMIN (R111). -/
  | dmin (g : Guard) (d a : Reg) (b : BSrc)
  /-- DMAX (R111). -/
  | dmax (g : Guard) (d a : Reg) (b : BSrc)
  /-- FDIV (R112). -/
  | fdiv (g : Guard) (rnd : Round) (d a : Reg) (b : BSrc)
  /-- FSQRT (R112). -/
  | fsqrt (g : Guard) (rnd : Round) (d a : Reg)
  /-- FRCP (R112). -/
  | frcp (g : Guard) (rnd : Round) (d a : Reg)
  /-- FRSQ (R112). -/
  | frsq (g : Guard) (rnd : Round) (d a : Reg)
  /-- FEXP2 (R112). -/
  | fexp2 (g : Guard) (rnd : Round) (d a : Reg)
  /-- FLOG2 (R112). -/
  | flog2 (g : Guard) (rnd : Round) (d a : Reg)
  /-- FSIN (R112). -/
  | fsin (g : Guard) (rnd : Round) (d a : Reg)
  /-- FCOS (R112). -/
  | fcos (g : Guard) (rnd : Round) (d a : Reg)
  /-- CVT (R115). -/
  | cvt (g : Guard) (dst src : CvtTy) (sat : Bool) (rnd : Round) (d a : Reg)
  /-- TAGS (R120). -/
  | tags (g : Guard) (tag : Tag) (d a : Reg)
  /-- TAGRD (R121). -/
  | tagrd (g : Guard) (tile : Bool) (d a : Reg)
  /-- DOT4 (R119). -/
  | dot4 (g : Guard) (m : Dot4Mod) (d a : Reg) (b : BReg) (c : Reg)
  /-- DOT8 (R119). -/
  | dot8 (g : Guard) (m : Dot8Mod) (d a : Reg) (b : BReg) (c : Reg)
  /-- PACK (R116). -/
  | pack (g : Guard) (f : PackFmt) (sat : Bool) (rnd : Round) (d a : Reg)
  /-- UNPK (R117). -/
  | unpk (g : Guard) (f : PackFmt) (d a : Reg)
  /-- SHFL (R179). -/
  | shfl (g : Guard) (seg : Seg) (m : ShflMode) (d a : Reg) (b : BSrc)
  /-- VOTE (R181). -/
  | vote (g : Guard) (d : VoteDst) (a : BitVec 3) (mm : Option Reg)
  /-- REDX (R182). -/
  | redx (g : Guard) (k : RedKind) (d a : Reg) (mm : Option Reg)
  /-- SCANX (R182). -/
  | scanx (g : Guard) (k : RedKind) (ex : Bool) (d a : Reg) (mm : Option Reg)
  /-- BCAST (R180). -/
  | bcast (g : Guard) (src : BcastSrc) (d a : Reg)
  /-- MATCH (R183). -/
  | matchx (g : Guard) (d : MatchDst) (a : Reg) (mm : Option Reg)
  /-- LBIND (R184). -/
  | lbind (g : Guard) (w : LimbW)
  /-- LFREE (R185). -/
  | lfree (g : Guard)
  /-- LADD (R188). -/
  | ladd (g : Guard) (trap : Bool) (k : Carry) (d a b : Reg)
  /-- LSUB (R188). -/
  | lsub (g : Guard) (trap : Bool) (k : Carry) (d a b : Reg)
  /-- LSHL (R188). -/
  | lshl (g : Guard) (trap : Bool) (k : Option (BitVec 3)) (d a : Reg) (b : CountSrc)
  /-- LSHR (R188). -/
  | lshr (g : Guard) (trap ar : Bool) (k : Option (BitVec 3)) (d a : Reg) (b : CountSrc)
  /-- LMULS (R188). -/
  | lmuls (g : Guard) (trap : Bool) (k : Option (BitVec 3)) (d a b c : Reg)
  /-- LCMP (R188). -/
  | lcmp (g : Guard) (cc : Cond) (ar : Bool) (d : BitVec 3) (a b : Reg)
  /-- LNEG (R188). -/
  | lneg (g : Guard) (k : Option (BitVec 3)) (d a : Reg)
  /-- LCLZ (R188). -/
  | lclz (g : Guard) (d a : Reg)
  /-- LD (R137). -/
  | ld (g : Guard) (f : MemFmt) (m : MemArg) (d : Reg)
  /-- ST (R137). -/
  | st (g : Guard) (f : MemFmt) (m : MemArg) (d : Reg)
  /-- LDX (R137). -/
  | ldx (g : Guard) (f : MemFmt) (m : MemArg) (d : Reg)
  /-- STX (R137). -/
  | stx (g : Guard) (f : MemFmt) (m : MemArg) (d : Reg)
  /-- LDSP (R137). -/
  | ldsp (g : Guard) (f : MemFmt) (m : SpArg) (d : Reg)
  /-- STSP (R137). -/
  | stsp (g : Guard) (f : MemFmt) (m : SpArg) (d : Reg)
  /-- PFX (R147). -/
  | pfx (g : Guard) (f : MemFmt) (s : BitVec 7) (off : BitVec 14) (a : Reg)
  /-- CFL (R148). -/
  | cfl (g : Guard) (f : MemFmt) (scope : Scope) (s : BitVec 7) (off : BitVec 14) (a : Reg)
  /-- CINV (R148). -/
  | cinv (g : Guard) (f : MemFmt) (scope : Scope) (s : BitVec 7) (off : BitVec 14) (a : Reg)
  /-- ATOM (R144). -/
  | atom (g : Guard) (op : AtomOp) (ty : AtomTy) (m : AtomArg) (d : Reg)
  /-- ATOMC (R145). -/
  | atomc (g : Guard) (ty : AtomTy) (m : AtomArg) (d : Reg)
  /-- RED (R146). -/
  | red (g : Guard) (op : AtomOp) (ty : AtomTy) (m : AtomArg) (d : Reg)
  /-- FENCE (R149). -/
  | fence (g : Guard) (k : FenceKind) (scope : Scope)
  /-- FENCEE (R150). -/
  | fencee (g : Guard)
  /-- PLACE (R376). -/
  | place (g : Guard) (tier : Tier) (buf : BufSel) (off : BitVec 14) (a : Reg)
  /-- PIN (R376). -/
  | pin (g : Guard) (buf : BufSel) (off : BitVec 14) (a : Reg)
  /-- UNPIN (R376). -/
  | unpin (g : Guard) (buf : BufSel) (off : BitVec 14) (a : Reg)
  /-- MCRD_PAGE (R378). -/
  | mcrdPage (g : Guard) (d a b : Reg)
  /-- MCRD_QUOTA (R378). -/
  | mcrdQuota (g : Guard) (d : Reg)
  /-- CADD (R209). -/
  | cadd (g : Guard) (m : CtrMod) (a b : Reg)
  /-- CADD_IMM (R207). -/
  | caddImm (g : Guard) (ord : CtrOrd) (scope : Scope) (a : Reg) (imm : Word32)
  /-- CNEXT (R210). -/
  | cnext (g : Guard) (m : CtrMod) (d a b : Reg)
  /-- CWAIT (R211). -/
  | cwait (g : Guard) (m : CtrMod) (a b : Reg)
  /-- CTEST (R212). -/
  | ctest (g : Guard) (m : CtrMod) (d : BitVec 3) (a b : Reg)
  /-- CRD (R212). -/
  | crd (g : Guard) (m : CtrMod) (d a : Reg)
  /-- CINIT (R213). -/
  | cinit (g : Guard) (m : CtrMod) (a b : Reg)
  /-- CLINK (R214). -/
  | clink (g : Guard) (e : BitVec 5) (a b : Reg)
  /-- CLINK_U (R214). -/
  | clinkU (g : Guard) (a : Reg)
  /-- CWATCH (R215). -/
  | cwatch (g : Guard) (m : CtrMod) (a b c d : Reg)
  /-- CPY (R257). -/
  | cpy (g : Guard) (p : Bool) (scope : Scope) (a b : Reg)
  /-- CPYG (R263). -/
  | cpyg (g : Guard) (sc p : Bool) (scope : Scope) (a b c : Reg)
  /-- CPYS (R264). -/
  | cpys (g : Guard) (p : Bool) (scope : Scope) (a b c : Reg)
  /-- RROT (R265). -/
  | rrot (g : Guard) (scope : Scope) (a b c : Reg)
  /-- PUBL (R268). -/
  | publ (g : Guard) (scope : Scope) (a b c : Reg)
  /-- MMA (R229). -/
  | mma (g : Guard) (m : MmaArg)
  /-- MZERO (R239). -/
  | mzero (g : Guard) (f : TileFmt) (d : Reg)
  /-- MLD (R240). -/
  | mld (g : Guard) (f : TileFmt) (m : MemArg) (d : Reg)
  /-- MST (R240). -/
  | mst (g : Guard) (f : TileFmt) (m : MemArg) (d : Reg)
  /-- MRD (R241). -/
  | mrd (g : Guard) (nM1 : BitVec 5) (col : ColSrc) (d a : Reg)
  /-- MWR (R241). -/
  | mwr (g : Guard) (nM1 : BitVec 5) (col : ColSrc) (d a : Reg)
  /-- MCOMMIT (R233). -/
  | mcommit (g : Guard)
  /-- MWAIT (R234). -/
  | mwait (g : Guard) (n : BitVec 3)
  /-- MVB (R246). -/
  | mvb (g : Guard) (fb fa : MatFmt) (n1 : BitVec 5) (sb sa : BitVec 7) (t : Reg)
  /-- BRA (R192). -/
  | bra (g : Guard) (off : Word32)
  /-- BRC (R192). -/
  | brc (g : Guard) (c : BrcCond) (off : Word32)
  /-- BRU (R192). -/
  | bru (g : Guard) (imm : BitVec 14) (c : BruCond) (off : Word32)
  /-- CALL (R192). -/
  | call (g : Guard) (link : BitVec 8) (off : Word32)
  /-- RET (R192). -/
  | ret (g : Guard) (a : Reg)
  /-- JMPI (R192). -/
  | jmpi (g : Guard) (a : Reg)
  /-- EXIT (R192). -/
  | exit (g : Guard)
  /-- NOP (R195). -/
  | nop (g : Guard)
  /-- WAIT (R194). -/
  | wait (g : Guard) (n : WaitSrc)
  /-- YIELD (R195). -/
  | yield (g : Guard)
  /-- RDSR (R197). -/
  | rdsr (g : Guard) (sel : RdsrSel) (d : Reg)
  /-- BKPT (R195). -/
  | bkpt (g : Guard) (code : BitVec 12)
  /-- SETXI (R196). -/
  | setxi (g : Guard) (imm : Word32)
  /-- SETXI_S (R196). -/
  | setxiS (g : Guard) (a : Reg) (imm : Word32)
  /-- SETXI_ADD (R196). -/
  | setxiAdd (g : Guard) (imm : Word32)
  /-- SVC (R393). -/
  | svc (g : Guard) (call : BitVec 12) (d a : Reg)
  /-- TRAP (R397). -/
  | trap (g : Guard) (code : BitVec 12)
  /-- LNCH (R387). -/
  | lnch (g : Guard) (d a b : Reg)
  /-- CHKPT (R404). -/
  | chkpt (g : Guard) (d : Reg)
  /-- SPCMT (R402). -/
  | spcmt (g : Guard) (final : Bool) (a b c : Reg)
  /-- SPDSC (R402). -/
  | spdsc (g : Guard) (final : Bool) (a b c : Reg)
  /-- ISSUE_CYCLE (R156). -/
  | issueCycle (core : Nat)
  /-- CLAUSE_START (R161). -/
  | clauseStart (g : Nat)
  /-- CLAUSE_BOUNDARY (R165). -/
  | clauseBoundary (g : Nat)
  /-- LOAD_LANDS (R140). -/
  | loadLands (g p : Nat)
  /-- STORE_PERFORMED (R140). -/
  | storePerformed (g p : Nat)
  /-- PRESENCE_UNPARK (R132). -/
  | presenceUnpark (g : Nat)
  /-- WAIT_EXPIRE (R194). -/
  | waitExpire (g : Nat)
  /-- FMTEMU_TRAP (R71). -/
  | fmtemuTrap (g : Nat)
  /-- MGMT_TURN (R301). -/
  | mgmtTurn (die : Nat)
  /-- FMTEMU_QUEUE_FREE (R302). -/
  | fmtemuQueueFree (die hedge : Nat)
  /-- HOME_ADD (R209). -/
  | homeAdd (src : AddSrc)
  /-- CROSSING_ADD (R296). -/
  | crossingAdd (i : Nat)
  /-- CWAIT_ANSWER (R211). -/
  | cwaitAnswer (g i : Nat)
  /-- CWAIT_POLL (R218). -/
  | cwaitPoll (g i : Nat)
  /-- DOWN_FLIP (R298). -/
  | downFlip (i : Nat)
  /-- COPY_START (R257). -/
  | copyStart (c : Nat)
  /-- RROT_START (R265). -/
  | rrotStart (c : Nat)
  /-- ENGINE_READ (R262). -/
  | engineRead (c slice : Nat) (sector : Int)
  /-- CHUNK_LAND (R259). -/
  | chunkLand (c slice : Nat) (sector : Int)
  /-- COPY_PUBLISH (R267). -/
  | copyPublish (c : Nat)
  /-- COPY_ABANDON (R269). -/
  | copyAbandon (c : Nat)
  /-- PUBL_PERFORM (R268). -/
  | publPerform (g p : Nat)
  /-- MMA_PERFORM (R229). -/
  | mmaPerform (g : Nat)
  /-- BATCH_RETIRE (R232). -/
  | batchRetire (g : Nat)
  /-- MVB_RESULT_LAND (R246). -/
  | mvbResultLand (g p line : Nat)
  /-- TILE_OP_DONE (R162). -/
  | tileOpDone (g p : Nat)
  /-- GROUP_RETIRE (R168). -/
  | groupRetire (g : Nat)
  /-- GROUP_RESTORE (R350). -/
  | groupRestore (w : Nat)
  /-- GROUP_RESUME (R343). -/
  | groupResume (g : Nat) (token : Word32)
  /-- MIGR_RESUME (R372). -/
  | migrResume (frame : Nat)
  /-- GROUP_END (R341). -/
  | groupEnd (g : Nat)
  /-- BREAKPOINT_RELEASE (R195). -/
  | breakpointRelease (g : Nat)
  /-- WALK_COMPLETE (R337). -/
  | walkComplete (i : Nat)
  /-- DISPATCH (R389). -/
  | dispatch (hedge : Nat)
  /-- LAUNCH_ADMIT (R388). -/
  | launchAdmit (hedge seq : Nat)
  /-- LAUNCH_COMPLETE (R391). -/
  | launchComplete (hedge seq : Nat)
  /-- BUFALLOC (R394). -/
  | bufalloc (src : CallSrc)
  /-- BUFFREE (R448). -/
  | buffree (src : CallSrc)
  /-- BUFMAP (R394). -/
  | bufmap (src : CallSrc)
  /-- RESUME (R343). -/
  | resume (src : CallSrc)
  /-- SETVSATP (R394). -/
  | setvsatp (src : CallSrc)
  /-- INVAL (R394). -/
  | inval (src : CallSrc)
  /-- EQCONFIG (R411). -/
  | eqconfig (src : CallSrc)
  /-- SVC_REPLY_TAKE (R418). -/
  | svcReplyTake (g slot : Nat)
  /-- SVC_FREE_UNPARK (R393). -/
  | svcFreeUnpark (g : Nat)
  /-- STALLED_WRITE_ACCEPT (R368). -/
  | stalledWriteAccept (g p : Nat)
  /-- MIGRATION_SWITCH (R369). -/
  | migrationSwitch (frame : Nat)
  /-- FORWARD_END (R369). -/
  | forwardEnd (frame : Nat)
  /-- PLACE_REQUEST (R377). -/
  | placeRequest (i : Nat)
  /-- OWNERSHIP_GRANT (R373). -/
  | ownershipGrant (frame : Nat)
  /-- EPOCH_BOUNDARY (R365). -/
  | epochBoundary
  /-- SCRUB_COMPLETE (R363). -/
  | scrubComplete (frame : Nat)
  /-- SNAPSHOT (R403). -/
  | snapshot (hedge : Nat)
  /-- ROLLBACK (R406). -/
  | rollback (hedge : Nat) (cause : RollCause) (at_ : RollAt)
  /-- REMOTE_COUNTER_OP (R436). -/
  | remoteCounterOp (i : Nat)
  /-- RMA_WRITE (R438). -/
  | rmaWrite (i sector : Nat)
  /-- RMA_READ (R438). -/
  | rmaRead (i : Nat)
  /-- REDUCTION_MERGE (R440). -/
  | reductionMerge (i : Nat)
  /-- WRITE_BACK (R313). -/
  | writeBack (level : CacheLevel) (line : Nat)
  /-- GROUP_SAVE (R303). -/
  | groupSave (g : Nat)
  /-- FAULT (R173, R305, R339, R344): a fault that no instruction of the table raises by itself. -/
  | fault (n : Nat) (e : ErrEvent) (i : Nat)
  /-- TRANSLATION_INVALIDATE (R338). -/
  | translationInvalidate (hedge va len : Nat)
  /-- SBI_LAUNCH (R387). -/
  | sbiLaunch (hedge : Nat) (buf off : Word64)
  /-- GUEST_CALL (R394). -/
  | guestCall (hedge slot : Nat) (code rval : Word64)
  /-- MIGRATION_START (R367). -/
  | migrationStart (frame newFrame : Nat) (tier : Tier)
  /-- MIGRATION_ABANDON (R371). -/
  | migrationAbandon (frame : Nat)
  /-- OWNERSHIP_REQUEST (R373). -/
  | ownershipRequest (frame : Nat) (faddr : BitVec 48)
  /-- HEDGE_CREATE (R380). -/
  | hedgeCreate (p : HedgeParams)
  /-- HEDGE_RESIZE (R382). -/
  | hedgeResize (hedge : Nat) (rect : Rect) (slots : List Nat)
  /-- CORE_FENCE (R173). -/
  | coreFence (core : Nat)
  /-- HEDGE_RESET (R383). -/
  | hedgeReset (hedge : Nat)
  /-- HEDGE_DESTROY (R383). -/
  | hedgeDestroy (hedge : Nat)
  /-- LIVE_MIGRATION (R414). -/
  | liveMigration (hedge : Nat) (faddr : BitVec 48) (target : BitVec 256)
  /-- PEER_REQUEST (R435). -/
  | peerRequest (r : PeerReq)
  /-- ROUTE_TIMEOUT (R437). -/
  | routeTimeout (hedge route : Nat)
  /-- BOOT (R443). -/
  | boot (image : List Byte)
  /-- ATTESTATION_REPORT (R445). -/
  | attestationReport (hedge : Nat) (nonce : BitVec 256)
  /-- CLOCK_CHANGE (R352). -/
  | clockChange (core mhz : Nat) (forced : Bool)
  /-- MGMT_CORE_RESET (R305). -/
  | mgmtCoreReset (die : Nat)
  /-- G_DIE_ACCESS (R328). -/
  | gDieAccess (hart hedge : Nat) (va : Word64) (op : GOp)
  /-- QUARTER_BUFFER_EXPIRY (R307). -/
  | quarterBufferExpiry (core quarter line : Nat)
  /-- CXL_LINK_LOSS (R362). -/
  | cxlLinkLoss (port : Nat)
  /-- PEER_REFUSAL (R435). -/
  | peerRefusal (g : Option Nat) (p code : Nat)
  /-- FENCED_CORE_CLEAR (R173). -/
  | fencedCoreClear (core : Nat)
  /-- SERVICE_TABLE_WRITE (R359). -/
  | serviceTableWrite (w : TableWrite)
  deriving DecidableEq, Repr

end Sys2Proof
end

