-- ==== Sys2Proof/Config.lean ====
section
/-! DEFINITION. What an implementation fixes and the spec leaves open: opaque constants with no body, so that no proof
can lean on a value. -/

namespace Sys2Proof.Config

/-- A fresh free value of w bits for each n: what the spec leaves open and the machine goes on with (log 6, DESIGN CHOICE). -/
opaque freeValue : (w n : Nat) → BitVec w

/-- An agent outside a group's die will access, at some later time, a byte that an operation of the group accesses, by
group and operation (R318; log 67, DEDUCED). -/
opaque touchedLater : (group op : Nat) → Bool

/-- The core-local cycle count at reset, which R5 does not specify, by physical core (log 6, DESIGN CHOICE). -/
opaque cycleAtReset : Nat → Word64

/-- The signature of bytes under a named key (R443, R445): the scheme's key is not in the spec (log 13, PRESUMED). -/
opaque signature : (key : Nat) → List Byte → List Byte

/-- An image's signature holds under the root key (R443; log 13, PRESUMED). -/
opaque imageSigned : List Byte → Bool

/-- The security version that an image carries, and the fused minimum of a stage from 0 to 3 (R443; log 13, PRESUMED). -/
opaque imageVersion : List Byte → Word64
opaque minVersion : (stage : Nat) → Word64

/-- Device identifier and root key identifier, held in fuses (R443, R445; log 13, PRESUMED). -/
opaque deviceId : BitVec 256
opaque rootKeyId : BitVec 256

/-- The bytes of a hedge's parameters that the report's digest covers, whose form the spec does not give (R445; log 13, PRESUMED). -/
opaque paramBytes : HedgeParams → List Byte

/-- What a key slot holds, which no agent can read: the key of a hedge by its generation, or its pool key (R364; log 84,
DESIGN CHOICE). -/
opaque frameKey : (hedge generation : Nat) → (pool : Bool) → BitVec 512

/-- The fabric address of this package, which a migrated record shows (R412, R433; log 57, DESIGN CHOICE). -/
opaque package : BitVec 48

end Sys2Proof.Config
end

