-- ==== Sys2Proof/WellFormed.lean ====
section
/-! DEFINITION. Well-formed instructions: the fields and modifier patterns that the encoding tables admit (spec 01
R31 to R35 and the modifier tables of chapters 03 to 09, 18 and 19). What a well-formed instruction can still fault on
(REGBOUND, TAGMIS and the faults of its own description) is checked when it executes, not here. -/

namespace Sys2Proof

/-! ## Register classes (R31) -/

/-- A register field of 8 bits that names an S register: bit 7 is zero. -/
def Reg.isS (r : Reg) : Bool := decide (r.n.toNat < 128)

/-- A register field of 8 bits that names a tile: bits 7 and 6 are zero. -/
def Reg.isA (r : Reg) : Bool := decide (r.n.toNat < 64)

/-- The register field of an unused field (R31). -/
def Reg.zero : Reg := ⟨0, false⟩

/-- A B operand under .S names an S register; RU stands only with a V register (R34). -/
def BSrc.wf : BSrc → Bool
  | .v _ _ => true
  | .s r => r.isS

/-- The shift count of a limb shift. -/
def CountSrc.wf : CountSrc → Bool
  | .v _ => true
  | .s r => r.isS

/-- The member mask under .MM is an S register (R177). -/
def mmWf : Option Reg → Bool
  | none => true
  | some r => r.isS

/-! ## Modifier patterns -/

/-- CPE names P0 to P6 (R189). -/
def cpeWf : Option (BitVec 3) → Bool
  | none => true
  | some k => decide (k.toNat < 7)

/-- CPE with CI (R189). -/
def Carry.wf : Carry → Bool
  | .none => true
  | .out k _ => decide (k.toNat < 7)

/-- The pairs of types that CVT defines (R114). -/
def cvtWf (dst src : CvtTy) : Bool :=
  dst != src && (dst != .e8m0 || src == .f32 || src == .f64) && (src != .e8m0 || dst == .f32 || dst == .f64)

/-- BCAST's source lane (R178). -/
def BcastSrc.wf : BcastSrc → Bool
  | .lane _ => true
  | .s r => r.isS

/-- COL + NM1 of MRD and MWR is at most 31, and under .S the column comes from an S register (R238). -/
def colWf (nM1 : BitVec 5) : ColSrc → Bool
  | .imm c => decide (c.toNat + nM1.toNat ≤ 31)
  | .s r => r.isS

/-- WAIT's count (R194). -/
def WaitSrc.wf : WaitSrc → Bool
  | .imm _ => true
  | .s r => r.isS

/-- A weak access takes scope GRP or a window (R134). -/
def weakScopeOk (ord : MemOrd) : BufSel → Bool
  | .window _ => true
  | .reg _ scope => ord != .weak || scope == .grp

/-- The order and scope of a load or store (R134). -/
def MemArg.wf (m : MemArg) : Bool := weakScopeOk m.ord m.buf

/-- The order and scope of LDSP and STSP; A names an S register (R134, R135). -/
def SpArg.wf (m : SpArg) : Bool := weakScopeOk m.ord m.buf

/-- Every order and scope may stand in an atomic (R134). -/
def AtomArg.wf (_ : AtomArg) : Bool := true

/-- The orders of a load (R134). -/
def loadOrd : MemOrd → Bool
  | .weak | .rlx | .acq => true
  | .rel | .ar => false

/-- The orders of a store (R134). -/
def storeOrd : MemOrd → Bool
  | .weak | .rlx | .rel => true
  | .acq | .ar => false

/-- The widths that SST stores (R86). -/
def ScalarFmt.stores : ScalarFmt → Bool
  | .n8 | .n16 | .n32 | .n64 => true
  | .i8 | .i16 | .i32 => false

/-- The formats that a store takes (R136). -/
def MemFmt.stores : MemFmt → Bool
  | .i8 | .i16 => false
  | .raw | .i32 | .n32 | .f32 | .f64 | .h2 | .b2 | .e4x4 | .e5x4 | .e2x8 | .i8x4 | .i4x8 | .n8 | .n16 => true

/-- The operations that an atomic type takes (R143). -/
def atomWf : AtomOp → AtomTy → Bool
  | .swap, _ => true
  | .add, .raw | .add, .b64 => false
  | .add, .i32 | .add, .i64 | .add, .n32 | .add, .n64 | .add, .f32 | .add, .f64 => true
  | .and, .raw | .and, .b64 | .or, .raw | .or, .b64 | .xor, .raw | .xor, .b64 => true
  | .and, .i32 | .and, .i64 | .and, .n32 | .and, .n64 | .and, .f32 | .and, .f64 => false
  | .or, .i32 | .or, .i64 | .or, .n32 | .or, .n64 | .or, .f32 | .or, .f64 => false
  | .xor, .i32 | .xor, .i64 | .xor, .n32 | .xor, .n64 | .xor, .f32 | .xor, .f64 => false
  | .min, .raw | .min, .b64 | .max, .raw | .max, .b64 => false
  | .min, .i32 | .min, .i64 | .min, .n32 | .min, .n64 | .min, .f32 | .min, .f64 => true
  | .max, .i32 | .max, .i64 | .max, .n32 | .max, .n64 | .max, .f32 | .max, .f64 => true

/-- RED takes a relaxed or a release order (R134). -/
def redOrd : MemOrd → Bool
  | .weak | .rlx | .rel => true
  | .acq | .ar => false

/-- PLACE, PIN and UNPIN take scope GRP or a window (R375). -/
def placeWf : BufSel → Bool
  | .window _ => true
  | .reg _ scope => scope == .grp

/-- The class of a matrix format: FP64, FP16, BF16, FP8, FP4, INT8, INT4 (R228). -/
def MatFmt.cls : MatFmt → Nat
  | .f64 => 0
  | .f16 => 1
  | .bf16 => 2
  | .e4m3 | .e5m2 => 3
  | .e2m1 => 4
  | .i8 | .n8 => 5
  | .i4 | .n4 => 6

/-- FA and FB are of one class; FP64 has at most 16 columns; T names a tile (R227, R228). -/
def MmaArg.wf (m : MmaArg) : Bool :=
  m.fa.cls == m.fb.cls && (m.fa != .f64 || decide (m.n1.toNat ≤ 15)) && m.t.isA

/-- FA and FB of MVB are codes 1 to 5 of one class (R245). -/
def mvbWf (fb fa : MatFmt) : Bool :=
  fa.cls == fb.cls && decide (1 ≤ fa.cls) && decide (fa.cls ≤ 4)

/-- Whether the fields and modifiers of an instruction are values that its encoding admits; a step of the device has
no encoding and no field that could be ill-formed. -/
def Instr.wellFormed (i : Instr) : Bool :=
  match i with
  | .smov _ d a => d.isS && a.isS
  | .sli _ d _ => d.isS
  | .slih _ d _ => d.isS
  | .sadd _ _ d a b => d.isS && a.isS && b.isS
  | .saddImm _ d a _ => d.isS && a.isS
  | .ssub _ _ d a b => d.isS && a.isS && b.isS
  | .ssubImm _ d a _ => d.isS && a.isS
  | .smul _ _ d a b => d.isS && a.isS && b.isS
  | .smulImm _ d a _ => d.isS && a.isS
  | .smulh _ _ d a b => d.isS && a.isS && b.isS
  | .smulhImm _ d a _ => d.isS && a.isS
  | .sand _ d a b => d.isS && a.isS && b.isS
  | .sandImm _ d a _ => d.isS && a.isS
  | .sor _ d a b => d.isS && a.isS && b.isS
  | .sorImm _ d a _ => d.isS && a.isS
  | .sxor _ d a b => d.isS && a.isS && b.isS
  | .sxorImm _ d a _ => d.isS && a.isS
  | .sshl _ d a b => d.isS && a.isS && b.isS
  | .sshlImm _ d a _ => d.isS && a.isS
  | .sshr _ d a b => d.isS && a.isS && b.isS
  | .sshrImm _ d a _ => d.isS && a.isS
  | .ssra _ d a b => d.isS && a.isS && b.isS
  | .ssraImm _ d a _ => d.isS && a.isS
  | .smin _ _ d a b => d.isS && a.isS && b.isS
  | .sminImm _ d a _ => d.isS && a.isS
  | .smax _ _ d a b => d.isS && a.isS && b.isS
  | .smaxImm _ d a _ => d.isS && a.isS
  | .sclz _ d a => d.isS && a.isS
  | .spop _ d a => d.isS && a.isS
  | .sbfe _ _ d a b => d.isS && a.isS && b.isS
  | .sbfi _ d a b c => d.isS && a.isS && b.isS && c.isS
  | .scmp _ d a b => d.isS && a.isS && b.isS
  | .scmpImm _ d a _ => d.isS && a.isS
  | .ssel _ _ d a b c => d.isS && a.isS && b.isS && c.isS
  | .sld _ _ m d => d.isS && m.a.isS && m.wf && loadOrd m.ord
  | .sst _ f m d => d.isS && m.a.isS && m.wf && storeOrd m.ord && f.stores
  | .sldk _ d a _ => d.isS && a.isS
  | .vmovsVs _ _ _ _ a => a.isS
  | .vmovsSv _ d _ b => d.isS && b.isS
  | .vmovsPs _ _ a => a.isS
  | .vmovsSp _ d _ => d.isS
  | .vmovsDs _ _ a => a.isS
  | .vadd _ _ _ _ b => b.wf
  | .vsub _ _ _ _ b => b.wf
  | .vmul _ _ _ _ b => b.wf
  | .vmulh _ _ _ _ b => b.wf
  | .vmad _ _ _ _ b _ => b.wf
  | .vmadw _ _ _ _ b _ => b.wf
  | .vabs _ _ _ _ => true
  | .vmin _ _ _ _ b => b.wf
  | .vmax _ _ _ _ b => b.wf
  | .vcmp _ _ _ _ _ b => b.wf
  | .vsel _ _ _ b _ => b.wf
  | .vmov _ _ _ => true
  | .vli _ _ _ _ => true
  | .vand _ _ _ b => b.wf
  | .vor _ _ _ b => b.wf
  | .vxor _ _ _ b => b.wf
  | .vnot _ _ _ => true
  | .vshl _ _ _ b => b.wf
  | .vshr _ _ _ b => b.wf
  | .vsra _ _ _ b => b.wf
  | .vrot _ _ _ b => b.wf
  | .vclz _ _ _ => true
  | .vpop _ _ _ => true
  | .vbfe _ _ _ _ _ _ => true
  | .vbfi _ _ _ _ _ _ => true
  | .vbrev _ _ _ => true
  | .vpermb _ _ _ _ _ => true
  | .fadd _ _ _ _ _ b => b.wf
  | .fsub _ _ _ _ _ b => b.wf
  | .fmul _ _ _ _ _ b => b.wf
  | .ffma _ _ _ _ _ _ b _ => b.wf
  | .fmin _ _ _ b => b.wf
  | .fmax _ _ _ b => b.wf
  | .fcmp _ _ _ _ b => b.wf
  | .fclass _ _ _ _ => true
  | .frnd _ _ _ _ _ => true
  | .hadd2 _ _ _ _ _ _ b => b.wf
  | .hmul2 _ _ _ _ _ _ b => b.wf
  | .hfma2 _ _ _ _ _ _ _ b _ => b.wf
  | .hmin2 _ _ _ _ b => b.wf
  | .hmax2 _ _ _ _ b => b.wf
  | .dadd _ _ _ _ _ b => b.wf
  | .dmul _ _ _ _ _ b => b.wf
  | .dfma _ _ _ _ _ _ b _ => b.wf
  | .dcmp _ _ _ _ b => b.wf
  | .dmin _ _ _ b => b.wf
  | .dmax _ _ _ b => b.wf
  | .fdiv _ _ _ _ b => b.wf
  | .fsqrt _ _ _ _ => true
  | .frcp _ _ _ _ => true
  | .frsq _ _ _ _ => true
  | .fexp2 _ _ _ _ => true
  | .flog2 _ _ _ _ => true
  | .fsin _ _ _ _ => true
  | .fcos _ _ _ _ => true
  | .cvt _ dst src _ _ _ _ => cvtWf dst src
  | .tags _ _ _ _ => true
  | .tagrd _ tile _ a => !tile || a.isA
  | .dot4 _ _ _ _ _ _ => true
  | .dot8 _ _ _ _ _ _ => true
  | .pack _ _ _ _ _ _ => true
  | .unpk _ _ _ _ => true
  | .shfl _ _ _ _ _ b => b.wf
  | .vote _ _ _ mm => mmWf mm
  | .redx _ _ _ _ mm => mmWf mm
  | .scanx _ _ _ _ _ mm => mmWf mm
  | .bcast _ src _ _ => src.wf
  | .matchx _ _ _ mm => mmWf mm
  | .lbind _ _ => true
  | .lfree _ => true
  | .ladd _ _ k _ _ _ => k.wf
  | .lsub _ _ k _ _ _ => k.wf
  | .lshl _ _ k _ _ b => b.wf && cpeWf k
  | .lshr _ _ _ k _ _ b => b.wf && cpeWf k
  | .lmuls _ _ k _ _ b _ => b.isS && cpeWf k
  | .lcmp _ _ _ _ _ _ => true
  | .lneg _ k _ _ => cpeWf k
  | .lclz _ _ _ => true
  | .ld _ _ m _ => m.wf && loadOrd m.ord
  | .st _ f m _ => m.wf && storeOrd m.ord && f.stores
  | .ldx _ _ m _ => m.wf && loadOrd m.ord
  | .stx _ f m _ => m.wf && storeOrd m.ord && f.stores
  | .ldsp _ _ m _ => m.wf && loadOrd m.ord
  | .stsp _ f m _ => m.wf && storeOrd m.ord && f.stores
  | .pfx _ _ _ _ _ => true
  | .cfl _ _ _ _ _ _ => true
  | .cinv _ _ _ _ _ _ => true
  | .atom _ op ty m _ => atomWf op ty && m.wf
  | .atomc _ _ m _ => m.wf
  | .red _ op ty m _ => atomWf op ty && m.wf && redOrd m.ord
  | .fence _ _ _ => true
  | .fencee _ => true
  | .place _ _ buf _ _ => placeWf buf
  | .pin _ buf _ _ => placeWf buf
  | .unpin _ buf _ _ => placeWf buf
  | .mcrdPage _ d a b => d.isS && a.isS && b.isS
  | .mcrdQuota _ d => d.isS
  | .cadd _ m a b => a.isS && b.isS && (m.ord == .rlx || m.ord == .rel)
  | .caddImm _ ord _ a _ => a.isS && (ord == .rlx || ord == .rel)
  | .cnext _ _ d a b => d.isS && a.isS && b.isS
  | .cwait _ m a b => a.isS && b.isS && (m.ord == .rlx || m.ord == .acq)
  | .ctest _ m _ a b => a.isS && b.isS && (m.ord == .rlx || m.ord == .acq)
  | .crd _ m d a => d.isS && a.isS && (m.ord == .rlx || m.ord == .acq)
  | .cinit _ m a b => a.isS && b.isS && (m.ord == .rlx || m.ord == .rel)
  | .clink _ _ a b => a.isS && b.isS
  | .clinkU _ a => a.isS
  | .cwatch _ m a b c d => d.isS && a.isS && b.isS && c.isS && (m.ord == .rlx || m.ord == .ar)
  | .cpy _ _ _ a b => a.isS && b.isS
  | .cpyg _ _ _ _ a b _ => a.isS && b.isS
  | .cpys _ _ _ a b c => a.isS && b.isS && c.isS
  | .rrot _ _ a b c => a.isS && b.isS && c.isS
  | .publ _ _ a b c => a.isS && b.isS && c.isS
  | .mma _ m => m.wf
  | .mzero _ _ d => d.isA
  | .mld _ _ m d => d.isA && m.wf && loadOrd m.ord
  | .mst _ _ m d => d.isA && m.wf && storeOrd m.ord
  | .mrd _ nM1 col _ a => a.isA && colWf nM1 col
  | .mwr _ nM1 col d _ => d.isA && colWf nM1 col
  | .mcommit _ => true
  | .mwait _ _ => true
  | .mvb _ fb fa _ _ _ t => t.isS && mvbWf fb fa
  | .bra _ _ => true
  | .brc _ _ _ => true
  | .bru _ _ _ _ => true
  | .call _ _ _ => true
  | .ret _ _ => true
  | .jmpi _ _ => true
  | .exit _ => true
  | .nop _ => true
  | .wait _ n => n.wf
  | .yield _ => true
  | .rdsr _ sel d => sel == .lane || d.isS
  | .bkpt _ _ => true
  | .setxi _ _ => true
  | .setxiS _ a _ => a.isS
  | .setxiAdd _ _ => true
  | .svc _ _ _ _ => true
  | .trap _ _ => true
  | .lnch _ d a b => d.isS && a.isS && b.isS && !b.x
  | .chkpt _ d => d.isS
  | .spcmt _ _ a b c => a.isS && b.isS && c.isS
  | .spdsc _ _ a b c => a.isS && b.isS && c.isS
  | .issueCycle _ => true
  | .clauseStart _ => true
  | .clauseBoundary _ => true
  | .loadLands _ _ => true
  | .storePerformed _ _ => true
  | .presenceUnpark _ => true
  | .waitExpire _ => true
  | .fmtemuTrap _ => true
  | .mgmtTurn _ => true
  | .fmtemuQueueFree _ _ => true
  | .homeAdd _ => true
  | .crossingAdd _ => true
  | .cwaitAnswer _ _ => true
  | .cwaitPoll _ _ => true
  | .downFlip _ => true
  | .copyStart _ => true
  | .rrotStart _ => true
  | .engineRead _ _ _ => true
  | .chunkLand _ _ _ => true
  | .copyPublish _ => true
  | .copyAbandon _ => true
  | .publPerform _ _ => true
  | .mmaPerform _ => true
  | .batchRetire _ => true
  | .mvbResultLand _ _ _ => true
  | .tileOpDone _ _ => true
  | .groupRetire _ => true
  | .groupSave _ => true
  | .groupRestore _ => true
  | .fault _ _ _ => true
  | .groupResume _ _ => true
  | .migrResume _ => true
  | .groupEnd _ => true
  | .breakpointRelease _ => true
  | .walkComplete _ => true
  | .translationInvalidate _ _ _ => true
  | .dispatch _ => true
  | .launchAdmit _ _ => true
  | .launchComplete _ _ => true
  | .sbiLaunch _ _ _ => true
  | .bufalloc _ => true
  | .buffree _ => true
  | .bufmap _ => true
  | .resume _ => true
  | .setvsatp _ => true
  | .inval _ => true
  | .eqconfig _ => true
  | .guestCall _ _ _ _ => true
  | .svcReplyTake _ _ => true
  | .svcFreeUnpark _ => true
  | .migrationStart _ _ _ => true
  | .stalledWriteAccept _ _ => true
  | .migrationSwitch _ => true
  | .forwardEnd _ => true
  | .migrationAbandon _ => true
  | .placeRequest _ => true
  | .ownershipRequest _ _ => true
  | .ownershipGrant _ => true
  | .epochBoundary => true
  | .scrubComplete _ => true
  | .hedgeCreate _ => true
  | .hedgeResize _ _ _ => true
  | .coreFence _ => true
  | .hedgeReset _ => true
  | .hedgeDestroy _ => true
  | .snapshot _ => true
  | .rollback _ _ _ => true
  | .liveMigration _ _ _ => true
  | .peerRequest _ => true
  | .remoteCounterOp _ => true
  | .rmaWrite _ _ => true
  | .rmaRead _ => true
  | .reductionMerge _ => true
  | .routeTimeout _ _ => true
  | .boot _ => true
  | .attestationReport _ _ => true
  | .clockChange _ _ _ => true
  | .mgmtCoreReset _ => true
  | .gDieAccess _ _ _ _ => true
  | .writeBack _ _ => true
  | .quarterBufferExpiry _ _ _ => true
  | .cxlLinkLoss _ => true
  | .peerRefusal _ _ _ => true
  | .fencedCoreClear _ => true
  | .serviceTableWrite _ => true

end Sys2Proof
end

