-- ==== Sys2Proof/Decode.lean ====
section
/-! DEFINITION. Decoding of instruction words, rejecting by name what R31 to R37 call ill-formed, and the encoder
written from the same encoding tables (spec 01 R28 to R37 and the modifier tables of each chapter). -/

namespace Sys2Proof

/-- Why a word is no instruction: its opcode is not assigned (R37); a register field has a bad class bit, an unused
field or its X bit is not zero, or a must-be-zero bit is set (R31, R33); RU where nothing is latched (R34); a modifier
pattern that the instruction does not define (R33). All of them are ILLOP at clause start (R38). -/
inductive DecodeError where
  | unassigned | field | latch | modifier
  deriving DecidableEq, Repr

/-! ## Codes of the modifiers -/

/-- The code of a `Tier` (R375). -/
def Tier.code : Tier → BitVec 4
  | .hbm => 1
  | .lpddr => 2
  | .pool => 3

/-- The `Tier` of a code; the codes that the table leaves out are refused. -/
def Tier.ofCode (c : BitVec 4) : Except DecodeError Tier :=
  match c.toNat with
  | 1 => .ok .hbm
  | 2 => .ok .lpddr
  | 3 => .ok .pool
  | _ => .error .modifier

/-- The code of a `TileFmt` (R238). -/
def TileFmt.code : TileFmt → BitVec 4
  | .raw => 0
  | .i32 => 1
  | .f32 => 3
  | .f64 => 4

/-- The `TileFmt` of a code; the codes that the table leaves out are refused. -/
def TileFmt.ofCode (c : BitVec 4) : Except DecodeError TileFmt :=
  match c.toNat with
  | 0 => .ok .raw
  | 1 => .ok .i32
  | 3 => .ok .f32
  | 4 => .ok .f64
  | _ => .error .modifier

/-- The code of a `LimbW` (R184). -/
def LimbW.code : LimbW → BitVec 3
  | .w2 => 1
  | .w4 => 2
  | .w8 => 3
  | .w16 => 4
  | .w32 => 5

/-- The `LimbW` of a code; the codes that the table leaves out are refused. -/
def LimbW.ofCode (c : BitVec 3) : Except DecodeError LimbW :=
  match c.toNat with
  | 1 => .ok .w2
  | 2 => .ok .w4
  | 3 => .ok .w8
  | 4 => .ok .w16
  | 5 => .ok .w32
  | _ => .error .modifier

/-- The code of a `Side` (R206). -/
def Side.code : Side → BitVec 3
  | .s1 => 0
  | .s2 => 1
  | .s4 => 2
  | .s8 => 3
  | .s16 => 4
  | .full => 7

/-- The `Side` of a code; the codes that the table leaves out are refused. -/
def Side.ofCode (c : BitVec 3) : Except DecodeError Side :=
  match c.toNat with
  | 0 => .ok .s1
  | 1 => .ok .s2
  | 2 => .ok .s4
  | 3 => .ok .s8
  | 4 => .ok .s16
  | 7 => .ok .full
  | _ => .error .modifier

/-- The code of a `RedIntOp` (R178). -/
def RedIntOp.code : RedIntOp → BitVec 3
  | .min => 1
  | .max => 2
  | .and => 3
  | .or => 4
  | .xor => 5

/-- The `RedIntOp` of a code; the codes that the table leaves out are refused. -/
def RedIntOp.ofCode (c : BitVec 3) : Except DecodeError RedIntOp :=
  match c.toNat with
  | 1 => .ok .min
  | 2 => .ok .max
  | 3 => .ok .and
  | 4 => .ok .or
  | 5 => .ok .xor
  | _ => .error .modifier

/-- The code of a `Cond` (R80, R188). -/
def Cond.code : Cond → BitVec 3
  | .eq => 0
  | .ne => 1
  | .lt => 2
  | .le => 3
  | .gt => 4
  | .ge => 5

/-- The `Cond` of a code; the codes that the table leaves out are refused. -/
def Cond.ofCode (c : BitVec 3) : Except DecodeError Cond :=
  match c.toNat with
  | 0 => .ok .eq
  | 1 => .ok .ne
  | 2 => .ok .lt
  | 3 => .ok .le
  | 4 => .ok .gt
  | 5 => .ok .ge
  | _ => .error .modifier

/-- The code of a `FCond` (R107). -/
def FCond.code : FCond → BitVec 3
  | .eq => 0
  | .ne => 1
  | .lt => 2
  | .le => 3
  | .gt => 4
  | .ge => 5
  | .un => 6
  | .or => 7

/-- The `FCond` of a code; the codes that the table leaves out are refused. -/
def FCond.ofCode (c : BitVec 3) : Except DecodeError FCond :=
  match c.toNat with
  | 0 => .ok .eq
  | 1 => .ok .ne
  | 2 => .ok .lt
  | 3 => .ok .le
  | 4 => .ok .gt
  | 5 => .ok .ge
  | 6 => .ok .un
  | _ => .ok .or

/-- The code of a `Tag` (R52). -/
def Tag.code : Tag → BitVec 4
  | .raw => 0
  | .i32 => 1
  | .n32 => 2
  | .f32 => 3
  | .dLo => 4
  | .dHi => 5
  | .h2 => 6
  | .b2 => 7
  | .e4x4 => 8
  | .e5x4 => 9
  | .e2x8 => 10
  | .i8x4 => 11
  | .i4x8 => 12
  | .f6ax5 => 13
  | .f6bx5 => 14
  | .limb => 15

/-- The `Tag` of a code; the codes that the table leaves out are refused. -/
def Tag.ofCode (c : BitVec 4) : Except DecodeError Tag :=
  match c.toNat with
  | 0 => .ok .raw
  | 1 => .ok .i32
  | 2 => .ok .n32
  | 3 => .ok .f32
  | 4 => .ok .dLo
  | 5 => .ok .dHi
  | 6 => .ok .h2
  | 7 => .ok .b2
  | 8 => .ok .e4x4
  | 9 => .ok .e5x4
  | 10 => .ok .e2x8
  | 11 => .ok .i8x4
  | 12 => .ok .i4x8
  | 13 => .ok .f6ax5
  | 14 => .ok .f6bx5
  | _ => .ok .limb

/-- The code of a `Round` (R57). -/
def Round.code : Round → BitVec 2
  | .rn => 0
  | .rz => 1
  | .rp => 2
  | .rm => 3

/-- The `Round` of a code; the codes that the table leaves out are refused. -/
def Round.ofCode (c : BitVec 2) : Except DecodeError Round :=
  match c.toNat with
  | 0 => .ok .rn
  | 1 => .ok .rz
  | 2 => .ok .rp
  | _ => .ok .rm

/-- The code of a `ScalarFmt` (R86). -/
def ScalarFmt.code : ScalarFmt → BitVec 4
  | .n8 => 0
  | .n16 => 1
  | .n32 => 2
  | .n64 => 3
  | .i8 => 4
  | .i16 => 5
  | .i32 => 6

/-- The `ScalarFmt` of a code; the codes that the table leaves out are refused. -/
def ScalarFmt.ofCode (c : BitVec 4) : Except DecodeError ScalarFmt :=
  match c.toNat with
  | 0 => .ok .n8
  | 1 => .ok .n16
  | 2 => .ok .n32
  | 3 => .ok .n64
  | 4 => .ok .i8
  | 5 => .ok .i16
  | 6 => .ok .i32
  | _ => .error .modifier

/-- The code of a `MemOrd` (R133). -/
def MemOrd.code : MemOrd → BitVec 3
  | .weak => 0
  | .rlx => 1
  | .acq => 2
  | .rel => 3
  | .ar => 4

/-- The `MemOrd` of a code; the codes that the table leaves out are refused. -/
def MemOrd.ofCode (c : BitVec 3) : Except DecodeError MemOrd :=
  match c.toNat with
  | 0 => .ok .weak
  | 1 => .ok .rlx
  | 2 => .ok .acq
  | 3 => .ok .rel
  | 4 => .ok .ar
  | _ => .error .modifier

/-- The code of a `Scope` (R133, R206). -/
def Scope.code : Scope → BitVec 3
  | .grp => 0
  | .core => 1
  | .rect => 2
  | .die => 3
  | .pkg => 4
  | .sys => 5

/-- The `Scope` of a code; the codes that the table leaves out are refused. -/
def Scope.ofCode (c : BitVec 3) : Except DecodeError Scope :=
  match c.toNat with
  | 0 => .ok .grp
  | 1 => .ok .core
  | 2 => .ok .rect
  | 3 => .ok .die
  | 4 => .ok .pkg
  | 5 => .ok .sys
  | _ => .error .modifier

/-- The code of a `MemFmt` (R136). -/
def MemFmt.code : MemFmt → BitVec 4
  | .raw => 0
  | .i32 => 1
  | .n32 => 2
  | .f32 => 3
  | .f64 => 4
  | .h2 => 5
  | .b2 => 6
  | .e4x4 => 7
  | .e5x4 => 8
  | .e2x8 => 9
  | .i8x4 => 10
  | .i4x8 => 11
  | .n8 => 12
  | .i8 => 13
  | .n16 => 14
  | .i16 => 15

/-- The `MemFmt` of a code; the codes that the table leaves out are refused. -/
def MemFmt.ofCode (c : BitVec 4) : Except DecodeError MemFmt :=
  match c.toNat with
  | 0 => .ok .raw
  | 1 => .ok .i32
  | 2 => .ok .n32
  | 3 => .ok .f32
  | 4 => .ok .f64
  | 5 => .ok .h2
  | 6 => .ok .b2
  | 7 => .ok .e4x4
  | 8 => .ok .e5x4
  | 9 => .ok .e2x8
  | 10 => .ok .i8x4
  | 11 => .ok .i4x8
  | 12 => .ok .n8
  | 13 => .ok .i8
  | 14 => .ok .n16
  | _ => .ok .i16

/-- The code of a `AtomOp` (R143). -/
def AtomOp.code : AtomOp → BitVec 3
  | .swap => 0
  | .add => 1
  | .and => 2
  | .or => 3
  | .xor => 4
  | .min => 5
  | .max => 6

/-- The `AtomOp` of a code; the codes that the table leaves out are refused. -/
def AtomOp.ofCode (c : BitVec 3) : Except DecodeError AtomOp :=
  match c.toNat with
  | 0 => .ok .swap
  | 1 => .ok .add
  | 2 => .ok .and
  | 3 => .ok .or
  | 4 => .ok .xor
  | 5 => .ok .min
  | 6 => .ok .max
  | _ => .error .modifier

/-- The code of a `FenceKind` (R149). -/
def FenceKind.code : FenceKind → BitVec 2
  | .ar => 0
  | .acq => 1
  | .rel => 2

/-- The `FenceKind` of a code; the codes that the table leaves out are refused. -/
def FenceKind.ofCode (c : BitVec 2) : Except DecodeError FenceKind :=
  match c.toNat with
  | 0 => .ok .ar
  | 1 => .ok .acq
  | 2 => .ok .rel
  | _ => .error .modifier

/-- The code of a `CvtTy` (R114). -/
def CvtTy.code : CvtTy → BitVec 4
  | .i32 => 0
  | .n32 => 1
  | .f32 => 2
  | .f64 => 3
  | .i64 => 4
  | .n64 => 5
  | .e8m0 => 6

/-- The `CvtTy` of a code; the codes that the table leaves out are refused. -/
def CvtTy.ofCode (c : BitVec 4) : Except DecodeError CvtTy :=
  match c.toNat with
  | 0 => .ok .i32
  | 1 => .ok .n32
  | 2 => .ok .f32
  | 3 => .ok .f64
  | 4 => .ok .i64
  | 5 => .ok .n64
  | 6 => .ok .e8m0
  | _ => .error .modifier

/-- The code of a `Seg` (R178). -/
def Seg.code : Seg → BitVec 3
  | .w32 => 0
  | .w2 => 1
  | .w4 => 2
  | .w8 => 3
  | .w16 => 4

/-- The `Seg` of a code; the codes that the table leaves out are refused. -/
def Seg.ofCode (c : BitVec 3) : Except DecodeError Seg :=
  match c.toNat with
  | 0 => .ok .w32
  | 1 => .ok .w2
  | 2 => .ok .w4
  | 3 => .ok .w8
  | 4 => .ok .w16
  | _ => .error .modifier

/-- The code of a `ShflMode` (R178). -/
def ShflMode.code : ShflMode → BitVec 2
  | .idx => 0
  | .up => 1
  | .down => 2
  | .xor => 3

/-- The `ShflMode` of a code; the codes that the table leaves out are refused. -/
def ShflMode.ofCode (c : BitVec 2) : Except DecodeError ShflMode :=
  match c.toNat with
  | 0 => .ok .idx
  | 1 => .ok .up
  | 2 => .ok .down
  | _ => .ok .xor

/-- The code of a `CtrOrd` (R206). -/
def CtrOrd.code : CtrOrd → BitVec 2
  | .rlx => 0
  | .acq => 1
  | .rel => 2
  | .ar => 3

/-- The `CtrOrd` of a code; the codes that the table leaves out are refused. -/
def CtrOrd.ofCode (c : BitVec 2) : Except DecodeError CtrOrd :=
  match c.toNat with
  | 0 => .ok .rlx
  | 1 => .ok .acq
  | 2 => .ok .rel
  | _ => .ok .ar

/-- The code of a `MatFmt` (R228). -/
def MatFmt.code : MatFmt → BitVec 4
  | .f64 => 0
  | .f16 => 1
  | .bf16 => 2
  | .e4m3 => 3
  | .e5m2 => 4
  | .e2m1 => 5
  | .i8 => 6
  | .n8 => 7
  | .i4 => 8
  | .n4 => 9

/-- The `MatFmt` of a code; the codes that the table leaves out are refused. -/
def MatFmt.ofCode (c : BitVec 4) : Except DecodeError MatFmt :=
  match c.toNat with
  | 0 => .ok .f64
  | 1 => .ok .f16
  | 2 => .ok .bf16
  | 3 => .ok .e4m3
  | 4 => .ok .e5m2
  | 5 => .ok .e2m1
  | 6 => .ok .i8
  | 7 => .ok .n8
  | 8 => .ok .i4
  | 9 => .ok .n4
  | _ => .error .modifier

/-- The code of a `BrcCond` (R191). -/
def BrcCond.code : BrcCond → BitVec 2
  | .any => 0
  | .all => 1
  | .none => 2
  | .nall => 3

/-- The `BrcCond` of a code; the codes that the table leaves out are refused. -/
def BrcCond.ofCode (c : BitVec 2) : Except DecodeError BrcCond :=
  match c.toNat with
  | 0 => .ok .any
  | 1 => .ok .all
  | 2 => .ok .none
  | _ => .ok .nall

/-- The code of a `BruCond` (R191). -/
def BruCond.code : BruCond → BitVec 2
  | .eq => 0
  | .ne => 1
  | .ltu => 2
  | .geu => 3

/-- The `BruCond` of a code; the codes that the table leaves out are refused. -/
def BruCond.ofCode (c : BitVec 2) : Except DecodeError BruCond :=
  match c.toNat with
  | 0 => .ok .eq
  | 1 => .ok .ne
  | 2 => .ok .ltu
  | _ => .ok .geu
/-- The bits of SatMode: SAT above N (R80). -/
def SatMode.bits : SatMode → BitVec 2
  | .wrap => 0
  | .sat => 2
  | .nsat => 3

/-- N without SAT is undefined (R80). -/
def SatMode.ofBits (c : BitVec 2) : Except DecodeError SatMode :=
  match c.toNat with
  | 0 => .ok .wrap
  | 2 => .ok .sat
  | 3 => .ok .nsat
  | _ => .error .modifier

/-- SAT above N (R80). -/
def IntMod.bits (m : IntMod) : BitVec 2 := BitVec.ofBool m.sat ++ BitVec.ofBool m.n

/-- Every pattern of SAT and N stands (R80). -/
def IntMod.ofBits (c : BitVec 2) : Except DecodeError IntMod := .ok ⟨c.getLsbD 1, c.getLsbD 0⟩

/-- One modifier bit at its place in M[63:52]. -/
def flag (b : Bool) (lo : Nat) : BitVec 12 := if b then 1#12 <<< lo else 0

/-- A modifier field at its place in M[63:52]. -/
def put {n : Nat} (x : BitVec n) (lo : Nat) : BitVec 12 := x.setWidth 12 <<< lo

/-- NACC, TB, TA, F, SAT and RM of DOT4, M[58:52] (R103). -/
def Dot4Mod.bits : Dot4Mod → BitVec 7
  | .int ta tb nacc sat =>
    BitVec.ofBool nacc ++ BitVec.ofBool tb ++ BitVec.ofBool ta ++ 0#1 ++ BitVec.ofBool sat ++ 0#2
  | .fp ta tb sat rnd => 0#1 ++ BitVec.ofBool tb ++ BitVec.ofBool ta ++ 1#1 ++ BitVec.ofBool sat ++ rnd.code

/-- NACC with F, and RM without F, are refused (R118). -/
def Dot4Mod.ofBits (c : BitVec 7) : Except DecodeError Dot4Mod :=
  if c.getLsbD 3 then
    if c.getLsbD 6 then .error .modifier
    else do
      let rnd ← Round.ofCode (c.extractLsb' 0 2)
      .ok (.fp (c.getLsbD 4) (c.getLsbD 5) (c.getLsbD 2) rnd)
  else if c.extractLsb' 0 2 == 0 then .ok (.int (c.getLsbD 4) (c.getLsbD 5) (c.getLsbD 6) (c.getLsbD 2))
  else .error .modifier

/-- The modifiers of DOT8, at the places of DOT4's (R103). -/
def Dot8Mod.bits : Dot8Mod → BitVec 7
  | .int ta tb nacc sat =>
    BitVec.ofBool nacc ++ BitVec.ofBool tb ++ BitVec.ofBool ta ++ 0#1 ++ BitVec.ofBool sat ++ 0#2
  | .fp sat rnd => 0#3 ++ 1#1 ++ BitVec.ofBool sat ++ rnd.code

/-- As for DOT4, and TA or TB with F are refused (R118). -/
def Dot8Mod.ofBits (c : BitVec 7) : Except DecodeError Dot8Mod :=
  if c.getLsbD 3 then
    if c.getLsbD 6 || c.getLsbD 5 || c.getLsbD 4 then .error .modifier
    else do
      let rnd ← Round.ofCode (c.extractLsb' 0 2)
      .ok (.fp (c.getLsbD 2) rnd)
  else if c.extractLsb' 0 2 == 0 then .ok (.int (c.getLsbD 4) (c.getLsbD 5) (c.getLsbD 6) (c.getLsbD 2))
  else .error .modifier

/-- SAT, OP, TY and RM of REDX and SCANX, M[62], M[59:57], M[56:55], M[53:52], as M[62:52] with EX and MM zero
(R178). -/
def RedKind.bits : RedKind → BitVec 11
  | .intAdd n sat => BitVec.ofBool sat ++ 0#2 ++ 0#3 ++ (0#1 ++ BitVec.ofBool n) ++ 0#1 ++ 0#2
  | .intOp n op => 0#3 ++ op.code ++ (0#1 ++ BitVec.ofBool n) ++ 0#1 ++ 0#2
  | .fAdd dbl rnd => 0#3 ++ 0#3 ++ (1#1 ++ BitVec.ofBool dbl) ++ 0#1 ++ rnd.code
  | .fMin dbl => 0#3 ++ 1#3 ++ (1#1 ++ BitVec.ofBool dbl) ++ 0#1 ++ 0#2
  | .fMax dbl => 0#3 ++ 2#3 ++ (1#1 ++ BitVec.ofBool dbl) ++ 0#1 ++ 0#2

/-- The patterns that R178 leaves standing; EX and MM are read elsewhere. -/
def RedKind.ofBits (c : BitVec 11) : Except DecodeError RedKind := do
  let sat := c.getLsbD 10
  let n := c.getLsbD 3
  let op := (c.extractLsb' 5 3).toNat
  if c.getLsbD 4 then
    if sat then .error .modifier
    else if op == 0 then do
      let rnd ← Round.ofCode (c.extractLsb' 0 2)
      .ok (.fAdd n rnd)
    else if c.extractLsb' 0 2 != 0 then .error .modifier
    else if op == 1 then .ok (.fMin n)
    else if op == 2 then .ok (.fMax n)
    else .error .modifier
  else if c.extractLsb' 0 2 != 0 then .error .modifier
  else if op == 0 then .ok (.intAdd n sat)
  else if sat then .error .modifier
  else do
    let o ← RedIntOp.ofCode (c.extractLsb' 5 3)
    .ok (.intOp n o)

/-- CPE above CI, M[62:59] (R189). -/
def Carry.bits : Carry → BitVec 4
  | .none => 0
  | .out k ci => (k + 1) ++ BitVec.ofBool ci

/-- CPE = 0 takes no CI; CPE = k + 1 names Pk (R189). -/
def Carry.ofBits (c : BitVec 4) : Except DecodeError Carry :=
  if c.extractLsb' 1 3 == 0 then (if c.getLsbD 0 then .error .modifier else .ok .none)
  else .ok (.out (c.extractLsb' 1 3 - 1) (c.getLsbD 0))

/-- CPE of the instructions without CI (R189). -/
def cpeOf (c : BitVec 3) : Option (BitVec 3) := if c == 0 then none else some (c - 1)

/-- The field CPE of a carry predicate (R189). -/
def cpeBits : Option (BitVec 3) → BitVec 3
  | none => 0
  | some k => k + 1

/-- RH, RW, ORD and SCOPE, M[62:52] (R206). -/
def CtrMod.bits (m : CtrMod) : BitVec 11 :=
  match m.scope with
  | .grp => 0#6 ++ m.ord.code ++ 0#3
  | .core => 0#6 ++ m.ord.code ++ 1#3
  | .rect w h => h.code ++ w.code ++ m.ord.code ++ 2#3
  | .die => 0#6 ++ m.ord.code ++ 3#3
  | .pkg => 0#6 ++ m.ord.code ++ 4#3
  | .sys => 0#6 ++ m.ord.code ++ 5#3

/-- RW and RH are zero but for SCOPE 2; 5 and 6 are refused, and so are SCOPE 6 and 7 (R206). -/
def CtrMod.ofBits (c : BitVec 11) : Except DecodeError CtrMod := do
  let ord ← CtrOrd.ofCode (c.extractLsb' 3 2)
  let scope ← Scope.ofCode (c.extractLsb' 0 3)
  match scope with
  | .rect => do
    let w ← Side.ofCode (c.extractLsb' 5 3)
    let h ← Side.ofCode (c.extractLsb' 8 3)
    .ok ⟨ord, .rect w h⟩
  | .grp => if c.extractLsb' 5 6 == 0 then .ok ⟨ord, .grp⟩ else .error .modifier
  | .core => if c.extractLsb' 5 6 == 0 then .ok ⟨ord, .core⟩ else .error .modifier
  | .die => if c.extractLsb' 5 6 == 0 then .ok ⟨ord, .die⟩ else .error .modifier
  | .pkg => if c.extractLsb' 5 6 == 0 then .ok ⟨ord, .pkg⟩ else .error .modifier
  | .sys => if c.extractLsb' 5 6 == 0 then .ok ⟨ord, .sys⟩ else .error .modifier

/-- N, SAT (zero here) and PF of PACK and UNPK, M[59:54] (R116). -/
def PackFmt.bits : PackFmt → BitVec 6
  | .f16 => 6
  | .bf16 => 7
  | .e4m3 => 8
  | .e5m2 => 9
  | .e2m1 => 10
  | .i8 => 11
  | .n8 => 43
  | .i4 => 12
  | .n4 => 44
  | .e3m2 => 13
  | .e2m3 => 14

/-- The codes of R116's table; N stands only with the integer formats. -/
def PackFmt.ofBits (c : BitVec 6) : Except DecodeError PackFmt :=
  match c.toNat with
  | 6 => .ok .f16
  | 7 => .ok .bf16
  | 8 => .ok .e4m3
  | 9 => .ok .e5m2
  | 10 => .ok .e2m1
  | 11 => .ok .i8
  | 43 => .ok .n8
  | 12 => .ok .i4
  | 44 => .ok .n4
  | 13 => .ok .e3m2
  | 14 => .ok .e2m3
  | _ => .error .modifier

/-- CLR above SEL, M[58:52] (R197). -/
def RdsrSel.bits : RdsrSel → BitVec 12
  | .lane => 0
  | .group => 1
  | .groups => 2
  | .wgid => 3
  | .wgidx => 4
  | .cx => 5
  | .cy => 6
  | .die => 7
  | .hedge => 8
  | .lseq => 9
  | .flags => 10
  | .flagsClr => 74
  | .cycle => 11
  | .limbw => 12
  | .lcore => 13
  | .lrcore => 14

/-- The selectors of R197; CLR stands only with FLAGS. -/
def RdsrSel.ofBits (c : BitVec 7) : Except DecodeError RdsrSel :=
  match c.toNat with
  | 0 => .ok .lane
  | 1 => .ok .group
  | 2 => .ok .groups
  | 3 => .ok .wgid
  | 4 => .ok .wgidx
  | 5 => .ok .cx
  | 6 => .ok .cy
  | 7 => .ok .die
  | 8 => .ok .hedge
  | 9 => .ok .lseq
  | 10 => .ok .flags
  | 74 => .ok .flagsClr
  | 11 => .ok .cycle
  | 12 => .ok .limbw
  | 13 => .ok .lcore
  | 14 => .ok .lrcore
  | _ => .error .modifier

/-! ## The five formats as raw fields (R28, R30) -/

/-- A check of a field or modifier that answers the named error. -/
def require (c : Bool) (e : DecodeError) : Except DecodeError Unit := if c then .ok () else .error e

/-- The register class that an instruction gives a field (R31), or that it does not use it: `src` and `cnt` follow the
S flag, `mm` the MM flag. -/
inductive FieldKind where
  | none | v | s | p | a | src | cnt | mm
  deriving DecidableEq, Repr

/-- R31 and R32 for one field of 8 bits with its X bit; `sflag` is the S or MM flag that chooses the class. -/
def FieldKind.ok (k : FieldKind) (sflag : Bool) (r : Reg) : Bool :=
  match k with
  | .none => r.n == 0 && !r.x
  | .v => true
  | .s => r.isS
  | .a => r.isA
  | .p => decide (r.n.toNat < 8) && !r.x
  | .src | .cnt => !sflag || r.isS
  | .mm => if sflag then r.isS else r.n == 0 && !r.x

/-- Format R. -/
structure RawR where
  m : BitVec 12
  z : Bool
  ru : Bool
  xc : Bool
  xb : Bool
  c : BitVec 8
  b : BitVec 8
  a : BitVec 8
  d : BitVec 8
  xa : Bool
  xd : Bool
  gn : Bool
  g : BitVec 3
  op : BitVec 10
  deriving DecidableEq, Repr

/-- Format I. -/
structure RawI where
  imm : BitVec 32
  a : BitVec 8
  d : BitVec 8
  xa : Bool
  xd : Bool
  gn : Bool
  g : BitVec 3
  op : BitVec 10
  deriving DecidableEq, Repr

/-- Format M. -/
structure RawM where
  scope : BitVec 3
  ord : BitVec 3
  fmt : BitVec 4
  off : BitVec 14
  z : Bool
  s : BitVec 7
  a : BitVec 8
  d : BitVec 8
  xa : Bool
  xd : Bool
  gn : Bool
  g : BitVec 3
  op : BitVec 10
  deriving DecidableEq, Repr

/-- Format X. -/
structure RawX where
  mode : BitVec 4
  rb : Bool
  ra : Bool
  fb : BitVec 4
  fa : BitVec 4
  z : Bool
  n1 : BitVec 5
  k : BitVec 6
  sb : BitVec 7
  sa : BitVec 7
  t : BitVec 8
  xa : Bool
  xd : Bool
  gn : Bool
  g : BitVec 3
  op : BitVec 10
  deriving DecidableEq, Repr

/-- Format C. -/
structure RawC where
  m : BitVec 16
  off : BitVec 32
  xa : Bool
  xd : Bool
  gn : Bool
  g : BitVec 3
  op : BitVec 10
  deriving DecidableEq, Repr

/-- The fields of format R (R28, R30). -/
def RawR.ofWord (w : Word64) : RawR where
  m := w.extractLsb' 52 12
  z := w.getLsbD 51
  ru := w.getLsbD 50
  xc := w.getLsbD 49
  xb := w.getLsbD 48
  c := w.extractLsb' 40 8
  b := w.extractLsb' 32 8
  a := w.extractLsb' 24 8
  d := w.extractLsb' 16 8
  xa := w.getLsbD 15
  xd := w.getLsbD 14
  gn := w.getLsbD 13
  g := w.extractLsb' 10 3
  op := w.extractLsb' 0 10

/-- The fields of format I (R28, R30). -/
def RawI.ofWord (w : Word64) : RawI where
  imm := w.extractLsb' 32 32
  a := w.extractLsb' 24 8
  d := w.extractLsb' 16 8
  xa := w.getLsbD 15
  xd := w.getLsbD 14
  gn := w.getLsbD 13
  g := w.extractLsb' 10 3
  op := w.extractLsb' 0 10

/-- The fields of format M (R28, R30). -/
def RawM.ofWord (w : Word64) : RawM where
  scope := w.extractLsb' 61 3
  ord := w.extractLsb' 58 3
  fmt := w.extractLsb' 54 4
  off := w.extractLsb' 40 14
  z := w.getLsbD 39
  s := w.extractLsb' 32 7
  a := w.extractLsb' 24 8
  d := w.extractLsb' 16 8
  xa := w.getLsbD 15
  xd := w.getLsbD 14
  gn := w.getLsbD 13
  g := w.extractLsb' 10 3
  op := w.extractLsb' 0 10

/-- The fields of format X (R28, R30). -/
def RawX.ofWord (w : Word64) : RawX where
  mode := w.extractLsb' 60 4
  rb := w.getLsbD 59
  ra := w.getLsbD 58
  fb := w.extractLsb' 54 4
  fa := w.extractLsb' 50 4
  z := w.getLsbD 49
  n1 := w.extractLsb' 44 5
  k := w.extractLsb' 38 6
  sb := w.extractLsb' 31 7
  sa := w.extractLsb' 24 7
  t := w.extractLsb' 16 8
  xa := w.getLsbD 15
  xd := w.getLsbD 14
  gn := w.getLsbD 13
  g := w.extractLsb' 10 3
  op := w.extractLsb' 0 10

/-- The fields of format C (R28, R30). -/
def RawC.ofWord (w : Word64) : RawC where
  m := w.extractLsb' 48 16
  off := w.extractLsb' 16 32
  xa := w.getLsbD 15
  xd := w.getLsbD 14
  gn := w.getLsbD 13
  g := w.extractLsb' 10 3
  op := w.extractLsb' 0 10

/-- The word of format R. -/
def RawR.toWord (r : RawR) : Word64 :=
  r.m ++ BitVec.ofBool r.z ++ BitVec.ofBool r.ru ++ BitVec.ofBool r.xc ++ BitVec.ofBool r.xb ++ r.c ++ r.b ++ r.a ++
    r.d ++ BitVec.ofBool r.xa ++ BitVec.ofBool r.xd ++ BitVec.ofBool r.gn ++ r.g ++ r.op

/-- The word of format I. -/
def RawI.toWord (r : RawI) : Word64 :=
  r.imm ++ r.a ++ r.d ++ BitVec.ofBool r.xa ++ BitVec.ofBool r.xd ++ BitVec.ofBool r.gn ++ r.g ++ r.op

/-- The word of format M. -/
def RawM.toWord (r : RawM) : Word64 :=
  r.scope ++ r.ord ++ r.fmt ++ r.off ++ BitVec.ofBool r.z ++ r.s ++ r.a ++ r.d ++ BitVec.ofBool r.xa ++
    BitVec.ofBool r.xd ++ BitVec.ofBool r.gn ++ r.g ++ r.op

/-- The word of format X. -/
def RawX.toWord (r : RawX) : Word64 :=
  r.mode ++ BitVec.ofBool r.rb ++ BitVec.ofBool r.ra ++ r.fb ++ r.fa ++ BitVec.ofBool r.z ++ r.n1 ++ r.k ++ r.sb ++
    r.sa ++ r.t ++ BitVec.ofBool r.xa ++ BitVec.ofBool r.xd ++ BitVec.ofBool r.gn ++ r.g ++ r.op

/-- The word of format C. -/
def RawC.toWord (r : RawC) : Word64 :=
  r.m ++ r.off ++ BitVec.ofBool r.xa ++ BitVec.ofBool r.xd ++ BitVec.ofBool r.gn ++ r.g ++ r.op

/-! ## Reading the fields of each format -/

/-- G and GN. -/
def RawR.guard (r : RawR) : Guard := ⟨r.g, r.gn⟩
/-- D with XD. -/
def RawR.rd (r : RawR) : Reg := ⟨r.d, r.xd⟩
/-- A with XA. -/
def RawR.ra (r : RawR) : Reg := ⟨r.a, r.xa⟩
/-- B with XB. -/
def RawR.rb (r : RawR) : Reg := ⟨r.b, r.xb⟩
/-- C with XC. -/
def RawR.rc (r : RawR) : Reg := ⟨r.c, r.xc⟩
/-- D as a predicate. -/
def RawR.pd (r : RawR) : BitVec 3 := r.d.extractLsb' 0 3
/-- A as a predicate. -/
def RawR.pa (r : RawR) : BitVec 3 := r.a.extractLsb' 0 3
/-- C as a predicate. -/
def RawR.pc (r : RawR) : BitVec 3 := r.c.extractLsb' 0 3
/-- Modifier bit k of M[63:52]. -/
def RawR.mbit (r : RawR) (k : Nat) : Bool := r.m.getLsbD k
/-- B of rows 2 to 6: V with RU, or S under .S at M[54]. -/
def RawR.bsrc (r : RawR) : BSrc := if r.m.getLsbD 2 then .s r.rb else .v r.rb r.ru
/-- B as a V register with RU. -/
def RawR.breg (r : RawR) : BReg := ⟨r.rb, r.ru⟩
/-- The shift count of the limb shifts: S under .S at M[58]. -/
def RawR.cnt (r : RawR) : CountSrc := if r.m.getLsbD 6 then .s r.rb else .v r.rb
/-- The member mask, with MM at M[60]. -/
def RawR.mm (r : RawR) : Option Reg := if r.m.getLsbD 8 then some r.rc else none

/-- R31, R33 and R34 for format R: bit 51, RU, the classes of D, A, B and C, and the modifier bits that the instruction
defines. RU stands only where B reads a V register. -/
def RawR.check (r : RawR) (kd ka kb kc : FieldKind) (latch : Bool) (mods : BitVec 12) : Except DecodeError Unit := do
  require (!r.z) .field
  require (kd.ok false r.rd && ka.ok false r.ra && kb.ok (r.m.getLsbD (if kb == .cnt then 6 else 2)) r.rb &&
    kc.ok (r.m.getLsbD 8) r.rc) .field
  require (!r.ru || (latch && (kb == .v || (kb == .src && !r.m.getLsbD 2)))) .latch
  require (r.m &&& ~~~mods == 0) .modifier

/-- G and GN. -/
def RawI.guard (r : RawI) : Guard := ⟨r.g, r.gn⟩
/-- D with XD. -/
def RawI.rd (r : RawI) : Reg := ⟨r.d, r.xd⟩
/-- A with XA. -/
def RawI.ra (r : RawI) : Reg := ⟨r.a, r.xa⟩

/-- R31 for format I. -/
def RawI.check (r : RawI) (kd ka : FieldKind) : Except DecodeError Unit :=
  require (kd.ok false r.rd && ka.ok false r.ra) .field

/-- R31 for the A field of format I alone. -/
def RawI.checkA (r : RawI) (ka : FieldKind) : Except DecodeError Unit := require (ka.ok false r.ra) .field

/-- G and GN. -/
def RawM.guard (r : RawM) : Guard := ⟨r.g, r.gn⟩
/-- D with XD. -/
def RawM.rd (r : RawM) : Reg := ⟨r.d, r.xd⟩
/-- A with XA. -/
def RawM.ra (r : RawM) : Reg := ⟨r.a, r.xa⟩
/-- AOP of an atomic, M-format bits 52 to 50 (R142). -/
def RawM.aop (r : RawM) : BitVec 3 := r.off.extractLsb' 10 3

/-- Bit 39 is zero and D and A have their classes (R31, R33). -/
def RawM.check (r : RawM) (kd ka : FieldKind) : Except DecodeError Unit :=
  require (!r.z && kd.ok false r.rd && ka.ok false r.ra) .field

/-- The buffer of format M: SCOPE = 7 selects a window, with S[38:36] zero (R128, R133). -/
def RawM.buf (r : RawM) : Except DecodeError BufSel :=
  if r.scope == 7 then
    if r.s.extractLsb' 4 3 == 0 then .ok (.window (r.s.extractLsb' 0 4)) else .error .field
  else do
    let scope ← Scope.ofCode r.scope
    .ok (.reg r.s scope)

/-- The memory operand of a load or store. -/
def RawM.arg (r : RawM) : Except DecodeError MemArg := do
  let ord ← MemOrd.ofCode r.ord
  let buf ← r.buf
  .ok ⟨ord, buf, r.off, r.ra⟩

/-- The memory operand of an atomic (R142). -/
def RawM.atomArg (r : RawM) : Except DecodeError AtomArg := do
  let ord ← MemOrd.ofCode r.ord
  let buf ← r.buf
  .ok ⟨ord, buf, r.off.extractLsb' 0 10, r.ra⟩

/-- FMT with AW (R142). -/
def atomTyOf (r : RawM) : Except DecodeError AtomTy :=
  match r.fmt.toNat, r.off.getLsbD 13 with
  | 0, false => .ok .raw
  | 0, true => .ok .b64
  | 1, false => .ok .i32
  | 1, true => .ok .i64
  | 2, false => .ok .n32
  | 2, true => .ok .n64
  | 3, false => .ok .f32
  | 4, false => .ok .f64
  | _, _ => .error .modifier

/-- FMT of an atomic type. -/
def AtomTy.fmt : AtomTy → BitVec 4
  | .raw | .b64 => 0
  | .i32 | .i64 => 1
  | .n32 | .n64 => 2
  | .f32 => 3
  | .f64 => 4

/-- AW of an atomic type. -/
def AtomTy.aw : AtomTy → Bool
  | .b64 | .i64 | .n64 => true
  | .raw | .i32 | .n32 | .f32 | .f64 => false

/-- The operand of LDSP and STSP from the common memory operand. -/
def MemArg.toSp (m : MemArg) : SpArg := ⟨m.ord, m.buf, m.off, m.a.n.setWidth 7⟩

/-- The common memory operand of LDSP and STSP. -/
def SpArg.toMem (m : SpArg) : MemArg := ⟨m.ord, m.buf, m.off, ⟨m.a.setWidth 8, false⟩⟩

/-- G and GN. -/
def RawX.guard (r : RawX) : Guard := ⟨r.g, r.gn⟩
/-- T with XD. -/
def RawX.rt (r : RawX) : Reg := ⟨r.t, r.xd⟩

/-- Bit 49 and XA are zero and T has its class (R31, R33). -/
def RawX.check (r : RawX) (kt : FieldKind) : Except DecodeError Unit :=
  require (!r.z && !r.xa && kt.ok false r.rt) .field

/-- G and GN. -/
def RawC.guard (r : RawC) : Guard := ⟨r.g, r.gn⟩

/-- XA and XD are zero (R33) and the modifier bits lie among those that the instruction defines. -/
def RawC.check (r : RawC) (mods : BitVec 16) : Except DecodeError Unit := do
  require (!r.xa && !r.xd) .field
  require (r.m &&& ~~~mods == 0) .modifier

/-! ## Operands whose shape the modifiers choose -/

/-- The field of a predicate register. -/
def preg (p : BitVec 3) : Reg := ⟨p.setWidth 8, false⟩

/-- The B field of a B operand. -/
def BSrc.reg : BSrc → Reg
  | .v r _ => r
  | .s r => r

/-- RU of a B operand. -/
def BSrc.ru : BSrc → Bool
  | .v _ ru => ru
  | .s _ => false

/-- .S at M[54]. -/
def BSrc.sFlag : BSrc → BitVec 12
  | .v _ _ => 0
  | .s _ => 0x004

/-- The B field of a shift count. -/
def CountSrc.reg : CountSrc → Reg
  | .v r => r
  | .s r => r

/-- .S at M[58]. -/
def CountSrc.sFlag : CountSrc → BitVec 12
  | .v _ => 0
  | .s _ => 0x040

/-- The C field of a member mask. -/
def mmReg : Option Reg → Reg
  | none => .zero
  | some r => r

/-- MM at M[60]. -/
def mmFlag : Option Reg → BitVec 12
  | none => 0
  | some _ => 0x100

/-- OP of VOTE (R178). -/
def VoteDst.code : VoteDst → BitVec 2
  | .any _ => 0
  | .all _ => 1
  | .ballot _ => 2
  | .count _ => 3

/-- The D field of VOTE. -/
def VoteDst.reg : VoteDst → Reg
  | .any p => preg p
  | .all p => preg p
  | .ballot d => d
  | .count d => d

/-- VOTE's destination from OP. -/
def voteDstOf (r : RawR) : VoteDst :=
  match r.m.getLsbD 1, r.m.getLsbD 0 with
  | false, false => .any r.pd
  | false, true => .all r.pd
  | true, false => .ballot r.rd
  | true, true => .count r.rd

/-- The D field of MATCH. -/
def MatchDst.reg : MatchDst → Reg
  | .any d => d
  | .all p => preg p

/-- ALL of MATCH. -/
def MatchDst.isAll : MatchDst → Bool
  | .any _ => false
  | .all _ => true

/-- The B field of BCAST. -/
def BcastSrc.reg : BcastSrc → Reg
  | .lane _ => .zero
  | .s r => r

/-- S and LANE of BCAST (R178). -/
def BcastSrc.bits : BcastSrc → BitVec 12
  | .lane k => k.setWidth 12
  | .s _ => 0x020

/-- The B field of MRD and MWR. -/
def ColSrc.reg : ColSrc → Reg
  | .imm _ => .zero
  | .s r => r

/-- S and COL of MRD and MWR (R238). -/
def ColSrc.bits : ColSrc → BitVec 12
  | .imm c => c.setWidth 12
  | .s _ => 0x400

/-- The column of MRD and MWR (R238). -/
def colOf (r : RawR) : ColSrc := if r.m.getLsbD 10 then .s r.rb else .imm (r.m.extractLsb' 0 5)

/-- The A field of WAIT. -/
def WaitSrc.reg : WaitSrc → Reg
  | .imm _ => .zero
  | .s r => r

/-- COUNT and S of WAIT (R191). -/
def WaitSrc.bits : WaitSrc → BitVec 12
  | .imm n => n ++ 0#1
  | .s _ => 1

/-- The five modes of VMOVS (R90); TAG and HI stand with mode 0 only (R80). -/
def decodeVmovs (r : RawR) : Except DecodeError Instr :=
  match (r.m.extractLsb' 0 3).toNat with
  | 0 => do
    r.check .v .s .none .none false 0x0f8
    let tag ← Tag.ofCode (r.m.extractLsb' 4 4)
    .ok (.vmovsVs r.guard tag (r.mbit 3) r.rd r.ra)
  | 1 => do
    r.check .s .v .s .none false 0x001
    .ok (.vmovsSv r.guard r.rd r.ra r.rb)
  | 2 => do
    r.check .p .s .none .none false 0x002
    .ok (.vmovsPs r.guard r.pd r.ra)
  | 3 => do
    r.check .s .p .none .none false 0x003
    .ok (.vmovsSp r.guard r.rd r.pa)
  | 4 => do
    r.check .v .s .none .none false 0x004
    .ok (.vmovsDs r.guard r.rd r.ra)
  | _ => .error .modifier

/-- The three modes of SETXI (R196). -/
def decodeSetxi (i : RawI) : Except DecodeError Instr :=
  if i.xd then .error .field
  else
    match i.d.toNat with
    | 0 => do
      i.checkA .none
      .ok (.setxi i.guard i.imm)
    | 1 => do
      i.checkA .s
      .ok (.setxiS i.guard i.ra i.imm)
    | 2 => do
      i.checkA .none
      .ok (.setxiAdd i.guard i.imm)
    | _ => .error .field

/-- MMA (R227, R228). -/
def decodeMma (x : RawX) : Except DecodeError Instr := do
  x.check .a
  require (x.mode.extractLsb' 2 2 == 0) .modifier
  let fb ← MatFmt.ofCode x.fb
  let fa ← MatFmt.ofCode x.fa
  let m : MmaArg := ⟨x.mode.getLsbD 1, x.mode.getLsbD 0, x.rb, x.ra, fb, fa, x.n1, x.k, x.sb, x.sa, x.rt⟩
  require m.wf .modifier
  .ok (.mma x.guard m)

/-! ## The opcode map, one function for each row (R36, R37) -/

/-- Row 0: scalar ALU (R36). -/
def decodeRow0 (w : Word64) : Except DecodeError Instr :=
  let r := RawR.ofWord w
  let i := RawI.ofWord w
  match (w.extractLsb' 0 10).toNat with
  | 0x000 => do r.check .s .s .none .none false 0x000; .ok (.smov r.guard r.rd r.ra)
  | 0x001 => do i.check .s .none; .ok (.sli i.guard i.rd i.imm)
  | 0x002 => do i.check .s .none; .ok (.slih i.guard i.rd i.imm)
  | 0x003 => do r.check .s .s .s .none false 0x003; let m ← SatMode.ofBits (r.m.extractLsb' 0 2); .ok (.sadd r.guard m r.rd r.ra r.rb)
  | 0x004 => do r.check .s .s .s .none false 0x003; let m ← SatMode.ofBits (r.m.extractLsb' 0 2); .ok (.ssub r.guard m r.rd r.ra r.rb)
  | 0x005 => do r.check .s .s .s .none false 0x003; let m ← SatMode.ofBits (r.m.extractLsb' 0 2); .ok (.smul r.guard m r.rd r.ra r.rb)
  | 0x006 => do r.check .s .s .s .none false 0x001; .ok (.smulh r.guard (r.mbit 0) r.rd r.ra r.rb)
  | 0x007 => do r.check .s .s .s .none false 0x000; .ok (.sand r.guard r.rd r.ra r.rb)
  | 0x008 => do r.check .s .s .s .none false 0x000; .ok (.sor r.guard r.rd r.ra r.rb)
  | 0x009 => do r.check .s .s .s .none false 0x000; .ok (.sxor r.guard r.rd r.ra r.rb)
  | 0x00a => do r.check .s .s .s .none false 0x000; .ok (.sshl r.guard r.rd r.ra r.rb)
  | 0x00b => do r.check .s .s .s .none false 0x000; .ok (.sshr r.guard r.rd r.ra r.rb)
  | 0x00c => do r.check .s .s .s .none false 0x000; .ok (.ssra r.guard r.rd r.ra r.rb)
  | 0x00d => do r.check .s .s .s .none false 0x001; .ok (.smin r.guard (r.mbit 0) r.rd r.ra r.rb)
  | 0x00e => do r.check .s .s .s .none false 0x001; .ok (.smax r.guard (r.mbit 0) r.rd r.ra r.rb)
  | 0x00f => do r.check .s .s .none .none false 0x000; .ok (.sclz r.guard r.rd r.ra)
  | 0x010 => do r.check .s .s .none .none false 0x000; .ok (.spop r.guard r.rd r.ra)
  | 0x011 => do r.check .s .s .s .none false 0x001; .ok (.sbfe r.guard (r.mbit 0) r.rd r.ra r.rb)
  | 0x012 => do r.check .s .s .s .s false 0x000; .ok (.sbfi r.guard r.rd r.ra r.rb r.rc)
  | 0x013 => do r.check .s .s .s .none false 0x000; .ok (.scmp r.guard r.rd r.ra r.rb)
  | 0x014 => do r.check .s .s .s .s false 0x01f; .ok (.ssel r.guard (r.m.extractLsb' 0 5) r.rd r.ra r.rb r.rc)
  | 0x023 => do i.check .s .s; .ok (.saddImm i.guard i.rd i.ra i.imm)
  | 0x024 => do i.check .s .s; .ok (.ssubImm i.guard i.rd i.ra i.imm)
  | 0x025 => do i.check .s .s; .ok (.smulImm i.guard i.rd i.ra i.imm)
  | 0x026 => do i.check .s .s; .ok (.smulhImm i.guard i.rd i.ra i.imm)
  | 0x027 => do i.check .s .s; .ok (.sandImm i.guard i.rd i.ra i.imm)
  | 0x028 => do i.check .s .s; .ok (.sorImm i.guard i.rd i.ra i.imm)
  | 0x029 => do i.check .s .s; .ok (.sxorImm i.guard i.rd i.ra i.imm)
  | 0x02a => do i.check .s .s; .ok (.sshlImm i.guard i.rd i.ra i.imm)
  | 0x02b => do i.check .s .s; .ok (.sshrImm i.guard i.rd i.ra i.imm)
  | 0x02c => do i.check .s .s; .ok (.ssraImm i.guard i.rd i.ra i.imm)
  | 0x02d => do i.check .s .s; .ok (.sminImm i.guard i.rd i.ra i.imm)
  | 0x02e => do i.check .s .s; .ok (.smaxImm i.guard i.rd i.ra i.imm)
  | 0x033 => do i.check .s .s; .ok (.scmpImm i.guard i.rd i.ra i.imm)
  | _ => .error .unassigned

/-- Row 1: scalar memory and class moves (R36). -/
def decodeRow1 (w : Word64) : Except DecodeError Instr :=
  let r := RawR.ofWord w
  let i := RawI.ofWord w
  let o := RawM.ofWord w
  match (w.extractLsb' 0 10).toNat with
  | 0x040 => do o.check .s .s; let f ← ScalarFmt.ofCode o.fmt; let m ← o.arg; require (loadOrd m.ord && m.wf) .modifier; .ok (.sld o.guard f m o.rd)
  | 0x041 => do o.check .s .s; let f ← ScalarFmt.ofCode o.fmt; require f.stores .modifier; let m ← o.arg; require (storeOrd m.ord && m.wf) .modifier; .ok (.sst o.guard f m o.rd)
  | 0x042 => do i.check .s .s; .ok (.sldk i.guard i.rd i.ra i.imm)
  | 0x043 => decodeVmovs r
  | _ => .error .unassigned

/-- Row 2: vector integer arithmetic (R36). -/
def decodeRow2 (w : Word64) : Except DecodeError Instr :=
  let r := RawR.ofWord w
  let i := RawI.ofWord w
  match (w.extractLsb' 0 10).toNat with
  | 0x080 => do r.check .v .v .src .none true 0x007; let m ← IntMod.ofBits (r.m.extractLsb' 0 2); .ok (.vadd r.guard m r.rd r.ra r.bsrc)
  | 0x081 => do r.check .v .v .src .none true 0x007; let m ← IntMod.ofBits (r.m.extractLsb' 0 2); .ok (.vsub r.guard m r.rd r.ra r.bsrc)
  | 0x082 => do r.check .v .v .src .none true 0x007; let m ← IntMod.ofBits (r.m.extractLsb' 0 2); .ok (.vmul r.guard m r.rd r.ra r.bsrc)
  | 0x083 => do r.check .v .v .src .none true 0x005; .ok (.vmulh r.guard (r.mbit 0) r.rd r.ra r.bsrc)
  | 0x084 => do r.check .v .v .src .v true 0x007; let m ← IntMod.ofBits (r.m.extractLsb' 0 2); .ok (.vmad r.guard m r.rd r.ra r.bsrc r.rc)
  | 0x085 => do r.check .v .v .src .v true 0x007; let m ← IntMod.ofBits (r.m.extractLsb' 0 2); .ok (.vmadw r.guard m r.rd r.ra r.bsrc r.rc)
  | 0x086 => do r.check .v .v .none .none false 0x002; .ok (.vabs r.guard (r.mbit 1) r.rd r.ra)
  | 0x087 => do r.check .v .v .src .none true 0x005; .ok (.vmin r.guard (r.mbit 0) r.rd r.ra r.bsrc)
  | 0x088 => do r.check .v .v .src .none true 0x005; .ok (.vmax r.guard (r.mbit 0) r.rd r.ra r.bsrc)
  | 0x089 => do r.check .p .v .src .none true 0x03d; let cc ← Cond.ofCode (r.m.extractLsb' 3 3); .ok (.vcmp r.guard cc (r.mbit 0) r.pd r.ra r.bsrc)
  | 0x08a => do r.check .v .v .src .p true 0x004; .ok (.vsel r.guard r.rd r.ra r.bsrc r.pc)
  | 0x08b => do r.check .v .v .none .none false 0x000; .ok (.vmov r.guard r.rd r.ra)
  | 0x08c => do require (!i.xa && i.a.extractLsb' 4 4 == 0) .field; let tag ← Tag.ofCode (i.a.extractLsb' 0 4); .ok (.vli i.guard tag i.rd i.imm)
  | _ => .error .unassigned

/-- Row 3: vector bit operations (R36). -/
def decodeRow3 (w : Word64) : Except DecodeError Instr :=
  let r := RawR.ofWord w
  match (w.extractLsb' 0 10).toNat with
  | 0x0c0 => do r.check .v .v .src .none true 0x004; .ok (.vand r.guard r.rd r.ra r.bsrc)
  | 0x0c1 => do r.check .v .v .src .none true 0x004; .ok (.vor r.guard r.rd r.ra r.bsrc)
  | 0x0c2 => do r.check .v .v .src .none true 0x004; .ok (.vxor r.guard r.rd r.ra r.bsrc)
  | 0x0c3 => do r.check .v .v .none .none false 0x000; .ok (.vnot r.guard r.rd r.ra)
  | 0x0c4 => do r.check .v .v .src .none true 0x004; .ok (.vshl r.guard r.rd r.ra r.bsrc)
  | 0x0c5 => do r.check .v .v .src .none true 0x004; .ok (.vshr r.guard r.rd r.ra r.bsrc)
  | 0x0c6 => do r.check .v .v .src .none true 0x004; .ok (.vsra r.guard r.rd r.ra r.bsrc)
  | 0x0c7 => do r.check .v .v .src .none true 0x004; .ok (.vrot r.guard r.rd r.ra r.bsrc)
  | 0x0c8 => do r.check .v .v .none .none false 0x000; .ok (.vclz r.guard r.rd r.ra)
  | 0x0c9 => do r.check .v .v .none .none false 0x000; .ok (.vpop r.guard r.rd r.ra)
  | 0x0ca => do r.check .v .v .none .none false 0x7ff; .ok (.vbfe r.guard (r.mbit 10) (r.m.extractLsb' 5 5) (r.m.extractLsb' 0 5) r.rd r.ra)
  | 0x0cb => do r.check .v .v .v .none true 0x3ff; .ok (.vbfi r.guard (r.m.extractLsb' 5 5) (r.m.extractLsb' 0 5) r.rd r.ra r.breg)
  | 0x0cc => do r.check .v .v .none .none false 0x000; .ok (.vbrev r.guard r.rd r.ra)
  | 0x0cd => do r.check .v .v .v .v true 0x000; .ok (.vpermb r.guard r.rd r.ra r.breg r.rc)
  | _ => .error .unassigned

/-- Row 4: FP32 and packed arithmetic (R36). -/
def decodeRow4 (w : Word64) : Except DecodeError Instr :=
  let r := RawR.ofWord w
  match (w.extractLsb' 0 10).toNat with
  | 0x100 => do r.check .v .v .src .none true 0x00f; let rnd ← Round.ofCode (r.m.extractLsb' 0 2); .ok (.fadd r.guard (r.mbit 3) rnd r.rd r.ra r.bsrc)
  | 0x101 => do r.check .v .v .src .none true 0x00f; let rnd ← Round.ofCode (r.m.extractLsb' 0 2); .ok (.fsub r.guard (r.mbit 3) rnd r.rd r.ra r.bsrc)
  | 0x102 => do r.check .v .v .src .none true 0x00f; let rnd ← Round.ofCode (r.m.extractLsb' 0 2); .ok (.fmul r.guard (r.mbit 3) rnd r.rd r.ra r.bsrc)
  | 0x103 => do r.check .v .v .src .v true 0x01f; let rnd ← Round.ofCode (r.m.extractLsb' 0 2); .ok (.ffma r.guard (r.mbit 4) (r.mbit 3) rnd r.rd r.ra r.bsrc r.rc)
  | 0x104 => do r.check .v .v .src .none true 0x004; .ok (.fmin r.guard r.rd r.ra r.bsrc)
  | 0x105 => do r.check .v .v .src .none true 0x004; .ok (.fmax r.guard r.rd r.ra r.bsrc)
  | 0x106 => do r.check .p .v .src .none true 0x03c; let cc ← FCond.ofCode (r.m.extractLsb' 3 3); .ok (.fcmp r.guard cc r.pd r.ra r.bsrc)
  | 0x107 => do r.check .v .v .none .none false 0x010; .ok (.fclass r.guard (r.mbit 4) r.rd r.ra)
  | 0x108 => do r.check .v .v .none .none false 0x013; let rnd ← Round.ofCode (r.m.extractLsb' 0 2); .ok (.frnd r.guard (r.mbit 4) rnd r.rd r.ra)
  | 0x110 => do r.check .v .v .src .none true 0x04f; let rnd ← Round.ofCode (r.m.extractLsb' 0 2); .ok (.hadd2 r.guard (r.mbit 6) (r.mbit 3) rnd r.rd r.ra r.bsrc)
  | 0x111 => do r.check .v .v .src .none true 0x04f; let rnd ← Round.ofCode (r.m.extractLsb' 0 2); .ok (.hmul2 r.guard (r.mbit 6) (r.mbit 3) rnd r.rd r.ra r.bsrc)
  | 0x112 => do r.check .v .v .src .v true 0x05f; let rnd ← Round.ofCode (r.m.extractLsb' 0 2); .ok (.hfma2 r.guard (r.mbit 6) (r.mbit 4) (r.mbit 3) rnd r.rd r.ra r.bsrc r.rc)
  | 0x113 => do r.check .v .v .src .none true 0x044; .ok (.hmin2 r.guard (r.mbit 6) r.rd r.ra r.bsrc)
  | 0x114 => do r.check .v .v .src .none true 0x044; .ok (.hmax2 r.guard (r.mbit 6) r.rd r.ra r.bsrc)
  | _ => .error .unassigned

/-- Row 5: FP64, functions, conversions and tags (R36). -/
def decodeRow5 (w : Word64) : Except DecodeError Instr :=
  let r := RawR.ofWord w
  match (w.extractLsb' 0 10).toNat with
  | 0x140 => do r.check .v .v .src .none true 0x00f; let rnd ← Round.ofCode (r.m.extractLsb' 0 2); .ok (.dadd r.guard (r.mbit 3) rnd r.rd r.ra r.bsrc)
  | 0x141 => do r.check .v .v .src .none true 0x00f; let rnd ← Round.ofCode (r.m.extractLsb' 0 2); .ok (.dmul r.guard (r.mbit 3) rnd r.rd r.ra r.bsrc)
  | 0x142 => do r.check .v .v .src .v true 0x01f; let rnd ← Round.ofCode (r.m.extractLsb' 0 2); .ok (.dfma r.guard (r.mbit 4) (r.mbit 3) rnd r.rd r.ra r.bsrc r.rc)
  | 0x143 => do r.check .p .v .src .none true 0x03c; let cc ← FCond.ofCode (r.m.extractLsb' 3 3); .ok (.dcmp r.guard cc r.pd r.ra r.bsrc)
  | 0x144 => do r.check .v .v .src .none true 0x004; .ok (.dmin r.guard r.rd r.ra r.bsrc)
  | 0x145 => do r.check .v .v .src .none true 0x004; .ok (.dmax r.guard r.rd r.ra r.bsrc)
  | 0x150 => do r.check .v .v .src .none true 0x007; let rnd ← Round.ofCode (r.m.extractLsb' 0 2); .ok (.fdiv r.guard rnd r.rd r.ra r.bsrc)
  | 0x151 => do r.check .v .v .none .none false 0x003; let rnd ← Round.ofCode (r.m.extractLsb' 0 2); .ok (.fsqrt r.guard rnd r.rd r.ra)
  | 0x152 => do r.check .v .v .none .none false 0x003; let rnd ← Round.ofCode (r.m.extractLsb' 0 2); .ok (.frcp r.guard rnd r.rd r.ra)
  | 0x153 => do r.check .v .v .none .none false 0x003; let rnd ← Round.ofCode (r.m.extractLsb' 0 2); .ok (.frsq r.guard rnd r.rd r.ra)
  | 0x154 => do r.check .v .v .none .none false 0x003; let rnd ← Round.ofCode (r.m.extractLsb' 0 2); .ok (.fexp2 r.guard rnd r.rd r.ra)
  | 0x155 => do r.check .v .v .none .none false 0x003; let rnd ← Round.ofCode (r.m.extractLsb' 0 2); .ok (.flog2 r.guard rnd r.rd r.ra)
  | 0x156 => do r.check .v .v .none .none false 0x003; let rnd ← Round.ofCode (r.m.extractLsb' 0 2); .ok (.fsin r.guard rnd r.rd r.ra)
  | 0x157 => do r.check .v .v .none .none false 0x003; let rnd ← Round.ofCode (r.m.extractLsb' 0 2); .ok (.fcos r.guard rnd r.rd r.ra)
  | 0x160 => do r.check .v .v .none .none false 0xff7; let dst ← CvtTy.ofCode (r.m.extractLsb' 8 4); let src ← CvtTy.ofCode (r.m.extractLsb' 4 4); let rnd ← Round.ofCode (r.m.extractLsb' 0 2); require (cvtWf dst src) .modifier; .ok (.cvt r.guard dst src (r.mbit 2) rnd r.rd r.ra)
  | 0x168 => do r.check .v .v .none .none false 0x00f; let tag ← Tag.ofCode (r.m.extractLsb' 0 4); .ok (.tags r.guard tag r.rd r.ra)
  | 0x169 => do r.check .v (if r.mbit 0 then .a else .v) .none .none false 0x001; .ok (.tagrd r.guard (r.mbit 0) r.rd r.ra)
  | _ => .error .unassigned

/-- Row 6: dot products, packing and cross-lane (R36). -/
def decodeRow6 (w : Word64) : Except DecodeError Instr :=
  let r := RawR.ofWord w
  match (w.extractLsb' 0 10).toNat with
  | 0x180 => do r.check .v .v .v .v true 0x07f; let m ← Dot4Mod.ofBits (r.m.extractLsb' 0 7); .ok (.dot4 r.guard m r.rd r.ra r.breg r.rc)
  | 0x181 => do r.check .v .v .v .v true 0x07f; let m ← Dot8Mod.ofBits (r.m.extractLsb' 0 7); .ok (.dot8 r.guard m r.rd r.ra r.breg r.rc)
  | 0x182 => do r.check .v .v .none .none false 0x0ff; let f ← PackFmt.ofBits (r.m.extractLsb' 2 6 &&& 0x2f); let rnd ← Round.ofCode (r.m.extractLsb' 0 2); .ok (.pack r.guard f (r.mbit 6) rnd r.rd r.ra)
  | 0x183 => do r.check .v .v .none .none false 0x0bc; let f ← PackFmt.ofBits (r.m.extractLsb' 2 6); .ok (.unpk r.guard f r.rd r.ra)
  | 0x190 => do r.check .v .v .src .none true 0x03f; let seg ← Seg.ofCode (r.m.extractLsb' 3 3); let m ← ShflMode.ofCode (r.m.extractLsb' 0 2); .ok (.shfl r.guard seg m r.rd r.ra r.bsrc)
  | 0x191 => do r.check (if r.mbit 1 then .v else .p) .p .none .mm false 0x103; .ok (.vote r.guard (voteDstOf r) r.pa r.mm)
  | 0x192 => do r.check .v .v .none .mm false 0x5fb; let k ← RedKind.ofBits (r.m.extractLsb' 0 11); .ok (.redx r.guard k r.rd r.ra r.mm)
  | 0x193 => do r.check .v .v .none .mm false 0x7fb; let k ← RedKind.ofBits (r.m.extractLsb' 0 11); .ok (.scanx r.guard k (r.mbit 9) r.rd r.ra r.mm)
  | 0x194 => do r.check .v .v (if r.mbit 5 then .s else .none) .none false (if r.mbit 5 then 0x020 else 0x01f); .ok (.bcast r.guard (if r.mbit 5 then .s r.rb else .lane (r.m.extractLsb' 0 5)) r.rd r.ra)
  | 0x195 => do r.check (if r.mbit 0 then .p else .v) .v .none .mm false 0x101; .ok (.matchx r.guard (if r.mbit 0 then .all r.pd else .any r.rd) r.ra r.mm)
  | _ => .error .unassigned

/-- Row 7: limbs (R36). -/
def decodeRow7 (w : Word64) : Except DecodeError Instr :=
  let r := RawR.ofWord w
  match (w.extractLsb' 0 10).toNat with
  | 0x1c0 => do r.check .none .none .none .none false 0x007; let w ← LimbW.ofCode (r.m.extractLsb' 0 3); .ok (.lbind r.guard w)
  | 0x1c1 => do r.check .none .none .none .none false 0x000; .ok (.lfree r.guard)
  | 0x1c2 => do r.check .v .v .v .none false 0xf80; let k ← Carry.ofBits (r.m.extractLsb' 7 4); .ok (.ladd r.guard (r.mbit 11) k r.rd r.ra r.rb)
  | 0x1c3 => do r.check .v .v .v .none false 0xf80; let k ← Carry.ofBits (r.m.extractLsb' 7 4); .ok (.lsub r.guard (r.mbit 11) k r.rd r.ra r.rb)
  | 0x1c4 => do r.check .v .v .cnt .none false 0xf40; .ok (.lshl r.guard (r.mbit 11) (cpeOf (r.m.extractLsb' 8 3)) r.rd r.ra r.cnt)
  | 0x1c5 => do r.check .v .v .cnt .none false 0xf60; .ok (.lshr r.guard (r.mbit 11) (r.mbit 5) (cpeOf (r.m.extractLsb' 8 3)) r.rd r.ra r.cnt)
  | 0x1c6 => do r.check .v .v .s .v false 0xf00; .ok (.lmuls r.guard (r.mbit 11) (cpeOf (r.m.extractLsb' 8 3)) r.rd r.ra r.rb r.rc)
  | 0x1c7 => do r.check .p .v .v .none false 0x03c; let cc ← Cond.ofCode (r.m.extractLsb' 2 3); .ok (.lcmp r.guard cc (r.mbit 5) r.pd r.ra r.rb)
  | 0x1c8 => do r.check .v .v .none .none false 0x700; .ok (.lneg r.guard (cpeOf (r.m.extractLsb' 8 3)) r.rd r.ra)
  | 0x1c9 => do r.check .v .v .none .none false 0x000; .ok (.lclz r.guard r.rd r.ra)
  | _ => .error .unassigned

/-- Row 8: loads and stores (R36). -/
def decodeRow8 (w : Word64) : Except DecodeError Instr :=
  let o := RawM.ofWord w
  match (w.extractLsb' 0 10).toNat with
  | 0x200 => do o.check .v .v; let f ← MemFmt.ofCode o.fmt; let m ← o.arg; require (loadOrd m.ord && m.wf) .modifier; .ok (.ld o.guard f m o.rd)
  | 0x201 => do o.check .v .v; let f ← MemFmt.ofCode o.fmt; require f.stores .modifier; let m ← o.arg; require (storeOrd m.ord && m.wf) .modifier; .ok (.st o.guard f m o.rd)
  | 0x202 => do o.check .v .v; let f ← MemFmt.ofCode o.fmt; let m ← o.arg; require (loadOrd m.ord && m.wf) .modifier; .ok (.ldx o.guard f m o.rd)
  | 0x203 => do o.check .v .v; let f ← MemFmt.ofCode o.fmt; require f.stores .modifier; let m ← o.arg; require (storeOrd m.ord && m.wf) .modifier; .ok (.stx o.guard f m o.rd)
  | 0x204 => do o.check .v .s; require (!o.xa) .field; let f ← MemFmt.ofCode o.fmt; let m ← o.arg; require (loadOrd m.ord && m.wf) .modifier; .ok (.ldsp o.guard f m.toSp o.rd)
  | 0x205 => do o.check .v .s; require (!o.xa) .field; let f ← MemFmt.ofCode o.fmt; require f.stores .modifier; let m ← o.arg; require (storeOrd m.ord && m.wf) .modifier; .ok (.stsp o.guard f m.toSp o.rd)
  | 0x206 => do o.check .none .v; let f ← MemFmt.ofCode o.fmt; require (o.ord == 0 && o.scope == 0) .modifier; .ok (.pfx o.guard f o.s o.off o.ra)
  | 0x207 => do o.check .none .v; let f ← MemFmt.ofCode o.fmt; require (o.ord == 0) .modifier; let scope ← Scope.ofCode o.scope; .ok (.cfl o.guard f scope o.s o.off o.ra)
  | 0x208 => do o.check .none .v; let f ← MemFmt.ofCode o.fmt; require (o.ord == 0) .modifier; let scope ← Scope.ofCode o.scope; .ok (.cinv o.guard f scope o.s o.off o.ra)
  | _ => .error .unassigned

/-- Row 9: atomics, fences and placement (R36). -/
def decodeRow9 (w : Word64) : Except DecodeError Instr :=
  let r := RawR.ofWord w
  let o := RawM.ofWord w
  match (w.extractLsb' 0 10).toNat with
  | 0x240 => do o.check .v .v; let ty ← atomTyOf o; let op ← AtomOp.ofCode o.aop; require (atomWf op ty) .modifier; let m ← o.atomArg; require m.wf .modifier; .ok (.atom o.guard op ty m o.rd)
  | 0x241 => do o.check .v .v; let ty ← atomTyOf o; require (o.aop == 0) .modifier; let m ← o.atomArg; require m.wf .modifier; .ok (.atomc o.guard ty m o.rd)
  | 0x242 => do o.check .v .v; let ty ← atomTyOf o; let op ← AtomOp.ofCode o.aop; require (atomWf op ty) .modifier; let m ← o.atomArg; require (m.wf && redOrd m.ord) .modifier; .ok (.red o.guard op ty m o.rd)
  | 0x243 => do r.check .none .none .none .none false 0x01f; let k ← FenceKind.ofCode (r.m.extractLsb' 3 2); let scope ← Scope.ofCode (r.m.extractLsb' 0 3); .ok (.fence r.guard k scope)
  | 0x244 => do r.check .none .none .none .none false 0x000; .ok (.fencee r.guard)
  | 0x245 => do o.check .none .v; let tier ← Tier.ofCode o.fmt; let m ← o.arg; require (m.ord == .weak && placeWf m.buf) .modifier; .ok (.place o.guard tier m.buf m.off m.a)
  | 0x246 => do o.check .none .v; require (o.fmt == 0) .modifier; let m ← o.arg; require (m.ord == .weak && placeWf m.buf) .modifier; .ok (.pin o.guard m.buf m.off m.a)
  | 0x247 => do o.check .none .v; require (o.fmt == 0) .modifier; let m ← o.arg; require (m.ord == .weak && placeWf m.buf) .modifier; .ok (.unpin o.guard m.buf m.off m.a)
  | 0x248 => if r.mbit 0 then do r.check .s .none .none .none false 0x001; .ok (.mcrdQuota r.guard r.rd) else do r.check .s .s .s .none false 0x000; .ok (.mcrdPage r.guard r.rd r.ra r.rb)
  | _ => .error .unassigned

/-- Row 10: counters (R36). -/
def decodeRow10 (w : Word64) : Except DecodeError Instr :=
  let r := RawR.ofWord w
  let i := RawI.ofWord w
  match (w.extractLsb' 0 10).toNat with
  | 0x280 => do r.check .none .s .s .none false 0x7ff; let m ← CtrMod.ofBits (r.m.extractLsb' 0 11); require (m.ord == .rlx || m.ord == .rel) .modifier; .ok (.cadd r.guard m r.ra r.rb)
  | 0x281 => do r.check .s .s .s .none false 0x7ff; let m ← CtrMod.ofBits (r.m.extractLsb' 0 11); .ok (.cnext r.guard m r.rd r.ra r.rb)
  | 0x282 => do r.check .none .s .s .none false 0x7ff; let m ← CtrMod.ofBits (r.m.extractLsb' 0 11); require (m.ord == .rlx || m.ord == .acq) .modifier; .ok (.cwait r.guard m r.ra r.rb)
  | 0x283 => do r.check .p .s .s .none false 0x7ff; let m ← CtrMod.ofBits (r.m.extractLsb' 0 11); require (m.ord == .rlx || m.ord == .acq) .modifier; .ok (.ctest r.guard m r.pd r.ra r.rb)
  | 0x284 => do r.check .s .s .none .none false 0x7ff; let m ← CtrMod.ofBits (r.m.extractLsb' 0 11); require (m.ord == .rlx || m.ord == .acq) .modifier; .ok (.crd r.guard m r.rd r.ra)
  | 0x285 => do r.check .none .s .s .none false 0x7ff; let m ← CtrMod.ofBits (r.m.extractLsb' 0 11); require (m.ord == .rlx || m.ord == .rel) .modifier; .ok (.cinit r.guard m r.ra r.rb)
  | 0x286 => if r.m == 0x03f then do r.check .none .s .none .none false 0x03f; .ok (.clinkU r.guard r.ra) else do r.check .none .s .s .none false 0x01f; .ok (.clink r.guard (r.m.extractLsb' 0 5) r.ra r.rb)
  | 0x287 => do r.check .s .s .s .s false 0x7ff; let m ← CtrMod.ofBits (r.m.extractLsb' 0 11); require (m.ord == .rlx || m.ord == .ar) .modifier; .ok (.cwatch r.guard m r.ra r.rb r.rc r.rd)
  | 0x2a0 => do require (!i.xd && i.d.extractLsb' 5 3 == 0) .field; i.checkA .s; let ord ← CtrOrd.ofCode (i.d.extractLsb' 3 2); require (ord == .rlx || ord == .rel) .modifier; let scope ← Scope.ofCode (i.d.extractLsb' 0 3); .ok (.caddImm i.guard ord scope i.ra i.imm)
  | _ => .error .unassigned

/-- Row 11: copies (R36). -/
def decodeRow11 (w : Word64) : Except DecodeError Instr :=
  let r := RawR.ofWord w
  match (w.extractLsb' 0 10).toNat with
  | 0x2c0 => do r.check .none .s .s .none false 0x00f; let scope ← Scope.ofCode (r.m.extractLsb' 0 3); .ok (.cpy r.guard (r.mbit 3) scope r.ra r.rb)
  | 0x2c1 => do r.check .none .s .s .v false 0x01f; let scope ← Scope.ofCode (r.m.extractLsb' 0 3); .ok (.cpyg r.guard (r.mbit 4) (r.mbit 3) scope r.ra r.rb r.rc)
  | 0x2c2 => do r.check .none .s .s .s false 0x00f; let scope ← Scope.ofCode (r.m.extractLsb' 0 3); .ok (.cpys r.guard (r.mbit 3) scope r.ra r.rb r.rc)
  | 0x2c3 => do r.check .none .s .s .s false 0x007; let scope ← Scope.ofCode (r.m.extractLsb' 0 3); .ok (.rrot r.guard scope r.ra r.rb r.rc)
  | 0x2c4 => do r.check .none .s .s .s false 0x007; let scope ← Scope.ofCode (r.m.extractLsb' 0 3); .ok (.publ r.guard scope r.ra r.rb r.rc)
  | _ => .error .unassigned

/-- Row 12: matrix (R36). -/
def decodeRow12 (w : Word64) : Except DecodeError Instr :=
  let r := RawR.ofWord w
  let o := RawM.ofWord w
  let x := RawX.ofWord w
  match (w.extractLsb' 0 10).toNat with
  | 0x300 => decodeMma x
  | 0x301 => do r.check .a .none .none .none false 0x00f; let f ← TileFmt.ofCode (r.m.extractLsb' 0 4); .ok (.mzero r.guard f r.rd)
  | 0x302 => do o.check .a .v; let f ← TileFmt.ofCode o.fmt; let m ← o.arg; require (loadOrd m.ord && m.wf) .modifier; .ok (.mld o.guard f m o.rd)
  | 0x303 => do o.check .a .v; let f ← TileFmt.ofCode o.fmt; let m ← o.arg; require (storeOrd m.ord && m.wf) .modifier; .ok (.mst o.guard f m o.rd)
  | 0x304 => do r.check .v .a (if r.mbit 10 then .s else .none) .none false (if r.mbit 10 then 0x7e0 else 0x3ff); require (colWf (r.m.extractLsb' 5 5) (colOf r)) .modifier; .ok (.mrd r.guard (r.m.extractLsb' 5 5) (colOf r) r.rd r.ra)
  | 0x305 => do r.check .a .v (if r.mbit 10 then .s else .none) .none false (if r.mbit 10 then 0x7e0 else 0x3ff); require (colWf (r.m.extractLsb' 5 5) (colOf r)) .modifier; .ok (.mwr r.guard (r.m.extractLsb' 5 5) (colOf r) r.rd r.ra)
  | 0x306 => do r.check .none .none .none .none false 0x000; .ok (.mcommit r.guard)
  | 0x307 => do r.check .none .none .none .none false 0x007; .ok (.mwait r.guard (r.m.extractLsb' 0 3))
  | 0x308 => do x.check .s; require (x.mode == 0 && x.k == 0 && !x.ra && !x.rb) .field; let fa ← MatFmt.ofCode x.fa; let fb ← MatFmt.ofCode x.fb; require (mvbWf fb fa) .modifier; .ok (.mvb x.guard fb fa x.n1 x.sb x.sa x.rt)
  | _ => .error .unassigned

/-- Row 13: control (R36). -/
def decodeRow13 (w : Word64) : Except DecodeError Instr :=
  let r := RawR.ofWord w
  let i := RawI.ofWord w
  let c := RawC.ofWord w
  match (w.extractLsb' 0 10).toNat with
  | 0x340 => do c.check 0; .ok (.bra c.guard c.off)
  | 0x341 => do c.check 0x0003; let cond ← BrcCond.ofCode (c.m.extractLsb' 0 2); .ok (.brc c.guard cond c.off)
  | 0x342 => do c.check 0xffff; let cond ← BruCond.ofCode (c.m.extractLsb' 0 2); .ok (.bru c.guard (c.m.extractLsb' 2 14) cond c.off)
  | 0x343 => do c.check 0xff00; .ok (.call c.guard (c.m.extractLsb' 8 8) c.off)
  | 0x344 => do r.check .none .v .none .none false 0x000; .ok (.ret r.guard r.ra)
  | 0x345 => do r.check .none .v .none .none false 0x000; .ok (.jmpi r.guard r.ra)
  | 0x346 => do r.check .none .none .none .none false 0x000; .ok (.exit r.guard)
  | 0x347 => do r.check .none .none .none .none false 0x000; .ok (.nop r.guard)
  | 0x348 => do r.check .none (if r.mbit 0 then .s else .none) .none .none false (if r.mbit 0 then 0x001 else 0xffe); .ok (.wait r.guard (if r.mbit 0 then .s r.ra else .imm (r.m.extractLsb' 1 11)))
  | 0x349 => do r.check .none .none .none .none false 0x000; .ok (.yield r.guard)
  | 0x34a => do let sel ← RdsrSel.ofBits (r.m.extractLsb' 0 7); r.check (if sel == .lane then .v else .s) .none .none .none false 0x07f; .ok (.rdsr r.guard sel r.rd)
  | 0x34b => do r.check .none .none .none .none false 0xfff; .ok (.bkpt r.guard (r.m.extractLsb' 0 12))
  | 0x34c => decodeSetxi i
  | _ => .error .unassigned

/-- Row 14: system (R36). -/
def decodeRow14 (w : Word64) : Except DecodeError Instr :=
  let r := RawR.ofWord w
  match (w.extractLsb' 0 10).toNat with
  | 0x380 => do r.check .v .v .none .none false 0xfff; .ok (.svc r.guard (r.m.extractLsb' 0 12) r.rd r.ra)
  | 0x381 => do r.check .none .none .none .none false 0xfff; .ok (.trap r.guard (r.m.extractLsb' 0 12))
  | 0x382 => do r.check .s .s .s .none false 0x000; require (!r.xb) .field; .ok (.lnch r.guard r.rd r.ra r.rb)
  | 0x383 => do r.check .s .none .none .none false 0x000; .ok (.chkpt r.guard r.rd)
  | 0x384 => do r.check .none .s .s .s false 0x001; .ok (.spcmt r.guard (r.mbit 0) r.ra r.rb r.rc)
  | 0x385 => do r.check .none .s .s .s false 0x001; .ok (.spdsc r.guard (r.mbit 0) r.ra r.rb r.rc)
  | _ => .error .unassigned

/-- The instruction of a word, by its row; row 15 and the gaps are ILLOP (R36, R37). -/
def decodeWord (w : Word64) : Except DecodeError Instr :=
  match (w.extractLsb' 6 4).toNat with
  | 0 => decodeRow0 w
  | 1 => decodeRow1 w
  | 2 => decodeRow2 w
  | 3 => decodeRow3 w
  | 4 => decodeRow4 w
  | 5 => decodeRow5 w
  | 6 => decodeRow6 w
  | 7 => decodeRow7 w
  | 8 => decodeRow8 w
  | 9 => decodeRow9 w
  | 10 => decodeRow10 w
  | 11 => decodeRow11 w
  | 12 => decodeRow12 w
  | 13 => decodeRow13 w
  | 14 => decodeRow14 w
  | _ => .error .unassigned

/-- Bytes as one little-endian number (R4). -/
def leNat : List Byte → Nat
  | [] => 0
  | b :: bs => b.toNat + 256 * leNat bs

/-- The first `n` bytes of a number, least significant first (R4). -/
def leBytes : Nat → Nat → List Byte
  | 0, _ => []
  | n + 1, x => BitVec.ofNat 8 (x % 256) :: leBytes n (x / 256)

/-- Decoding of bytes as they lie in the text section: one little-endian word of 8 bytes, and the bytes that follow it
(R4, R18). Fewer than 8 bytes hold no word. -/
def decodeBytes (bs : List Byte) : Except DecodeError (Instr × List Byte) :=
  if bs.length < 8 then .error .field
  else do
    let i ← decodeWord (BitVec.ofNat 64 (leNat (bs.take 8)))
    .ok (i, bs.drop 8)

/-- The instruction that the decoder reads from an instruction whose bits are `w`: the word laid out as the device
stores it, 8 bytes in little-endian order. -/
def decodeTableWord (_nbits w : Nat) : Option Instr :=
  match decodeBytes (leBytes 8 w) with
  | .ok (i, _) => some i
  | .error _ => none

/-! ## Engines and clause-ending instructions (R20, R21, R36) -/

/-- The engine that an opcode belongs to (R19, R20, R36). -/
inductive Engine where
  | none | scalar | vector | memory | matrix | copy | system
  deriving DecidableEq, Repr

/-- BRA, BRC, BRU, CALL, RET, JMPI, EXIT, YIELD, SVC and TRAP end a clause (R21). -/
def clauseEnding (w : Word64) : Bool :=
  let op := (w.extractLsb' 0 10).toNat
  (0x340 ≤ op && op ≤ 0x346) || op == 0x349 || op == 0x380 || op == 0x381

/-- The engine of a word's opcode (R36). -/
def engineOf (w : Word64) : Engine :=
  let op := (w.extractLsb' 0 10).toNat
  match (w.extractLsb' 6 4).toNat with
  | 0 => .scalar
  | 1 => if op == 0x043 then .vector else .memory
  | 2 | 3 | 4 | 5 | 6 | 7 => .vector
  | 8 | 9 | 10 => .memory
  | 11 => .copy
  | 12 => .matrix
  | 13 => if clauseEnding w then .none else .scalar
  | _ => .system

/-- The bit of ENG for an engine, counted within the field (R19). -/
def Engine.bit : Engine → Option Nat
  | .none => Option.none
  | .scalar => some 0
  | .vector => some 1
  | .memory => some 2
  | .matrix => some 3
  | .copy => some 4
  | .system => some 5

/-- The clause header's fields (R19). -/
structure Header where
  prio : Nat
  xstep : Nat
  rcnt : Nat
  rep : Bool
  wtl : Nat
  wcp : Nat
  wst : Nat
  wld : Nat
  eng : BitVec 6
  n : Nat
  deriving DecidableEq, Repr

/-- The header of a word, or none where R38 finds it ill-formed. -/
def decodeHeader (w : Word64) : Option Header :=
  let n := (w.extractLsb' 0 5).toNat
  if w.extractLsb' 60 4 != 0xA || n == 0 || 24 < n || w.extractLsb' 38 4 != 0 || w.extractLsb' 50 10 != 0 then none
  else some {
    prio := (w.extractLsb' 42 8).toNat, xstep := (w.extractLsb' 35 3).toNat, rcnt := (w.extractLsb' 28 7).toNat,
    rep := w.getLsbD 27, wtl := (w.extractLsb' 23 4).toNat, wcp := (w.extractLsb' 19 4).toNat,
    wst := (w.extractLsb' 15 4).toNat, wld := (w.extractLsb' 11 4).toNat, eng := w.extractLsb' 5 6, n := n }

/-- Whether ENG declares the engine of a word (R20, R38). -/
def Header.declares (h : Header) (w : Word64) : Bool :=
  match (engineOf w).bit with
  | Option.none => true
  | some b => h.eng.getLsbD b

/-- The step that XSTEP adds to XI at the end of a pass (R25). -/
def xiStep (code : Nat) : BitVec 16 :=
  match code with
  | 0 => 0
  | 1 => 1
  | 2 => 2
  | 3 => 4
  | 4 => 8
  | 5 => 16
  | 6 => 32
  | _ => 0xFFFF

/-! ## The encoder, from the same tables -/

/-- The fields of an R-format instruction. -/
def mkR (op : BitVec 10) (g : Guard) (d a b c : Reg) (ru : Bool) (m : BitVec 12) : RawR :=
  ⟨m, false, ru, c.x, b.x, c.n, b.n, a.n, d.n, a.x, d.x, g.neg, g.p, op⟩

/-- The fields of an I-format instruction. -/
def mkI (op : BitVec 10) (g : Guard) (d a : Reg) (imm : Word32) : RawI := ⟨imm, a.n, d.n, a.x, d.x, g.neg, g.p, op⟩

/-- SCOPE of a memory operand (R133). -/
def BufSel.scopeBits : BufSel → BitVec 3
  | .reg _ scope => scope.code
  | .window _ => 7

/-- The S field of a memory operand (R128). -/
def BufSel.sBits : BufSel → BitVec 7
  | .reg s _ => s
  | .window n => n.setWidth 7

/-- The fields of an M-format instruction. -/
def mkM (op : BitVec 10) (g : Guard) (m : MemArg) (fmt : BitVec 4) (d : Reg) : RawM :=
  ⟨m.buf.scopeBits, m.ord.code, fmt, m.off, false, m.buf.sBits, m.a.n, d.n, m.a.x, d.x, g.neg, g.p, op⟩

/-- The fields of an atomic: AW, AOP and AOFF take OFF's place (R142). -/
def mkAtom (op : BitVec 10) (g : Guard) (m : AtomArg) (o : AtomOp) (ty : AtomTy) (d : Reg) : RawM :=
  ⟨m.buf.scopeBits, m.ord.code, ty.fmt, BitVec.ofBool ty.aw ++ o.code ++ m.aoff, false, m.buf.sBits, m.a.n, d.n, m.a.x,
    d.x, g.neg, g.p, op⟩

/-- The fields of an X-format instruction (R227). -/
def mkX (op : BitVec 10) (g : Guard) (m : MmaArg) : RawX :=
  ⟨0#2 ++ BitVec.ofBool m.tb ++ BitVec.ofBool m.z, m.rb, m.ra, m.fb.code, m.fa.code, false, m.n1, m.k, m.sb, m.sa,
    m.t.n, false, m.t.x, g.neg, g.p, op⟩

/-- The fields of a C-format instruction. -/
def mkC (op : BitVec 10) (g : Guard) (m : BitVec 16) (off : Word32) : RawC := ⟨m, off, false, false, g.neg, g.p, op⟩

/-- The word of an instruction, written from the encoding tables; a step of the device has none. -/
def encode (i : Instr) : Option Word64 :=
  match i with
  | .smov g d a => some (mkR 0x000 g d a .zero .zero false (0)).toWord
  | .sli g d imm => some (mkI 0x001 g d .zero imm).toWord
  | .slih g d imm => some (mkI 0x002 g d .zero imm).toWord
  | .sadd g m d a b => some (mkR 0x003 g d a b .zero false (put m.bits 0)).toWord
  | .saddImm g d a imm => some (mkI 0x023 g d a imm).toWord
  | .ssub g m d a b => some (mkR 0x004 g d a b .zero false (put m.bits 0)).toWord
  | .ssubImm g d a imm => some (mkI 0x024 g d a imm).toWord
  | .smul g m d a b => some (mkR 0x005 g d a b .zero false (put m.bits 0)).toWord
  | .smulImm g d a imm => some (mkI 0x025 g d a imm).toWord
  | .smulh g n d a b => some (mkR 0x006 g d a b .zero false (flag n 0)).toWord
  | .smulhImm g d a imm => some (mkI 0x026 g d a imm).toWord
  | .sand g d a b => some (mkR 0x007 g d a b .zero false (0)).toWord
  | .sandImm g d a imm => some (mkI 0x027 g d a imm).toWord
  | .sor g d a b => some (mkR 0x008 g d a b .zero false (0)).toWord
  | .sorImm g d a imm => some (mkI 0x028 g d a imm).toWord
  | .sxor g d a b => some (mkR 0x009 g d a b .zero false (0)).toWord
  | .sxorImm g d a imm => some (mkI 0x029 g d a imm).toWord
  | .sshl g d a b => some (mkR 0x00a g d a b .zero false (0)).toWord
  | .sshlImm g d a imm => some (mkI 0x02a g d a imm).toWord
  | .sshr g d a b => some (mkR 0x00b g d a b .zero false (0)).toWord
  | .sshrImm g d a imm => some (mkI 0x02b g d a imm).toWord
  | .ssra g d a b => some (mkR 0x00c g d a b .zero false (0)).toWord
  | .ssraImm g d a imm => some (mkI 0x02c g d a imm).toWord
  | .smin g n d a b => some (mkR 0x00d g d a b .zero false (flag n 0)).toWord
  | .sminImm g d a imm => some (mkI 0x02d g d a imm).toWord
  | .smax g n d a b => some (mkR 0x00e g d a b .zero false (flag n 0)).toWord
  | .smaxImm g d a imm => some (mkI 0x02e g d a imm).toWord
  | .sclz g d a => some (mkR 0x00f g d a .zero .zero false (0)).toWord
  | .spop g d a => some (mkR 0x010 g d a .zero .zero false (0)).toWord
  | .sbfe g i d a b => some (mkR 0x011 g d a b .zero false (flag i 0)).toWord
  | .sbfi g d a b c => some (mkR 0x012 g d a b c false (0)).toWord
  | .scmp g d a b => some (mkR 0x013 g d a b .zero false (0)).toWord
  | .scmpImm g d a imm => some (mkI 0x033 g d a imm).toWord
  | .ssel g mask d a b c => some (mkR 0x014 g d a b c false (put mask 0)).toWord
  | .sld g f m d => some (mkM 0x040 g m (f.code) d).toWord
  | .sst g f m d => some (mkM 0x041 g m (f.code) d).toWord
  | .sldk g d a imm => some (mkI 0x042 g d a imm).toWord
  | .vmovsVs g tag hi d a => some (mkR 0x043 g d a .zero .zero false (put tag.code 4 ||| flag hi 3)).toWord
  | .vmovsSv g d a b => some (mkR 0x043 g d a b .zero false 1).toWord
  | .vmovsPs g d a => some (mkR 0x043 g (preg d) a .zero .zero false 2).toWord
  | .vmovsSp g d a => some (mkR 0x043 g d (preg a) .zero .zero false 3).toWord
  | .vmovsDs g d a => some (mkR 0x043 g d a .zero .zero false 4).toWord
  | .vadd g m d a b => some (mkR 0x080 g d a b.reg .zero b.ru (b.sFlag ||| put m.bits 0)).toWord
  | .vsub g m d a b => some (mkR 0x081 g d a b.reg .zero b.ru (b.sFlag ||| put m.bits 0)).toWord
  | .vmul g m d a b => some (mkR 0x082 g d a b.reg .zero b.ru (b.sFlag ||| put m.bits 0)).toWord
  | .vmulh g n d a b => some (mkR 0x083 g d a b.reg .zero b.ru (b.sFlag ||| flag n 0)).toWord
  | .vmad g m d a b c => some (mkR 0x084 g d a b.reg c b.ru (b.sFlag ||| put m.bits 0)).toWord
  | .vmadw g m d a b c => some (mkR 0x085 g d a b.reg c b.ru (b.sFlag ||| put m.bits 0)).toWord
  | .vabs g sat d a => some (mkR 0x086 g d a .zero .zero false (flag sat 1)).toWord
  | .vmin g n d a b => some (mkR 0x087 g d a b.reg .zero b.ru (b.sFlag ||| flag n 0)).toWord
  | .vmax g n d a b => some (mkR 0x088 g d a b.reg .zero b.ru (b.sFlag ||| flag n 0)).toWord
  | .vcmp g cc n d a b => some (mkR 0x089 g (preg d) a b.reg .zero b.ru (b.sFlag ||| put cc.code 3 ||| flag n 0)).toWord
  | .vsel g d a b c => some (mkR 0x08a g d a b.reg (preg c) b.ru (b.sFlag)).toWord
  | .vmov g d a => some (mkR 0x08b g d a .zero .zero false (0)).toWord
  | .vli g tag d imm => some (mkI 0x08c g d ⟨tag.code.setWidth 8, false⟩ imm).toWord
  | .vand g d a b => some (mkR 0x0c0 g d a b.reg .zero b.ru (b.sFlag)).toWord
  | .vor g d a b => some (mkR 0x0c1 g d a b.reg .zero b.ru (b.sFlag)).toWord
  | .vxor g d a b => some (mkR 0x0c2 g d a b.reg .zero b.ru (b.sFlag)).toWord
  | .vnot g d a => some (mkR 0x0c3 g d a .zero .zero false (0)).toWord
  | .vshl g d a b => some (mkR 0x0c4 g d a b.reg .zero b.ru (b.sFlag)).toWord
  | .vshr g d a b => some (mkR 0x0c5 g d a b.reg .zero b.ru (b.sFlag)).toWord
  | .vsra g d a b => some (mkR 0x0c6 g d a b.reg .zero b.ru (b.sFlag)).toWord
  | .vrot g d a b => some (mkR 0x0c7 g d a b.reg .zero b.ru (b.sFlag)).toWord
  | .vclz g d a => some (mkR 0x0c8 g d a .zero .zero false (0)).toWord
  | .vpop g d a => some (mkR 0x0c9 g d a .zero .zero false (0)).toWord
  | .vbfe g i lenM1 pos d a => some (mkR 0x0ca g d a .zero .zero false (flag i 10 ||| put lenM1 5 ||| put pos 0)).toWord
  | .vbfi g lenM1 pos d a b => some (mkR 0x0cb g d a b.r .zero b.ru (put lenM1 5 ||| put pos 0)).toWord
  | .vbrev g d a => some (mkR 0x0cc g d a .zero .zero false (0)).toWord
  | .vpermb g d a b c => some (mkR 0x0cd g d a b.r c b.ru (0)).toWord
  | .fadd g nb rnd d a b => some (mkR 0x100 g d a b.reg .zero b.ru (b.sFlag ||| flag nb 3 ||| put rnd.code 0)).toWord
  | .fsub g nb rnd d a b => some (mkR 0x101 g d a b.reg .zero b.ru (b.sFlag ||| flag nb 3 ||| put rnd.code 0)).toWord
  | .fmul g nb rnd d a b => some (mkR 0x102 g d a b.reg .zero b.ru (b.sFlag ||| flag nb 3 ||| put rnd.code 0)).toWord
  | .ffma g nc nb rnd d a b c => some (mkR 0x103 g d a b.reg c b.ru (b.sFlag ||| flag nc 4 ||| flag nb 3 ||| put rnd.code 0)).toWord
  | .fmin g d a b => some (mkR 0x104 g d a b.reg .zero b.ru (b.sFlag)).toWord
  | .fmax g d a b => some (mkR 0x105 g d a b.reg .zero b.ru (b.sFlag)).toWord
  | .fcmp g cc d a b => some (mkR 0x106 g (preg d) a b.reg .zero b.ru (b.sFlag ||| put cc.code 3)).toWord
  | .fclass g dbl d a => some (mkR 0x107 g d a .zero .zero false (flag dbl 4)).toWord
  | .frnd g dbl rnd d a => some (mkR 0x108 g d a .zero .zero false (flag dbl 4 ||| put rnd.code 0)).toWord
  | .hadd2 g bf nb rnd d a b => some (mkR 0x110 g d a b.reg .zero b.ru (b.sFlag ||| flag bf 6 ||| flag nb 3 ||| put rnd.code 0)).toWord
  | .hmul2 g bf nb rnd d a b => some (mkR 0x111 g d a b.reg .zero b.ru (b.sFlag ||| flag bf 6 ||| flag nb 3 ||| put rnd.code 0)).toWord
  | .hfma2 g bf nc nb rnd d a b c => some (mkR 0x112 g d a b.reg c b.ru (b.sFlag ||| flag bf 6 ||| flag nc 4 ||| flag nb 3 ||| put rnd.code 0)).toWord
  | .hmin2 g bf d a b => some (mkR 0x113 g d a b.reg .zero b.ru (b.sFlag ||| flag bf 6)).toWord
  | .hmax2 g bf d a b => some (mkR 0x114 g d a b.reg .zero b.ru (b.sFlag ||| flag bf 6)).toWord
  | .dadd g nb rnd d a b => some (mkR 0x140 g d a b.reg .zero b.ru (b.sFlag ||| flag nb 3 ||| put rnd.code 0)).toWord
  | .dmul g nb rnd d a b => some (mkR 0x141 g d a b.reg .zero b.ru (b.sFlag ||| flag nb 3 ||| put rnd.code 0)).toWord
  | .dfma g nc nb rnd d a b c => some (mkR 0x142 g d a b.reg c b.ru (b.sFlag ||| flag nc 4 ||| flag nb 3 ||| put rnd.code 0)).toWord
  | .dcmp g cc d a b => some (mkR 0x143 g (preg d) a b.reg .zero b.ru (b.sFlag ||| put cc.code 3)).toWord
  | .dmin g d a b => some (mkR 0x144 g d a b.reg .zero b.ru (b.sFlag)).toWord
  | .dmax g d a b => some (mkR 0x145 g d a b.reg .zero b.ru (b.sFlag)).toWord
  | .fdiv g rnd d a b => some (mkR 0x150 g d a b.reg .zero b.ru (b.sFlag ||| put rnd.code 0)).toWord
  | .fsqrt g rnd d a => some (mkR 0x151 g d a .zero .zero false (put rnd.code 0)).toWord
  | .frcp g rnd d a => some (mkR 0x152 g d a .zero .zero false (put rnd.code 0)).toWord
  | .frsq g rnd d a => some (mkR 0x153 g d a .zero .zero false (put rnd.code 0)).toWord
  | .fexp2 g rnd d a => some (mkR 0x154 g d a .zero .zero false (put rnd.code 0)).toWord
  | .flog2 g rnd d a => some (mkR 0x155 g d a .zero .zero false (put rnd.code 0)).toWord
  | .fsin g rnd d a => some (mkR 0x156 g d a .zero .zero false (put rnd.code 0)).toWord
  | .fcos g rnd d a => some (mkR 0x157 g d a .zero .zero false (put rnd.code 0)).toWord
  | .cvt g dst src sat rnd d a => some (mkR 0x160 g d a .zero .zero false (put dst.code 8 ||| put src.code 4 ||| flag sat 2 ||| put rnd.code 0)).toWord
  | .tags g tag d a => some (mkR 0x168 g d a .zero .zero false (put tag.code 0)).toWord
  | .tagrd g tile d a => some (mkR 0x169 g d a .zero .zero false (flag tile 0)).toWord
  | .dot4 g m d a b c => some (mkR 0x180 g d a b.r c b.ru (put m.bits 0)).toWord
  | .dot8 g m d a b c => some (mkR 0x181 g d a b.r c b.ru (put m.bits 0)).toWord
  | .pack g f sat rnd d a => some (mkR 0x182 g d a .zero .zero false (put f.bits 2 ||| flag sat 6 ||| put rnd.code 0)).toWord
  | .unpk g f d a => some (mkR 0x183 g d a .zero .zero false (put f.bits 2)).toWord
  | .shfl g seg m d a b => some (mkR 0x190 g d a b.reg .zero b.ru (b.sFlag ||| put seg.code 3 ||| put m.code 0)).toWord
  | .vote g d a mm => some (mkR 0x191 g d.reg (preg a) .zero (mmReg mm) false (put d.code 0 ||| mmFlag mm)).toWord
  | .redx g k d a mm => some (mkR 0x192 g d a .zero (mmReg mm) false (mmFlag mm ||| put k.bits 0)).toWord
  | .scanx g k ex d a mm => some (mkR 0x193 g d a .zero (mmReg mm) false (mmFlag mm ||| put k.bits 0 ||| flag ex 9)).toWord
  | .bcast g src d a => some (mkR 0x194 g d a src.reg .zero false src.bits).toWord
  | .matchx g d a mm => some (mkR 0x195 g d.reg a .zero (mmReg mm) false (flag d.isAll 0 ||| mmFlag mm)).toWord
  | .lbind g w => some (mkR 0x1c0 g .zero .zero .zero .zero false (put w.code 0)).toWord
  | .lfree g => some (mkR 0x1c1 g .zero .zero .zero .zero false (0)).toWord
  | .ladd g trap k d a b => some (mkR 0x1c2 g d a b .zero false (flag trap 11 ||| put k.bits 7)).toWord
  | .lsub g trap k d a b => some (mkR 0x1c3 g d a b .zero false (flag trap 11 ||| put k.bits 7)).toWord
  | .lshl g trap k d a b => some (mkR 0x1c4 g d a b.reg .zero false (b.sFlag ||| flag trap 11 ||| put (cpeBits k) 8)).toWord
  | .lshr g trap ar k d a b => some (mkR 0x1c5 g d a b.reg .zero false (b.sFlag ||| flag trap 11 ||| put (cpeBits k) 8 ||| flag ar 5)).toWord
  | .lmuls g trap k d a b c => some (mkR 0x1c6 g d a b c false (flag trap 11 ||| put (cpeBits k) 8)).toWord
  | .lcmp g cc ar d a b => some (mkR 0x1c7 g (preg d) a b .zero false (flag ar 5 ||| put cc.code 2)).toWord
  | .lneg g k d a => some (mkR 0x1c8 g d a .zero .zero false (put (cpeBits k) 8)).toWord
  | .lclz g d a => some (mkR 0x1c9 g d a .zero .zero false (0)).toWord
  | .ld g f m d => some (mkM 0x200 g m f.code d).toWord
  | .st g f m d => some (mkM 0x201 g m f.code d).toWord
  | .ldx g f m d => some (mkM 0x202 g m f.code d).toWord
  | .stx g f m d => some (mkM 0x203 g m f.code d).toWord
  | .ldsp g f m d => some (mkM 0x204 g m.toMem f.code d).toWord
  | .stsp g f m d => some (mkM 0x205 g m.toMem f.code d).toWord
  | .pfx g f s off a => some (mkM 0x206 g ⟨.weak, .reg s .grp, off, a⟩ f.code .zero).toWord
  | .cfl g f scope s off a => some (mkM 0x207 g ⟨.weak, .reg s scope, off, a⟩ f.code .zero).toWord
  | .cinv g f scope s off a => some (mkM 0x208 g ⟨.weak, .reg s scope, off, a⟩ f.code .zero).toWord
  | .atom g op ty m d => some (mkAtom 0x240 g m op ty d).toWord
  | .atomc g ty m d => some (mkAtom 0x241 g m .swap ty d).toWord
  | .red g op ty m d => some (mkAtom 0x242 g m op ty d).toWord
  | .fence g k scope => some (mkR 0x243 g .zero .zero .zero .zero false (put k.code 3 ||| put scope.code 0)).toWord
  | .fencee g => some (mkR 0x244 g .zero .zero .zero .zero false (0)).toWord
  | .place g tier buf off a => some (mkM 0x245 g ⟨.weak, buf, off, a⟩ tier.code .zero).toWord
  | .pin g buf off a => some (mkM 0x246 g ⟨.weak, buf, off, a⟩ 0 .zero).toWord
  | .unpin g buf off a => some (mkM 0x247 g ⟨.weak, buf, off, a⟩ 0 .zero).toWord
  | .mcrdPage g d a b => some (mkR 0x248 g d a b .zero false 0).toWord
  | .mcrdQuota g d => some (mkR 0x248 g d .zero .zero .zero false 1).toWord
  | .cadd g m a b => some (mkR 0x280 g .zero a b .zero false (put m.bits 0)).toWord
  | .caddImm g ord scope a imm => some (mkI 0x2a0 g ⟨(0#3 ++ ord.code ++ scope.code : BitVec 8), false⟩ a imm).toWord
  | .cnext g m d a b => some (mkR 0x281 g d a b .zero false (put m.bits 0)).toWord
  | .cwait g m a b => some (mkR 0x282 g .zero a b .zero false (put m.bits 0)).toWord
  | .ctest g m d a b => some (mkR 0x283 g (preg d) a b .zero false (put m.bits 0)).toWord
  | .crd g m d a => some (mkR 0x284 g d a .zero .zero false (put m.bits 0)).toWord
  | .cinit g m a b => some (mkR 0x285 g .zero a b .zero false (put m.bits 0)).toWord
  | .clink g e a b => some (mkR 0x286 g .zero a b .zero false (put e 0)).toWord
  | .clinkU g a => some (mkR 0x286 g .zero a .zero .zero false 0x03f).toWord
  | .cwatch g m a b c d => some (mkR 0x287 g d a b c false (put m.bits 0)).toWord
  | .cpy g p scope a b => some (mkR 0x2c0 g .zero a b .zero false (flag p 3 ||| put scope.code 0)).toWord
  | .cpyg g sc p scope a b c => some (mkR 0x2c1 g .zero a b c false (flag sc 4 ||| flag p 3 ||| put scope.code 0)).toWord
  | .cpys g p scope a b c => some (mkR 0x2c2 g .zero a b c false (flag p 3 ||| put scope.code 0)).toWord
  | .rrot g scope a b c => some (mkR 0x2c3 g .zero a b c false (put scope.code 0)).toWord
  | .publ g scope a b c => some (mkR 0x2c4 g .zero a b c false (put scope.code 0)).toWord
  | .mma g m => some (mkX 0x300 g m).toWord
  | .mzero g f d => some (mkR 0x301 g d .zero .zero .zero false (put f.code 0)).toWord
  | .mld g f m d => some (mkM 0x302 g m f.code d).toWord
  | .mst g f m d => some (mkM 0x303 g m f.code d).toWord
  | .mrd g nM1 col d a => some (mkR 0x304 g d a col.reg .zero false (put nM1 5 ||| col.bits)).toWord
  | .mwr g nM1 col d a => some (mkR 0x305 g d a col.reg .zero false (put nM1 5 ||| col.bits)).toWord
  | .mcommit g => some (mkR 0x306 g .zero .zero .zero .zero false (0)).toWord
  | .mwait g n => some (mkR 0x307 g .zero .zero .zero .zero false (put n 0)).toWord
  | .mvb g fb fa n1 sb sa t => some (mkX 0x308 g ⟨false, false, false, false, fb, fa, n1, 0, sb, sa, t⟩).toWord
  | .bra g off => some (mkC 0x340 g 0 off).toWord
  | .brc g c off => some (mkC 0x341 g (c.code.setWidth 16) off).toWord
  | .bru g imm c off => some (mkC 0x342 g (imm ++ c.code : BitVec 16) off).toWord
  | .call g link off => some (mkC 0x343 g (link ++ 0#8 : BitVec 16) off).toWord
  | .ret g a => some (mkR 0x344 g .zero a .zero .zero false (0)).toWord
  | .jmpi g a => some (mkR 0x345 g .zero a .zero .zero false (0)).toWord
  | .exit g => some (mkR 0x346 g .zero .zero .zero .zero false (0)).toWord
  | .nop g => some (mkR 0x347 g .zero .zero .zero .zero false (0)).toWord
  | .wait g n => some (mkR 0x348 g .zero n.reg .zero .zero false n.bits).toWord
  | .yield g => some (mkR 0x349 g .zero .zero .zero .zero false (0)).toWord
  | .rdsr g sel d => some (mkR 0x34a g d .zero .zero .zero false sel.bits).toWord
  | .bkpt g code => some (mkR 0x34b g .zero .zero .zero .zero false (put code 0)).toWord
  | .setxi g imm => some (mkI 0x34c g .zero .zero imm).toWord
  | .setxiS g a imm => some (mkI 0x34c g ⟨1, false⟩ a imm).toWord
  | .setxiAdd g imm => some (mkI 0x34c g ⟨2, false⟩ .zero imm).toWord
  | .svc g call d a => some (mkR 0x380 g d a .zero .zero false (put call 0)).toWord
  | .trap g code => some (mkR 0x381 g .zero .zero .zero .zero false (put code 0)).toWord
  | .lnch g d a b => some (mkR 0x382 g d a b .zero false (0)).toWord
  | .chkpt g d => some (mkR 0x383 g d .zero .zero .zero false (0)).toWord
  | .spcmt g final a b c => some (mkR 0x384 g .zero a b c false (flag final 0)).toWord
  | .spdsc g final a b c => some (mkR 0x385 g .zero a b c false (flag final 0)).toWord
  | .issueCycle _ => none
  | .clauseStart _ => none
  | .clauseBoundary _ => none
  | .loadLands _ _ => none
  | .storePerformed _ _ => none
  | .presenceUnpark _ => none
  | .waitExpire _ => none
  | .fmtemuTrap _ => none
  | .mgmtTurn _ => none
  | .fmtemuQueueFree _ _ => none
  | .homeAdd _ => none
  | .crossingAdd _ => none
  | .cwaitAnswer _ _ => none
  | .cwaitPoll _ _ => none
  | .downFlip _ => none
  | .copyStart _ => none
  | .rrotStart _ => none
  | .engineRead _ _ _ => none
  | .chunkLand _ _ _ => none
  | .copyPublish _ => none
  | .copyAbandon _ => none
  | .publPerform _ _ => none
  | .mmaPerform _ => none
  | .batchRetire _ => none
  | .mvbResultLand _ _ _ => none
  | .tileOpDone _ _ => none
  | .groupRetire _ => none
  | .groupSave _ => none
  | .groupRestore _ => none
  | .fault _ _ _ => none
  | .groupResume _ _ => none
  | .migrResume _ => none
  | .groupEnd _ => none
  | .breakpointRelease _ => none
  | .walkComplete _ => none
  | .translationInvalidate _ _ _ => none
  | .dispatch _ => none
  | .launchAdmit _ _ => none
  | .launchComplete _ _ => none
  | .sbiLaunch _ _ _ => none
  | .bufalloc _ => none
  | .buffree _ => none
  | .bufmap _ => none
  | .resume _ => none
  | .setvsatp _ => none
  | .inval _ => none
  | .eqconfig _ => none
  | .guestCall _ _ _ _ => none
  | .svcReplyTake _ _ => none
  | .svcFreeUnpark _ => none
  | .migrationStart _ _ _ => none
  | .stalledWriteAccept _ _ => none
  | .migrationSwitch _ => none
  | .forwardEnd _ => none
  | .migrationAbandon _ => none
  | .placeRequest _ => none
  | .ownershipRequest _ _ => none
  | .ownershipGrant _ => none
  | .epochBoundary  => none
  | .scrubComplete _ => none
  | .hedgeCreate _ => none
  | .hedgeResize _ _ _ => none
  | .coreFence _ => none
  | .hedgeReset _ => none
  | .hedgeDestroy _ => none
  | .snapshot _ => none
  | .rollback _ _ _ => none
  | .liveMigration _ _ _ => none
  | .peerRequest _ => none
  | .remoteCounterOp _ => none
  | .rmaWrite _ _ => none
  | .rmaRead _ => none
  | .reductionMerge _ => none
  | .routeTimeout _ _ => none
  | .boot _ => none
  | .attestationReport _ _ => none
  | .clockChange _ _ _ => none
  | .mgmtCoreReset _ => none
  | .gDieAccess _ _ _ _ => none
  | .writeBack _ _ => none
  | .quarterBufferExpiry _ _ _ => none
  | .cxlLinkLoss _ => none
  | .peerRefusal _ _ _ => none
  | .fencedCoreClear _ => none
  | .serviceTableWrite _ => none

end Sys2Proof
end

