-- ==== Sys2Proof/Machine/Memory.lean ====
section
/-! DEFINITION. Byte memory as plain data: a list of (address, byte) pairs in one canonical form, addresses strictly
rising and no entry equal to what an unlisted address reads as. Memory, scratch and shadow frames are held so. -/

namespace Sys2Proof.Machine

/-- Bytes by address (R4); an unlisted address reads as zero, since every frame is zero-filled before it is given out
(R363) and scratch starts as zero (R251). -/
abbrev Memory := List Host.Cell

/-- What an unlisted address reads as (R251, R363) (log 29, DESIGN CHOICE). -/
def Memory.unlisted : Byte := 0

/-- The byte at an address. -/
def Memory.read : Memory → Nat → Byte
  | [], _ => Memory.unlisted
  | (k, v) :: rest, a => if a = k then v else if a < k then Memory.unlisted else Memory.read rest a

/-- The list with the entry for `a` removed. -/
def Memory.erase : Memory → Nat → Memory
  | [], _ => []
  | (k, v) :: rest, a => if a = k then rest else if a < k then (k, v) :: rest else (k, v) :: Memory.erase rest a

/-- The list with the entry for `a` set. -/
def Memory.insert : Memory → Nat → Byte → Memory
  | [], a, b => [(a, b)]
  | (k, v) :: rest, a, b =>
    if a = k then (a, b) :: rest else if a < k then (a, b) :: (k, v) :: rest else (k, v) :: Memory.insert rest a b

/-- The memory with one byte written, in canonical form. -/
def Memory.write (m : Memory) (a : Nat) (b : Byte) : Memory :=
  if b = Memory.unlisted then m.erase a else m.insert a b

/-- Bytes from `a` upwards. -/
def Memory.readN (m : Memory) (a : Nat) : Nat → List Byte
  | 0 => []
  | n + 1 => m.read a :: m.readN (a + 1) n

/-- A little-endian number of `n` bytes at `a` (R4). -/
def Memory.readLE (m : Memory) (a n : Nat) : Nat := leNat (m.readN a n)

/-- Bytes written from `a` upwards. -/
def Memory.writeN (m : Memory) (a : Nat) : List Byte → Memory
  | [] => m
  | b :: bs => (m.write a b).writeN (a + 1) bs

/-- A little-endian number of `n` bytes written at `a` (R4). -/
def Memory.writeLE (m : Memory) (a n x : Nat) : Memory := m.writeN a (leBytes n x)

/-- Every address of the list is at least `lo`, addresses rise strictly and no entry is the unlisted value. -/
def Memory.wfFrom : Nat → Memory → Bool
  | _, [] => true
  | lo, (k, v) :: rest => decide (lo ≤ k) && v != Memory.unlisted && Memory.wfFrom (k + 1) rest

/-- The canonical form. -/
def Memory.wf (m : Memory) : Bool := Memory.wfFrom 0 m

end Sys2Proof.Machine
end

