-- ==== Sys2Proof/Machine/State.lean ====
section
/-! DEFINITION. The state of the machine as plain data, and the state right after reset. Every piece of state that the
spec names is a field here; each docstring cites the rule that names it. -/

namespace Sys2Proof.Machine

/-! ## A group (R11) -/

/-- A V register: one tag for the register, one word a lane (R11, R16). -/
structure VReg where
  tag : Tag
  lanes : Lanes
  deriving DecidableEq, Repr

/-- A tile: its tag, and 32 rows of 32 words, row i held for lane i (R11, R221). -/
structure Tile where
  tag : Tag
  rows : Vector Lanes 32
  deriving DecidableEq, Repr

/-- A frontier entry: priority, byte offset of the clause from the text base, lane mask (R164). -/
structure Entry where
  prio : Nat
  off : Nat
  mask : Mask
  deriving DecidableEq, Repr

/-- The clause in progress: the offset of its header from the text base, the header word and its fields, the
instruction words as latched when the clause was reached, the index of the next instruction, the frontier entry's lane
mask, and the passes still to run, counting this one (R18, R24, R159). -/
structure Clause where
  off : Nat
  headWord : Word64
  head : Header
  words : List Word64
  idx : Nat
  mask : Mask
  passes : Nat
  deriving DecidableEq, Repr

/-- Where one byte of an access lives (R306): memory by host physical address, cached (`mem`), accessed at its home
only (`home`: NC pages and COUNTER buffers, R126, R333) or never held in an L1 (`pub`: PUB buffers, R307); memory as a
speculative launch sees its write set (`spec`, R398); a byte of a workgroup's scratch, of the group's tiles, of a counter; a byte of a word of a reduction window
(R439). -/
inductive Place where
  | mem (pa : Nat)
  | home (pa : Nat)
  | pub (pa : Nat)
  | spec (lseq pa : Nat)
  | scratch (wg off : Nat)
  | tile (off : Nat)
  | ctr (k : CtrKey) (byte : Nat)
  | red (window off : Nat)
  deriving DecidableEq, Repr

/-- A single-copy atomic access of one lane, or one byte of a misaligned one (R138): the places of its bytes in
ascending order, the bytes to be stored, a second operand (the new value of a compare and swap), and the guest virtual
address and the signed offset that a fault record shows (R342). -/
structure LaneAcc where
  lane : Nat
  places : List Place
  data : List Byte
  data2 : List Byte
  va : Nat := 0
  off : Int := 0
  deriving DecidableEq, Repr

/-- Where the result of an outstanding operation goes: a V register (or pair) by FMT, an S register by width, an S
register whole, the old value of an atomic, the rows of a tile, a predicate. -/
inductive Dst where
  | none
  | v (n : Nat) (f : MemFmt)
  | s (n : Nat) (f : ScalarFmt)
  | s64 (n : Nat)
  | old (n : Nat) (ty : AtomTy)
  | tile (t : Nat) (f : TileFmt)
  | pred (p : BitVec 3)
  deriving DecidableEq, Repr

/-- A counter as an operation names it: at a home of this package, or at a peer (R198, R201). -/
inductive CtrRef where
  | here (k : CtrKey)
  | peer (handle : Word64)
  deriving DecidableEq, Repr

/-- The operations on counters that a group leaves outstanding (R205). -/
inductive CtrAct where
  | add (amount : Nat)
  | next (amount : Nat)
  | test (t : Word64)
  | read
  | init (v : Word64)
  | link (parent : CtrKey) (step : Nat)
  | unlink
  | watch (t : Word64) (target : CtrRef) (amount : Nat) (charge : Option Nat) (ar : Bool) (handles : Word64 × Word64)
  deriving DecidableEq, Repr

/-- What an outstanding operation does. -/
inductive OpKind where
  /-- A load (R137). -/
  | load
  /-- A store (R137). -/
  | store
  /-- An atomic that returns the old value, or RED, which does not (R144, R146). -/
  | atom (op : AtomOp) (ty : AtomTy)
  /-- A compare and swap (R145). -/
  | cas (ty : AtomTy)
  /-- CFL or CINV (R148). -/
  | maint (inv : Bool)
  /-- A counter operation (R205). -/
  | ctr (k : CtrRef) (a : CtrAct)
  /-- PLACE, PIN or UNPIN of pages (R376). -/
  | place (tier : Tier)
  | pin
  | unpin
  /-- MCRD.PAGE of the frame of an address, and MCRD.QUOTA (R378). -/
  | mcrd (pa : Nat)
  | quota
  /-- MZERO (R239). -/
  | mzero (t : Nat)
  /-- MVB (R246): weights, vector and result, with the lines still to land. -/
  | mvb (fa fb : MatFmt) (rows : List (List Place)) (vector : List Place) (kb cols : Nat) (result : List Place)
    (todo : List Nat)
  /-- A slice of a copy or rotation that the group supplied (R257). -/
  | slice (copy : Nat)
  /-- PUBL of a range of the buffer (R268). -/
  | publ (lo len : Nat)
  /-- SPCMT or SPDSC of a launch: the pages of buffers still to act on, in order, and the act of .FINAL after them (R402,
  R426). -/
  | resolve (target : Nat) (commit final : Bool) (todo : List (Nat × Nat))
  /-- LNCH, whose result word is still to be written (R387). -/
  | lnch (result : Word64)
  /-- A system instruction of a leading group that is held: it acts when the trailing group has issued it, and but for
  LNCH its group goes no further than its clause before that (R170, R402). -/
  | sys (ends : Bool)
  deriving DecidableEq, Repr

/-- The outstanding class of an operation (R162). -/
inductive OpClass where
  | load | store | copy | tile | none
  deriving DecidableEq, Repr

/-- An operation that a group has issued and that is still outstanding (R162), with the lanes not yet performed, the
values read so far, and its order (R133, R206). -/
structure Op where
  id : Nat
  cls : OpClass
  kind : OpKind
  dst : Dst
  reads : Bool
  writes : Bool
  strong : Bool
  acq : Bool
  rel : Bool
  scope : CtrScope
  emask : Mask
  accs : List LaneAcc
  got : List (Nat × List Byte)
  /-- The 32-byte sectors of memory and scratch that a lane of a write has already written (R262, R286). -/
  wrote : List (Option Nat × Nat)
  /-- The scratch lines whose presence bits the instruction clears once it is released, while it is held (R170, R261). -/
  clears : List (Nat × Nat)
  /-- Held until the trailing group of a checked pair has issued the same instruction; in the trailing group, an
  operation whose result comes through the pair's queue (R170, R219). -/
  held : Bool
  /-- The operand words that a checked pair compares beside the accesses (R170). -/
  words : List Word64
  buf : Nat
  word : Word64
  /-- The clause offset and the index of the instruction. -/
  off : Nat
  idx : Nat
  deriving DecidableEq, Repr

/-- A fence that the group has executed and whose earlier accesses are not all performed: FENCE, or FENCEE (R149,
R150). -/
structure PendingFence where
  engine : Bool
  kind : FenceKind
  scope : Scope
  before : List Nat
  deriving DecidableEq, Repr

/-- An MMA that is issued and not yet performed (R229, R232). -/
structure MmaOp where
  /-- Its place in the group's program order (R231). -/
  id : Nat
  arg : MmaArg
  t : Nat
  emask : Mask
  aRows : List (List Place)
  bRows : List (List Place)
  wa : Word64
  wb : Word64
  /-- Index of the instruction, clause offset and word, for a fault of its reads (R305, R449). -/
  idx : Nat
  off : Nat
  word : Word64
  deriving DecidableEq, Repr

/-- A batch of MMAs: the tiles that it targets, how many MMAs it holds, those still to be performed, in order (R232,
R235), and in a checked pair the rows that they have left in each tile (R170). -/
structure Batch where
  tiles : List Nat
  count : Nat
  mmas : List MmaOp
  results : List (Nat × Vector Lanes 32)
  deriving DecidableEq, Repr

/-- The operand latches of the matrix engine for a group (R237). -/
structure MmaLatch where
  arg : MmaArg
  wa : Word64
  wb : Word64
  a : Option (List (List Byte))
  b : Option (List (List Byte))
  deriving DecidableEq, Repr

/-- Why a group does not start its next clause, or does not issue (R157, R161, R193 to R195, R393, R397, R402, R404). -/
inductive Hold where
  /-- Stopped by TRAP with its resume token (R397). -/
  | trap (token : Nat)
  /-- Stopped by BKPT until the service kernel releases it (R195). -/
  | bkpt
  /-- Waiting for the snapshot that CHKPT asked for (R404). -/
  | chkpt (d : Nat)
  /-- Held for pre-emption, swap-out or a snapshot (R163). -/
  | save
  deriving DecidableEq, Repr

/-- An SVC that parks its entry on-core until a slot is free, and while a home that it writes has no room in its interval log
(R393, R405). -/
structure SvcWait where
  /-- The ticket, once its home has given it. -/
  ticket : Option Word64
  call : BitVec 12
  d : Nat
  emask : Mask
  entry : Entry
  clauseVa : Nat
  /-- The four argument words of each lane of E. -/
  args : List (Nat × List Word64)
  /-- It waits for no waiter on FREE: that has been satisfied, or is not armed yet. -/
  ready : Bool
  deriving DecidableEq, Repr

/-- An SVC whose lanes wait for the reply: its slot, which records everything else (R418), and whether RESUME[i] has
answered. -/
structure SvcReply where
  slot : Nat
  ready : Bool
  deriving DecidableEq, Repr

/-- A CWAIT that the group has not been answered yet: armed at the home, polled, or satisfied with the answer on its
way (R211, R218); in a checked pair, held for comparison (R219). -/
inductive CWaitAt where
  | held | armed | polled | answered
  deriving DecidableEq, Repr

/-- A CWAIT of a group: its counter, threshold and order (R211). -/
structure CWaitRef where
  id : Nat
  key : CtrKey
  t : Word64
  acq : Bool
  scope : CtrScope
  at_ : CWaitAt
  /-- The words that a checked pair compares (R219). -/
  words : List Word64
  deriving DecidableEq, Repr

/-- The state of an emulation by the management core (R71 to R73). -/
inductive Emu where
  | none | trapped | queued | done
  deriving DecidableEq, Repr

/-- A group that a fault has stopped: the code, whether it may resume, whether it is ready again, and its token (R339,
R341, R343, R349). -/
structure Stopped where
  code : FaultCode
  resumable : Bool
  ready : Bool
  token : Nat
  gstage : Bool
  va : Nat
  deriving DecidableEq, Repr

/-- The kernel's code object as a group sees it: text and const sections by guest virtual address and length, and the
buffer that holds them (R22, R89, R384). -/
structure Code where
  text : Nat
  tlen : Nat
  const : Nat
  clen : Nat
  buf : Nat
  deriving DecidableEq, Repr

/-- A group of a checked pair: not paired, the leading group of a trailing one, or the trailing group (R169). -/
inductive Role where
  | single
  | leading (partner : Nat)
  | trailing (partner : Nat)
  deriving DecidableEq, Repr

/-- The leading group of a trailing one (R169). -/
def Role.leader : Role → Option Nat
  | .trailing p => some p
  | .single | .leading _ => none

/-- Where a group sits: physical core, quarter, slot, residency position (R152). -/
structure Seat where
  core : Nat
  quarter : Nat
  slot : Nat
  pos : Nat
  deriving DecidableEq, Repr

/-- One entry of a pair's load-value queue: the instruction and its lane values (R170, R349). -/
structure LvqEntry where
  /-- The place of the instruction in the group's order of outstanding operations. -/
  id : Nat
  off : Nat
  idx : Nat
  emask : Mask
  values : List (Nat × List Byte)
  deriving DecidableEq, Repr

/-- The release tag of a superblock or counter: core, hedge, and CORE rather than GRP (R308, R322). -/
structure RelTag where
  core : Nat
  hedge : Nat
  wide : Bool
  deriving DecidableEq, Repr

/-- UNCORR or SDC of engine work, with what its record shows of the instruction: index, clause offset, word and effective
mask (R247, R269, R342, R449). -/
structure LateFault where
  code : FaultCode
  idx : Nat
  off : Nat
  word : Word64
  mask : Mask
  deriving DecidableEq, Repr

/-- A group: the state of R11 and what the chapters add to it. -/
structure Group where
  /-- An identity of the model's own. -/
  id : Nat
  hedge : Nat
  /-- Launch sequence number (R197). -/
  lseq : Nat
  /-- The workgroup that holds the group. -/
  wg : Nat
  /-- Group number within its workgroup (R197). -/
  number : Nat
  role : Role
  code : Code
  seat : Option Seat
  /-- V registers; their number is the allotment v (R11, R12). -/
  vregs : List VReg
  /-- S registers; their number is the allotment s (R11, R12). -/
  sregs : List Word64
  /-- P0 to P6; P7 has no storage (R11, R14). -/
  preds : Vector Mask 7
  xi : BitVec 16
  /-- Tiles; their number is the allotment acc (R11, R12). -/
  tiles : List Tile
  /-- NV, DZ, OF, UF, NX in bits 4 to 0 (R62). -/
  flags : BitVec 5
  exited : Mask
  frontier : List Entry
  /-- The limb binding (R184). -/
  limb : Option LimbW
  /-- The entry that R166 has selected. -/
  selected : Option Entry
  /-- The replayed clause between two of its passes, as it was latched and checked before the first, with the passes left
  (R18, R27, R161). -/
  replay : Option Clause
  /-- The clause that comes next, fetched and checked when it was first reached and not started yet (R38, R161). -/
  reached : Option Clause
  clause : Option Clause
  /-- Where the clause-ending instruction of the clause sends its lanes: text offsets with masks; none of them where no
  such instruction has issued (R165, R192). -/
  moves : Option (List (Nat × Mask))
  pend : List Op
  fences : List PendingFence
  /-- The scope of the group's last release fence while it is narrower than RECT: its later strong stores are releases at
  that scope (R320, R321). -/
  relScope : Option Scope
  /-- Release tags that the group's relaxed strong reads have met, by superblock, for the acquire part of a later fence
  (R320, R321). -/
  metTags : List (Nat × RelTag)
  metCtrs : List (CtrKey × RelTag)
  /-- The open batch; `restored` keeps the tiles that a saved open batch targeted (R232, R242). -/
  openBatch : Batch
  restored : List Nat
  batches : List Batch
  latch : Option MmaLatch
  /-- The core cycle that a WAIT counts to (R194). -/
  waitUntil : Option Word64
  cwaits : List CWaitRef
  /-- The n of an MWAIT of the clause just run (R234). -/
  mwait : Option Nat
  /-- YIELD asks to be passed over at the next pick (R195). -/
  yielded : Bool
  /-- Parked for presence at the instruction of the clause in progress (R132). -/
  presence : Bool
  emu : Emu
  holds : List Hold
  stop : Option Stopped
  svcWait : Option SvcWait
  svcReplies : List SvcReply
  /-- UNCORR or SDC of engine work, which the next clause boundary raises (R247, R269). -/
  lateFault : Option LateFault
  /-- CPYs and RROTs executed, each mod 2^32 (R349). -/
  cpys : Nat
  rrots : Nat
  lvq : List LvqEntry
  /-- What RDSR has returned to a leading group, by `issued`, for its trailing group (R169). -/
  rdsrs : List (Nat × Word64)
  nextOp : Nat
  /-- The model's own count of instructions issued, by which the two groups of a pair are compared (log 17, DESIGN CHOICE). -/
  issued : Nat
  /-- The fault that this group of a pair has raised at the instruction that its partner has not reached (R172). -/
  pairFault : Option FaultCode
  deriving DecidableEq, Repr

/-- A V register at group start (R11). -/
def VReg.zero : VReg := ⟨.raw, Vector.replicate 32 0⟩

/-- A tile at group start (R11). -/
def Tile.zero : Tile := ⟨.raw, Vector.replicate 32 (Vector.replicate 32 0)⟩

/-- A group as it starts: the state of R11, with the allotments given. -/
def Group.start (id v s acc : Nat) : Group where
  id := id
  hedge := 0
  lseq := 0
  wg := 0
  number := 0
  role := .single
  code := ⟨0, 0, 0, 0, 0⟩
  seat := none
  vregs := List.replicate v VReg.zero
  sregs := List.replicate s 0
  preds := Vector.replicate 7 0
  xi := 0
  tiles := List.replicate acc Tile.zero
  flags := 0
  exited := 0
  frontier := [⟨0, 0, BitVec.allOnes 32⟩]
  limb := none
  selected := none
  replay := none
  reached := none
  clause := none
  moves := none
  pend := []
  fences := []
  relScope := none
  metTags := []
  metCtrs := []
  openBatch := ⟨[], 0, [], []⟩
  restored := []
  batches := []
  latch := none
  waitUntil := none
  cwaits := []
  mwait := none
  yielded := false
  presence := false
  emu := .none
  holds := []
  stop := none
  svcWait := none
  svcReplies := []
  lateFault := none
  cpys := 0
  rrots := 0
  lvq := []
  rdsrs := []
  nextOp := 0
  issued := 0
  pairFault := none

/-! ## Caches and translation (R307, R336) -/

/-- A line of an L1 data cache or of a quarter buffer: line number, hedge, bytes, and a dirty bit a byte (R307, R173). -/
structure Line where
  num : Nat
  hedge : Nat
  data : List Byte
  dirty : BitVec 128
  /-- It holds an uncorrectable error (R173). -/
  bad : Bool := false
  deriving DecidableEq, Repr

/-- A quarter-buffer line with its quarter and the core cycle at which it was fetched (R307). -/
structure QLine where
  quarter : Nat
  line : Line
  since : Word64
  deriving DecidableEq, Repr

/-- What the leaf of one stage allows: R, W, X, and writes by its D bit (R334). -/
structure Rights where
  r : Bool
  w : Bool
  x : Bool
  d : Bool
  deriving DecidableEq, Repr

/-- A cached translation: hedge, first guest virtual address and size of the page, host physical base, the rights of its
VS leaf and of its G leaf, and whether the page is NC (R333, R334, R336). -/
structure TlbEntry where
  hedge : Nat
  va : Nat
  size : Nat
  pa : Nat
  vs : Rights
  g : Rights
  nc : Bool
  deriving DecidableEq, Repr

/-- An entry of a die's L2 TLB: a combined leaf, or a non-leaf entry of a stage by the address that the walk reads it
at, guest physical for VS and host physical for G (R336). -/
inductive L2Entry where
  | leaf (t : TlbEntry)
  | table (hedge : Nat) (gstage : Bool) (addr : Nat) (pte : Word64)
  deriving DecidableEq, Repr

/-- How a walk failed: the stage, whether it resumes, and the rights of the leaves found before the failure, which an
access that they refuse faults by first (R334). -/
structure WalkAnswer where
  gstage : Bool
  resumable : Bool
  vs : Option Rights
  g : Option Rights
  deriving DecidableEq, Repr

/-- A walk that lanes of a hedge's groups on a core wait for; a failed one holds its answer until the instruction at
issue takes the fault (R334, R337). -/
structure Walk where
  hedge : Nat
  core : Nat
  va : Nat
  answer : Option WalkAnswer
  deriving DecidableEq, Repr

/-- A copy of a superblock in a die L2 or in a home cache slice: the die or the slice, the hedge whose quota it uses, its
number, and the valid and dirty bits of its four lines (R307 to R309). -/
structure SBlock where
  cache : Nat
  hedge : Nat
  num : Nat
  valid : BitVec 4
  dirty : BitVec 4
  deriving DecidableEq, Repr

/-! ## Cores, scratch and workgroups -/

/-- A group that has started a clause in a slot, with its place there (R159). -/
structure Started where
  quarter : Nat
  slot : Nat
  pos : Nat
  group : Nat
  deriving DecidableEq, Repr

/-- A core (R152, R153, R156, R159, R173, R351). -/
structure Core where
  /-- The slot map: the owner of each slot number. -/
  slots : List (Option Nat)
  cycle : Word64
  /-- The groups that have started a clause in a slot, the most recent last (R159). -/
  last : List Started
  fenced : Bool
  mhz : Nat
  l1 : List Line
  quarters : List QLine
  tlb : List TlbEntry
  deriving DecidableEq, Repr

/-- A workgroup with its scratch allotment (R249 to R251, R348). -/
structure Workgroup where
  id : Nat
  hedge : Nat
  lseq : Nat
  index : Nat
  /-- Logical core of the hedge. -/
  lcore : Nat
  pos : Nat
  /-- Physical core while it is resident. -/
  core : Option Nat
  /-- The number that RDSR.WGID reads (R197). -/
  wgid : Nat
  /-- Allotment in bytes. -/
  size : Nat
  scratch : Memory
  /-- Lines whose presence bit is clear. -/
  absent : List Nat
  copies : Nat
  rots : Nat
  /-- The group numbers that have retired, and those that the service kernel has ended (R257, R341). -/
  retired : List Nat
  ended : List Nat
  /-- Swapped out under R390: not placed again before the progress launch is placed. -/
  swapped : Option Nat
  /-- Where the workgroup's context image lies, once one was asked for: host physical address (R303, R348). -/
  image : Option Nat
  /-- Scratch lines that hold an uncorrectable error (R305). -/
  bad : List Nat := []
  deriving DecidableEq, Repr

/-! ## Counters -/

/-- The order of a watch: under .AR the scope at which it acquires the adds that satisfy it, and the release tag that its
add leaves, a strong store at its scope (none where it leaves the tag alone) (R215, R322). -/
structure WatchOrder where
  acq : Option CtrScope
  rel : Option (Option RelTag)
  deriving DecidableEq, Repr

/-- What a satisfied waiter does: it answers a CWAIT, a dependence of a queued launch, an SVC parked on FREE, a pending
SVC reply, or it fires a watch (R211, R215, R388, R393). -/
inductive WaitFor where
  | cwait (group id : Nat)
  | dep (hedge seq i : Nat)
  | svcFree (group : Nat)
  | svcReply (group slot : Nat)
  | watch (hedge : Nat) (target : CtrRef) (amount : Nat) (charge : Option Nat) (order : WatchOrder)
    (handles : Word64 × Word64)
  deriving DecidableEq, Repr

/-- A waiter at a home (R204). -/
structure Waiter where
  who : WaitFor
  hedge : Nat
  t : Word64
  deriving DecidableEq, Repr

/-- A pending add of a speculative launch, attributed to the page of a copy's chunk or not (R219, R401). -/
structure PendingAdd where
  hedge : Nat
  lseq : Nat
  amount : Nat
  page : Option (Nat × Nat)
  deriving DecidableEq, Repr

/-- A counter at its home (R199, R214, R215, R219, R297, R298). The value of class 3 is in memory. -/
structure Ctr where
  value : Word64
  waiters : List Waiter
  /-- Parent and LOGS. -/
  link : Option (CtrKey × Nat)
  /-- Registrations of relays: the relay's linked counter and the threshold. -/
  regs : List (CtrKey × Word64)
  /-- Proxy waiters that the relay holds at this linked counter, with the counter that they name. -/
  proxies : List (CtrKey × Waiter)
  pending : List PendingAdd
  tag : Option RelTag
  deriving DecidableEq, Repr

/-- An add on its way to a home: a completion add, a fired watch, DONE, FREE, an error counter (R209, R215, R260). -/
structure AddReq where
  target : CtrRef
  hedge : Nat
  /-- The speculative launch whose add it is, with the page of its chunk (R401). -/
  spec : Option (Nat × Option (Nat × Nat))
  amount : Nat
  /-- Source and target handles of the watch whose add it is (R215). -/
  watch : Option (Word64 × Word64)
  /-- The release tag that it leaves as a release at its scope; no release where there is none (R260, R322). -/
  rel : Option (Option RelTag) := none
  /-- Sent to its peer, whose acknowledgement is still due (R435, R437). -/
  sent : Bool := false
  deriving DecidableEq, Repr

/-- A crossing add on its way to the parent (R296). -/
structure Crossing where
  child : CtrKey
  parent : CtrKey
  amount : Nat
  deriving DecidableEq, Repr

/-- A down-flip on its way to a relay: the relay's linked counter, the parent, the value at its place, and the proxy
waiters that the value satisfies, with the counter that they name (R298). -/
structure Flip where
  relay : CtrKey
  parent : CtrKey
  value : Word64
  hits : List (CtrKey × Waiter)
  deriving DecidableEq, Repr

/-! ## Copies -/

/-- Where one side of a slice lies: a buffer, or a window of a workgroup (0xFFE and 0xFFF, R254). -/
inductive Side2 where
  | buf (index : Nat)
  | own (wg : Nat)
  | region (die lseq : Nat)
  deriving DecidableEq, Repr

/-- A run of contiguous bytes that a slice moves: source offset, destination offset, length (R255, R263). -/
structure Run where
  src : Int
  dst : Int
  len : Nat
  deriving DecidableEq, Repr

/-- What a slice moves: the elements of a descriptor, by dimensions of (extent, source stride, destination stride)
above a contiguous dimension 0 of `len` bytes (R255); the rows of CPYG (R263); a repeated fill value (R264). -/
inductive Geom where
  | tensor (src dst : Int) (len : Nat) (dims : List (Nat × Int × Int))
  | rows (runs : List Run)
  | fill (dst : Int) (len : Nat) (dims : List (Nat × Int × Int)) (value : List Byte)
  deriving DecidableEq, Repr

/-- A slice of a copy or rotation (R257, R259, R263 to R265): the group that supplied it, its number and workgroup, the
operation that it left outstanding, its sides and geometry, the counter handle (none for an empty slice), P, SCOPE, and
the instruction word and registers that a context image holds (R349). -/
structure Slice where
  group : Nat
  number : Nat
  wg : Nat
  op : Nat
  src : Side2
  dst : Side2
  geom : Geom
  handle : Option Word64
  pub : Bool
  scope : Scope
  word : Word64
  regs : List Word64
  /-- Index of the instruction, clause offset and effective mask (R269, R342). -/
  idx : Nat
  off : Nat
  mask : Mask
  /-- Sectors read, by floor(offset / 32), with their bytes. -/
  got : List (Int × List Byte)
  /-- Destination sectors written, by floor(offset / 32) (R260). -/
  put : List Int
  /-- Chunks landed, and chunks whose add has been made (R259, R267). -/
  landed : List Int
  added : List Int
  /-- A rollback has brought the slice back: lines that it has yet to land in are present (R270). -/
  rolled : Bool := false
  deriving DecidableEq, Repr

/-- A copy: CPY's n-th of a workgroup, a CPYG or CPYS alone, or a launch's n-th rotation (R257, R263 to R265). -/
structure Copy where
  id : Nat
  hedge : Nat
  lseq : Nat
  /-- The workgroup; for a rotation the launch has none. -/
  wg : Option Nat
  n : Nat
  rot : Bool
  slices : List Slice
  started : Bool
  published : Bool
  abandoned : Bool
  /-- The handles for which an abandoned copy has had its record (R257, R269). -/
  told : List Word64 := []
  deriving DecidableEq, Repr

/-- A shadow frame of a 4 KiB page of memory: the unpublished layer of a PUB page (none), or the layer of a
speculative launch (R266, R398, R399). -/
structure Shadow where
  hedge : Nat
  layer : Option Nat
  /-- Physical address of the page divided by 4096. -/
  page : Nat
  data : Memory
  deriving DecidableEq, Repr

/-! ## Frames and home agents -/

/-- A migration in progress: COPY with the stalled-write window's bytes, or FORWARD (R367 to R369). -/
inductive Mig where
  | copy (newFrame : Nat) (tier : Tier) (window : List (Nat × Byte))
  | forward (newFrame : Nat)
  deriving DecidableEq, Repr

/-- The record of a pool frame in the ownership table: the package that owns it (none: this one) and the other packages that
map it; and the ownership requests that wait here, oldest first (R373). -/
structure Pool where
  owner : Option (BitVec 48)
  sharers : List (BitVec 48)
  requests : List (BitVec 48)
  /-- An ownership request of this package is on its way. -/
  asked : Bool
  deriving DecidableEq, Repr

/-- This package owns the frame (R373). -/
def Pool.owned (p : Pool) : Bool := p.owner.isNone

/-- The number of packages that map the frame (R373). -/
def Pool.mappers (p : Pool) : Nat := 1 + p.sharers.length

/-- The record of a pool frame that this package takes for itself. -/
def Pool.own : Pool := ⟨none, [], [], false⟩

/-- A host frame of 64 KiB (R357, R359, R361, R363, R365, R376, R378). A frame that is not listed is FREE. -/
structure Frame where
  owner : Option Nat
  scrub : Bool
  retired : Bool
  slice : Option Nat
  tier : Tier
  mig : Option Mig
  pool : Option Pool
  pin : Bool
  pinref : Bool
  migs : Nat
  rd : Nat
  wr : Nat
  /-- The layout that it was placed with: interleave class, channel mask, GRAN (R359). -/
  iclass : Nat := 0
  mask : BitVec 48 := 0
  gran : Nat := 0
  deriving DecidableEq, Repr

/-- A PLACE request in its home's queue (R377). -/
structure PlaceReq where
  hedge : Nat
  slice : Nat
  frame : Nat
  tier : Tier
  allowed : BitVec 3
  deriving DecidableEq, Repr

/-! ## Hedges and launches -/

/-- A launch dependence: handle, threshold, and whether its waiter has been satisfied (R388). -/
structure Dep where
  key : CtrKey
  t : Word64
  met : Bool
  deriving DecidableEq, Repr

/-- The speculation of a launch: its write set, the pages already resolved, the publishes held with it, by buffer and
page, and whether it is resolved (R398, R399, R402). -/
structure Spec where
  wset : List Nat
  done : List (Nat × Nat)
  held : List (Nat × Nat)
  resolved : Bool
  deriving DecidableEq, Repr

/-- A launch in the queue of its hedge (R385 to R391). -/
structure Launch where
  seq : Nat
  cls : Nat
  spec : Option Spec
  p : Nat
  groups : Nat
  wgcount : Nat
  rect : Rect
  deps : List Dep
  done : Option CtrKey
  /-- Allotments: v, s, acc, scratch bytes. -/
  v : Nat
  s : Nat
  acc : Nat
  scr : Nat
  code : Code
  entry : Nat
  /-- The S registers that BIND and the record set at group start (R386). -/
  binds : List (Nat × Word64)
  admitted : Bool
  /-- Workgroups placed so far, in index order. -/
  placed : Nat
  finished : Nat
  complete : Bool
  /-- The logical cores on which it holds its launch region (R249). -/
  held : List Nat := []
  /-- The lowest number of a rotation that a group which the service kernel ended has not joined (R257, R265). -/
  rotLost : Option Nat
  deriving DecidableEq, Repr

/-- The error queue that EQCONFIG set up: the ring's buffer, log2 of its records, the counter block's buffer, and the
records dropped since the last one was written (R394, R411, R413). -/
structure ErrQueue where
  buf : Nat
  log2 : Nat
  block : Nat
  lost : Nat
  deriving DecidableEq, Repr

/-- A hart of the G-die: the reservation of LR (address, bytes), and the value that its last access returned (R328). -/
structure Hart where
  reserved : Option (Nat × Nat)
  value : Word64
  /-- Its last access raised an exception: misaligned, or a page fault. -/
  raised : Bool
  /-- A misaligned access that is performed byte by byte: its address and the bytes done, lowest first (R328). -/
  todo : Option (Nat × List Byte)
  /-- The release tags that its relaxed loads have met, by superblock and counter, for a later FENCE r,rw (R321, R328). -/
  metTags : List (Nat × RelTag)
  metCtrs : List (CtrKey × RelTag)
  deriving DecidableEq, Repr

/-- A line of an interval log: of memory, or of the shadow frame of a layer; its number, its old bytes, and the check codes of
its sectors that differ from the codes of those bytes (R405, R409). -/
structure LogLine where
  shadow : Option (Option Nat)
  line : Nat
  data : List Byte
  codes : List (Nat × BitVec 16)
  deriving DecidableEq, Repr

/-- A buffer that BUFFREE has freed in the interval, as it stood: its index and entry, the G-stage entries of its pages, its
frames with their bytes, codes and errors, and the lines of theirs that the interval log held. A rollback gives the frames
back that have not been scrubbed or given out since (R363, R406; log 52, DEDUCED). -/
structure Freed where
  index : Nat
  words : List Word64
  maps : List (Nat × Word64)
  frames : List (Nat × Frame)
  cells : Memory
  codes : List (Nat × BitVec 16)
  bad : List Nat
  log : List LogLine
  deriving DecidableEq, Repr

/-- A snapshot of a hedge: what a rollback restores beside the interval logs (R403, R406) (log 33, DESIGN CHOICE). -/
structure Snapshot where
  interval : Nat
  groups : List Group
  wgs : List Workgroup
  ctrs : List (CtrKey × Ctr)
  launches : List Launch
  nextSeq : Nat
  shadows : List Shadow
  copies : List Copy
  counts : List (Nat × Nat × Nat)
  /-- Buffer table, without the entries that have been freed since, vsatp and calls. -/
  bufs : List (Nat × List Word64)
  vsatp : Word64
  calls : List (Nat × List Nat)
  /-- The accumulators, which lie in frames of the hedge (R405, R440). -/
  accs : List ((Nat × Nat) × Contribution)
  /-- The G-die guest state (R406). -/
  harts : List (Nat × Hart)
  deriving DecidableEq, Repr

/-- A watch that a group has armed at a peer and whose target is a counter of a file here: the route, the handles of source and
target, and the target (R215, R436). -/
structure FarWatch where
  route : Nat
  source : Word64
  target : Word64
  key : CtrKey
  deriving DecidableEq, Repr

/-- A hedge (R380 to R383, R392, R403 to R413, R433, R439, R440). -/
structure Hedge where
  p : HedgeParams
  /-- The physical rectangle and slot numbers as they stand after resizes (R382). -/
  rect : Rect
  slots : List Nat
  /-- The core map: logical core to physical core (R381). -/
  map : List Nat
  vsatp : Word64
  hgatp : Word64
  /-- Buffer table, interleave, bank layout, peer route and reduction window tables: entries by index, as words
  (R123, R244, R359, R433, R439). -/
  bufs : List (Nat × List Word64)
  interleave : List (Nat × List Word64)
  banks : List (Nat × List Word64)
  routes : List (Nat × List Word64)
  windows : List (Nat × List Word64)
  /-- Accumulators of reduction windows, by window and word (R440). -/
  accs : List ((Nat × Nat) × Contribution)
  /-- Watches at peers that have yet to add to a counter file here (R436). -/
  farWatches : List FarWatch
  epoch : BitVec 32
  launches : List Launch
  nextSeq : Nat
  errq : Option ErrQueue
  interval : Nat
  /-- The interval logs (R405). -/
  log : List LogLine
  /-- The buffers freed in the interval (R406). -/
  freed : List Freed
  snap : Option Snapshot
  /-- Causes of the rollbacks of this interval (R407). -/
  rolled : List (RollCause × Nat)
  /-- Adds sent to peers in this interval, and bytes sent over Ultra Ethernet (R406). -/
  sentAdds : Nat
  sentBytes : Nat
  /-- The key generation: a reset gives a new key (R383). -/
  key : Nat
  nextToken : Nat
  /-- Where the guest physical space that the service kernel has taken begins (R448), counted down from the guest size. -/
  nextGpa : Nat
  /-- SVC calls in the slots that have not been served, with the lanes still to serve (R394). -/
  calls : List (Nat × List Nat)
  /-- Unconsumed events, counted by the hub (R344). -/
  unconsumed : Nat
  /-- A snapshot that CHKPT or a full log has asked for (R403). -/
  wantSnap : Bool
  /-- A resize whose pre-emptions are under way (R382), and the package that a live migration goes to (R414). -/
  resize : Option (Rect × List Nat)
  moving : Option (BitVec 48)
  deriving DecidableEq, Repr

/-! ## The package -/

/-- What the service kernel asks a management core for: to save a workgroup, or one group of it that waits for a reply, to restore
one, or to assist a snapshot of a hedge on a die (R303). -/
inductive Service where
  | save (wg : Nat)
  | saveGroup (group : Nat)
  | restore (wg : Nat)
  | snapshot (hedge die : Nat)
  deriving DecidableEq, Repr

/-- A service for a workgroup. -/
def Service.names (x : Service) (w : Nat) : Bool :=
  match x with
  | .save v | .restore v => v == w
  | .saveGroup _ | .snapshot _ _ => false

/-- A request of the service kernel to a management core: the memory that the image lies in, the counter that receives the
release add, and whether a system turn has taken it up (R303; log 81, DESIGN CHOICE). -/
structure MgmtReq where
  what : Service
  base : Nat
  counter : Option CtrKey
  taken : Bool
  deriving DecidableEq, Repr

/-- A comparison of a checked pair that failed, as the management core gathers it: the record, and the instruction word,
lane mask and two values that differ (R172, R304). -/
structure Mismatch where
  hedge : Nat
  record : List Word64
  word : Word64
  mask : Mask
  a : Word64
  b : Word64
  deriving DecidableEq, Repr

/-- An event that a management core gathers (R304): a comparison that failed, or a failure of the cluster (R305). -/
inductive ClusterEvent where
  | mismatch (m : Mismatch)
  | failure (n : Nat) (e : ErrEvent) (i : Nat)
  deriving DecidableEq, Repr

/-- A management core (R300): the turn table, an entry a hedge or the system, and the turn that comes next (R301); the
FMTEMU queues (R302); the requests and the events that its system turns serve (R303, R304); and its SRAM of 256 KiB, which
reads as zeros beyond what is listed (R300, R443; log 10, DESIGN CHOICE). -/
structure Mgmt where
  table : List (Option Nat)
  turn : Nat
  /-- (hedge, group) in arrival order, at most 64 a hedge. -/
  queue : List (Nat × Nat)
  requests : List MgmtReq
  events : List ClusterEvent
  sram : List Byte
  deriving DecidableEq, Repr

/-- A request of a peer that has been accepted and is being performed: the sectors done (R435, R438). -/
structure PeerJob where
  req : PeerReq
  done : List Nat
  deriving DecidableEq, Repr

/-- A hedge on its way to another package, as step 4 of R414 lists it: with its snapshot, its frames with their bytes, codes and
errors, adds on their way, accepted PLACE requests, and the requests of peers that it has accepted; and the source package. -/
structure Moved where
  hedge : Hedge
  snap : Snapshot
  frames : List (Nat × Frame)
  cells : Memory
  codes : List (Nat × BitVec 16)
  bad : List Nat
  adds : List AddReq
  places : List PlaceReq
  jobs : List PeerJob
  source : BitVec 48
  deriving DecidableEq, Repr

/-- A hedge that arrives from another package, with the place that this one gives it: rectangle, slot numbers, and new frames by
old ones (R414). -/
structure Arrival where
  moved : Moved
  rect : Rect
  slots : List Nat
  place : List (Nat × Nat)
  deriving DecidableEq, Repr

/-- The two ends of a request to a peer: the target package and hedge, and the source hedge with its epoch; the source package is
this one (R435). -/
structure PeerLink where
  faddr : BitVec 48
  phedge : Nat
  hedge : Nat
  epoch : BitVec 32
  deriving DecidableEq, Repr

/-- What the package sends: to peers (operations on their counters, contributions, replies, ownership), and through the
SBI (R394, R435, R436, R440, R373, R445) (log 12, DESIGN CHOICE). -/
inductive Msg where
  | ctr (to_ : PeerLink) (group op : Nat) (handle : Word64) (act : CtrAct)
  /-- A contribution, with the switch reduction group, and buffer and offset at the home (R439, R441). -/
  | contribute (to_ : PeerLink) (group op switch buf off : Nat) (c : Contribution)
  | add (to_ : PeerLink) (handle : Word64) (amount : Nat)
  /-- Reply code, data, and the check codes that leave with the data (R409, R438). -/
  | reply (faddr : BitVec 48) (code : Nat) (data : List Byte) (codes : List (BitVec 16))
  | ownerRequest (frame : Nat)
  | ownerGrant (frame : Nat) (faddr : BitVec 48)
  | ownerForward (frame : Nat) (to_ faddr : BitVec 48)
  | migrate (faddr : BitVec 48) (m : Moved)
  /-- A peer with a route to a hedge that has moved is told where it is, and acknowledges that it has switched (R414, R442). -/
  | switch (faddr : BitVec 48) (phedge hedge : Nat) (to_ : BitVec 48)
  | switched (faddr : BitVec 48) (phedge hedge : Nat)
  /-- Bytes that G-die software sends (R432). -/
  | transfer (faddr : BitVec 48) (hedge : Nat) (data : List Byte)
  | forward (faddr : BitVec 48) (r : PeerReq)
  | sbi (hedge : Nat) (code rval : Word64)
  | guestCall (hedge slot lane call : Nat) (args : List Word64)
  | report (hedge : Nat) (bytes : List Byte)
  deriving DecidableEq, Repr

/-- An entry of the physical log (R173, R305, R342, R352, R362, R371, R407, R435) (log 9, DESIGN CHOICE). -/
inductive LogEntry where
  | record (slice hedge : Nat) (words : List Word64)
  | clock (core old new : Nat)
  | fenced (core : Nat)
  | homeless (hedge : Nat)
  | link (port : Nat)
  | unconsumed (hedge : Nat)
  | targetFrame (frame : Nat)
  | reset (hedge : Nat)
  | image (hedge wg : Nat)
  | refused (faddr : BitVec 48) (code : Nat)
  | mgmt (die : Nat)
  | bootFailure
  | breakpoint (slice hedge code clause : Nat)
  /-- A comparison of a checked pair failed, with the two differing values (R304). -/
  | mismatch (slice hedge : Nat) (word : Word64) (mask : Mask) (a b : Word64)
  /-- A page of a die's scratch pool has been retired (R305). -/
  | retired (die : Nat)
  /-- An error, corrected or not, attributed to a hedge (R173, R305). -/
  | error (hedge : Nat) (corrected : Bool)
  /-- A cluster failure of a hedge, through the service core of the slice that owns the hedge's context (R304, R305). -/
  | cluster (slice hedge : Nat) (e : ErrEvent)
  /-- A die's crossbar or cluster file has failed (R305). -/
  | die (d : Nat)
  deriving DecidableEq, Repr

/-- How far the package has come up: the stage that runs, and for the first two whether it tries flash bank B; `kernel`
and `mgmt` load the firmware of die 0's and die 1's management core (R443). -/
inductive Stage where
  | rom | romB | loader | loaderB | kernel | mgmt | gdie | up | recovery
  deriving DecidableEq, Repr

/-! ## Faults and refusals of the model -/

/-- What stops the whole machine. A fault of a group is no fault of the machine: it is taken (R339, R342). -/
inductive Fault where
  /-- An access names a physical address at or beyond 2^45, where no storage is (R308). Raised by the completion of a walk,
  which names it; safe. -/
  | noStorage (addr : Nat)
  deriving DecidableEq, Repr

/-- What the model has no meaning for. -/
inductive Refusal where
  /-- No meaning yet for the named row of the opcode table; safe. -/
  | notModelled (mnemonic : String)
  deriving DecidableEq, Repr

/-! ## The whole machine -/

/-- The state of the machine. -/
structure State where
  /-- The group on the issue slot, and every other group. -/
  focus : Group
  others : List Group
  /-- The model's own fields (log 1, DESIGN CHOICE): happenings still to come, the groups that each quarter whose issue is
  due may issue from, the one preferred first, the next identity, the free-value counter, the core whose cycle comes
  next. -/
  agenda : List Instr
  grants : List (List Nat)
  nextId : Nat
  freeCtr : Nat
  turnCore : Nat
  /-- Memory by host physical address (R308). -/
  mem : Memory
  /-- Stored check codes of sectors that differ from the code of their bytes, and lines with an uncorrectable error
  (R340, R409). -/
  codes : List (Nat × BitVec 16)
  bad : List Nat
  frames : List (Nat × Frame)
  /-- Release tags by superblock number (R308, R322). -/
  tags : List (Nat × RelTag)
  shadows : List Shadow
  cores : List (Nat × Core)
  /-- What the die L2s and the home cache slices hold (R307 to R309). -/
  l2 : List SBlock
  slices : List SBlock
  /-- Which agents have accessed each byte of memory: bit 0 and 1 those of die 0 and 1, bit 2 any other (R318). -/
  seen : List (Nat × BitVec 3)
  /-- Die L2 TLBs: (die, entry) (R336). -/
  l2tlb : List (Nat × L2Entry)
  walks : List Walk
  wgs : List Workgroup
  hedges : List Hedge
  ctrs : List (CtrKey × Ctr)
  adds : List AddReq
  crossings : List Crossing
  flips : List Flip
  copies : List Copy
  places : List PlaceReq
  mgmt : List Mgmt
  /-- Pages retired from each die's scratch pool (R305; log 68, DESIGN CHOICE). -/
  poolRetired : List Nat
  /-- How often each page of a hedge's scratch share on a core has needed correction in this scrub cycle (R305). -/
  fixes : List ((Nat × Nat × Nat) × Nat)
  /-- The frames of the CXL pool that are visible (R362; log 91, DESIGN CHOICE). -/
  poolFrames : Nat
  /-- The hub's 128 key slots, by number: those that are loaded (R364; log 84, DESIGN CHOICE). -/
  keys : List (Nat × BitVec 512)
  harts : List (Nat × Hart)
  /-- The clocks of the G-die cores' islands, in MHz, that do not run at 1600 (R351; log 5, PRESUMED). -/
  gclocks : List (Nat × Nat)
  /-- The CXL ports that have lost their link (R362). -/
  cxlDown : List Nat
  jobs : List PeerJob
  outbox : List Msg
  /-- The hedges that arrive from other packages (R414). -/
  arrivals : List Arrival
  /-- The hedges that have moved away: where each is now, and the peers with a route to it that have not switched yet (R414,
  R442). -/
  movedAway : List (Nat × BitVec 48 × List (BitVec 48 × Nat))
  physLog : List LogEntry
  stage : Stage
  /-- MEAS0 to MEAS3 (R444). -/
  meas : Vector (BitVec 256) 4
  /-- Security versions of the images that run, by stage (R443, R445). -/
  versions : Vector Word64 4
  /-- Dies whose management firmware failed, and whether the G-die's did (R443). -/
  deadDies : List Nat
  noGDie : Bool
  deriving DecidableEq, Repr

/-- A core that no entry lists: no slot assigned, its count at the free start of R5 (log 5, PRESUMED, log 6, DESIGN CHOICE). -/
def Core.initial (c : Nat) : Core where
  slots := List.replicate 16 none
  cycle := Config.cycleAtReset c
  last := []
  fenced := false
  mhz := 1600
  l1 := []
  quarters := []
  tlb := []

/-- A counter that no entry lists: zero, with nothing waiting (R383; log 3, DESIGN CHOICE). -/
def Ctr.initial : Ctr := ⟨0, [], none, [], [], [], none⟩

/-- A frame that no entry lists: FREE (R363). -/
def Frame.free (t : Tier) : Frame where
  owner := none
  scrub := false
  retired := false
  slice := none
  tier := t
  mig := none
  pool := none
  pin := false
  pinref := false
  migs := 0
  rd := 0
  wr := 0

/-- A management core at reset: every turn is the system's (log 10, DESIGN CHOICE). -/
def Mgmt.initial : Mgmt := ⟨List.replicate 256 none, 0, [], [], [], []⟩

/-- The machine right after power-on: the boot ROM is next (R443), no hedge exists, nothing is resident, memory lists
nothing (R363), the measurement registers are zero (R444). The group in focus is as R11 starts a group, with the
largest allotments (log 2, DESIGN CHOICE) (log 4, DESIGN CHOICE). -/
def State.reset : State where
  focus := Group.start 0 256 128 64
  others := []
  agenda := []
  grants := []
  nextId := 1
  freeCtr := 0
  turnCore := 0
  mem := []
  codes := []
  bad := []
  frames := []
  tags := []
  shadows := []
  cores := []
  l2 := []
  slices := []
  seen := []
  l2tlb := []
  walks := []
  wgs := []
  hedges := []
  ctrs := []
  adds := []
  crossings := []
  flips := []
  copies := []
  places := []
  mgmt := [Mgmt.initial, Mgmt.initial]
  poolRetired := [0, 0]
  fixes := []
  poolFrames := 268435456
  keys := []
  harts := []
  gclocks := []
  cxlDown := []
  jobs := []
  outbox := []
  arrivals := []
  movedAway := []
  physLog := []
  stage := .rom
  meas := Vector.replicate 4 0
  versions := Vector.replicate 4 0
  deadDies := []
  noGDie := false

end Sys2Proof.Machine
end

