-- ==== Sys2Proof/Machine/Home.lean ====
section
/-! DEFINITION. Where values live (spec 15): memory at its home with migration windows, interval logs and check codes,
L1 and quarter-buffer lines, scratch, and lookups of the parts of the machine. -/

namespace Sys2Proof.Machine

/-! ## Lists of pairs as maps -/

/-- The entry of a key. -/
def find1 {α β : Type} [DecidableEq α] : List (α × β) → α → Option β
  | [], _ => none
  | (k, v) :: rest, a => if k = a then some v else find1 rest a

/-- The map with the entry of a key set. -/
def put1 {α β : Type} [DecidableEq α] : List (α × β) → α → β → List (α × β)
  | [], a, b => [(a, b)]
  | (k, v) :: rest, a, b => if k = a then (a, b) :: rest else (k, v) :: put1 rest a b

/-- The map without a key. -/
def del1 {α β : Type} [DecidableEq α] (m : List (α × β)) (a : α) : List (α × β) := m.filter fun p => p.1 ≠ a

/-! ## Lookups -/

/-- The hedge with an identity. -/
def State.hedge (s : State) (h : Nat) : Option Hedge := s.hedges.find? fun x => x.p.id == h

/-- The state with one hedge changed. -/
def State.mapHedge (s : State) (h : Nat) (f : Hedge → Hedge) : State :=
  { s with hedges := s.hedges.map fun x => if x.p.id == h then f x else x }

/-- A launch of a hedge by sequence number. -/
def State.launch (s : State) (h q : Nat) : Option Launch :=
  (s.hedge h).bind fun x => x.launches.find? fun l => l.seq == q

/-- The state with one launch changed. -/
def State.mapLaunch (s : State) (h q : Nat) (f : Launch → Launch) : State :=
  s.mapHedge h fun x => { x with launches := x.launches.map fun l => if l.seq == q then f l else l }

/-- A core; unlisted ones are as at reset. -/
def State.core (s : State) (c : Nat) : Core := (find1 s.cores c).getD (Core.initial c)

/-- The state with one core changed. -/
def State.mapCore (s : State) (c : Nat) (f : Core → Core) : State := { s with cores := put1 s.cores c (f (s.core c)) }

/-- A workgroup by identity. -/
def State.wgOf (s : State) (w : Nat) : Option Workgroup := s.wgs.find? fun x => x.id == w

/-- The state with one workgroup changed. -/
def State.mapWg (s : State) (w : Nat) (f : Workgroup → Workgroup) : State :=
  { s with wgs := s.wgs.map fun x => if x.id == w then f x else x }

/-- Every group of the machine. -/
def State.groups (s : State) : List Group := s.focus :: s.others

/-- A group by identity. -/
def State.group (s : State) (g : Nat) : Option Group := s.groups.find? fun x => x.id == g

/-- The state with one group changed. -/
def State.mapGroup (s : State) (g : Nat) (f : Group → Group) : State :=
  { s with
    focus := if s.focus.id = g then f s.focus else s.focus
    others := s.others.map fun x => if x.id = g then f x else x }

/-- A frame; unlisted ones are FREE. The tiers' places in the physical address space are the model's (log 15, DESIGN CHOICE). -/
def tierOfFrame (f : Nat) : Tier := if f < 12582912 then .hbm else if f < 29360128 then .lpddr else .pool

/-- A frame by number. -/
def State.frame (s : State) (f : Nat) : Frame := (find1 s.frames f).getD (Frame.free (tierOfFrame f))

/-- The state with one frame changed. -/
def State.mapFrame (s : State) (f : Nat) (u : Frame → Frame) : State :=
  { s with frames := put1 s.frames f (u (s.frame f)) }

/-- The frame of a physical address (R357). -/
def frameOf (pa : Nat) : Nat := pa / 65536

/-- The first identity that is free, and the state with it taken. -/
def State.fresh (s : State) : Nat × State := (s.nextId, { s with nextId := s.nextId + 1 })

/-- A free value of w bits, and the state with the counter advanced (log 6, DESIGN CHOICE). -/
def State.free (s : State) (w : Nat) : BitVec w × State :=
  (Config.freeValue w s.freeCtr, { s with freeCtr := s.freeCtr + 1 })

/-! ## Physical cores and dies -/

/-- The physical core of die d at x, y (R342: y × 16 + x). -/
def coreAt (d x y : Nat) : Nat := d * 256 + y * 16 + x
/-- The die of a physical core. -/
def dieOf (c : Nat) : Nat := c / 256
/-- The x of a physical core. -/
def xOf (c : Nat) : Nat := c % 16
/-- The y of a physical core. -/
def yOf (c : Nat) : Nat := c % 256 / 16

/-- The physical core of a group; the core of its workgroup while it is off-core alone. -/
def State.coreOf (s : State) (g : Group) : Nat :=
  match g.seat with
  | some t => t.core
  | none => ((s.wgOf g.wg).bind fun w => w.core).getD 0

/-! ## Rectangles and scopes (R200, R291, R292) -/

/-- The dies of a die set, lower first: 1 die 0, 2 die 1, 3 both (R385). -/
def diesOf (n : Nat) : List Nat := (if n % 2 = 1 then [0] else []) ++ (if 2 ≤ n then [1] else [])

/-- The cores of a rectangle in the order of R200. -/
def rectCores (r : Rect) : List Nat :=
  (diesOf r.dies).flatMap fun d =>
    (List.range (2 ^ r.lh)).flatMap fun y => (List.range (2 ^ r.lw)).map fun x => coreAt d (r.x0 + x) (r.y0 + y)

/-- The pages of a hedge's scratch share on a core (R249, R287). -/
def Hedge.scratchPages (h : Hedge) : Nat := h.p.scratchPages.getD (3 * h.slots.length)

/-- The logical coordinates of a logical core, written as a core of the creation rectangle (R200, R381). -/
def Hedge.logical (h : Hedge) (lcore : Nat) : Nat := (rectCores h.p.rect).getD lcore 0

/-- Number of a core within a rectangle on its die (R129). -/
def rectNumber (r : Rect) (core : Nat) : Nat := (yOf core - r.y0) * 2 ^ r.lw + (xOf core - r.x0)

/-- The length of a side of an order's rectangle, at most the launch rectangle's own (R206). -/
def sideLength (own : Nat) : Side → Nat
  | .s1 => 1
  | .s2 => min 2 own
  | .s4 => min 4 own
  | .s8 => min 8 own
  | .s16 => min 16 own
  | .full => own

/-- The origin of the aligned sub-rectangle of sides w and h that holds the core (R292). -/
def subOrigin (r : Rect) (w h core : Nat) : Nat × Nat :=
  (xOf core - (xOf core - r.x0) % w, yOf core - (yOf core - r.y0) % h)

/-- A core lies in the sub-rectangle of sides w and h of a launch rectangle that holds `home`; the launch's own sides take
in every die of its die set (R292). -/
def inSub (r : Rect) (w h home core : Nat) : Bool :=
  if w == 2 ^ r.lw && h == 2 ^ r.lh then (rectCores r).contains core
  else dieOf core == dieOf home && subOrigin r w h core == subOrigin r w h home && (rectCores r).contains core

/-- The scope of a memory instruction as a scope with sides: RECT is the launch rectangle (R133, R292). -/
def sidedScope : Scope → CtrScope
  | .grp => .grp
  | .core => .core
  | .rect => .rect .full .full
  | .die => .die
  | .pkg => .pkg
  | .sys => .sys

/-- A scope without its sides. -/
def scopeKind : CtrScope → Scope
  | .grp => .grp
  | .core => .core
  | .rect _ _ => .rect
  | .die => .die
  | .pkg => .pkg
  | .sys => .sys

/-- A group's scope takes in what runs on a physical core (R292, R310): of RECT the cores that run logical cores of the
rectangle (R381). -/
def State.inScope (s : State) (g : Group) (sc : CtrScope) (core : Nat) : Bool :=
  match sc with
  | .grp => false
  | .core => core == s.coreOf g
  | .die => dieOf core == dieOf (s.coreOf g)
  | .pkg | .sys => true
  | .rect w h =>
    match s.hedge g.hedge, s.launch g.hedge g.lseq with
    | some x, some l =>
      let home := x.logical (((s.wgOf g.wg).map (·.lcore)).getD 0)
      x.map.zipIdx.any fun p => p.1 == core &&
        inSub l.rect (sideLength (2 ^ l.rect.lw) w) (sideLength (2 ^ l.rect.lh) h) home (x.logical p.2)
    | _, _ => core == s.coreOf g

/-- The point of a group's scope is the home slice: at PKG and SYS, and at RECT where the launch's rectangle spans both
dies (R310). -/
def State.pointHome (s : State) (g : Group) (sc : CtrScope) : Bool :=
  match sc with
  | .grp | .core | .die => false
  | .pkg | .sys => true
  | .rect w h =>
    match s.launch g.hedge g.lseq with
    | some l => l.rect.dies == 3 && sideLength (2 ^ l.rect.lw) w == 2 ^ l.rect.lw && sideLength (2 ^ l.rect.lh) h == 2 ^ l.rect.lh
    | none => false

/-! ## Check codes (R409) -/

/-- One byte into the CRC, high bit first. -/
def crcByte (crc : BitVec 16) (b : Byte) : BitVec 16 :=
  (List.range 8).foldl (fun c _ => if c.getLsbD 15 then (c <<< 1) ^^^ 0x8BB7#16 else c <<< 1)
    (crc ^^^ (b.setWidth 16 <<< 8))

/-- CRC-16 T10-DIF of a sector's bytes in ascending order (R409). -/
def checkCode (bs : List Byte) : BitVec 16 := bs.foldl crcByte 0

/-! ## Memory at its home (R306, R313, R367 to R369) -/

/-- The physical address that a home answers for: the new frame's while FORWARD (R369). -/
def State.redirect (s : State) (pa : Nat) : Nat :=
  match (s.frame (frameOf pa)).mig with
  | some (.forward n) => n * 65536 + pa % 65536
  | _ => pa

/-- A byte at its home: the window's byte in COPY, the new frame's in FORWARD (R367). -/
def State.homeRead (s : State) (pa : Nat) : Byte :=
  match (s.frame (frameOf pa)).mig with
  | some (.copy _ _ w) => (find1 w pa).getD (s.mem.read pa)
  | _ => s.mem.read (s.redirect pa)

/-- Bytes at their home. -/
def State.homeReadN (s : State) (pa n : Nat) : List Byte := (List.range n).map fun i => s.homeRead (pa + i)

/-- A write of bytes breaks the reservations that hold one of them (R328). -/
def State.breakReserve (s : State) (pa n : Nat) : State :=
  { s with harts := s.harts.map fun p => (p.1, { p.2 with
      reserved := p.2.reserved.filter fun r => !(decide (r.1 < pa + n) && decide (pa < r.1 + r.2)) }) }

/-- A byte written at its home, without the interval log: into the window in COPY (R368); the sector's code is made
anew (R409). -/
def State.homeSet (s : State) (pa : Nat) (b : Byte) : State :=
  let f := frameOf pa
  match (s.frame f).mig with
  | some (.copy n t w) => (s.breakReserve pa 1).mapFrame f fun x => { x with mig := some (.copy n t (put1 w pa b)) }
  | _ =>
    let a := s.redirect pa
    { s.breakReserve a 1 with mem := s.mem.write a b, codes := s.codes.filter fun p => p.1 ≠ a / 32 }

/-- The line of memory, or of a layer's shadow frame, is in the interval log already. -/
def Hedge.logged (h : Hedge) (shadow : Option (Option Nat)) (l : Nat) : Bool :=
  h.log.any fun x => x.line == l && x.shadow == shadow

/-- The lines of a slice that are dirty in L1s alone: their space in the log is kept from the store on, so that no write back
finds the log full (R405; log 46, DEDUCED). -/
def State.logOwed (s : State) (h : Hedge) (slice : Option Nat) : List Nat :=
  ((s.cores.flatMap fun p => (p.2.l1.filter fun l => l.hedge == h.p.id && l.dirty != 0).map fun l =>
    s.redirect (l.num * 128) / 128).filter fun l => (s.frame (l / 512)).slice == slice && !h.logged none l).eraseDups

/-- The lines of a hedge's log that a slice holds or keeps space for. -/
def State.logUsed (s : State) (h : Hedge) (slice : Option Nat) : Nat :=
  (h.log.filter fun x => (s.frame (x.line / 512)).slice == slice).length + (s.logOwed h slice).length

/-- The interval logs have room for first writes of lines, of memory or of shadow frames, by an address in each (R405; log
46, DEDUCED). -/
def State.logFits (s : State) (ws : List (Option (Option Nat) × Nat)) : Bool :=
  let ls := (ws.map fun w => (w.1, s.redirect w.2 / 128)).eraseDups
  let owner (l : Nat) : Option Hedge := (s.frame (l / 512)).owner.bind s.hedge
  let slice (l : Nat) : Option Nat := (s.frame (l / 512)).slice
  let new := ls.filter fun w => match owner w.2 with
    | some h => !h.logged w.1 w.2 && !(w.1.isNone && (s.logOwed h (slice w.2)).contains w.2)
    | none => false
  new.all fun w => match owner w.2 with
    | some h => decide (s.logUsed h (slice w.2) + (new.filter fun x => slice x.2 == slice w.2).length ≤ h.p.logLines)
    | none => true

/-- The interval log has room for a first write of the line of `pa`, or needs none (R405). -/
def State.logRoom (s : State) (pa : Nat) : Bool := s.logFits [(none, pa)]

/-- A slice's share of the hedge's interval log is full, for which a snapshot is taken (R403, R405). -/
def State.logFull (s : State) (h : Hedge) : Bool :=
  h.log.any fun x => decide (h.p.logLines ≤ s.logUsed h (s.frame (x.line / 512)).slice)

/-- The old contents of a line, of memory or of a layer's shadow frame, enter the interval log at its first write, check codes
included (R405). -/
def State.logAt (s : State) (shadow : Option (Option Nat)) (pa : Nat) (old : List Byte) : State :=
  match (s.frame (frameOf pa)).owner with
  | none => s
  | some h =>
    let l := s.redirect pa / 128
    let codes := if shadow.isNone then s.codes.filter fun c => c.1 / 4 == l else []
    s.mapHedge h fun x => if x.logged shadow l then x else { x with log := x.log ++ [⟨shadow, l, old, codes⟩] }

/-- The line of memory enters the interval log at its first write. -/
def State.logLine (s : State) (pa : Nat) : State := s.logAt none pa (s.homeReadN (pa / 128 * 128) 128)

/-- A byte written at its home by an agent of the hedge. -/
def State.homeWrite (s : State) (pa : Nat) (b : Byte) : State := (s.logLine pa).homeSet pa b

/-- Bytes written at their home. -/
def State.homeWriteN (s : State) (pa : Nat) : List Byte → State
  | [] => s
  | b :: bs => (s.homeWrite pa b).homeWriteN (pa + 1) bs

/-- A 64-bit word at its home, little-endian (R4). -/
def State.homeWord (s : State) (pa : Nat) : Word64 := BitVec.ofNat 64 (leNat (s.homeReadN pa 8))

/-- A 64-bit word written at its home. -/
def State.homeWriteWord (s : State) (pa : Nat) (x : Word64) : State := s.homeWriteN pa (leBytes 8 x.toNat)

/-- A counter word set at its home: in the old frame's line that the home holds for the whole of COPY, with no window
entry (R370). -/
def State.counterSet (s : State) (pa : Nat) (x : Word64) : State :=
  { s.breakReserve (s.redirect pa) 8 with
    mem := s.mem.writeLE (s.redirect pa) 8 x.toNat
    codes := s.codes.filter fun p => p.1 ≠ s.redirect pa / 32 }

/-- A counter word written at its home by an agent of the hedge, its old contents logged (R405). -/
def State.counterWord (s : State) (pa : Nat) (x : Word64) : State := (s.logLine pa).counterSet pa x

/-- A 64-bit word written by the hub itself, which is not logged (R405). -/
def State.hubWriteWord (s : State) (pa : Nat) (x : Word64) : State :=
  (List.range 8).foldl (fun t i => t.homeSet (pa + i) (x.extractLsb' (8 * i) 8)) s

/-- The lines of a frame's stalled-write window (R368). -/
def windowLines (w : List (Nat × Byte)) : List Nat := (w.map fun p => p.1 / 128).eraseDups

/-- The frame is in COPY. -/
def State.inCopy (s : State) (pa : Nat) : Bool :=
  match (s.frame (frameOf pa)).mig with
  | some (.copy _ _ _) => true
  | _ => false

/-- The physical address of a place in memory. -/
def placePa : Place → Option Nat
  | .mem pa | .home pa | .pub pa | .spec _ pa => some pa
  | .ctr (.c3 pa) b => some (pa + b)
  | _ => none

/-- The address of a byte that a write at the place changes in its frame itself, not in a shadow or a counter (R368,
R370). -/
def Place.framePa : Place → Option Nat
  | .mem pa | .home pa | .pub pa => some pa
  | .spec _ _ | .scratch _ _ | .tile _ | .ctr _ _ | .red _ _ => none

/-- The lines that writes already issued, or made to an L1 alone, have still to write at the home of a frame that a test
picks (R313, R368). -/
def State.owedWrites (s : State) (pick : Nat → Bool) : List Nat :=
  let ops := s.groups.flatMap fun g => (g.pend.filter (·.writes)).flatMap fun o =>
    o.accs.flatMap fun x => (x.places.filterMap Place.framePa).map (· / 128)
  let dirty := s.cores.flatMap fun p => (p.2.l1.filter fun l => l.dirty != 0).map (·.num)
  (ops ++ dirty).filter fun l => pick (l / 512)

/-- The lines for which a hedge uses an entry of a slice's stalled-write window: those in it, and those of writes that have
passed their check and have still to be accepted, for which an entry is kept from the check on (R327, R368; log 86,
DEDUCED). -/
def State.windowUsed (s : State) (h : Nat) (slice : Option Nat) : List Nat :=
  let mine (f : Frame) : Bool := f.owner == some h && f.slice == slice
  let held := s.frames.flatMap fun p => match p.2.mig with
    | some (.copy _ _ w) => if mine p.2 then windowLines w else []
    | _ => []
  (held ++ s.owedWrites fun f => mine (s.frame f) && s.inCopy (f * 65536)).eraseDups

/-- The share of a slice's stalled-write window that a hedge has (R368). -/
def State.windowShare (s : State) (h : Nat) : Nat := ((s.hedge h).map fun x => x.p.stalledShare).getD 0

/-- A write of the line of `pa`, and of `more` lines of the same frame's window beside it, needs no new window entry, or
its hedge's share has room (R368). -/
def State.windowRoom (s : State) (pa : Nat) (more : List Nat := []) : Bool :=
  let f := s.frame (frameOf pa)
  match f.mig, f.owner with
  | some (.copy _ _ _), some h =>
    let used := s.windowUsed h f.slice
    let also := more.filter fun l => !used.contains l && (s.frame (l / 512)).slice == f.slice && s.inCopy (l * 128)
    used.contains (pa / 128) || also.contains (pa / 128) || decide (used.length + also.length < s.windowShare h)
  | _, _ => true

/-- Access counts of R365, saturating. -/
def State.countAccess (s : State) (pa : Nat) (rd wr : Bool) : State :=
  s.mapFrame (frameOf (s.redirect pa)) fun f =>
    { f with rd := if rd then min 0xFFFF (f.rd + 1) else f.rd, wr := if wr then min 0xFFFF (f.wr + 1) else f.wr }

/-- The line of `pa` has an uncorrectable error: a poisoned line, or a pool frame behind a lost port (R340, R362). R362
does not say which pool frames lie behind which of the eight ports: the model takes the frame number modulo 8 (log 12,
DESIGN CHOICE). -/
def State.isBad (s : State) (pa : Nat) : Bool :=
  let a := s.redirect pa
  s.bad.contains (a / 128) || (tierOfFrame (frameOf a) == .pool && s.cxlDown.contains (frameOf a % 8))

/-- The sector of `pa` does not match its stored code (R409). -/
def State.isMismatched (s : State) (pa : Nat) : Bool :=
  let a := s.redirect pa
  match find1 s.codes (a / 32) with
  | some c => c != checkCode (s.mem.readN (a / 32 * 32) 32)
  | none => false

/-- A write of bytes is merged at its home into a sector whose old code does not match, which makes it SDC for the hedge that
owns the line; a sector that is written whole is not merged (R409, R410). -/
def State.mergeError (s : State) (pas : List Nat) : Option (Nat × Nat) :=
  pas.findSome? fun pa =>
    if s.isMismatched pa && !((List.range 32).all fun i => pas.contains (pa / 32 * 32 + i)) then
      (s.frame (frameOf pa)).owner.map fun h => (h, pa)
    else none

/-! ## Who has accessed a byte (R318) -/

/-- The agents of a die, and every agent that is on neither: G-die threads, service cores, hub engines, peers (R318). -/
def dieAgents (d : Nat) : BitVec 3 := 1#3 <<< d
/-- Every agent that is on no Muzar die (R318). -/
def offDie : BitVec 3 := 4#3

/-- The agents that have accessed a byte of memory. -/
def State.seenBy (s : State) (pa : Nat) : BitVec 3 := (find1 s.seen pa).getD 0

/-- Bytes of memory are accessed by agents (R318). -/
def State.see (s : State) (who : BitVec 3) (pas : List Nat) : State :=
  { s with seen := pas.foldl (fun m a => if (find1 m a).getD 0 &&& who == who then m else put1 m a ((find1 m a).getD 0 ||| who)) s.seen }

/-! ## Superblocks in the die L2s and the home slices (R307 to R309, R358, R365)

Both are coherent with the home, so that they hold no values of their own: what they hold decides which requests reach
the home agent, and when a release tag is written back. -/

/-- The home slice of a physical address: the one that its frame records (R357, R358). -/
def State.sliceAt (s : State) (pa : Nat) : Nat := ((s.frame (frameOf (s.redirect pa))).slice).getD 0

/-- The bit of a line among the four of its superblock (R308). -/
def lineBit (pa : Nat) : BitVec 4 := 1#4 <<< (pa / 128 % 4)

/-- The superblock of an address in a cache. -/
def SBlock.holds (b : SBlock) (cache pa : Nat) : Bool := b.cache == cache && b.num == pa / 512

/-- The line of an address is valid. -/
def SBlock.has (b : SBlock) (pa : Nat) : Bool := b.num == pa / 512 && b.valid &&& lineBit pa != 0

/-- The line of an address, made valid, and dirty when it is written. -/
def SBlock.fill (b : SBlock) (pa : Nat) (wr : Bool) : SBlock :=
  { b with valid := b.valid ||| lineBit pa, dirty := if wr then b.dirty ||| lineBit pa else b.dirty }

/-- The line of an address written back; no longer valid where `drop`. -/
def SBlock.clean (b : SBlock) (pa : Nat) (drop : Bool) : SBlock :=
  { b with dirty := b.dirty &&& ~~~lineBit pa, valid := if drop then b.valid &&& ~~~lineBit pa else b.valid }

/-- A line that its slice holds becomes dirty there. -/
def State.dirtySlice (s : State) (pa : Nat) : State :=
  { s with slices := s.slices.map fun b => if b.holds (s.sliceAt pa) pa && b.has pa then b.fill pa true else b }

/-- A request reaches the home agent: it is counted, whether its line is in the slice or not (R365). -/
def State.atAgent (s : State) (pa : Nat) (rd wr : Bool) : State :=
  let t := s.countAccess pa rd wr
  if wr then t.dirtySlice (s.redirect pa) else t

/-- The directory recalls the copies of a line that die L2s hold, but one die's where it asks: a dirty copy is written
back, and a write makes the copies invalid (R307, R310). -/
def State.recall (s : State) (but : Option Nat) (pa : Nat) (wr : Bool) : State :=
  let a := s.redirect pa
  let hit (b : SBlock) : Bool := b.has a && some b.cache != but
  let t := if s.l2.any fun b => hit b && b.dirty &&& lineBit a != 0 then s.atAgent a false true else s
  { t with l2 := (t.l2.map fun b => if hit b then b.clean a wr else b).filter fun b => b.valid != 0 }

/-- A line written back from an L1 goes to the die's L2 where that holds it, otherwise to the home (R307, R313). -/
def State.putDown (s : State) (die pa : Nat) : State :=
  let a := s.redirect pa
  let t := s.recall (some die) pa true
  if t.l2.any fun b => b.cache == die && b.has a then
    { t with l2 := t.l2.map fun b => if b.cache == die && b.has a then b.fill a true else b }
  else t.atAgent a false true

/-! ## L1 lines and quarter buffers (R307, R312, R313) -/

/-- The bytes of a line with one changed. -/
def Line.setByte (l : Line) (i : Nat) (b : Byte) : Line := { l with data := l.data.set i b }

/-- The dirty bytes of a line, with their physical addresses. -/
def Line.dirtyBytes (l : Line) : List (Nat × Byte) :=
  (l.data.zipIdx.filter fun p => l.dirty.getLsbD p.2).map fun p => (l.num * 128 + p.2, p.1)

/-- A rollback of a hedge is asked for (R406). -/
def State.askRollback (s : State) (h : Nat) (c : RollCause) (at_ : RollAt) : State :=
  { s with agenda := .rollback h c at_ :: s.agenda }

/-- The dirty bytes of a line of a core's L1 written back, so that they take their place in the modification orders
(R313); those of a line with an uncorrectable error are lost, and the hedge that owns it is rolled back (R173). -/
def State.writeBackLine (s : State) (c : Nat) (l : Line) : State :=
  if l.dirty == 0 then s
  else if l.bad then s.askRollback l.hedge .uncorr (.home (l.num * 128))
  else (l.dirtyBytes.foldl (fun t p => t.homeWrite p.1 p.2) s).putDown (dieOf c) (l.num * 128)

/-- The line after its dirty bytes are written back. -/
def Line.clean (l : Line) : Line := { l with dirty := 0, bad := false }

/-- The dirty L1 bytes of the lines that a test picks, on one core, written back (R313). -/
def State.flush (s : State) (c : Nat) (pick : Line → Bool) : State :=
  let ls := (s.core c).l1
  ((ls.filter pick).foldl (fun t l => t.writeBackLine c l) s).mapCore c fun k =>
    { k with l1 := k.l1.map fun l => if pick l then l.clean else l }

/-- The dirty L1 bytes that a test picks, written back to the home slice, past the die L2 (R312, R322). -/
def State.flushHome (s : State) (c : Nat) (pick : Line → Bool) : State :=
  let ls := (s.core c).l1.filter fun l => pick l && l.dirty != 0
  ls.foldl (fun t l => t.recall none (l.num * 128) false) (s.flush c pick)

/-- Every dirty L1 byte of a hedge on a core written back (R320, R322). -/
def State.flushHedge (s : State) (c h : Nat) : State := s.flushHome c fun l => l.hedge == h

/-- The lines of a core's L1 and quarter buffers that a test picks are dropped; dirty bytes are written back first. -/
def State.dropLines (s : State) (c : Nat) (pick : Line → Bool) : State :=
  (s.flush c pick).mapCore c fun k =>
    { k with l1 := k.l1.filter fun l => !pick l, quarters := k.quarters.filter fun q => !pick q.line }

/-- A strong access first writes back the core's own dirty bytes of the line to the home (R312). -/
def State.flushLine (s : State) (c h pa : Nat) : State := s.flushHome c fun l => l.hedge == h && l.num == pa / 128

/-- The core's own copies of a line that its strong store has passed are dropped (R141). -/
def State.dropOwnLine (s : State) (c h pa : Nat) : State := s.dropLines c fun l => l.hedge == h && l.num == pa / 128

/-! ## Release tags (R308, R322) -/

/-- The superblock's release tag. -/
def State.tagOf (s : State) (pa : Nat) : Option RelTag := find1 s.tags (pa / 512)

/-- A scope narrower than RECT, whose release leaves a tag (R322). -/
def narrowScope (sc : Scope) : Bool := sc == .grp || sc == .core

/-- The superblock's tag set or cleared. The core of a tag that another one, or none, takes the place of first writes
back: R321 promotes every release that an acquire reads, and the tag has room for one (log 70, DEDUCED). -/
def State.setTag (s : State) (pa : Nat) (t : Option RelTag) : State :=
  let u := match s.tagOf pa with
    | some o => if t.map RelTag.core == some o.core then s else s.flushHedge o.core o.hedge
    | none => s
  match t with
  | some n => { u with tags := put1 u.tags (pa / 512) n }
  | none => { u with tags := del1 u.tags (pa / 512) }

/-- A strong store: one that releases at GRP or CORE sets the tag, any other at RECT or wider clears it (R322). -/
def State.tagStore (s : State) (pa : Nat) (rel : Option Scope) (sc : Scope) (core hedge : Nat) : State :=
  match rel with
  | some r => s.setTag pa (if narrowScope r then some ⟨core, hedge, r == .core⟩ else none)
  | none => if narrowScope sc then s else s.setTag pa none

/-- The tag's scope is narrower than the acquire's (R322). -/
def RelTag.narrower (t : RelTag) (sc : Scope) : Bool := if t.wide then sc != .grp && sc != .core else sc != .grp

/-- An acquire at a scope promotes a release that left the tag: the scope is wider than the tag's (R322). -/
def promotedAt (sc : CtrScope) (t : RelTag) : Bool := t.narrower (scopeKind sc)

/-- Promotion: the tagged core writes back, and the tag is cleared (R321, R322). -/
def State.promote (s : State) (pa : Nat) (covers : RelTag → Bool) : State :=
  match s.tagOf pa with
  | some t => if covers t then { s.flushHedge t.core t.hedge with tags := del1 s.tags (pa / 512) } else s
  | none => s

/-! ## Lines brought in (R307, R309) -/

/-- The superblocks that a hedge may hold in a die L2 (R309). -/
def State.l2Quota (s : State) (h : Nat) : Nat := ((s.hedge h).map fun x => x.p.l2blocks).getD 0

/-- The superblocks that a hedge may hold in each home slice (R309). -/
def State.sliceQuota (s : State) (h : Nat) : Nat := ((s.hedge h).map fun x => x.p.sliceBlocks).getD 0

/-- The sets of a die L2 and of a home slice, of 16 ways (R307). -/
def l2Sets : Nat := 8192
/-- Sets of a home slice. -/
def sliceSets : Nat := 2048

/-- The superblock of its own that a hedge gives up for a new one, chosen freely: one of the same set where its superblocks
fill the 16 ways of that, otherwise any where it is at its quota (R307, R309; log 7, DESIGN CHOICE). -/
def State.victim (s : State) (own : List SBlock) (sets quota n : Nat) : Option SBlock :=
  let set := own.filter fun b => b.num % sets == n % sets
  let from_ := if 16 ≤ set.length then set else if quota ≤ own.length then own else []
  from_[(s.free 32).1.toNat % from_.length]?

/-- A superblock leaves a home slice: before that a tagged one is written back by its core, and the die L2s give up their
copies (R307, R322). -/
def State.evictSlice (s : State) (b : SBlock) : State :=
  let a := b.num * 512
  let t := s.promote a fun _ => true
  let t := (List.range 4).foldl (fun u i => u.recall none (a + 128 * i) true) t
  { t with slices := t.slices.filter fun x => !(x.cache == b.cache && x.num == b.num) }

/-- A line enters its home slice (R307, R309). -/
def State.fillSlice (s : State) (h pa : Nat) (wr : Bool) : State :=
  let k := s.sliceAt pa
  if s.slices.any fun b => b.holds k pa then
    { s with slices := s.slices.map fun b => if b.holds k pa then b.fill pa wr else b }
  else if s.sliceQuota h = 0 then s
  else
    let own := s.slices.filter fun b => b.cache == k && b.hedge == h
    let t := match s.victim own sliceSets (s.sliceQuota h) (pa / 512) with
      | some v => ((s.free 32).2).evictSlice v
      | none => s
    { t with slices := t.slices ++ [SBlock.fill ⟨k, h, pa / 512, 0, 0⟩ pa wr] }

/-- An access performed at its home by a hedge: die L2 copies are recalled, the access is counted, and its line is in the
slice (R307, R312, R365). -/
def State.homeAccess (s : State) (h pa : Nat) (rd wr : Bool) : State :=
  ((s.recall none pa wr).atAgent pa rd wr).fillSlice h (s.redirect pa) wr

/-- A superblock leaves a die L2, its dirty lines written to the home (R307). -/
def State.evictL2 (s : State) (b : SBlock) : State :=
  let t := (List.range 4).foldl (fun u i => if b.dirty.getLsbD i then u.atAgent (b.num * 512 + 128 * i) false true else u) s
  { t with l2 := t.l2.filter fun x => !(x.cache == b.cache && x.num == b.num) }

/-- A line is read through a die's L2: from there where it is held, otherwise from its home, and then it is held there
(R307, R309, R365). -/
def State.readL2 (s : State) (die h pa : Nat) : State :=
  let a := s.redirect pa
  if s.l2.any fun b => b.cache == die && b.has a then s
  else
    let s := s.homeAccess h pa true false
    if s.l2.any fun b => b.holds die a then
      { s with l2 := s.l2.map fun b => if b.holds die a then b.fill a false else b }
    else if s.l2Quota h = 0 then s
    else
      let own := s.l2.filter fun b => b.cache == die && b.hedge == h
      let t := match s.victim own l2Sets (s.l2Quota h) (a / 512) with
        | some v => ((s.free 32).2).evictL2 v
        | none => s
      { t with l2 := t.l2 ++ [SBlock.fill ⟨die, h, a / 512, 0, 0⟩ a false] }

/-- The tag word of a superblock (R308), as the hub's diagnostic port shows it to the service kernel: DCOPY, RSC and
RCORE in a home slice only. -/
def State.tagWord (s : State) (b : SBlock) (home : Bool) : Word64 :=
  let copy (d : Nat) : Bool := home && s.l2.any fun x => x.cache == d && x.num == b.num
  let tag := if home then find1 s.tags b.num else none
  BitVec.ofNat 6 b.hedge ++ b.valid ++ b.dirty ++ BitVec.ofBool (copy 1) ++ BitVec.ofBool (copy 0) ++
    (if home then (tag.map fun t => if t.wide then 1#3 else 0#3).getD 7#3 else 0#3) ++
    BitVec.ofNat 9 ((tag.map (·.core)).getD 0) ++ BitVec.ofNat 36 b.num

/-- A line that a die's L2 holds is written to the home where it is dirty, and left there or discarded (R148, R313). -/
def State.cleanL2 (s : State) (die pa : Nat) (drop : Bool) : State :=
  let a := s.redirect pa
  let hit (b : SBlock) : Bool := b.cache == die && b.has a
  let t := if s.l2.any fun b => hit b && b.dirty &&& lineBit a != 0 then s.atAgent a false true else s
  { t with l2 := (t.l2.map fun b => if hit b then b.clean a drop else b).filter fun b => b.valid != 0 }

/-- A line of a home slice is written to its tier, and left in the slice or discarded (R148, R313). -/
def State.cleanSlice (s : State) (pa : Nat) (drop : Bool) : State :=
  let a := s.redirect pa
  { s with slices := (s.slices.map fun b => if b.has a then b.clean a drop else b).filter fun b => b.valid != 0 }

/-- A line as the home holds it. -/
def State.fetchLine (s : State) (h n : Nat) : Line := { num := n, hedge := h, data := s.homeReadN (n * 128) 128, dirty := 0 }

/-- A line enters the L1: when the hedge's ways of its set are full, one of its own lines, chosen freely, leaves, its
dirty bytes written back (R307, R309; log 7, DESIGN CHOICE). -/
def State.insertLine (s : State) (c : Nat) (l : Line) : State :=
  let ways := (((s.core c).slots.filter fun x => x == some l.hedge).length)
  let set := (s.core c).l1.filter fun x => x.hedge == l.hedge && x.num % 128 == l.num % 128
  if set.length < max 1 ways then s.mapCore c fun k => { k with l1 := k.l1 ++ [l] }
  else
    let pick := (s.free 32).1.toNat % set.length
    let victim := (set[pick]?).getD l
    let t := ((s.free 32).2).writeBackLine c victim
    t.mapCore c fun k => { k with l1 := (k.l1.filter fun x => x.num != victim.num || x.hedge != l.hedge) ++ [l] }

/-- The L1's line. -/
def Core.l1Line (k : Core) (h n : Nat) : Option Line := k.l1.find? fun x => x.hedge == h && x.num == n

/-- The line that a weak access finds: the quarter buffer's, or the L1's. -/
def Core.line (k : Core) (q h n : Nat) : Option Line :=
  ((k.quarters.find? fun x => x.quarter == q && x.line.hedge == h && x.line.num == n).map (·.line)).or (k.l1Line h n)

/-- A line is in the L1, or is brought in through the die L2 (R147, R307). -/
def State.l1Bring (s : State) (c h n : Nat) : State :=
  match (s.core c).l1Line h n with
  | some _ => s
  | none =>
    let t := s.readL2 (dieOf c) h (n * 128)
    t.insertLine c (t.fetchLine h n)

/-- A line that a weak load has read enters its quarter's buffer, which holds at most 32 lines; a hedge replaces only its
own, the oldest of them, and where it has none there the line is not kept (R307; log 7, DESIGN CHOICE). -/
def Core.buffer (k : Core) (q : Nat) (l : Line) : Core :=
  let mine := k.quarters.filter fun x => x.quarter == q
  let keep := if mine.length < 32 then k.quarters else
    k.quarters.eraseP fun x => x.quarter == q && x.line.hedge == l.hedge
  if ((keep.filter fun x => x.quarter == q).length) < 32 then { k with quarters := keep ++ [⟨q, l, k.cycle⟩] }
  else { k with quarters := keep }

/-- A weak load's line: the quarter buffer's, or the L1's, which the buffer then holds too, or one brought in (R307). -/
def State.touchLine (s : State) (c q h n : Nat) : State :=
  if (s.core c).quarters.any fun x => x.quarter == q && x.line.hedge == h && x.line.num == n then s
  else
    let t := s.l1Bring c h n
    t.mapCore c fun k => k.buffer q ((k.l1Line h n).getD (t.fetchLine h n)).clean

/-- The byte that a weak load returns once its line is touched. -/
def State.weakByte (s : State) (c q h pa : Nat) : Byte :=
  match (s.core c).line q h (pa / 128) with
  | some l => l.data.getD (pa % 128) 0
  | none => s.homeRead pa

/-- A weak store of one byte: it is written to the L1 line, which becomes dirty there, and leaves the quarter's buffer
(R307, R141). -/
def State.weakWrite (s : State) (c q h pa : Nat) (b : Byte) : State :=
  let n := pa / 128
  (s.l1Bring c h n).mapCore c fun k =>
    { k with
      l1 := k.l1.map fun l =>
        if l.hedge == h && l.num == n then
          { l.setByte (pa % 128) b with dirty := l.dirty ||| (1#128 <<< (pa % 128)) }
        else l
      quarters := k.quarters.filter fun x => !(x.quarter == q && x.line.hedge == h && x.line.num == n) }

/-! ## What an acquire discards (R310, R320) -/

/-- The hedge's lines of one quarter's buffer are dropped (R310). -/
def State.dropQuarter (s : State) (c q h : Nat) : State :=
  s.mapCore c fun k => { k with quarters := k.quarters.filter fun x => !(x.quarter == q && x.line.hedge == h) }

/-- The clean bytes of a line that has dirty ones, read again: an acquire must not leave them older than the home's, since
R320 lets no later load return them (log 69, DEDUCED). -/
def State.renewed (s : State) (l : Line) : Line :=
  { l with data := l.data.zipIdx.map fun p => if l.dirty.getLsbD p.2 then p.1 else s.homeRead (l.num * 128 + p.2) }

/-- The clean L1 lines of a hedge on a core are dropped, and the clean bytes of its other lines are read again (R310,
R320). -/
def State.dropCleanL1 (s : State) (c h : Nat) : State :=
  let kept := (s.core c).l1.filter fun l => l.hedge == h && l.dirty != 0
  let t := kept.foldl (fun u l => u.readL2 (dieOf c) h (l.num * 128)) s
  t.mapCore c fun k =>
    { k with l1 := (k.l1.filter fun l => !(l.hedge == h && l.dirty == 0)).map fun l => if l.hedge == h then t.renewed l else l }

/-- Lines of a hedge that are no longer as its home holds them go from the caches of cores: clean ones are dropped, the
clean bytes of others are read again (R324; log 69, DEDUCED). -/
def State.discard (s : State) (h : Nat) (cores lines : List Nat) : State :=
  let hit (l : Line) : Bool := l.hedge == h && lines.contains l.num
  cores.foldl (fun t c => t.mapCore c fun k =>
    { k with
      l1 := (k.l1.filter fun l => !(hit l && l.dirty == 0)).map fun l => if hit l then t.renewed l else l
      quarters := k.quarters.filter fun q => !hit q.line }) s

/-- The clean L1 lines of a hedge and its lines in every quarter buffer of a core are dropped. -/
def State.dropClean (s : State) (c h : Nat) : State :=
  (s.dropCleanL1 c h).mapCore c fun k => { k with quarters := k.quarters.filter fun q => q.line.hedge != h }

/-- What an acquire discards on the group's core: the hedge's lines in the buffer of the group's quarter, and at RECT or
wider its clean L1 lines (R310, R320). -/
def State.acquire (s : State) (g : Group) (sc : CtrScope) : State :=
  let core := s.coreOf g
  let q := (g.seat.map (·.quarter)).getD 0
  match sc with
  | .grp => s
  | .core => s.dropQuarter core q g.hedge
  | .rect _ _ | .die | .pkg | .sys => (s.dropCleanL1 core g.hedge).dropQuarter core q g.hedge

/-- What a release at a scope first makes visible: the hedge's dirty bytes of the core, at RECT or wider, down to the
scope's point (R310, R320). -/
def State.release (s : State) (g : Group) (sc : CtrScope) : State :=
  if narrowScope (scopeKind sc) then s
  else if s.pointHome g sc then s.flushHedge (s.coreOf g) g.hedge
  else s.flush (s.coreOf g) fun l => l.hedge == g.hedge

/-! ## Scratch (R249 to R251) -/

/-- A byte of a workgroup's scratch. -/
def State.scratchRead (s : State) (w off : Nat) : Byte :=
  match s.wgOf w with
  | some x => x.scratch.read off
  | none => 0

/-- A byte of a saved workgroup's image written (R251, R348). -/
def State.imageSet (s : State) (w off : Nat) (f : Byte → Byte) : State :=
  match (s.wgOf w).bind fun x => if x.core.isNone then x.image else none with
  | some base => s.homeSet (base + off) (f (s.homeRead (base + off)))
  | none => s

/-- A byte of a workgroup's scratch written; of a saved one it lands in the image (R251). -/
def State.scratchWrite (s : State) (w off : Nat) (b : Byte) : State :=
  (s.mapWg w fun x => { x with scratch := x.scratch.write off b }).imageSet w (0x2000 + off) fun _ => b

/-- The presence bit of a line of a workgroup's scratch set or cleared, in the image of a saved one too (R251, R348). -/
def State.setPresent (s : State) (l : Nat × Nat) (on : Bool) : State :=
  let mark (ls : List Nat) : List Nat := if on then ls.filter fun n => n != l.2 else if ls.contains l.2 then ls else ls ++ [l.2]
  let bit : Byte := 1#8 <<< (l.2 % 8)
  (s.mapWg l.1 fun w => { w with absent := mark w.absent }).imageSet l.1 (0x1000 + l.2 / 8) fun b =>
    if on then b ||| bit else b &&& ~~~bit

/-- Lines with bytes still to land become absent (R250, R261). -/
def State.absent1 (s : State) (ls : List (Nat × Nat)) : State := ls.foldl (fun t l => t.setPresent l false) s

/-- The line of a scratch byte has its presence bit clear. -/
def State.scratchAbsent (s : State) (w off : Nat) : Bool :=
  match s.wgOf w with
  | some x => x.absent.contains (off / 128)
  | none => true

/-! ## Shadow frames (R266, R398, R399) -/

/-- The shadow of a page in a layer. -/
def State.shadow (s : State) (h : Nat) (layer : Option Nat) (page : Nat) : Option Shadow :=
  s.shadows.find? fun x => x.hedge == h && x.layer == layer && x.page == page

/-- The shadow frames of a hedge. -/
def State.shadowsOf (s : State) (h : Nat) : Nat := (s.shadows.filter fun x => x.hedge == h).length

/-- A byte as a speculative launch sees its write set (R398). -/
def State.specRead (s : State) (h q pa : Nat) : Byte :=
  match s.shadow h (some q) (pa / 4096) with
  | some x => x.data.read (pa % 4096)
  | none => s.homeRead pa

/-- The 4 KiB of a page as its home holds them, as the contents of a shadow frame. -/
def State.pageData (s : State) (page : Nat) : Memory := Memory.writeN [] 0 (s.homeReadN (page * 4096) 4096)

/-- The shadow of a page in a layer, made at the first write: of the speculative layer from the unpublished one when
the page has it, otherwise from the page (R266, R398, R399). -/
def State.ensureShadow (s : State) (h : Nat) (layer : Option Nat) (page : Nat) : State :=
  match s.shadow h layer page with
  | some _ => s
  | none =>
    let base := if layer.isSome then ((s.shadow h none page).map (·.data)).getD (s.pageData page) else s.pageData page
    { s with shadows := s.shadows ++ [⟨h, layer, page, base⟩] }

/-- A byte written into a shadow frame, whose line is logged first; making the frame is no write (R405; log 46, DEDUCED). -/
def State.shadowWrite (s : State) (h : Nat) (layer : Option Nat) (pa : Nat) (b : Byte) : State :=
  let t := s.ensureShadow h layer (pa / 4096)
  let old := ((t.shadow h layer (pa / 4096)).map fun x => x.data.readN (pa / 128 * 128 % 4096) 128).getD []
  let t := t.logAt (some layer) pa old
  { t with shadows := t.shadows.map fun x =>
      if x.hedge == h && x.layer == layer && x.page == pa / 4096 then { x with data := x.data.write (pa % 4096) b }
      else x }

/-- The addresses of the bytes of a page that a shadow frame of it changes. -/
def State.shadowDiff (s : State) (h : Nat) (layer : Option Nat) (page : Nat) : List Nat :=
  match s.shadow h layer page with
  | none => []
  | some x => ((List.range 4096).filter fun i => x.data.read i != s.homeRead (page * 4096 + i)).map fun i => page * 4096 + i

/-- The homes can take a layer's frame of a page as the page now: it is not in COPY, and the interval log has room, or is
empty and then takes more than it holds (R368, R405; log 46, DEDUCED). -/
def State.pageRoom (s : State) (h : Hedge) (layer : Option Nat) (page : Nat) : Bool :=
  !s.inCopy (page * 4096) && (h.log.isEmpty || s.logFits ((s.shadowDiff h.p.id layer page).map fun a => (none, a)))

/-- A snapshot of a hedge is asked for (R403). -/
def State.wantSnap (s : State) (h : Nat) : State := s.mapHedge h fun x => { x with wantSnap := true }

/-- A page takes a shadow frame's bytes, in one step, and the shadow frame is freed (R266, R402). -/
def State.publishShadow (s : State) (h : Nat) (layer : Option Nat) (page : Nat) : State :=
  match s.shadow h layer page with
  | none => s
  | some x =>
    let t := (List.range 4096).foldl
      (fun t i => let a := page * 4096 + i
        if x.data.read i = t.homeRead a then t else t.homeWrite a (x.data.read i)) s
    { t with shadows := t.shadows.filter fun y => !(y.hedge == h && y.layer == layer && y.page == page) }

/-- A shadow frame is dropped. -/
def State.dropShadow (s : State) (h : Nat) (layer : Option Nat) (page : Nat) : State :=
  { s with shadows := s.shadows.filter fun y => !(y.hedge == h && y.layer == layer && y.page == page) }

/-! ## The physical log -/

/-- An event enters the physical log (R173, R342). -/
def State.logEvent (s : State) (e : LogEntry) : State := { s with physLog := s.physLog ++ [e] }

/-- A message leaves the package. -/
def State.send (s : State) (m : Msg) : State := { s with outbox := s.outbox ++ [m] }

end Sys2Proof.Machine
end

