-- ==== Sys2Proof/Machine/Operands.lean ====
section
/-! DEFINITION. Operands of a group: the effective mask, register resolution, the interlock, tag expectations, and
reading and writing of V, S and P registers (spec 01 R14 to R17, R29 to R32, R39; spec 02 R53, R55, R71). -/

namespace Sys2Proof.Machine

/-- What a fault says beside its code: the lowest faulting lane (none: the lowest lane of the effective mask), ACC,
the stage of a translation, the address, offset and buffer, whether it may resume, and INDEX and the word when they are
not those of the instruction at issue (R342, R449). -/
structure FaultInfo where
  code : FaultCode
  lane : Option Nat := none
  acc : Nat := 0
  gstage : Bool := false
  va : Nat := 0
  off : Int := 0
  buf : Nat := 0
  resumable : Bool := false
  place : Option (Nat × Nat × Word64) := none
  mask : Option Mask := none
  /-- The address whose translation refused the access, where the record shows that of the lane's first byte (R372). -/
  byte : Option Nat := none
  deriving DecidableEq, Repr

/-- Why an instruction does not complete at this issue: it raises a fault; it cannot issue yet (R157); it parks its
group for presence (R132) or for emulation (R71); or it waits for a walk (R337). -/
inductive Stop where
  | fault (i : FaultInfo)
  | wait
  | presence
  | fmtemu
  | walk (hedge core page : Nat)
  /-- The two groups of a checked pair differ (R172), with the values that differ. -/
  | mismatch (a b : Word64)
  deriving DecidableEq, Repr

/-- A fault that has no address (R449). -/
def Stop.plain (c : FaultCode) : Stop := .fault { code := c }

/-- The result of a check or of a change of a group. -/
abbrev Res (α : Type) := Except Stop α

/-- A condition that must hold, or the instruction stops. -/
def need (c : Bool) (e : Stop) : Res Unit := if c then .ok () else .error e

/-! ## Masks and guards -/

/-- The ACTIVE mask: the lane mask of the clause in progress; an exited lane counts as inactive (R29, R75, R161). -/
def Group.active (g : Group) : Mask :=
  match g.clause with
  | some c => c.mask &&& ~~~g.exited
  | none => 0

/-- P0 to P7 as masks; P7 is true in every lane (R14). -/
def Group.predMask (g : Group) (p : BitVec 3) : Mask :=
  if h : p.toNat < 7 then g.preds[p.toNat] else BitVec.allOnes 32

/-- The effective mask E (R29). -/
def Group.eff (g : Group) (gd : Guard) : Mask :=
  g.active &&& (if gd.neg then ~~~(g.predMask gd.p) else g.predMask gd.p)

/-- The lowest lane of a mask, below the bound. -/
def lowestLane (m : Mask) : Nat → Nat
  | 0 => 0
  | n + 1 => if m.getLsbD (31 - n) then 31 - n else lowestLane m n

/-- The lowest lane of a mask; 0 for the empty mask. -/
def lowest (m : Mask) : Nat := lowestLane m 32

/-- The lanes of a mask in ascending order. -/
def lanesOf (m : Mask) : List Nat := (List.range 32).filter fun l => m.getLsbD l

/-- The mask with the bits that a function gives. -/
def maskOf (f : Nat → Bool) : Mask :=
  (List.range 32).foldl (fun m l => if f l then m ||| (1#32 <<< l) else m) 0

/-! ## Register numbers (R32) -/

/-- The unbounded number of an indirect field. -/
def Group.regIndex (g : Group) (r : Reg) : Nat := r.n.toNat + (if r.x then g.xi.toNat else 0)

/-- A run of `span` V registers from the field (R32, R53, R116). -/
def Group.vNum (g : Group) (r : Reg) (span : Nat := 1) : Res Nat :=
  if g.regIndex r + span ≤ g.vregs.length then .ok (g.regIndex r) else .error (.plain .regbound)

/-- A run of `span` S registers from the field (R32, R254). -/
def Group.sNum (g : Group) (r : Reg) (span : Nat := 1) : Res Nat :=
  if g.regIndex r + span ≤ g.sregs.length then .ok (g.regIndex r) else .error (.plain .regbound)

/-- A tile (R32, R223). -/
def Group.aNum (g : Group) (r : Reg) : Res Nat :=
  if g.regIndex r < g.tiles.length then .ok (g.regIndex r) else .error (.plain .regbound)

/-- An S register named by a field of 7 bits without an X bit (R30, R35). -/
def Group.sDirect (g : Group) (n : BitVec 7) : Res Nat :=
  if n.toNat < g.sregs.length then .ok n.toNat else .error (.plain .regbound)

/-! ## Reading registers -/

/-- S[n]. -/
def Group.s (g : Group) (n : Nat) : Word64 := g.sregs.getD n 0

/-- V[n] with its tag. -/
def Group.v (g : Group) (n : Nat) : VReg := g.vregs.getD n VReg.zero

/-- TAG(V[n]). -/
def Group.tag (g : Group) (n : Nat) : Tag := (g.v n).tag

/-- V[n][l]. -/
def Group.lane (g : Group) (n l : Nat) : Word32 := (g.v n).lanes.toList.getD l 0

/-- A tile with its tag. -/
def Group.tile (g : Group) (t : Nat) : Tile := g.tiles.getD t Tile.zero

/-- V[n+1][l] above V[n][l] as one value of 64 bits (R53). -/
def Group.pair (g : Group) (n l : Nat) : Word64 := g.lane (n + 1) l ++ g.lane n l

/-! ## Writing registers -/

/-- The lanes of a mask take new values, the others keep theirs. -/
def mixLanes (e : Mask) (old : Lanes) (f : Nat → Word32) : Lanes :=
  Vector.ofFn fun l => if e.getLsbD l.val then f l.val else old[l]

/-- The group with V[n] written in the lanes of E and its tag set; an empty E changes nothing, and an exited lane is not written (R16, R17). -/
def Group.setV (g : Group) (e : Mask) (n : Nat) (t : Tag) (f : Nat → Word32) : Group :=
  if e = 0 then g else { g with vregs := g.vregs.set n ⟨t, mixLanes (e &&& ~~~g.exited) (g.v n).lanes f⟩ }

/-- The group with a pair written: low words to V[n], high words to V[n+1] (R53). -/
def Group.setPair (g : Group) (e : Mask) (n : Nat) (lo hi : Tag) (f : Nat → Word64) : Group :=
  (g.setV e n lo fun l => (f l).extractLsb' 0 32).setV e (n + 1) hi fun l => (f l).extractLsb' 32 32

/-- The group with S[n] written. -/
def Group.setS (g : Group) (n : Nat) (x : Word64) : Group := { g with sregs := g.sregs.set n x }

/-- The group with P[p] written in the lanes of E; a write of P7 is discarded, and an exited lane is not written
(R14, R17). -/
def Group.setP (g : Group) (e : Mask) (p : BitVec 3) (m : Mask) : Group :=
  let e := e &&& ~~~g.exited
  if h : p.toNat < 7 then { g with preds := g.preds.set p.toNat ((g.preds[p.toNat] &&& ~~~e) ||| (m &&& e)) h } else g

/-- The group with the rows of the lanes of E written (R223). -/
def Group.setRows (g : Group) (e : Mask) (t : Nat) (f : Nat → Lanes) : Group :=
  let rows : Vector Lanes 32 := Vector.ofFn fun l => if e.getLsbD l.val then f l.val else (g.tile t).rows[l]
  { g with tiles := g.tiles.set t { g.tile t with rows := rows } }

/-- The group with the tag of a tile set (R222). -/
def Group.setTileTag (g : Group) (t : Nat) (tag : Tag) : Group :=
  { g with tiles := g.tiles.set t { g.tile t with tag := tag } }

/-! ## The interlock (R76, R88, R140, R208) -/

/-- The V registers that an outstanding operation will write. -/
def Dst.vs : Dst → List Nat
  | .v n .f64 => [n, n + 1]
  | .v n _ => [n]
  | .old n .b64 | .old n .i64 | .old n .n64 | .old n .f64 => [n, n + 1]
  | .old n .raw | .old n .i32 | .old n .n32 | .old n .f32 => [n]
  | .none | .s _ _ | .s64 _ | .tile _ _ | .pred _ => []

/-- The S registers that an outstanding operation will write. -/
def Dst.ss : Dst → List Nat
  | .s n _ | .s64 n => [n]
  | .none | .v _ _ | .old _ _ | .tile _ _ | .pred _ => []

/-- The P registers that an outstanding operation will write. -/
def Dst.ps : Dst → List (BitVec 3)
  | .pred p => [p]
  | .none | .v _ _ | .s _ _ | .s64 _ | .old _ _ | .tile _ _ => []

/-- V[n] is still awaited. -/
def Group.awaitsV (g : Group) (n : Nat) : Bool := g.pend.any fun o => o.dst.vs.contains n

/-- S[n] is still awaited. -/
def Group.awaitsS (g : Group) (n : Nat) : Bool := g.pend.any fun o => o.dst.ss.contains n

/-- P[p] is still awaited; P7 has no storage and never is (R14). -/
def Group.awaitsP (g : Group) (p : BitVec 3) : Bool := p != 7 && g.pend.any fun o => o.dst.ps.contains p

/-- No register that the instruction reads or writes is awaited, or it waits at issue (R140). -/
def Group.ready (g : Group) (vs ss : List Nat) (ps : List (BitVec 3)) : Res Unit :=
  need (!(vs.any g.awaitsV || ss.any g.awaitsS || ps.any g.awaitsP)) .wait

/-! ## Tag expectations (R55) -/

/-- What an instruction expects of a V source. -/
inductive Expect where
  | any | i32 | n32 | int | i8x4 | i4x8 | limb | f32 | dLo | dHi | h2 | b2 | e4x4 | e5x4 | e2x8 | f6a | f6b | rawOnly
  deriving DecidableEq, Repr

/-- The accepted tags of an expectation. -/
def Expect.accepts : Expect → Tag → Bool
  | .any, _ => true
  | .i32, t => t == .i32 || t == .raw
  | .n32, t => t == .n32 || t == .raw
  | .int, t => t == .i32 || t == .n32 || t == .raw
  | .i8x4, t => t == .i8x4 || t == .raw
  | .i4x8, t => t == .i4x8 || t == .raw
  | .limb, t => t == .limb || t == .raw
  | .f32, t => t == .f32
  | .dLo, t => t == .dLo
  | .dHi, t => t == .dHi
  | .h2, t => t == .h2
  | .b2, t => t == .b2
  | .e4x4, t => t == .e4x4
  | .e5x4, t => t == .e5x4
  | .e2x8, t => t == .e2x8
  | .f6a, t => t == .f6ax5
  | .f6b, t => t == .f6bx5
  | .rawOnly, t => t == .raw

/-- Signed or unsigned by N (R55). -/
def Expect.ofN (n : Bool) : Expect := if n then .n32 else .i32

/-- The tag of a signed or unsigned result. -/
def tagOfN (n : Bool) : Tag := if n then .n32 else .i32

/-- An FP6 tag (R71). -/
def isF6 (t : Tag) : Bool := t == .f6ax5 || t == .f6bx5

/-- The V sources of an instruction, each with its expectation. -/
abbrev Sources := List (Nat × Expect)

/-- An FP64 pair (R53, R55). -/
def pairSrc (n : Nat) : Sources := [(n, .dLo), (n + 1, .dHi)]

/-- TAGMIS when a source carries a tag that its expectation does not accept (R55). -/
def Group.tagsOk (g : Group) (srcs : Sources) : Res Unit :=
  need (srcs.all fun p => p.2.accepts (g.tag p.1)) (.plain .tagmis)

/-- The FMTEMU trap: a source tagged FP6 or a modifier that selects an FP6 format, unless the management core has done
its work (R71, R72). -/
def Group.hardware (g : Group) (srcs : Sources) (fp6 : Bool) : Res Unit :=
  need (!(fp6 || srcs.any fun p => isF6 (g.tag p.1)) || g.emu == .done) .fmtemu

/-- The checks that follow register resolution, in order: the interlock, TAGMIS, FMTEMU (R39, R71, R140). -/
def Group.check (g : Group) (srcs : Sources) (dsts ss : List Nat := []) (ps : List (BitVec 3) := [])
    (fp6 : Bool := false) : Res Unit := do
  g.ready (srcs.map (·.1) ++ dsts) ss ps
  g.tagsOk srcs
  g.hardware srcs fp6

/-! ## The B operand of rows 2 to 6 (R93, R102) -/

/-- A resolved B operand. -/
inductive BVal where
  | v (n : Nat)
  | s (n : Nat)
  deriving DecidableEq, Repr

/-- B resolved in its class, as a run of `span` V registers or one S register (R32, R93). -/
def Group.bNum (g : Group) (b : BSrc) (span : Nat := 1) : Res BVal :=
  match b with
  | .v r _ => do
    let n ← g.vNum r span
    .ok (.v n)
  | .s r => do
    let n ← g.sNum r
    .ok (.s n)

/-- The V source that B is, with its expectation; none under .S. -/
def BVal.srcs (e : Expect) : BVal → Sources
  | .v n => [(n, e)]
  | .s _ => []

/-- The FP64 pair that B is; none under .S. -/
def BVal.pairs : BVal → Sources
  | .v n => pairSrc n
  | .s _ => []

/-- The S registers that B reads. -/
def BVal.ss : BVal → List Nat
  | .v _ => []
  | .s n => [n]

/-- B in lane l: the lane, or S[B][31:0] (R93). -/
def Group.bLane (g : Group) (b : BVal) (l : Nat) : Word32 :=
  match b with
  | .v n => g.lane n l
  | .s n => (g.s n).extractLsb' 0 32

/-- B in lane l as 64 bits: the pair, or S[B] (R102). -/
def Group.bPair (g : Group) (b : BVal) (l : Nat) : Word64 :=
  match b with
  | .v n => g.pair n l
  | .s n => g.s n

/-! ## Member sets (R177) -/

/-- The member set of VOTE, REDX, SCANX and MATCH: E, or the low half of S[C] under .MM. -/
def Group.members (g : Group) (e : Mask) : Option Nat → Mask
  | none => e
  | some n => (g.s n).extractLsb' 0 32

/-- C resolved under .MM. -/
def Group.mmNum (g : Group) : Option Reg → Res (Option Nat)
  | none => .ok none
  | some r => do
    let n ← g.sNum r
    .ok (some n)

end Sys2Proof.Machine
end

