-- ==== Sys2Proof/Machine/Translate.lean ====
section
/-! DEFINITION. Two-stage translation (spec 16 R332 to R337): walks of Sv57 and Sv57x4 tables in memory, leaf checks,
cached translations. -/

namespace Sys2Proof.Machine

/-- What an access asks of a page (R334). -/
structure Need where
  rd : Bool
  wr : Bool
  ex : Bool
  /-- A counter operation, which uses no window entry (R370). -/
  ctr : Bool
  deriving DecidableEq, Repr

/-- The needs of a load, of a store and of an atomic, which read and write, and of a fetch (R334). -/
def needR : Need := ⟨true, false, false, false⟩
def needW : Need := ⟨false, true, false, false⟩
def needRW : Need := ⟨true, true, false, false⟩
def needX : Need := ⟨false, false, true, false⟩
/-- The need of an instruction that only asks where a page lies, which raises no MIGR (R376). -/
def needNone : Need := ⟨false, false, false, false⟩
/-- The need of an add to a class 3 counter: a write, which asks for W and R (R334). -/
def needCtr : Need := ⟨false, true, false, true⟩

/-- ACC of the fault record (R342). -/
def Need.acc (n : Need) : Nat := if n.ex then 3 else if n.rd && n.wr then 2 else if n.wr then 1 else 0

/-- Why a walk fails: XLAT (R334), or no storage behind an address. -/
inductive WalkFail where
  | xlat (a : WalkAnswer)
  | hole (pa : Nat)
  deriving DecidableEq, Repr

/-- A table entry that a walk has read from memory: its stage, the address that names it there, its physical address,
and its value (R336). -/
structure TableRead where
  gstage : Bool
  addr : Nat
  pa : Nat
  pte : Word64
  deriving DecidableEq, Repr

/-- What a walk finds with the entries that it has read, which a walk that fails has read too (R337). -/
abbrev Walked (α : Type) := Except (WalkFail × List TableRead) (α × List TableRead)

/-- The reads made before a part of a walk come before its own. -/
def Walked.after {α : Type} (t : List TableRead) : Walked α → Walked α
  | .ok (x, u) => .ok (x, t ++ u)
  | .error (e, u) => .error (e, t ++ u)

/-- XLAT at a stage, with no leaf found before it. -/
def xlatAt (gstage resumable : Bool) : WalkFail := .xlat ⟨gstage, resumable, none, none⟩

/-- A leaf that a walk found: physical or guest physical base of its page, size in bytes, the entry. -/
structure Leaf where
  base : Nat
  size : Nat
  pte : Word64
  deriving DecidableEq, Repr

/-- The physical page number of an entry. -/
def ptePpn (p : Word64) : Nat := (p.extractLsb' 10 44).toNat

/-- R, W or X set: a leaf. -/
def pteLeaf (p : Word64) : Bool := p.getLsbD 1 || p.getLsbD 2 || p.getLsbD 3

/-- Bits that RISC-V reserves: [60:54], PBMT 3, W without R; in a non-leaf also N, PBMT, D, A and U (log 16, PRESUMED). -/
def pteReserved (p : Word64) : Bool :=
  p.extractLsb' 54 7 != 0 || p.extractLsb' 61 2 == 3#2 || (p.getLsbD 2 && !p.getLsbD 1) ||
    (!pteLeaf p && (p.getLsbD 63 || p.extractLsb' 61 2 != 0#2 || p.getLsbD 7 || p.getLsbD 6 || p.getLsbD 4))

/-- The leaf that an entry at level k is for an address, unless it is malformed (R333, R334). -/
def leafAt (p : Word64) (k va : Nat) : Option Leaf :=
  let size := 2 ^ (12 + 9 * k)
  if p.getLsbD 63 then
    if k = 0 && ptePpn p % 16 == 8 then some ⟨ptePpn p / 16 * 65536, 65536, p⟩ else none
  else if ptePpn p % 2 ^ (9 * k) = 0 then
    if k ≤ 2 then some ⟨ptePpn p * 4096, size, p⟩
    else some ⟨ptePpn p * 4096 + va % size / 2 ^ 30 * 2 ^ 30, 2 ^ 30, p⟩
  else none

/-- A walk from the table of level `k` down; `read` reads an entry, and the root has `root` entries (R332). -/
def walkTable (read : Nat → Walked Word64) (fail : WalkFail) (va root : Nat) : (k : Nat) → (table : Nat) → Walked Leaf
  | k, table =>
    match read (table + 8 * (va / 2 ^ (12 + 9 * k) % (if k = 4 then root else 512))) with
    | .error e => .error e
    | .ok (p, t) =>
      if !p.getLsbD 0 || pteReserved p then .error (fail, t)
      else if pteLeaf p then
        match leafAt p k va with
        | some l => .ok (l, t)
        | none => .error (fail, t)
      else
        match k with
        | 0 => .error (fail, t)
        | k' + 1 => (walkTable read fail va root k' (ptePpn p * 4096)).after t

/-- A non-leaf entry that the die's L2 TLB holds (R336). -/
def State.cachedTable (s : State) (die : Option Nat) (h : Nat) (gstage : Bool) (addr : Nat) : Option Word64 :=
  die.bind fun d => s.l2tlb.findSome? fun p => match p with
    | (d', .table h' g' a' pte) => if d' == d && h' == h && g' == gstage && a' == addr then some pte else none
    | (_, .leaf _) => none

/-- A table entry read at its home, a strong relaxed read (R337); 45 bits of physical address (R308). -/
def State.pteRead (s : State) (gstage : Bool) (addr pa : Nat) : Walked Word64 :=
  if pa + 8 ≤ 2 ^ 45 then .ok (s.homeWord pa, [⟨gstage, addr, pa, s.homeWord pa⟩]) else .error (.hole pa, [])

/-- A G-stage table entry: one that the TLB holds, or the one in memory. -/
def State.gRead (s : State) (die : Option Nat) (h pa : Nat) : Walked Word64 :=
  match s.cachedTable die h true pa with
  | some p => .ok (p, [])
  | none => s.pteRead true pa pa

/-- PBMT of a leaf: 1 is NC, 2 is IO. -/
def ptePbmt (p : Word64) : BitVec 2 := p.extractLsb' 61 2

/-- The rights of a leaf. -/
def pteRights (p : Word64) : Rights := ⟨p.getLsbD 1, p.getLsbD 2, p.getLsbD 3, p.getLsbD 7⟩

/-- The G stage of a guest physical address: its leaf, with U and A checked (R332, R334). -/
def State.gStage (s : State) (die : Option Nat) (h : Hedge) (gpa : Nat) : Walked Leaf :=
  if gpa ≥ 2 ^ 59 || gpa ≥ h.p.guestSize then .error (xlatAt true false, [])
  else
    match walkTable (s.gRead die h.p.id) (xlatAt true true) gpa 2048 4 ((h.hgatp.extractLsb' 0 44).toNat * 4096) with
    | .error e => .error e
    | .ok (l, t) => if !l.pte.getLsbD 4 || !l.pte.getLsbD 6 then .error (xlatAt true true, t) else .ok (l, t)

/-- The physical address of a guest physical address under a leaf. -/
def Leaf.addr (l : Leaf) (a : Nat) : Nat := l.base + a % l.size

/-- A guest table entry: one that the TLB holds, or the one read through the G stage, whose leaf must allow R and be no
IO page (R332, R334). -/
def State.guestRead (s : State) (die : Option Nat) (h : Hedge) (gpa : Nat) : Walked Word64 :=
  match s.cachedTable die h.p.id false gpa with
  | some p => .ok (p, [])
  | none =>
    match s.gStage die h gpa with
    | .error e => .error e
    | .ok (l, t) =>
      if !l.pte.getLsbD 1 then .error (xlatAt true true, t)
      else if ptePbmt l.pte == 2#2 then .error (xlatAt true false, t)
      else (s.pteRead false gpa (l.addr gpa)).after t

/-- The whole walk of a guest virtual address (R332 to R334): the combined translation of the smaller page with the
entries read, or the failure. A failure after a leaf of a stage is found carries that leaf's rights. -/
def State.walk (s : State) (die : Option Nat) (h : Hedge) (va : Nat) : Walked TlbEntry :=
  let va := va % 2 ^ 57
  match walkTable (s.guestRead die h) (xlatAt false true) va 512 4 ((h.vsatp.extractLsb' 0 44).toNat * 4096) with
  | .error e => .error e
  | .ok (v, t) =>
    if !v.pte.getLsbD 4 || !v.pte.getLsbD 6 then .error (xlatAt false true, t)
    else
      let vs := pteRights v.pte
      let gpa := v.addr va
      if ptePbmt v.pte == 2#2 then .error (.xlat ⟨false, false, some vs, none⟩, t)
      else match s.gStage die h gpa with
      | .error (.xlat a, u) => .error (.xlat { a with vs := some vs }, t ++ u)
      | .error (.hole pa, u) => .error (.hole pa, t ++ u)
      | .ok (g, u) =>
        let gr := pteRights g.pte
        if ptePbmt g.pte == 2#2 then .error (.xlat ⟨true, false, some vs, some gr⟩, t ++ u)
        else
          let size := min v.size g.size
          let pa := g.addr gpa / size * size
          if pa + size > 2 ^ 45 then .error (.hole pa, t ++ u)
          else
            .ok ({ hedge := h.p.id, va := va / size * size, size := size, pa := pa, vs := vs, g := gr,
                   nc := ptePbmt v.pte == 1#2 || (ptePbmt v.pte == 0#2 && ptePbmt g.pte == 1#2) }, t ++ u)

/-- The owning slice of a guest virtual address (R335). -/
def sliceOf (h va : Nat) : Nat := (va / 65536 % 16 + h) % 16

/-- A leaf does not give what the access needs (R334). -/
def Rights.refuses (t : Rights) (n : Need) : Bool :=
  (n.rd && !t.r) || (n.wr && !(t.w && t.r && t.d)) || (n.ex && !t.x)

/-- The stage whose leaf refuses the access: VS is looked at first (R334). -/
def TlbEntry.refuses (t : TlbEntry) (n : Need) : Option Bool :=
  if t.vs.refuses n then some false else if t.g.refuses n then some true else none

/-- The stage of the XLAT that an access takes from a failed walk, and whether it resumes: a leaf that refuses the access
was found before the failure (R334). -/
def WalkAnswer.fault (a : WalkAnswer) (n : Need) : Bool × Bool :=
  if (a.vs.map fun r => r.refuses n).getD false then (false, true)
  else if (a.g.map fun r => r.refuses n).getD false then (true, true)
  else (a.gstage, a.resumable)

/-- The physical address of an address in the page. -/
def TlbEntry.addr (t : TlbEntry) (va : Nat) : Nat := t.pa + va % 2 ^ 57 % t.size

/-- The entry covers an address of a hedge. -/
def TlbEntry.covers (t : TlbEntry) (h va : Nat) : Bool :=
  t.hedge == h && decide (t.va ≤ va % 2 ^ 57) && decide (va % 2 ^ 57 < t.va + t.size)

/-- The cached translation that a core finds: its L1 TLB's, or its die's L2 TLB's (R336, R337). -/
def State.cached (s : State) (core h va : Nat) : Option TlbEntry :=
  ((s.core core).tlb.find? fun t => t.covers h va).or
    (s.l2tlb.findSome? fun p => match p with
      | (d, .leaf t) => if d == dieOf core && t.covers h va then some t else none
      | (_, .table _ _ _ _) => none)

/-- The home slice of the frame is the one that homes the address, or none is recorded (R357). -/
def State.sliceOk (s : State) (h va pa : Nat) : Bool :=
  match (s.frame (frameOf pa)).slice with
  | some k => k == sliceOf h va
  | none => true

/-- The home of a pool frame accepts the accesses of its own package: it owns the frame, and no request for it waits, but for
one that waits until SWITCH (R373, R374). -/
def State.poolOk (s : State) (f : Nat) : Bool :=
  ((s.frame f).pool.map fun p => p.owned && (p.requests.isEmpty || s.inCopy (f * 65536))).getD true

/-- What a translated access may do: the physical address, redirected where its frame has moved (R369), and whether the
page is NC; or XLAT (R334, R357), or MIGR for a pool frame whose home does not accept it or a write that finds the window full
(R372, R373). -/
def State.useEntry (s : State) (h va : Nat) (t : TlbEntry) (n : Need) : Except FaultInfo (Nat × Bool) :=
  match t.refuses n with
  | some gstage => .error { code := .xlat, gstage := gstage, va := va, acc := n.acc, resumable := true }
  | none =>
    let pa := s.redirect (t.addr va)
    if !s.sliceOk h va pa then .error { code := .xlat, va := va, acc := n.acc }
    else if n != needNone && !s.poolOk (frameOf pa) then
      .error { code := .migr, va := va, acc := n.acc, resumable := true }
    else if n.wr && !n.ctr && !s.windowRoom pa then .error { code := .migr, va := va, acc := n.acc, resumable := true }
    else .ok (pa, t.nc)

/-- A lane's translation (R125, R337): from the cached entry; from the answer of a walk that failed; otherwise the
instruction waits for a walk. -/
def State.translate (s : State) (core h va : Nat) (n : Need) : Res (Nat × Bool) :=
  match s.cached core h va with
  | some t =>
    match s.useEntry h va t n with
    | .ok r => .ok r
    | .error i => .error (.fault i)
  | none =>
    match s.walks.find? fun w => w.hedge == h && w.core == core && w.va == va / 4096 with
    | some ⟨_, _, _, some a⟩ =>
      .error (.fault { code := .xlat, gstage := (a.fault n).1, va := va, acc := n.acc, resumable := (a.fault n).2 })
    | _ => .error (.walk h core (va / 4096))

/-- Where an access of an agent without a core finds a byte: nowhere; nowhere yet, its frame refusing it with MIGR; or at a
physical address, with whether its page is NC. -/
inductive Found where
  | missing
  | later (f : Nat)
  | at_ (pa : Nat) (nc : Bool)
  deriving DecidableEq, Repr

/-- A translation by the hub, the service kernel, an engine or a thread, which walk for themselves; MIGR waits (R269, R334,
R370, R372, R411). -/
def State.find (s : State) (h : Hedge) (va : Nat) (n : Need) : Found :=
  match s.walk none h va with
  | .ok (t, _) =>
    match s.useEntry h.p.id va t n with
    | .ok r => .at_ r.1 r.2
    | .error i => if i.code == .migr then .later (frameOf (s.redirect (t.addr va))) else .missing
  | .error _ => .missing

/-- The home of a pool frame that this package does not own asks its owner for it (R373). -/
def State.askOwner (s : State) (f : Nat) : State :=
  if ((s.frame f).pool.map fun p => !p.owned && !p.asked).getD false then
    (s.send (.ownerRequest f)).mapFrame f fun x => { x with pool := x.pool.map fun p => { p with asked := true } }
  else s

/-- An access that an agent without a core makes at an address waits where MIGR meets it, and the home asks for a frame that
another package owns (R370, R373). -/
def State.askFound (s : State) (x : Found) : State :=
  match x with
  | .later f => s.askOwner f
  | .missing | .at_ _ _ => s

/-- The place that a translation by the hub finds now. -/
def State.hubTranslate (s : State) (h : Hedge) (va : Nat) (n : Need) : Option (Nat × Bool) :=
  match s.find h va n with
  | .at_ pa nc => some (pa, nc)
  | .later _ | .missing => none

/-- The frames of a page that the hedge reaches for the first time are homed from then on at the slices of their addresses,
where none is recorded (R335, R357; log 73, DESIGN CHOICE). -/
def State.homePage (s : State) (t : TlbEntry) : State :=
  let hit (p : Nat × Frame) : Bool := p.2.owner == some t.hedge && p.2.slice.isNone &&
    decide (t.pa < (p.1 + 1) * 65536) && decide (p.1 * 65536 < t.pa + t.size)
  let home (p : Nat × Frame) : Nat × Frame :=
    if hit p then (p.1, { p.2 with slice := some (sliceOf t.hedge (t.va + (p.1 * 65536 - t.pa))) }) else p
  { s with frames := s.frames.map home }

/-- An agent without a core reaches an address of the hedge (R357). -/
def State.hubReach (s : State) (h : Hedge) (va : Nat) : State :=
  match s.walk none h va with
  | .ok (t, _) => s.homePage t
  | .error _ => s

/-- An agent without a core reaches addresses of the hedge. -/
def State.hubReaches (s : State) (h : Hedge) (vas : List Nat) : State := vas.foldl (fun t va => t.hubReach h va) s

end Sys2Proof.Machine
end

