-- ==== Sys2Proof/Machine/Counter.lean ====
section
/-! DEFINITION. Counters at their homes: values, the wrap rule, adds, waiters, watches, links, relays and pending adds
(spec 08 R198 to R219; spec 14 R293 to R299). -/

namespace Sys2Proof.Machine

/-- sat(v, t) (R204). -/
def sat (v t : Word64) : Bool := decide ((v - t).toNat < 2 ^ 63)

/-- A counter; unlisted ones are zero with nothing waiting. -/
def State.ctr (s : State) (k : CtrKey) : Ctr := (find1 s.ctrs k).getD Ctr.initial

/-- The state with one counter changed. -/
def State.mapCtr (s : State) (k : CtrKey) (f : Ctr → Ctr) : State := { s with ctrs := put1 s.ctrs k (f (s.ctr k)) }

/-- value(k): of class 3 the word in memory (R201). -/
def State.ctrValue (s : State) (k : CtrKey) : Word64 :=
  match k with
  | .c3 a => s.homeWord a
  | .c0 _ _ | .c1 _ _ _ | .c2 _ _ _ => (s.ctr k).value

/-- The slice of a hedge's context area, to which faults without an address go: no rule places a context area, and the model
takes the hedge's number modulo 16 (R342, R357; log 73, DESIGN CHOICE). -/
def contextSlice (h : Nat) : Nat := h % 16

/-- Size of a group image (R349). -/
def groupImageSize (v acc : Nat) (chk : Bool) : Nat := 0xC00 + 128 * v + 4096 * acc + if chk then 0x8000 else 0

/-- The workgroup's image as it holds a group: its address (R348). -/
def State.groupImageAt (s : State) (g : Group) : Option Nat :=
  match s.wgOf g.wg, s.hedge g.hedge with
  | some w, some h =>
    w.image.map fun base => base + 0x2000 + w.size + g.number * groupImageSize g.vregs.length g.tiles.length h.p.checked
  | _, _ => none

/-- A word written into the image of a group that is off its core (R219, R345, R349). -/
def State.imageWord (s : State) (g off : Nat) (x : Word64) : State :=
  match (s.group g).bind fun y => if y.seat.isNone then s.groupImageAt y else none with
  | some a => s.hubWriteWord (a + off) x
  | none => s

/-- The word of a class 3 counter cannot be consumed: its line is in error, or its sector does not match its code (R409,
R410). -/
def State.ctrBad (s : State) (k : CtrKey) : Option RollCause :=
  match k with
  | .c3 a => if s.isBad a then some .uncorr else if s.isMismatched a then some .sdc else none
  | .c0 _ _ | .c1 _ _ _ | .c2 _ _ _ => none

/-- A word written by merging it at its home into its sector; one whose sector is in error rolls the hedge back that owns it
(R409, R410). -/
def State.mergeWord (s : State) (pa : Nat) (f : State → State) : State :=
  match s.ctrBad (.c3 pa), (s.frame (frameOf pa)).owner with
  | some c, some h => s.askRollback h c (.home pa)
  | _, _ => f s

/-- The state with value(k) set; a class 0 counter of a group off its core lies in the group's image too (R219). -/
def State.setCtr (s : State) (k : CtrKey) (x : Word64) : State :=
  match k with
  | .c3 a => s.mergeWord a fun t => t.counterWord a x
  | .c0 g i => (s.mapCtr k fun c => { c with value := x }).imageWord g (0x140 + 8 * i) x
  | .c1 _ _ _ | .c2 _ _ _ => s.mapCtr k fun c => { c with value := x }

/-- A counter operation of class 3 reaches the home of its word, where its read and write parts are counted (R365). -/
def State.countCtr (s : State) (k : CtrKey) (rd wr : Bool) : State :=
  match k with
  | .c3 a => s.homeAccess (((s.frame (frameOf a)).owner).getD 0) (a / 128 * 128) rd wr
  | .c0 _ _ | .c1 _ _ _ | .c2 _ _ _ => s

/-- A change of the counter need not wait at its home for room in the interval log (R405). -/
def State.ctrRoom (s : State) (k : CtrKey) : Bool :=
  match k with
  | .c3 a => s.logRoom a
  | .c0 _ _ | .c1 _ _ _ | .c2 _ _ _ => true

/-- The pending adds of a launch at a counter (R219). -/
def Ctr.pendingOf (c : Ctr) (h q : Nat) : Nat :=
  ((c.pending.filter fun p => p.hedge == h && p.lseq == q).map (·.amount)).sum

/-- The value that groups of a launch see (R219). -/
def State.ctrView (s : State) (k : CtrKey) (h q : Nat) : Word64 :=
  s.ctrValue k + BitVec.ofNat 64 ((s.ctr k).pendingOf h q)

/-- The unresolved speculation of a launch. -/
def State.specAt (s : State) (hedge lseq : Nat) : Option Spec :=
  ((s.launch hedge lseq).bind (·.spec)).bind fun x => if x.resolved then none else some x

/-- The unresolved speculation of the group's launch. -/
def State.specOf (s : State) (g : Group) : Option Spec := s.specAt g.hedge g.lseq

/-- The value that a waiter is judged by: a CWAIT by its group's launch's view (R219). -/
def State.waiterValue (s : State) (k : CtrKey) (w : Waiter) : Word64 :=
  match w.who with
  | .cwait g _ =>
    match s.group g with
    | some x => s.ctrView k x.hedge x.lseq
    | none => s.ctrValue k
  | _ => s.ctrValue k

/-- A counter's tag set or cleared, as `State.setTag` does for a superblock (R322). -/
def State.setTagCtr (s : State) (k : CtrKey) (t : Option RelTag) : State :=
  let u := match (s.ctr k).tag with
    | some o => if t.map RelTag.core == some o.core then s else s.flushHedge o.core o.hedge
    | none => s
  u.mapCtr k fun c => { c with tag := t }

/-- What a strong store to a counter does to its tag (R322). -/
def State.tagCtr (s : State) (k : CtrKey) (rel : Option Scope) (sc : Scope) (core hedge : Nat) : State :=
  match rel with
  | some r => s.setTagCtr k (if narrowScope r then some ⟨core, hedge, r == .core⟩ else none)
  | none => if narrowScope sc then s else s.setTagCtr k none

/-- Promotion at a counter's home (R322). -/
def State.promoteCtr (s : State) (k : CtrKey) (covers : RelTag → Bool) : State :=
  match (s.ctr k).tag with
  | some t => if covers t then (s.flushHedge t.core t.hedge).mapCtr k fun c => { c with tag := none } else s
  | none => s

/-- A released waiter of a counter acts (R204, R211, R215, R388, R393); a watch with .AR acquires the adds that satisfied
it, and its add releases at its scope (R215, R217). -/
def State.releaseWaiter (s : State) (k : CtrKey) (w : Waiter) : State :=
  match w.who with
  | .cwait g i =>
    s.mapGroup g fun x =>
      { x with cwaits := x.cwaits.map fun c => if c.id == i then { c with at_ := .answered } else c }
  | .dep h q i =>
    s.mapLaunch h q fun l =>
      { l with deps := l.deps.zipIdx.map fun p => if p.2 == i then { p.1 with met := true } else p.1 }
  | .svcFree g => s.mapGroup g fun x => { x with svcWait := x.svcWait.map fun v => { v with ready := true } }
  | .svcReply g i =>
    s.mapGroup g fun x =>
      { x with svcReplies := x.svcReplies.map fun r => if r.slot == i then { r with ready := true } else r }
  | .watch h target amount _ order hs =>
    let t := match order.acq with
      | some sc => s.promoteCtr k (promotedAt sc)
      | none => s
    { t with adds := t.adds ++ [AddReq.mk target h none amount (some hs) order.rel false] }

/-- The waiters that are satisfied are released, in the order in which they were armed. -/
def State.releaseSat (s : State) (k : CtrKey) : State :=
  let ws := (s.ctr k).waiters
  let ok (w : Waiter) : Bool := sat (s.waiterValue k w) w.t
  (ws.filter ok).foldl (fun t w => t.releaseWaiter k w) (s.mapCtr k fun c => { c with waiters := c.waiters.filter fun w => !ok w })

/-- The threshold of a relay's registration: the one nearest at or above the value (R298). -/
def nearest (v : Word64) (ts : List Word64) : Option Word64 :=
  ts.foldl (fun b t => match b with
    | none => some t
    | some u => if (t - v).toNat < (u - v).toNat then some t else some u) none

/-- The relay registers for its proxy waiters on p. The home looks at the value in the same step: those that it satisfies
are answered by a down-flip that sets out with it, at its place in p's modification order, and the registration is for the
others (R214, R216, R298). Where p has no room for a registration, they are armed at p (R298). -/
def State.register (s : State) (relay p : CtrKey) : State :=
  let v := s.ctrValue p
  let (hits, rest) := ((s.ctr relay).proxies.filter fun x => x.1 == p).partition fun x => sat v x.2.t
  let s0 := (s.mapCtr relay fun c => { c with proxies := c.proxies.filter fun x => !hits.contains x }).mapCtr p fun c =>
    { c with regs := c.regs.filter fun r => r.1 ≠ relay }
  let s0 := if hits.isEmpty then s0 else { s0 with flips := s0.flips ++ [Flip.mk relay p v hits] }
  match nearest v (rest.map fun x => x.2.t) with
  | none => s0
  | some t =>
    if (s0.ctr p).regs.length < 64 then s0.mapCtr p fun c => { c with regs := c.regs ++ [(relay, t)] }
    else
      (s0.mapCtr relay fun c => { c with proxies := c.proxies.filter fun x => x.1 ≠ p }).mapCtr p fun c =>
        { c with waiters := c.waiters ++ rest.map (·.2) }

/-- A registration that an add satisfies sends its down-flip (R298). -/
def State.flipSat (s : State) (k : CtrKey) : State :=
  ((s.ctr k).regs.filter fun r => sat (s.ctrValue k) r.2).foldl (fun t r => t.register r.1 k) s

/-- add(k, a), one indivisible step at the home (R209); a crossing carries the releases of the child's adds (R217). -/
def State.addCtr (s : State) (k : CtrKey) (a : Nat) : State :=
  let old := (s.ctrValue k).toNat
  let t := (s.countCtr k true true).setCtr k (BitVec.ofNat 64 (old + a))
  let t := match (s.ctr k).link with
    | some (p, e) =>
      let c := (old + a) / 2 ^ e - old / 2 ^ e
      if c = 0 then t
      else
        let u := t.promoteCtr k fun _ => true
        { u with crossings := u.crossings ++ [Crossing.mk k p c] }
    | none => t
  (t.releaseSat k).flipSat k

/-- A speculative launch's add is held as a pending add; its own launch's waiters see it (R219). -/
def State.holdAdd (s : State) (k : CtrKey) (p : PendingAdd) : State :=
  (s.mapCtr k fun c => { c with pending := c.pending ++ [p] }).releaseSat k

/-- The counter still exists: its group, or its frame's owner (R215). -/
def State.ctrLives (s : State) (h : Nat) (k : CtrKey) : Bool :=
  match k with
  | .c0 g _ => (s.group g).isSome
  | .c1 _ _ _ | .c2 _ _ _ => (s.hedge h).isSome
  | .c3 a => (s.frame (frameOf a)).owner == some h

/-! ## Homes, shares and relays (R199, R218, R297) -/

/-- Where counters share waiter capacity: a core file, a cluster file, a hub slice, the group itself. -/
inductive HomeId where
  | group (g : Nat)
  | core (c : Nat)
  | cluster (die : Nat)
  | slice (i : Nat)
  deriving DecidableEq, Repr

/-- The hedge's clusters: one a die of the rectangle that it was created with, which a resize does not change, as it does
not change the logical cores (R200, R382; log 85, DEDUCED). -/
def Hedge.clusters (h : Hedge) : Nat := (diesOf h.p.rect.dies).length

/-- The die of a hedge's cluster number: a resize to one die moves both clusters there, and handles stay valid (R200,
R219, R382). -/
def Hedge.clusterDie (h : Hedge) (cluster : Nat) : Nat :=
  ((diesOf h.rect.dies)[cluster]?).getD (((diesOf h.rect.dies)[0]?).getD 0)

/-- The physical cores that run logical cores of a hedge, each once (R381). -/
def Hedge.physical (h : Hedge) : List Nat := h.map.eraseDups

/-- home(k) (R199); of a class 0 counter while its group is off its core, the slice of the image (R219). -/
def State.homeId (s : State) (k : CtrKey) : HomeId :=
  match k with
  | .c0 g _ =>
    match s.group g with
    | some x => if x.seat.isNone && (s.groupImageAt x).isSome then .slice (contextSlice x.hedge) else .group g
    | none => .group g
  | .c1 h c _ => .core (((s.hedge h).map fun x => x.map.getD c 0).getD 0)
  | .c2 h c _ => .cluster (((s.hedge h).map fun x => x.clusterDie c).getD 0)
  | .c3 a => .slice (((s.frame (frameOf a)).slice).getD 0)

/-- A hedge's share of a home's waiters: 128 for each of its slot numbers at a core file, 32 for each of its cores on the
die at a cluster file, its creation parameter at a slice (R218, R293, R380). A group's own counters have the capacity
"the group itself" (R199), which is no number: the model sets no limit there (log 72, DESIGN CHOICE). -/
def Hedge.waiterShare (h : Hedge) : HomeId → Option Nat
  | .group _ => none
  | .core _ => some (128 * h.slots.length)
  | .cluster d => some (32 * (h.physical.filter fun c => dieOf c == d).length)
  | .slice _ => some h.p.waiterSlice

/-- The waiters that a hedge holds at a home. R218 does not say what uses the share: the model counts every entry that
stands armed there, watches, launch dependences and proxy waiters among them (log 72, DESIGN CHOICE). -/
def State.waitersAt (s : State) (h : Nat) (i : HomeId) : Nat :=
  (s.ctrs.map fun p =>
    if s.homeId p.1 == i then
      (p.2.waiters.filter fun w => w.hedge == h).length + (p.2.proxies.filter fun w => w.2.hedge == h).length
    else 0).sum

/-- The hedge's share at a home has room (R218). -/
def State.shareRoom (s : State) (h : Nat) (i : HomeId) : Bool :=
  match (s.hedge h).bind fun x => x.waiterShare i with
  | some n => decide (s.waitersAt h i < n)
  | none => true

/-- The counter's parent, or its parent's parent, is p (R297). -/
def State.descends (s : State) (c : Ctr) (p : CtrKey) : Bool :=
  match c.link with
  | some (q, _) => q == p || ((s.ctr q).link.map fun l => l.1 == p).getD false
  | none => false

/-- The relay for p on a core's path: a linked counter of its core file, then of its die's cluster file (R297) (log 32, DEDUCED). -/
def State.relay (s : State) (core h : Nat) (p : CtrKey) : Option CtrKey :=
  let at_ (i : HomeId) := s.ctrs.find? fun x => s.homeId x.1 == i && s.descends x.2 p && s.shareRoom h i
  ((at_ (.core core)).or (at_ (.cluster (dieOf core)))).map (·.1)

/-- A waiter may stand as a proxy at a relay. A CWAIT of a speculative launch may not: its own launch's pending adds at
the parent answer it, and no registration carries those (R219). -/
def State.mayProxy (s : State) (w : Waiter) : Bool :=
  match w.who with
  | .cwait g _ => ((s.group g).bind s.specOf).isNone
  | _ => true

/-- The relay at which a waiter on k that a core issues is armed (R297). -/
def State.relayFor (s : State) (core : Option Nat) (k : CtrKey) (w : Waiter) : Option CtrKey :=
  if s.mayProxy w then core.bind fun c => s.relay c w.hedge k else none

/-- A waiter is answered at once when its threshold is satisfied, otherwise armed: at a relay on the core's path, or at
the home (R211, R214, R297). -/
def State.arm (s : State) (core : Option Nat) (k : CtrKey) (w : Waiter) : State :=
  if sat (s.waiterValue k w) w.t then s.releaseWaiter k w
  else
    match s.relayFor core k w with
    | some r => (s.mapCtr r fun c => { c with proxies := c.proxies ++ [(k, w)] }).register r k
    | none => s.mapCtr k fun c => { c with waiters := c.waiters ++ [w] }

/-- A down-flip at its relay: the proxy waiters that its value satisfies are released (R298). -/
def State.flip (s : State) (f : Flip) : State := f.hits.foldl (fun t x => t.releaseWaiter x.1 x.2) s

/-- Before a link is changed, the relay's proxy waiters on the old parent, or above it, are armed at the homes that
they name (R299). -/
def State.unproxy (s : State) (k : CtrKey) : State :=
  let ps := (s.ctr k).proxies
  let t := s.mapCtr k fun c => { c with proxies := [] }
  ps.foldl (fun t x =>
    let u := t.mapCtr x.1 fun c => { c with regs := c.regs.filter fun r => r.1 ≠ k }
    u.arm none x.1 x.2) t

/-- CINIT is refused: a waiter, a watch, a registration or a pending add stands (R213). -/
def State.ctrBusy (s : State) (k : CtrKey) : Bool :=
  let c := s.ctr k
  !(c.waiters.isEmpty && c.regs.isEmpty && c.pending.isEmpty)

/-- The watches charged to a logical core of a hedge, armed or on their way (R215). -/
def State.watchesOf (s : State) (h lcore : Nat) : Nat :=
  let mine (w : Waiter) : Bool := match w.who with
    | .watch h' _ _ (some c) _ _ => h' == h && c == lcore
    | _ => false
  (s.ctrs.map fun p => (p.2.waiters.filter mine).length + (p.2.proxies.filter fun x => mine x.2).length).sum +
  (s.flips.map fun f => (f.hits.filter fun x => mine x.2).length).sum +
  (s.groups.map fun g => (g.pend.filter fun o => match o.kind with
    | .ctr _ (.watch _ _ _ (some c) _ _) => g.hedge == h && c == lcore
    | _ => false).length).sum

end Sys2Proof.Machine
end

