-- ==== Sys2Proof/Machine/Ops.lean ====
section
/-! DEFINITION. The shared operations of the machine: taking a fault and coming back from one (spec 16 R339 to R343,
R449), the virtual error queue (spec 19 R411 to R413), and how an instruction of the group in focus ends. -/

namespace Sys2Proof.Machine

/-! ## The group in focus -/

/-- The group with an identity comes into focus. -/
def State.focusOn (s : State) (g : Nat) : State :=
  if s.focus.id = g then s
  else
    match s.others.find? fun x => x.id == g with
    | some x => { s with focus := x, others := s.focus :: s.others.filter fun y => y.id ≠ g }
    | none => s

/-- The clause index moves past the instruction at issue; an emulation that was done is used up. -/
def Group.advance (g : Group) : Group :=
  { g with
    clause := g.clause.map fun c => { c with idx := c.idx + 1 }
    emu := .none
    presence := false
    issued := g.issued + 1 }

/-- The partner of a group of a checked pair (R169). -/
def Group.partner (g : Group) : Option Nat :=
  match g.role with
  | .single => none
  | .leading p | .trailing p => some p

/-! ## The virtual error queue -/

/-- The counters of the counter block, in order (R413). -/
inductive ErrCount where
  | corrected | uncorr | sdc | unconsumed | faults | rollbacks | dropped | clocks
  deriving DecidableEq, Repr

/-- Place of a counter in the block (R413). -/
def ErrCount.index : ErrCount → Nat
  | .corrected => 0
  | .uncorr => 1
  | .sdc => 2
  | .unconsumed => 3
  | .faults => 4
  | .rollbacks => 5
  | .dropped => 6
  | .clocks => 7

/-- VBASE of a buffer index of a hedge, 0 when the entry is gone. -/
def Hedge.vbase (h : Hedge) (i : Nat) : Nat := (((find1 h.bufs i).bind fun e => e[0]?).getD 0).toNat

/-- A counter of the error queue or the counter block receives an add by the hub, which no interval log keeps (R405,
R411, R413). -/
def State.hubAdd (s : State) (pa a : Nat) : State :=
  s.mergeWord pa fun t => ((t.counterSet pa (t.homeWord pa + BitVec.ofNat 64 a)).releaseSat (.c3 pa)).flipSat (.c3 pa)

/-- An event is counted in the hedge's counter block (R413). -/
def State.countEvent (s : State) (h : Nat) (c : ErrCount) (n : Nat := 1) : State :=
  match s.hedge h with
  | some x =>
    match x.errq with
    | some q =>
      match s.hubTranslate x (x.vbase q.block + 8 * c.index) needW with
      | some (pa, _) => (s.hubReach x (x.vbase q.block + 8 * c.index)).hubAdd pa n
      | none => s
    | none => s
  | none => s

/-- The bytes of a record's eight words. -/
def wordBytes (ws : List Word64) : List Byte := ws.flatMap fun w => leBytes 8 w.toNat

/-- A record enters the ring at TAIL mod 2^n and TAIL is added to; false when the ring is full or not reachable
(R411). -/
def State.pushRecord (s : State) (x : Hedge) (q : ErrQueue) (ws : List Word64) : Option State :=
  let base := x.vbase q.buf
  let ring := 64 * 2 ^ q.log2
  match s.hubTranslate x (base + ring) needW, s.hubTranslate x (base + ring + 8) needR with
  | some (tp, _), some (hp, _) =>
    let tail := s.homeWord tp
    if (tail - s.homeWord hp).toNat ≥ 2 ^ q.log2 then none
    else
      match s.hubTranslate x (base + 64 * (tail.toNat % 2 ^ q.log2)) needW with
      | some (rp, _) =>
        let t := s.hubReaches x [base + ring, base + ring + 8, base + 64 * (tail.toNat % 2 ^ q.log2)]
        some (((wordBytes ws).zipIdx.foldl (fun t p => t.homeSet (rp + p.2) p.1) t).hubAdd tp 1)
      | none => none
  | _, _ => none

/-- Word 0 of a record: HEDGE, CODE, RES, STAGE, ACC, LANE, INDEX, DIE, CORE (R342, R412). -/
def recordWord0 (hedge code : Nat) (res stage : Bool) (acc lane index core : Nat) : Word64 :=
  BitVec.ofNat 6 hedge ++ BitVec.ofNat 6 code ++ BitVec.ofBool res ++ BitVec.ofBool stage ++ BitVec.ofNat 2 acc ++
    BitVec.ofNat 5 lane ++ BitVec.ofNat 5 index ++ BitVec.ofNat 1 (dieOf core) ++ BitVec.ofNat 8 (core % 256) ++ 0#29

/-- The hub writes a record to a hedge's virtual error queue, with HEDGE zero; when the ring is full it is dropped and
DROPPED is added to; the first record written once room returns is an overflow record (R411, R412). -/
def State.report (s : State) (h : Nat) (ws : List Word64) : State :=
  let ws := ws.zipIdx.map fun p => if p.2 = 0 then p.1 &&& 0x03FF_FFFF_FFFF_FFFF#64 else p.1
  match s.hedge h with
  | none => s
  | some x =>
    match x.errq with
    | none => s
    | some q =>
      let drop : State :=
        (s.mapHedge h fun y => { y with errq := y.errq.map fun e => { e with lost := e.lost + 1 } }).countEvent h .dropped
      let push (t : State) : Option State := (t.hedge h).bind fun y => t.pushRecord y q ws
      if q.lost = 0 then (push s).getD drop
      else
        match s.pushRecord x q [recordWord0 0 39 false false 0 0 0 0, BitVec.ofNat 64 q.lost, 0, 0, 0, 0, 0, 0] with
        | none => drop
        | some t =>
          let t := t.mapHedge h fun y => { y with errq := y.errq.map fun e => { e with lost := 0 } }
          (push t).getD ((t.mapHedge h fun y =>
            { y with errq := y.errq.map fun e => { e with lost := e.lost + 1 } }).countEvent h .dropped)

/-- A record of kind 32 to 41 with its words 1 to 7 (R412). -/
def State.reportKind (s : State) (h kind : Nat) (ws : List Word64) : State :=
  s.report h (recordWord0 0 kind false false 0 0 0 0 :: (ws ++ List.replicate 7 0).take 7)

/-! ## Taking a fault -/

/-- The codes of R341. -/
def faultNumber : FaultCode → Nat
  | .illop => 1
  | .illclause => 2
  | .regbound => 3
  | .tagmis => 4
  | .bufidx => 5
  | .bufbound => 6
  | .bufright => 7
  | .xlat => 8
  | .migr => 9
  | .acchaz => 10
  | .limbmask => 11
  | .limbdiv => 12
  | .limbovf => 13
  | .cnthandle => 14
  | .cntquota => 15
  | .uncorr => 16
  | .sdc => 17
  | .specviol => 18

/-- The counter of the block that a fault adds to (R413; log 18, DEDUCED). -/
def faultCount : FaultCode → ErrCount
  | .uncorr => .uncorr
  | .sdc => .sdc
  | _ => .faults

/-- The byte offset of the clause in progress, or of the entry that is selected. -/
def Group.clauseOff (g : Group) : Nat :=
  match g.clause, g.selected with
  | some c, _ => c.off
  | none, some e => e.off
  | none, none => 0

/-- Index of the instruction at issue and its word; 31 and the header where no clause is in progress (R342). -/
def Group.position (g : Group) : Nat × Word64 :=
  match g.clause with
  | some c =>
    match c.words[c.idx]? with
    | some w => (c.idx, w)
    | none => (31, c.headWord)
  | none => (31, ((g.replay.map (·.headWord)).getD 0))

/-- The slice whose service core receives the record of a fault: the owning slice of its address, or that of the
context area (R335, R342). -/
def FaultInfo.slice (i : FaultInfo) (h : Nat) : Nat := if i.va = 0 then contextSlice h else sliceOf h i.va

/-- The 64-byte fault record (R342, R449). -/
def State.faultRecord (s : State) (g : Group) (e : Mask) (i : FaultInfo) (token : Nat) : List Word64 :=
  let (idx, off, word) := i.place.getD (g.position.1, g.clauseOff, g.position.2)
  let m := i.mask.getD e
  let wgidx := ((s.wgOf g.wg).map (·.index)).getD 0
  [ recordWord0 g.hedge (faultNumber i.code) i.resumable i.gstage i.acc (i.lane.getD (lowest m)) idx (s.coreOf g),
    BitVec.ofNat 64 (g.code.text + off),
    BitVec.ofNat 64 i.va,
    BitVec.ofInt 64 i.off,
    m ++ BitVec.ofNat 32 i.buf,
    BitVec.ofNat 32 g.lseq ++ BitVec.ofNat 32 wgidx,
    word,
    BitVec.ofNat 6 g.number ++ 0#26 ++ BitVec.ofNat 32 token ]

/-- The group stops at its resume point: an instruction that was served by emulation there is issued anew when the group
resumes, and traps again (R72, R339). -/
def Group.stopAt (g : Group) (x : Stopped) : Group :=
  { g with stop := some x, presence := false, emu := .none, pairFault := none }

/-- A fault is taken (R339 to R342): the group in focus stops at its resume point, the record goes to the physical log
and, but for MIGR, to the hedge's virtual error queue, the fault is counted, and UNCORR and SDC ask for a rollback of
the hedge (R340). A fault that may resume gets a token (log 8, DESIGN CHOICE). -/
def State.takeFault (s : State) (e : Mask) (i : FaultInfo) : State :=
  let g := s.focus
  let token := if i.resumable then ((s.hedge g.hedge).map (·.nextToken)).getD 1 else 0
  let rec_ := s.faultRecord g e i token
  let core := s.coreOf g
  let stop : Stopped := ⟨i.code, i.resumable, false, token, i.gstage, i.byte.getD i.va⟩
  let t := { s with
    focus := g.stopAt stop
    others := s.others.map fun (x : Group) => if g.partner = some x.id then x.stopAt stop else x
    walks := s.walks.filter fun w =>
      !(w.hedge == g.hedge && w.core == core && w.answer.isSome)
    agenda := match i.code with
      | .uncorr => .rollback g.hedge .uncorr (.va i.va) :: s.agenda
      | .sdc => .rollback g.hedge .sdc (.va i.va) :: s.agenda
      | _ => s.agenda }
  let t := if i.resumable then t.mapHedge g.hedge fun h => { h with nextToken := h.nextToken + 1 } else t
  let t := t.logEvent (.record (i.slice g.hedge) g.hedge rec_)
  if i.code = .migr then t else (t.report g.hedge rec_).countEvent g.hedge (faultCount i.code)

/-- A management core changed. -/
def State.mapMgmt (s : State) (die : Nat) (f : Mgmt → Mgmt) : State :=
  { s with mgmt := s.mgmt.zipIdx.map fun p => if p.2 == die then f p.1 else p.1 }

/-- A disagreement of a checked pair (R172): both groups stop, what they were about to do is not released, and the
management core of their die gathers the event, which it reports as SDC and answers with a rollback (R304). Where the two
groups stand between then and the rollback shows in nothing, since the snapshot replaces both (log 17, DESIGN CHOICE). -/
def State.mismatch (s : State) (e : Mask) (a b : Word64) : State :=
  let g := s.focus
  let stop : Stopped := ⟨.sdc, false, false, 0, false, 0⟩
  let t := { s with
    focus := g.stopAt stop
    others := s.others.map fun (x : Group) => if g.partner = some x.id then x.stopAt stop else x }
  t.mapMgmt (dieOf (s.coreOf g)) fun m => { m with
    events := m.events ++ [.mismatch ⟨g.hedge, s.faultRecord g e { code := .sdc } 0, g.position.2, e, a, b⟩] }

/-- A fault of the group in focus: of a single group it is taken; of a group of a checked pair it is taken once, when
both groups raise it at the same instruction, and it is a disagreement when the other has passed there (R172). -/
def State.raise (s : State) (e : Mask) (i : FaultInfo) : State :=
  match s.focus.partner.bind s.group with
  | none => s.takeFault e i
  | some p =>
    if s.focus.issued < p.issued then s.mismatch e (faultNumber i.code) 0
    else if p.issued = s.focus.issued && p.pairFault.isSome then
      if p.pairFault = some i.code then s.takeFault e i
      else s.mismatch e (faultNumber i.code) ((p.pairFault.map fun c => BitVec.ofNat 64 (faultNumber c)).getD 0)
    else { s with focus := { s.focus with pairFault := some i.code } }

/-- A fault without an address, raised by the group in focus (R449). -/
def State.raisePlain (s : State) (e : Mask) (c : FaultCode) : State := s.raise e { code := c }

/-- The return from a fault: the stopped group is ready at its resume point, once, by its token (R343, R346). -/
def Group.ready_ (g : Group) : Group :=
  { g with stop := g.stop.map fun x => { x with ready := true, token := 0 } }

/-- What a group still has outstanding after its drain counts no more, but for slices joined to copies that have not started
(R270, R346, R347; log 80, DEDUCED). -/
def Group.zeroCounts (g : Group) : Group :=
  { g with pend := g.pend.map fun o => if o.cls == .copy then
      { o with cls := match o.kind with
          | .publ _ _ => .none
          | _ => .copy }
    else { o with cls := .none } }

/-- A group that is ready at its resume point runs again, its outstanding counts zero (R346). -/
def Group.rerun (g : Group) : Group := { g.zeroCounts with stop := none, presence := false }

/-! ## How an instruction ends -/

/-- The instruction of the group in focus is done: the clause goes on. A group of a pair whose partner has raised a
fault at this instruction has not raised it: a disagreement (R172). -/
def State.advance (s : State) : State :=
  match s.focus.partner.bind s.group with
  | none => { s with focus := s.focus.advance }
  | some p =>
    if p.pairFault.isSome && p.issued == s.focus.issued then
      s.mismatch s.focus.active ((p.pairFault.map fun c => BitVec.ofNat 64 (faultNumber c)).getD 0) 0
    else { s with focus := s.focus.advance }

/-- What becomes of a group that does not complete its instruction: it takes its fault, waits at issue, parks for
presence or emulation, or asks for a walk (R71, R132, R157, R337, R339). -/
def State.stopped (s : State) (e : Mask) : Stop → Host.Outcome State Fault Refusal
  | .fault i => .next (s.raise e i)
  | .wait => .next s
  | .presence => .next { s with focus := { s.focus with presence := true, emu := .none } }
  | .fmtemu => .next { s with focus := { s.focus with emu := .trapped } }
  | .walk h c va =>
    .next (if s.walks.any fun w => w.hedge == h && w.core == c && w.va == va then s
      else { s with walks := s.walks ++ [⟨h, c, va, none⟩] })
  | .mismatch a b => .next (s.mismatch e a b)

/-- E of an instruction, which cannot issue while its guard is still awaited (R29, R157) (log 26, DEDUCED). -/
def State.guarded (s : State) (gd : Guard) (k : Mask → Host.Outcome State Fault Refusal) :
    Host.Outcome State Fault Refusal :=
  if s.focus.awaitsP gd.p then .next s else k (s.focus.eff gd)

/-- An instruction that is no more than a change of its group: nothing when E is empty (R29), otherwise its checks and
its effect, and the clause goes on. -/
def State.issue (s : State) (gd : Guard) (f : Mask → Group → Res Group) : Host.Outcome State Fault Refusal :=
  s.guarded gd fun e =>
  if e = 0 then .next s.advance
  else
    match f e s.focus with
    | .ok g => .next { s with focus := g }.advance
    | .error st => s.stopped e st

/-- An instruction that changes more than its group. -/
def State.issueS (s : State) (gd : Guard) (f : Mask → State → Res State) : Host.Outcome State Fault Refusal :=
  s.guarded gd fun e =>
  if e = 0 then .next s.advance
  else
    match f e s with
    | .ok t => .next t.advance
    | .error st => s.stopped e st

/-! ## Instructions that a checked pair performs once (R170, R171, R219) -/

/-- The instructions of a leading group that are held (R170, R171). -/
def Group.heldCount (g : Group) : Nat := (g.pend.filter (·.held)).length + (g.cwaits.filter fun c => c.at_ == .held).length

/-- A leading group may have one more instruction held (R171). -/
def Group.holdRoom (g : Group) : Bool := decide (g.heldCount < 32)

/-- The first place at which two lists of words differ, with the words there; lengths stand last. -/
def firstDiff : List Word64 → List Word64 → Option (Word64 × Word64)
  | a :: as, b :: bs => if a = b then firstDiff as bs else some (a, b)
  | [], [] => none
  | as, bs => some (BitVec.ofNat 64 as.length, BitVec.ofNat 64 bs.length)

/-- An operation as the words that a comparison looks at: opcode and modifiers, clause, index, lane mask, operand words
(R170). -/
def Op.compared (o : Op) : List Word64 :=
  o.word :: BitVec.ofNat 64 o.off :: BitVec.ofNat 64 o.idx :: o.emask.setWidth 64 :: o.words

/-- An operation of the instruction at issue of a group, that has nothing of its own yet. -/
def Group.freshOp (g : Group) (cls : OpClass) (kind : OpKind) (e : Mask) : Op where
  id := g.nextOp
  cls := cls
  kind := kind
  dst := .none
  reads := false
  writes := false
  strong := false
  acq := false
  rel := false
  scope := .grp
  emask := e
  accs := []
  got := []
  wrote := []
  clears := []
  held := false
  words := []
  buf := 0
  word := g.position.2
  off := g.clauseOff
  idx := g.position.1

/-- The held operation of a leading group that a trailing group's operation is compared with: none yet, or an operation
that was never held. -/
def Group.heldFor (lead : Group) (id : Nat) : Res (Option Op) :=
  match lead.pend.find? fun x => x.id == id && x.held with
  | some x => .ok (some x)
  | none => if lead.nextOp ≤ id then .error .wait else .ok none

/-- Lockstep numbering: a trailing group numbers its operations as its leading group does. -/
def Group.nextId (g : Group) : Group := { g with nextOp := g.nextOp + 1 }

/-- What the leading group of a held system instruction is taken to be when it acts: the leading group, with the
registers, masks and place that it had there, which the trailing group has now. -/
def Group.lend (lead trail : Group) : Group :=
  { lead with
    nextOp := trail.nextOp, emu := trail.emu
    vregs := trail.vregs, sregs := trail.sregs, preds := trail.preds, xi := trail.xi, tiles := trail.tiles
    flags := trail.flags, exited := trail.exited, limb := trail.limb, clause := trail.clause, selected := trail.selected
    frontier := trail.frontier, moves := trail.moves
    fences := lead.fences.filter fun f => f.before.all fun i => decide (i < trail.nextOp) }

/-- The leading group after a held system instruction has acted: its own registers and place again. -/
def Group.regain (lead acted : Group) (upTo : Nat) : Group :=
  { acted with
    emu := lead.emu
    fences := acted.fences ++ lead.fences.filter fun f => !f.before.all fun i => decide (i < upTo)
    vregs := lead.vregs, sregs := lead.sregs, preds := lead.preds, xi := lead.xi, tiles := lead.tiles
    flags := lead.flags, exited := lead.exited, limb := lead.limb, clause := lead.clause, selected := lead.selected
    frontier := lead.frontier, moves := acted.moves.or lead.moves, nextOp := lead.nextOp }

/-- A system instruction (R393 to R404). In a checked pair the leading group's is held, `dst` awaiting its result, until
the trailing group has issued the same one; the masks and operand words are compared, and it acts once, for both (R170,
R172). `ends`: the group goes no further than its clause before that. `f` acts for an empty E too. -/
def State.together (s : State) (gd : Guard) (ends : Bool) (dst : Group → Dst) (ops : Mask → Group → List Word64)
    (f : Mask → State → Res State) : Host.Outcome State Fault Refusal :=
  s.guarded gd fun e =>
  let g := s.focus
  match f e s with
  | .error st => s.stopped e st
  | .ok t =>
    match g.role with
    | .single => .next t.advance
    | .leading _ =>
      if !g.holdRoom then .next s
      else
        let o := { g.freshOp .none (.sys ends) e with held := true, words := ops e g, dst := if e = 0 then .none else dst g }
        .next { s with focus := { g.nextId with pend := g.pend ++ [o] } }.advance
    | .trailing p =>
      match s.group p with
      | none => .next t.advance
      | some lead =>
        match lead.heldFor g.nextOp with
        | .error st => s.stopped e st
        | .ok none => .next (s.mismatch e g.position.2 0)
        | .ok (some x) =>
          let o := { g.freshOp .none (.sys ends) e with words := ops e g }
          match firstDiff x.compared o.compared with
          | some (a, b) => .next (s.mismatch e a b)
          | none =>
            let lead' := { lead with pend := lead.pend.filter fun y => y.id != x.id }
            let u := { s with focus := lead'.lend g, others := g.nextId :: s.others.filter fun y => y.id != p }
            match f e u with
            | .error st => s.stopped e st
            | .ok v => .next (({ v with focus := lead'.regain v.focus g.nextOp }.focusOn g.id).advance)

/-- A held operation is released: it counts as issued now, clears its presence bits, and is gone where it leaves nothing
outstanding (R162, R170, R261). -/
def State.unhold (s : State) (g : Nat) (o : Op) : State :=
  (s.mapGroup g fun y => { y with pend :=
    (y.pend.map fun z => if z.id == o.id then { z with held := false } else z).filter fun z =>
      !(z.id == o.id && z.cls == .none) }).absent1 o.clears

/-- An instruction whose operations a checked pair performs once (R170): the leading group's are held, the trailing group
makes the same checks and compares. `f` acts for an empty E too, and `ops` gives the operand words. -/
def State.paired (s : State) (gd : Guard) (ops : Mask → Group → List Word64) (f : Mask → State → Res State) :
    Host.Outcome State Fault Refusal :=
  s.guarded gd fun e =>
  let g := s.focus
  match f e s with
  | .error st => s.stopped e st
  | .ok t =>
    match g.role with
    | .single => .next t.advance
    | .leading _ =>
      if t.focus.nextOp = g.nextOp then .next t.advance
      else if !g.holdRoom then .next s
      else
        let hold (o : Op) : Op := if g.nextOp ≤ o.id then { o with held := true, words := ops e g } else o
        .next { t with focus := { t.focus with pend := t.focus.pend.map hold } }.advance
    | .trailing p =>
      if t.focus.nextOp = g.nextOp then .next s.advance
      else
        match s.group p with
        | none => .next t.advance
        | some lead =>
          match lead.heldFor g.nextOp with
          | .error st => s.stopped e st
          | .ok none => .next (s.mismatch e g.position.2 0)
          | .ok (some x) =>
            let o := { g.freshOp .none (.sys false) e with words := ops e g }
            match firstDiff x.compared o.compared with
            | some (a, b) => .next (s.mismatch e a b)
            | none =>
              .next ({ s with focus := { g.nextId with cpys := t.focus.cpys, rrots := t.focus.rrots } }.unhold p x).advance

end Sys2Proof.Machine
end

