-- ==== Sys2Proof/Machine/Flags.lean ====
section
/-! DEFINITION. Flag computations: the sticky floating-point flags (R62) and the SCMP flag word (R84). -/

namespace Sys2Proof.Machine

/-- Sticky flags, NV DZ OF UF NX in bits 4 to 0 (R62). -/
abbrev FpFlags := BitVec 5

/-- Invalid. -/
def flagNV : FpFlags := 0b10000
/-- Division by zero. -/
def flagDZ : FpFlags := 0b01000
/-- Overflow. -/
def flagOF : FpFlags := 0b00100
/-- Underflow: tiny and inexact. -/
def flagUF : FpFlags := 0b00010
/-- Inexact. -/
def flagNX : FpFlags := 0b00001

/-- The flags of an event that may or may not occur. -/
def flagIf (c : Bool) (f : FpFlags) : FpFlags := if c then f else 0

/-- A group's flags stay set until it clears them (R62). -/
def Group.raise (g : Group) (f : FpFlags) : Group := { g with flags := g.flags ||| f }

/-- The union of the flags of the lanes of E (R62). -/
def laneFlags (e : Mask) (f : Nat → FpFlags) : FpFlags := (lanesOf e).foldl (fun acc l => acc ||| f l) 0

/-- SCMP's flag word: GTU, LTU, GT, LT, EQ in bits 4 to 0 (R84). -/
def scmpFlags (a b : Word64) : Word64 :=
  (BitVec.ofBool (b.ult a) ++ BitVec.ofBool (a.ult b) ++ BitVec.ofBool (b.slt a) ++ BitVec.ofBool (a.slt b) ++
    BitVec.ofBool (a == b) : BitVec 5).setWidth 64

end Sys2Proof.Machine
end

