-- ==== Sys2Proof/Machine/Fp.lean ====
section
/-! DEFINITION. Floating-point values, rounding and special cases (spec 02 R46 to R48, R57 to R62, R64 to R68). Values are
exact: a sign, a magnitude and a power of two; one rounding gives the code of a format and the flags. -/

namespace Sys2Proof.Machine

/-- The floating-point formats but for E8M0 (R46). -/
inductive FpFmt where
  | f64 | f32 | f16 | bf16 | e5m2 | e4m3 | e3m2 | e2m3 | e2m1
  deriving DecidableEq, Repr

/-- Width in bits (R46). -/
def FpFmt.width : FpFmt → Nat
  | .f64 => 64
  | .f32 => 32
  | .f16 | .bf16 => 16
  | .e5m2 | .e4m3 => 8
  | .e3m2 | .e2m3 => 6
  | .e2m1 => 4

/-- Fraction bits (R46). -/
def FpFmt.frac : FpFmt → Nat
  | .f64 => 52
  | .f32 => 23
  | .f16 => 10
  | .bf16 => 7
  | .e5m2 | .e3m2 => 2
  | .e4m3 | .e2m3 => 3
  | .e2m1 => 1

/-- Exponent bias (R46). -/
def FpFmt.bias : FpFmt → Nat
  | .f64 => 1023
  | .f32 | .bf16 => 127
  | .f16 | .e5m2 => 15
  | .e4m3 => 7
  | .e3m2 => 3
  | .e2m3 | .e2m1 => 1

/-- The exponent of the lowest bit of the subnormal grid (R46). -/
def FpFmt.emin (f : FpFmt) : Int := 1 - (f.bias : Int) - (f.frac : Int)

/-- The sign bit as a number. -/
def FpFmt.signBit (f : FpFmt) : Nat := 2 ^ (f.width - 1)

/-- The code of the largest finite magnitude (R46). -/
def FpFmt.maxCode : FpFmt → Nat
  | .f64 => 0x7FEFFFFFFFFFFFFF
  | .f32 => 0x7F7FFFFF
  | .f16 => 0x7BFF
  | .bf16 => 0x7F7F
  | .e5m2 => 0x7B
  | .e4m3 => 0x7E
  | .e3m2 | .e2m3 => 0x1F
  | .e2m1 => 0x7

/-- The code of +infinity (R46). -/
def FpFmt.infCode : FpFmt → Option Nat
  | .f64 => some 0x7FF0000000000000
  | .f32 => some 0x7F800000
  | .f16 => some 0x7C00
  | .bf16 => some 0x7F80
  | .e5m2 => some 0x7C
  | .e4m3 | .e3m2 | .e2m3 | .e2m1 => none

/-- The canonical NaN (R46). -/
def FpFmt.nanCode : FpFmt → Option Nat
  | .f64 => some 0x7FF8000000000000
  | .f32 => some 0x7FC00000
  | .f16 => some 0x7E00
  | .bf16 => some 0x7FC0
  | .e5m2 => some 0x7E
  | .e4m3 => some 0x7F
  | .e3m2 | .e2m3 | .e2m1 => none

/-- A floating-point value: a NaN, signalling or quiet; an infinity by sign; or (−1)^neg × mag × 2^exp. -/
inductive FVal where
  | nan (signalling : Bool)
  | inf (neg : Bool)
  | fin (neg : Bool) (mag : Nat) (exp : Int)
  deriving DecidableEq, Repr

/-- The value of a code (R46, R47). -/
def FpFmt.value (f : FpFmt) (code : Nat) : FVal :=
  let neg := f.signBit ≤ code % 2 ^ f.width
  let m := code % f.signBit
  let e := m / 2 ^ f.frac
  let fr := m % 2 ^ f.frac
  if f.maxCode < m then
    if f.infCode = some m then .inf neg
    else
      match f with
      | .f64 | .f32 | .f16 | .bf16 => .nan (decide (fr < 2 ^ (f.frac - 1)))
      | .e5m2 | .e4m3 | .e3m2 | .e2m3 | .e2m1 => .nan false
  else if e = 0 then .fin neg fr f.emin
  else .fin neg (2 ^ f.frac + fr) (f.emin + (e - 1))

/-- A NaN. -/
def FVal.isNan : FVal → Bool
  | .nan _ => true
  | .inf _ | .fin _ _ _ => false

/-- A signalling NaN. -/
def FVal.isSnan : FVal → Bool
  | .nan q => q
  | .inf _ | .fin _ _ _ => false

/-- A zero. -/
def FVal.isZero : FVal → Bool
  | .fin _ m _ => m == 0
  | .nan _ | .inf _ => false

/-- An infinity. -/
def FVal.isInf : FVal → Bool
  | .inf _ => true
  | .nan _ | .fin _ _ _ => false

/-- The sign of a value; a NaN has none. -/
def FVal.neg : FVal → Bool
  | .nan _ => false
  | .inf n => n
  | .fin n _ _ => n

/-- A result: the code, and the flags that it raises. -/
structure FRes where
  code : Nat
  flags : FpFlags
  deriving DecidableEq, Repr

/-- A code without flags. -/
def FRes.exact (c : Nat) : FRes := ⟨c, 0⟩

/-- A signed code of a magnitude code. -/
def FpFmt.signed (f : FpFmt) (neg : Bool) (m : Nat) : Nat := if neg then f.signBit + m else m

/-- The canonical NaN with flags; the formats without a NaN give +0 (R64). -/
def FpFmt.nan (f : FpFmt) (fl : FpFlags) : FRes := ⟨f.nanCode.getD 0, fl⟩

/-- An infinity; only for formats that have one, the others give their largest finite value (R64). -/
def FpFmt.inf (f : FpFmt) (neg : Bool) : Nat := f.signed neg (f.infCode.getD f.maxCode)

/-! ## Rounding (R57 to R60) -/

/-- Whether a discarded part `rem` out of 2^k, above which the kept part is `hi`, rounds the magnitude up. -/
def roundsUp (mode : Round) (neg : Bool) (hi rem k : Nat) : Bool :=
  match mode with
  | .rn => decide (2 ^ k < 2 * rem) || (decide (2 * rem = 2 ^ k) && hi % 2 == 1)
  | .rz => false
  | .rp => !neg && rem != 0
  | .rm => neg && rem != 0

/-- mag × 2^exp rounded to a multiple of 2^q: the multiple, and whether it is exact. -/
def roundTo (mode : Round) (neg : Bool) (mag : Nat) (exp q : Int) : Nat × Bool :=
  if q ≤ exp then (mag * 2 ^ (exp - q).toNat, true)
  else
    let k := (q - exp).toNat
    let hi := mag / 2 ^ k
    let rem := mag % 2 ^ k
    (if roundsUp mode neg hi rem k then hi + 1 else hi, rem == 0)

/-- The exponent of the last bit that the precision of the format keeps of a nonzero magnitude. -/
def FpFmt.quantum (f : FpFmt) (mag : Nat) (exp : Int) : Int := exp + (mag.log2 : Int) - (f.frac : Int)

/-- R60: the value, rounded to the format's precision with no limit on the exponent, is below the smallest normal. -/
def FpFmt.tiny (f : FpFmt) (mode : Round) (neg : Bool) (mag : Nat) (exp : Int) : Bool :=
  let q := f.quantum mag exp
  let r := (roundTo mode neg mag exp q).1
  decide (q < f.emin) && decide (r < 2 ^ (f.frac + (f.emin - q).toNat))

/-- The result of an overflow (R58, R64). -/
def FpFmt.overflow (f : FpFmt) (mode : Round) (sat neg : Bool) : FRes :=
  let toInf := match mode with
    | .rn => true
    | .rz => false
    | .rp => !neg
    | .rm => neg
  let c :=
    if sat || !toInf then f.signed neg f.maxCode
    else
      match f.infCode, f.nanCode with
      | some i, _ => f.signed neg i
      | none, some n => n
      | none, none => f.signed neg f.maxCode
  ⟨c, flagOF ||| flagNX⟩

/-- round(x, FMT, mode) of a nonzero value, with its flags; .SAT as R64 gives. -/
def FpFmt.round (f : FpFmt) (mode : Round) (sat neg : Bool) (mag : Nat) (exp : Int) : FRes :=
  let q := max (f.quantum mag exp) f.emin
  let r := roundTo mode neg mag exp q
  let code := (q - f.emin).toNat * 2 ^ f.frac + r.1
  if f.maxCode < code then f.overflow mode sat neg
  else ⟨f.signed neg code, flagIf (!r.2) flagNX ||| flagIf (!r.2 && f.tiny mode neg mag exp) flagUF⟩

/-- A zero with its sign. -/
def FpFmt.zero (f : FpFmt) (neg : Bool) : FRes := .exact (f.signed neg 0)

/-- A conversion of a value to the format (R64). -/
def FpFmt.convert (f : FpFmt) (mode : Round) (sat : Bool) (x : FVal) : FRes :=
  match x with
  | .nan sn => f.nan (flagIf (sn || f.nanCode.isNone) flagNV)
  | .inf neg =>
    match f.infCode, f.nanCode with
    | some i, _ => .exact (f.signed neg i)
    | none, some n => if sat then ⟨f.signed neg f.maxCode, flagNX⟩ else ⟨n, flagNV⟩
    | none, none => ⟨f.signed neg f.maxCode, flagNV⟩
  | .fin neg mag exp => if mag = 0 then f.zero neg else f.round mode sat neg mag exp

/-! ## Sums and products -/

/-- A signed magnitude. -/
def signedInt (neg : Bool) (m : Nat) : Int := if neg then -(m : Int) else m

/-- The exact product; none for 0 × ∞ (R105). A NaN factor gives a NaN. -/
def FVal.mul (a b : FVal) : Option FVal :=
  match a, b with
  | .nan s, .nan t => some (.nan (s || t))
  | .nan s, _ => some (.nan s)
  | _, .nan t => some (.nan t)
  | .inf n, .inf m => some (.inf (n != m))
  | .inf n, .fin m k _ => if k = 0 then none else some (.inf (n != m))
  | .fin m k _, .inf n => if k = 0 then none else some (.inf (n != m))
  | .fin n k e, .fin m j i => some (.fin (n != m) (k * j) (e + i))

/-- The least exponent among the finite terms. -/
def leastExp (ts : List FVal) : Int :=
  ts.foldl (fun acc t => match t with
    | .fin _ m e => if m = 0 then acc else min acc e
    | .nan _ | .inf _ => acc) 0

/-- The exact sum of finite terms as a multiple of 2^e. -/
def exactSum (ts : List FVal) (e : Int) : Int :=
  ts.foldl (fun acc t => match t with
    | .fin n m x => if m = 0 then acc else acc + signedInt n (m * 2 ^ (x - e).toNat)
    | .nan _ | .inf _ => acc) 0

/-- A sum taken exactly and rounded once: a NaN term gives the canonical NaN with the flags given for NaNs, opposite
infinities the canonical NaN with NV, an infinite term that infinity, an exact zero −0 when every term is −0 or under
RM and +0 otherwise (R61, R105, R119, R182). -/
def FpFmt.sum (f : FpFmt) (mode : Round) (sat : Bool) (nanFlags : FpFlags) (ts : List FVal) : FRes :=
  if ts.any FVal.isNan then f.nan nanFlags
  else if ts.any (· == .inf true) && ts.any (· == .inf false) then f.nan flagNV
  else if ts.any FVal.isInf then .exact (f.inf (ts.any (· == .inf true)))
  else
    let e := leastExp ts
    let x := exactSum ts e
    if x = 0 then f.zero (ts.all (fun t => t.isZero && t.neg) || mode == .rm)
    else f.round mode sat (decide (x < 0)) x.natAbs e

/-- NV for a signalling NaN among the operands. -/
def snanFlag (xs : List FVal) : FpFlags := flagIf (xs.any FVal.isSnan) flagNV

/-- a + b (R105). -/
def FpFmt.add (f : FpFmt) (mode : Round) (a b : FVal) : FRes := f.sum mode false (snanFlag [a, b]) [a, b]

/-- a × b (R105). -/
def FpFmt.mul (f : FpFmt) (mode : Round) (a b : FVal) : FRes :=
  if a.isNan || b.isNan then f.nan (snanFlag [a, b])
  else
    match a.mul b with
    | none => f.nan flagNV
    | some p => f.convert mode false p

/-- a × b + c with one rounding (R105). -/
def FpFmt.fma (f : FpFmt) (mode : Round) (a b c : FVal) : FRes :=
  match a.mul b with
  | none => f.nan flagNV
  | some p => f.sum mode false (snanFlag [a, b, c]) [p, c]

/-! ## Comparison, minimum and maximum (R106, R107) -/

/-- a < b for values that are no NaNs; −0 equals +0. -/
def FVal.lt (a b : FVal) : Bool :=
  match a, b with
  | .inf n, .inf m => n && !m
  | .inf n, _ => n
  | _, .inf m => !m
  | .fin _ _ _, .fin _ _ _ => let e := leastExp [a, b]; decide (exactSum [a] e < exactSum [b] e)
  | _, _ => false

/-- a = b for values that are no NaNs; −0 equals +0. -/
def FVal.eq (a b : FVal) : Bool := !a.lt b && !b.lt a

/-- FMIN and FMAX by code: the chosen operand bit for bit (R106). -/
def FpFmt.minMax (f : FpFmt) (greater : Bool) (ca cb : Nat) : FRes :=
  let a := f.value ca
  let b := f.value cb
  let fl := snanFlag [a, b]
  if a.isNan && b.isNan then f.nan fl
  else if a.isNan then ⟨cb, fl⟩
  else if b.isNan then ⟨ca, fl⟩
  else
    let less := a.lt b || (a.isZero && b.isZero && a.neg && !b.neg)
    ⟨if less != greater then ca else cb, fl⟩

/-- FCMP's conditions and flags (R107). -/
def fpCompare (cc : FCond) (a b : FVal) : Bool × FpFlags :=
  let un := a.isNan || b.isNan
  let quiet := snanFlag [a, b]
  let signals := flagIf un flagNV
  match cc with
  | .eq => (!un && a.eq b, quiet)
  | .ne => (un || !a.eq b, quiet)
  | .lt => (!un && a.lt b, signals)
  | .le => (!un && !b.lt a, signals)
  | .gt => (!un && b.lt a, signals)
  | .ge => (!un && !a.lt b, signals)
  | .un => (un, quiet)
  | .or => (!un, quiet)

/-- FCLASS (R108). -/
def FpFmt.classify (f : FpFmt) (code : Nat) : Nat :=
  match f.value code with
  | .nan true => 2 ^ 8
  | .nan false => 2 ^ 9
  | .inf false => 2 ^ 7
  | .inf true => 2 ^ 0
  | .fin neg m e =>
    if m = 0 then (if neg then 2 ^ 3 else 2 ^ 4)
    else if m < 2 ^ f.frac ∧ e = f.emin then (if neg then 2 ^ 2 else 2 ^ 5)
    else (if neg then 2 ^ 1 else 2 ^ 6)

/-- FRND: an integral value of the same format, without NX (R109). -/
def FpFmt.integral (f : FpFmt) (mode : Round) (x : FVal) : FRes :=
  match x with
  | .nan sn => f.nan (flagIf sn flagNV)
  | .inf neg => .exact (f.inf neg)
  | .fin neg mag exp =>
    let r := (roundTo mode neg mag exp 0).1
    if r = 0 then f.zero neg else .exact (f.round mode false neg r 0).code

/-! ## Integers and E8M0 -/

/-- A conversion from floating point to an integer type of w bits (R66). -/
def toIntConv (n : Bool) (w : Nat) (mode : Round) (x : FVal) : FRes :=
  let code (i : Int) : Nat := (BitVec.ofInt w i).toNat
  let lo : Int := if n then 0 else -(2 ^ (w - 1))
  let hi : Int := if n then 2 ^ w - 1 else 2 ^ (w - 1) - 1
  match x with
  | .nan _ => ⟨0, flagNV⟩
  | .inf neg => ⟨code (if neg then lo else hi), flagNV⟩
  | .fin neg mag exp =>
    let r := roundTo mode neg mag exp 0
    let i := signedInt neg r.1
    if i < lo then ⟨code lo, flagNV⟩
    else if hi < i then ⟨code hi, flagNV⟩
    else ⟨code i, flagIf (!r.2) flagNX⟩

/-- A conversion from an integer to floating point (R66). -/
def FpFmt.ofInt (f : FpFmt) (mode : Round) (sat : Bool) (i : Int) : FRes :=
  if i = 0 then f.zero false else f.round mode sat (decide (i < 0)) i.natAbs 0

/-- A conversion to E8M0 (R65). -/
def toE8M0 (mode : Round) (sat : Bool) (x : FVal) : FRes :=
  match x with
  | .nan _ | .inf _ => ⟨0xFF, flagNV⟩
  | .fin neg mag exp =>
    if neg || mag == 0 then ⟨0xFF, flagNV⟩
    else
      let fl := (mag.log2 : Int) + exp
      let isPow := mag == 2 ^ mag.log2
      let up := match mode with
        | .rz | .rm => false
        | .rp => !isPow
        | .rn => decide (3 * 2 ^ mag.log2 ≤ 2 * mag)
      let k := if up then fl + 1 else fl
      if 127 < k then ⟨if sat then 0xFE else 0xFF, flagOF ||| flagNX⟩
      else if k < -127 then ⟨0, flagUF ||| flagNX⟩
      else ⟨(k + 127).toNat, flagIf (!isPow) flagNX⟩

/-- The value of an E8M0 code (R48). -/
def ofE8M0 (code : Nat) : FVal := if code = 0xFF then .nan false else .fin false 1 ((code : Int) - 127)

/-! ## The chunked summation (R67 to R70) -/

/-- floor(log2 |t|) of the nonzero finite terms, at its greatest. -/
def topExp (ts : List FVal) : Option Int :=
  ts.foldl (fun acc t => match t with
    | .fin _ m e =>
      if m = 0 then acc
      else
        let x := e + (m.log2 : Int)
        some (match acc with
          | none => x
          | some y => max x y)
    | .nan _ | .inf _ => acc) none

/-- The terms truncated to multiples of 2^q, and whether a term lost bits. -/
def truncSum (ts : List FVal) (q : Int) : Int × Bool :=
  ts.foldl (fun acc t => match t with
    | .fin n m e =>
      let r := roundTo .rz n m e q
      (acc.1 + signedInt n r.1, acc.2 || !r.2)
    | .nan _ | .inf _ => acc) (0, false)

/-- chunk_sum (R67): `prods` are the exact products, none where a product is 0 × ∞. -/
def chunkSum (f : FpFmt) (window : Nat) (acc : FVal) (prods : List (Option FVal)) : Nat :=
  let ts := acc :: prods.filterMap id
  if prods.any Option.isNone || ts.any FVal.isNan then (f.nan 0).code
  else if ts.any (· == .inf true) && ts.any (· == .inf false) then (f.nan 0).code
  else if ts.any FVal.isInf then f.inf (ts.any (· == .inf true))
  else
    match topExp ts with
    | none => f.signed (ts.all FVal.neg) 0
    | some top =>
      let q := top - (window : Int) + 1
      let r := truncSum ts q
      if r.1 = 0 then f.signed false 0
      else
        let neg := decide (r.1 < 0)
        let mag := r.1.natAbs
        let qr := max (f.quantum mag q) f.emin
        let k := (qr - q).toNat
        let tie := decide (q < qr) && decide (2 * (mag % 2 ^ k) = 2 ^ k)
        if tie && r.2 then (f.round .rn false neg (2 * mag + 1) (q - 1)).code
        else (f.round .rn false neg mag q).code

/-! ## Correctly rounded functions (R112, R113) -/

/-- Rounding of a value that lies strictly between mag × 2^exp and (mag + 1) × 2^exp, for a mag with more bits than the
format keeps: the odd half stands for the bits below. -/
def FpFmt.roundOpen (f : FpFmt) (mode : Round) (neg : Bool) (mag : Nat) (exp : Int) : FRes :=
  f.round mode false neg (2 * mag + 1) (exp - 1)

/-- Rounding of mag × 2^exp, or of a value strictly above it within one unit. -/
def FpFmt.roundSticky (f : FpFmt) (mode : Round) (neg exact : Bool) (mag : Nat) (exp : Int) : FRes :=
  if exact then f.round mode false neg mag exp else f.roundOpen mode neg mag exp

/-- The integer square root, by fuel on the bits of the root. -/
def isqrtBits : Nat → Nat → Nat → Nat
  | 0, _, r => r
  | b + 1, n, r => if (r + 2 ^ b) * (r + 2 ^ b) ≤ n then isqrtBits b n (r + 2 ^ b) else isqrtBits b n r

/-- floor(√n). -/
def isqrt (n : Nat) : Nat := isqrtBits (n.log2 / 2 + 1) n 0

/-- The bits of a quotient or root that the functions keep. -/
def fnBits : Nat := 64

/-- a / b for finite nonzero a and b (R112). -/
def FpFmt.divFin (f : FpFmt) (mode : Round) (neg : Bool) (ma : Nat) (ea : Int) (mb : Nat) (eb : Int) : FRes :=
  let num := ma * 2 ^ fnBits
  f.roundSticky mode neg (num % mb == 0) (num / mb) (ea - eb - fnBits)

/-- FDIV (R112, R113). -/
def FpFmt.div (f : FpFmt) (mode : Round) (a b : FVal) : FRes :=
  match a, b with
  | .nan _, _ | _, .nan _ => f.nan (snanFlag [a, b])
  | .inf _, .inf _ => f.nan flagNV
  | .inf n, .fin m _ _ => .exact (f.inf (n != m))
  | .fin n _ _, .inf m => f.zero (n != m)
  | .fin n k e, .fin m j i =>
    if j = 0 then (if k = 0 then f.nan flagNV else ⟨f.inf (n != m), flagDZ⟩)
    else if k = 0 then f.zero (n != m)
    else f.divFin mode (n != m) k e j i

/-- m × 2^e with an even exponent and at least 2 × fnBits bits below the point of the root. -/
def evenScale (m : Nat) (e : Int) : Nat × Int :=
  if e % 2 = 0 then (m * 2 ^ (2 * fnBits), e - 2 * fnBits) else (m * 2 ^ (2 * fnBits + 1), e - 2 * fnBits - 1)

/-- FSQRT (R112, R113). -/
def FpFmt.sqrt (f : FpFmt) (mode : Round) (a : FVal) : FRes :=
  match a with
  | .nan sn => f.nan (flagIf sn flagNV)
  | .inf true => f.nan flagNV
  | .inf false => .exact (f.inf false)
  | .fin neg m e =>
    if m = 0 then f.zero neg
    else if neg then f.nan flagNV
    else
      let p := evenScale m e
      let r := isqrt p.1
      f.roundSticky mode false (r * r == p.1) r (p.2 / 2)

/-- FRCP (R112, R113). -/
def FpFmt.rcp (f : FpFmt) (mode : Round) (a : FVal) : FRes :=
  match a with
  | .nan sn => f.nan (flagIf sn flagNV)
  | .inf neg => f.zero neg
  | .fin neg m e => if m = 0 then ⟨f.inf neg, flagDZ⟩ else f.divFin mode neg 1 0 m e

/-- FRSQ: 1 / √a, from the root of 2^2t / a (R112, R113). -/
def FpFmt.rsq (f : FpFmt) (mode : Round) (a : FVal) : FRes :=
  match a with
  | .nan sn => f.nan (flagIf sn flagNV)
  | .inf true => f.nan flagNV
  | .inf false => f.zero false
  | .fin neg m e =>
    if m = 0 then ⟨f.inf neg, flagDZ⟩
    else if neg then f.nan flagNV
    else
      let odd := e % 2 != 0
      let den := if odd then 2 * m else m
      let e' := if odd then e - 1 else e
      let num := 2 ^ (4 * fnBits)
      let q := num / den
      let r := isqrt q
      f.roundSticky mode false (num % den == 0 && r * r == q) r (-(e' / 2) - 2 * fnBits)

/-! ### Series in fixed point -/

/-- The fixed-point precision of the series (log 14, DESIGN CHOICE). -/
def seriesBits : Nat := 480

/-- The error that a series result may carry, in units of 2^-seriesBits, as a power of two (log 14, DESIGN CHOICE). -/
def seriesSlack : Nat := 140

/-- A product of two fixed-point numbers, rounded down. -/
def fixMul (a b : Nat) : Nat := a * b / 2 ^ seriesBits

/-- The sum of x^n / n! by fuel, from the term given; `alt` alternates the signs by steps of two (sine and cosine). -/
def expTerms : Nat → Nat → Nat → Nat → Nat
  | 0, _, _, _ => 0
  | k + 1, x, n, t => t + expTerms k x (n + 1) (fixMul t x / (n + 1))

/-- e^x for a fixed-point x below 1. -/
def fixExp (x : Nat) : Nat := expTerms 120 x 0 (2 ^ seriesBits)

/-- The odd terms z^(2k+1) / (2k+1), summed, with alternating signs or not (arctangent, hyperbolic arctangent). -/
def oddTerms (alternate : Bool) : Nat → Nat → Nat → Nat → Int
  | 0, _, _, _ => 0
  | k + 1, z2, n, t =>
    let rest := oddTerms alternate k z2 (n + 2) (fixMul t z2)
    ((t / n : Nat) : Int) + (if alternate then -rest else rest)

/-- atanh(p / q) in fixed point, for p / q at most 1/2. -/
def fixAtanh (p q : Nat) : Nat :=
  let z := p * 2 ^ seriesBits / q
  (oddTerms false 160 (fixMul z z) 1 z).toNat

/-- atan(1 / q) in fixed point. -/
def fixAtanInv (q : Nat) : Nat :=
  let z := 2 ^ seriesBits / q
  (oddTerms true 110 (fixMul z z) 1 z).toNat

/-- ln 2 = 2 atanh(1/3). -/
def fixLn2 : Nat := 2 * fixAtanh 1 3

/-- π = 16 atan(1/5) − 4 atan(1/239). -/
def fixPi : Nat := 16 * fixAtanInv 5 - 4 * fixAtanInv 239

/-- Terms t, t x²/((n+1)(n+2)), … with alternating signs. -/
def altTerms : Nat → Nat → Nat → Nat → Int
  | 0, _, _, _ => 0
  | k + 1, x2, n, t => (t : Int) - altTerms k x2 (n + 2) (fixMul t x2 / ((n + 1) * (n + 2)))

/-- sin x and cos x for a fixed-point x below 1. -/
def fixSin (x : Nat) : Nat := (altTerms 60 (fixMul x x) 1 x).toNat
/-- cos x for a fixed-point x below 1. -/
def fixCos (x : Nat) : Nat := (altTerms 60 (fixMul x x) 0 (2 ^ seriesBits)).toNat

/-- Rounding of an irrational value known in fixed point within the slack. -/
def FpFmt.roundFix (f : FpFmt) (mode : Round) (neg : Bool) (fix : Nat) (scale : Int) : FRes :=
  f.roundOpen mode neg (fix / 2 ^ seriesSlack) (scale + seriesSlack - seriesBits)

/-- FEXP2 (R112, R113). -/
def FpFmt.exp2 (f : FpFmt) (mode : Round) (a : FVal) : FRes :=
  match a with
  | .nan sn => f.nan (flagIf sn flagNV)
  | .inf true => f.zero false
  | .inf false => .exact (f.inf false)
  | .fin neg m e =>
    let big := decide (7 ≤ (m.log2 : Int) + e) && m != 0
    if big && !neg then f.overflow mode false false
    else if big && decide (10 ≤ (m.log2 : Int) + e) then f.round mode false false 1 (-1000)
    else if m = 0 then .exact (f.round .rn false false 1 0).code
    else if (m.log2 : Int) + e < -60 then
      (if neg then f.roundOpen mode false (2 ^ fnBits - 1) (-(fnBits : Int))
       else f.roundOpen mode false (2 ^ fnBits) (-(fnBits : Int)))
    else
      let r := roundTo .rz neg m e 0
      if r.2 then f.round mode false false 1 (signedInt neg r.1)
      else
        let k : Int := if neg then -(r.1 : Int) - 1 else r.1
        let fracBits := (-e).toNat
        let x := m % 2 ^ fracBits
        let y := if neg then 2 ^ fracBits - x else x
        let fx := y * 2 ^ seriesBits / 2 ^ fracBits
        f.roundFix mode false (fixExp (fixMul fx fixLn2)) k

/-- FLOG2 (R112, R113). -/
def FpFmt.log2 (f : FpFmt) (mode : Round) (a : FVal) : FRes :=
  match a with
  | .nan sn => f.nan (flagIf sn flagNV)
  | .inf true => f.nan flagNV
  | .inf false => .exact (f.inf false)
  | .fin neg m e =>
    if m = 0 then ⟨f.inf true, flagDZ⟩
    else if neg then f.nan flagNV
    else
      let l := m.log2
      if m = 2 ^ l then f.ofInt mode false ((l : Int) + e)
      else
        -- the mantissa lies in [1/√2, √2), so that the logarithm does not cancel
        let high := decide (2 * 2 ^ l * 2 ^ l < m * m)
        let k : Int := (l : Int) + e + (if high then 1 else 0)
        let den := if high then 2 * 2 ^ l else 2 ^ l
        let lnAbs := 2 * (if den ≤ m then fixAtanh (m - den) (m + den) else fixAtanh (den - m) (m + den))
        let lg := lnAbs * 2 ^ seriesBits / fixLn2
        let v : Int := k * 2 ^ seriesBits + (if den ≤ m then (lg : Int) else -(lg : Int))
        f.roundFix mode (decide (v < 0)) v.natAbs 0

/-- sin and cos of a finite a: the quadrant and the reduced argument in fixed point (R112). -/
def trigReduce (m : Nat) (e : Int) : Nat × Int :=
  let x : Nat := if 0 ≤ e then m * 2 ^ e.toNat * 2 ^ seriesBits else m * 2 ^ seriesBits / 2 ^ (-e).toNat
  let half := fixPi
  let k := (4 * x + half) / (2 * half)
  (k, 2 * (x : Int) - (k : Int) * half)

/-- sin (or cos) of the magnitude m × 2^e: its sign and fixed-point magnitude. -/
def trigFix (cosine : Bool) (m : Nat) (e : Int) : Bool × Nat :=
  let p := trigReduce m e
  let r := p.2.natAbs / 2
  let rneg := decide (p.2 < 0)
  match (p.1 + (if cosine then 1 else 0)) % 4 with
  | 0 => (rneg, fixSin r)
  | 1 => (false, fixCos r)
  | 2 => (!rneg, fixSin r)
  | _ => (true, fixCos r)

/-- FSIN (R112, R113). -/
def FpFmt.sin (f : FpFmt) (mode : Round) (a : FVal) : FRes :=
  match a with
  | .nan sn => f.nan (flagIf sn flagNV)
  | .inf _ => f.nan flagNV
  | .fin neg m e =>
    if m = 0 then f.zero neg
    else if (m.log2 : Int) + e < -40 then f.roundOpen mode neg (m * 2 ^ fnBits - 1) (e - fnBits)
    else
      let r := trigFix false m e
      f.roundFix mode (r.1 != neg) r.2 0

/-- FCOS (R112, R113). -/
def FpFmt.cos (f : FpFmt) (mode : Round) (a : FVal) : FRes :=
  match a with
  | .nan sn => f.nan (flagIf sn flagNV)
  | .inf _ => f.nan flagNV
  | .fin _ m e =>
    if m = 0 then .exact (f.round .rn false false 1 0).code
    else if (m.log2 : Int) + e < -40 then f.roundOpen mode false (2 ^ fnBits - 1) (-(fnBits : Int))
    else
      let r := trigFix true m e
      f.roundFix mode r.1 r.2 0

end Sys2Proof.Machine
end

