-- ==== Sys2Proof/Machine/Scalar.lean ====
section
/-! DEFINITION. Row 0, the scalar ALU, and the class moves VMOVS of row 1 (spec 03 R75 to R85, R90). -/

namespace Sys2Proof.Machine

/-! ## Shapes -/

/-- A scalar instruction of one source. -/
def State.scalar1 (s : State) (gd : Guard) (d a : Reg) (f : Word64 → Word64) : Host.Outcome State Fault Refusal :=
  s.issue gd fun _ g => do
    let d ← g.sNum d
    let a ← g.sNum a
    g.ready [] [d, a] []
    .ok (g.setS d (f (g.s a)))

/-- A scalar instruction of two sources. -/
def State.scalar2 (s : State) (gd : Guard) (d a b : Reg) (f : Word64 → Word64 → Word64) :
    Host.Outcome State Fault Refusal :=
  s.issue gd fun _ g => do
    let d ← g.sNum d
    let a ← g.sNum a
    let b ← g.sNum b
    g.ready [] [d, a, b] []
    .ok (g.setS d (f (g.s a) (g.s b)))

/-- A scalar instruction of three sources. -/
def State.scalar3 (s : State) (gd : Guard) (d a b c : Reg) (f : Word64 → Word64 → Word64 → Word64) :
    Host.Outcome State Fault Refusal :=
  s.issue gd fun _ g => do
    let d ← g.sNum d
    let a ← g.sNum a
    let b ← g.sNum b
    let c ← g.sNum c
    g.ready [] [d, a, b, c] []
    .ok (g.setS d (f (g.s a) (g.s b) (g.s c)))

/-- IMM sign-extended to 64 bits (R83). -/
def sextImm (imm : Word32) : Word64 := imm.signExtend 64

/-- The immediate form: IMM takes B's place (R83). -/
def State.scalarImm (s : State) (gd : Guard) (d a : Reg) (imm : Word32) (f : Word64 → Word64 → Word64) :
    Host.Outcome State Fault Refusal :=
  s.scalar1 gd d a fun x => f x (sextImm imm)

/-! ## Values -/

/-- A register value read as signed, or as unsigned under N (R82, R92). -/
def readInt {w : Nat} (n : Bool) (x : BitVec w) : Int := if n then (x.toNat : Int) else x.toInt

/-- sat(r, type) for the signed or unsigned type of w bits (R59). -/
def satInt (n : Bool) (w : Nat) (r : Int) : Int :=
  if n then max 0 (min r (2 ^ w - 1)) else max (-(2 ^ (w - 1))) (min r (2 ^ (w - 1) - 1))

/-- The exact result reduced modulo 2^w, or saturated first (R82, R92). -/
def narrow (sat n : Bool) (w : Nat) (r : Int) : BitVec w := BitVec.ofInt w (if sat then satInt n w r else r)

/-- SADD, SSUB and SMUL by their exact operation (R82). -/
def arith64 (m : SatMode) (f : Int → Int → Int) (a b : Word64) : Word64 :=
  let n := m == .nsat
  narrow (m != .wrap) n 64 (f (readInt n a) (readInt n b))

/-- The high half of a product (R82). -/
def mulHigh {w : Nat} (n : Bool) (a b : BitVec w) : BitVec w := BitVec.ofInt w ((readInt n a * readInt n b) / 2 ^ w)

/-- Lesser by signedness (R82). -/
def minInt {w : Nat} (n : Bool) (a b : BitVec w) : BitVec w := if readInt n a ≤ readInt n b then a else b

/-- Greater by signedness (R82). -/
def maxInt {w : Nat} (n : Bool) (a b : BitVec w) : BitVec w := if readInt n a ≤ readInt n b then b else a

/-- b ≥ w ? 0 : a << b (R81, R97). -/
def shl {w : Nat} (a b : BitVec w) : BitVec w := if w ≤ b.toNat then 0 else a <<< b.toNat

/-- b ≥ w ? 0 : a >> b with zero fill (R81, R97). -/
def shr {w : Nat} (a b : BitVec w) : BitVec w := if w ≤ b.toNat then 0 else a >>> b.toNat

/-- b ≥ w ? copies of the sign : a >> b with sign fill (R81, R97). -/
def sra {w : Nat} (a b : BitVec w) : BitVec w := if w ≤ b.toNat then a.sshiftRight w else a.sshiftRight b.toNat

/-- Leading zero bits (R81, R97). -/
def clz {w : Nat} (a : BitVec w) : Nat := if a.toNat = 0 then w else w - 1 - a.toNat.log2

/-- One bits (R81, R97). -/
def popcount {w : Nat} (a : BitVec w) : Nat := ((List.range w).filter fun i => a.getLsbD i).length

/-- The bits [pos+n-1 : pos] of a, zero-extended, or sign-extended from bit n-1; 0 when n = 0 (R85, R98). -/
def fieldExtract {w : Nat} (signed : Bool) (a : BitVec w) (pos n : Nat) : BitVec w :=
  if n = 0 then 0
  else
    let x := (a >>> pos).extractLsb' 0 n
    if signed then x.signExtend w else x.setWidth w

/-- c with the bits [pos+n-1 : pos] replaced by a[n-1 : 0] (R85, R98). -/
def fieldInsert {w : Nat} (c a : BitVec w) (pos n : Nat) : BitVec w :=
  let m : BitVec w := BitVec.ofNat w (2 ^ n - 1) <<< pos
  (c &&& ~~~m) ||| ((a <<< pos) &&& m)

/-- The field position and effective length that S[B] gives (R85). -/
def fieldOf (b : Word64) : Nat × Nat :=
  let pos := (b.extractLsb' 0 6).toNat
  let len := min (b.extractLsb' 8 7).toNat 64
  (pos, min len (64 - pos))

/-- SSEL's test (R84). -/
def selects (mask : BitVec 5) (c : Word64) : Bool :=
  if mask == 0 then c != 0 else c &&& mask.setWidth 64 != 0

/-! ## Row 0 -/

/-- SMOV (R81). -/
def execSmov (g : Guard) (d a : Reg) (s : State) : Host.Outcome State Fault Refusal := s.scalar1 g d a id

/-- SLI: sign-extended IMM (R81). -/
def execSli (g : Guard) (d : Reg) (imm : Word32) (s : State) : Host.Outcome State Fault Refusal :=
  s.issue g fun _ gr => do
    let d ← gr.sNum d
    gr.ready [] [d] []
    .ok (gr.setS d (sextImm imm))

/-- SLIH: IMM above the low half, which stays (R81). -/
def execSlih (g : Guard) (d : Reg) (imm : Word32) (s : State) : Host.Outcome State Fault Refusal :=
  s.issue g fun _ gr => do
    let d ← gr.sNum d
    gr.ready [] [d] []
    .ok (gr.setS d (imm ++ (gr.s d).extractLsb' 0 32))

/-- SADD (R82). -/
def execSadd (g : Guard) (m : SatMode) (d a b : Reg) (s : State) : Host.Outcome State Fault Refusal :=
  s.scalar2 g d a b (arith64 m (· + ·))
/-- SADD with IMM (R83). -/
def execSaddImm (g : Guard) (d a : Reg) (imm : Word32) (s : State) : Host.Outcome State Fault Refusal :=
  s.scalarImm g d a imm (arith64 .wrap (· + ·))
/-- SSUB (R82). -/
def execSsub (g : Guard) (m : SatMode) (d a b : Reg) (s : State) : Host.Outcome State Fault Refusal :=
  s.scalar2 g d a b (arith64 m (· - ·))
/-- SSUB with IMM (R83). -/
def execSsubImm (g : Guard) (d a : Reg) (imm : Word32) (s : State) : Host.Outcome State Fault Refusal :=
  s.scalarImm g d a imm (arith64 .wrap (· - ·))
/-- SMUL (R82). -/
def execSmul (g : Guard) (m : SatMode) (d a b : Reg) (s : State) : Host.Outcome State Fault Refusal :=
  s.scalar2 g d a b (arith64 m (· * ·))
/-- SMUL with IMM (R83). -/
def execSmulImm (g : Guard) (d a : Reg) (imm : Word32) (s : State) : Host.Outcome State Fault Refusal :=
  s.scalarImm g d a imm (arith64 .wrap (· * ·))
/-- SMULH (R82). -/
def execSmulh (g : Guard) (n : Bool) (d a b : Reg) (s : State) : Host.Outcome State Fault Refusal :=
  s.scalar2 g d a b (mulHigh n)
/-- SMULH with IMM, signed (R83). -/
def execSmulhImm (g : Guard) (d a : Reg) (imm : Word32) (s : State) : Host.Outcome State Fault Refusal :=
  s.scalarImm g d a imm (mulHigh false)
/-- SAND (R81). -/
def execSand (g : Guard) (d a b : Reg) (s : State) : Host.Outcome State Fault Refusal := s.scalar2 g d a b (· &&& ·)
/-- SAND with IMM (R83). -/
def execSandImm (g : Guard) (d a : Reg) (imm : Word32) (s : State) : Host.Outcome State Fault Refusal :=
  s.scalarImm g d a imm (· &&& ·)
/-- SOR (R81). -/
def execSor (g : Guard) (d a b : Reg) (s : State) : Host.Outcome State Fault Refusal := s.scalar2 g d a b (· ||| ·)
/-- SOR with IMM (R83). -/
def execSorImm (g : Guard) (d a : Reg) (imm : Word32) (s : State) : Host.Outcome State Fault Refusal :=
  s.scalarImm g d a imm (· ||| ·)
/-- SXOR (R81). -/
def execSxor (g : Guard) (d a b : Reg) (s : State) : Host.Outcome State Fault Refusal := s.scalar2 g d a b (· ^^^ ·)
/-- SXOR with IMM (R83). -/
def execSxorImm (g : Guard) (d a : Reg) (imm : Word32) (s : State) : Host.Outcome State Fault Refusal :=
  s.scalarImm g d a imm (· ^^^ ·)
/-- SSHL (R81). -/
def execSshl (g : Guard) (d a b : Reg) (s : State) : Host.Outcome State Fault Refusal := s.scalar2 g d a b shl
/-- SSHL with IMM (R83). -/
def execSshlImm (g : Guard) (d a : Reg) (imm : Word32) (s : State) : Host.Outcome State Fault Refusal :=
  s.scalarImm g d a imm shl
/-- SSHR (R81). -/
def execSshr (g : Guard) (d a b : Reg) (s : State) : Host.Outcome State Fault Refusal := s.scalar2 g d a b shr
/-- SSHR with IMM (R83). -/
def execSshrImm (g : Guard) (d a : Reg) (imm : Word32) (s : State) : Host.Outcome State Fault Refusal :=
  s.scalarImm g d a imm shr
/-- SSRA (R81). -/
def execSsra (g : Guard) (d a b : Reg) (s : State) : Host.Outcome State Fault Refusal := s.scalar2 g d a b sra
/-- SSRA with IMM (R83). -/
def execSsraImm (g : Guard) (d a : Reg) (imm : Word32) (s : State) : Host.Outcome State Fault Refusal :=
  s.scalarImm g d a imm sra
/-- SMIN (R82). -/
def execSmin (g : Guard) (n : Bool) (d a b : Reg) (s : State) : Host.Outcome State Fault Refusal :=
  s.scalar2 g d a b (minInt n)
/-- SMIN with IMM, signed (R83). -/
def execSminImm (g : Guard) (d a : Reg) (imm : Word32) (s : State) : Host.Outcome State Fault Refusal :=
  s.scalarImm g d a imm (minInt false)
/-- SMAX (R82). -/
def execSmax (g : Guard) (n : Bool) (d a b : Reg) (s : State) : Host.Outcome State Fault Refusal :=
  s.scalar2 g d a b (maxInt n)
/-- SMAX with IMM, signed (R83). -/
def execSmaxImm (g : Guard) (d a : Reg) (imm : Word32) (s : State) : Host.Outcome State Fault Refusal :=
  s.scalarImm g d a imm (maxInt false)
/-- SCLZ (R81). -/
def execSclz (g : Guard) (d a : Reg) (s : State) : Host.Outcome State Fault Refusal :=
  s.scalar1 g d a fun x => BitVec.ofNat 64 (clz x)
/-- SPOP (R81). -/
def execSpop (g : Guard) (d a : Reg) (s : State) : Host.Outcome State Fault Refusal :=
  s.scalar1 g d a fun x => BitVec.ofNat 64 (popcount x)
/-- SBFE (R85). -/
def execSbfe (g : Guard) (i : Bool) (d a b : Reg) (s : State) : Host.Outcome State Fault Refusal :=
  s.scalar2 g d a b fun x y => fieldExtract i x (fieldOf y).1 (fieldOf y).2
/-- SBFI (R85). -/
def execSbfi (g : Guard) (d a b c : Reg) (s : State) : Host.Outcome State Fault Refusal :=
  s.scalar3 g d a b c fun x y z => fieldInsert z x (fieldOf y).1 (fieldOf y).2
/-- SCMP (R84). -/
def execScmp (g : Guard) (d a b : Reg) (s : State) : Host.Outcome State Fault Refusal := s.scalar2 g d a b scmpFlags
/-- SCMP with IMM (R84). -/
def execScmpImm (g : Guard) (d a : Reg) (imm : Word32) (s : State) : Host.Outcome State Fault Refusal :=
  s.scalarImm g d a imm scmpFlags
/-- SSEL (R84). -/
def execSsel (g : Guard) (mask : BitVec 5) (d a b c : Reg) (s : State) : Host.Outcome State Fault Refusal :=
  s.scalar3 g d a b c fun x y z => if selects mask z then x else y

/-! ## VMOVS (R90) -/

/-- VMOVS.VS: a half of S[A] to every lane of E, with the tag named. -/
def execVmovsVs (g : Guard) (tag : Tag) (hi : Bool) (d a : Reg) (s : State) : Host.Outcome State Fault Refusal :=
  s.issue g fun e gr => do
    let d ← gr.vNum d
    let a ← gr.sNum a
    gr.ready [d] [a] []
    .ok (gr.setV e d tag fun _ => if hi then (gr.s a).extractLsb' 32 32 else (gr.s a).extractLsb' 0 32)

/-- VMOVS.SV: one lane of V[A], whatever its state, to S[D]. -/
def execVmovsSv (g : Guard) (d a b : Reg) (s : State) : Host.Outcome State Fault Refusal :=
  s.issue g fun _ gr => do
    let d ← gr.sNum d
    let a ← gr.vNum a
    let b ← gr.sNum b
    gr.check [(a, .any)] [] [d, b]
    .ok (gr.setS d ((gr.lane a ((gr.s b).extractLsb' 0 5).toNat).setWidth 64))

/-- VMOVS.PS: bit l of S[A] to lane l of P[D]. -/
def execVmovsPs (g : Guard) (d : BitVec 3) (a : Reg) (s : State) : Host.Outcome State Fault Refusal :=
  s.issue g fun e gr => do
    let a ← gr.sNum a
    gr.ready [] [a] [d]
    .ok (gr.setP e d ((gr.s a).extractLsb' 0 32))

/-- VMOVS.SP: all 32 lanes of P[A] to S[D]. -/
def execVmovsSp (g : Guard) (d : Reg) (a : BitVec 3) (s : State) : Host.Outcome State Fault Refusal :=
  s.issue g fun _ gr => do
    let d ← gr.sNum d
    gr.ready [] [d] [a]
    .ok (gr.setS d ((gr.predMask a).setWidth 64))

/-- VMOVS.DS: the halves of S[A] to a pair in every lane of E. -/
def execVmovsDs (g : Guard) (d a : Reg) (s : State) : Host.Outcome State Fault Refusal :=
  s.issue g fun e gr => do
    let d ← gr.vNum d 2
    let a ← gr.sNum a
    gr.ready [d, d + 1] [a] []
    .ok (gr.setPair e d .dLo .dHi fun _ => gr.s a)

end Sys2Proof.Machine
end

