-- ==== Sys2Proof/Machine/VectorInt.lean ====
section
/-! DEFINITION. Rows 2 and 3: vector integer arithmetic and bit operations (spec 03 R91 to R99). -/

namespace Sys2Proof.Machine

/-! ## Shapes -/

/-- One V source, one V result, lane by lane. -/
def State.vec1 (s : State) (gd : Guard) (d a : Reg) (ea : Expect) (tag : Tag) (f : Word32 → Word32) :
    Host.Outcome State Fault Refusal :=
  s.issue gd fun e g => do
    let d ← g.vNum d
    let a ← g.vNum a
    g.check [(a, ea)] [d]
    .ok (g.setV e d tag fun l => f (g.lane a l))

/-- Two sources, the second V or S, one V result, lane by lane (R92, R93). -/
def State.vec2 (s : State) (gd : Guard) (d a : Reg) (b : BSrc) (ea eb : Expect) (tag : Tag)
    (f : Word32 → Word32 → Word32) : Host.Outcome State Fault Refusal :=
  s.issue gd fun e g => do
    let d ← g.vNum d
    let a ← g.vNum a
    let b ← g.bNum b
    g.check ((a, ea) :: b.srcs eb) [d] b.ss
    .ok (g.setV e d tag fun l => f (g.lane a l) (g.bLane b l))

/-- Three sources, the second V or S, one V result, lane by lane. -/
def State.vec3 (s : State) (gd : Guard) (d a : Reg) (b : BSrc) (c : Reg) (ea eb ec : Expect) (tag : Tag)
    (f : Word32 → Word32 → Word32 → Word32) : Host.Outcome State Fault Refusal :=
  s.issue gd fun e g => do
    let d ← g.vNum d
    let a ← g.vNum a
    let b ← g.bNum b
    let c ← g.vNum c
    g.check ((a, ea) :: b.srcs eb ++ [(c, ec)]) [d] b.ss
    .ok (g.setV e d tag fun l => f (g.lane a l) (g.bLane b l) (g.lane c l))

/-- Two sources and a predicate result; the tag check is made for P7 too (R95). -/
def State.vecCmp (s : State) (gd : Guard) (d : BitVec 3) (a : Reg) (b : BSrc) (ex : Expect)
    (f : Word32 → Word32 → Bool) : Host.Outcome State Fault Refusal :=
  s.issue gd fun e g => do
    let a ← g.vNum a
    let b ← g.bNum b
    g.check ((a, ex) :: b.srcs ex) [] b.ss [d]
    .ok (g.setP e d (maskOf fun l => f (g.lane a l) (g.bLane b l)))

/-! ## Values -/

/-- VADD, VSUB, VMUL and VMAD by their exact operation (R92). -/
def arith32 (m : IntMod) (r : Int) : Word32 := narrow m.sat m.n 32 r

/-- Conditions on two numbers, EQ NE LT LE GT GE (R95, R188). -/
def Cond.holds (c : Cond) (a b : Int) : Bool :=
  match c with
  | .eq => a == b
  | .ne => a != b
  | .lt => decide (a < b)
  | .le => decide (a ≤ b)
  | .gt => decide (b < a)
  | .ge => decide (b ≤ a)

/-- The field length of VBFE and VBFI, cut at bit 31 (R98). -/
def vecFieldLen (lenM1 pos : BitVec 5) : Nat := min (lenM1.toNat + 1) (32 - pos.toNat)

/-- One byte of VPERMB by its selector nibble (R99). -/
def permByte (a b : Word32) (sel : BitVec 4) : Byte :=
  if sel.getLsbD 3 then 0 else byteOf (b ++ a : Word64) sel.toNat
where
  byteOf (x : Word64) (i : Nat) : Byte := x.extractLsb' (8 * i) 8

/-- VPERMB in one lane (R99). -/
def permBytes (a b c : Word32) : Word32 :=
  permByte a b (c.extractLsb' 12 4) ++ permByte a b (c.extractLsb' 8 4) ++ permByte a b (c.extractLsb' 4 4) ++
    permByte a b (c.extractLsb' 0 4)

/-! ## Row 2 -/

/-- VADD (R92). -/
def execVadd (g : Guard) (m : IntMod) (d a : Reg) (b : BSrc) (s : State) : Host.Outcome State Fault Refusal :=
  s.vec2 g d a b (.ofN m.n) (.ofN m.n) (tagOfN m.n) fun x y => arith32 m (readInt m.n x + readInt m.n y)
/-- VSUB (R92). -/
def execVsub (g : Guard) (m : IntMod) (d a : Reg) (b : BSrc) (s : State) : Host.Outcome State Fault Refusal :=
  s.vec2 g d a b (.ofN m.n) (.ofN m.n) (tagOfN m.n) fun x y => arith32 m (readInt m.n x - readInt m.n y)
/-- VMUL (R92). -/
def execVmul (g : Guard) (m : IntMod) (d a : Reg) (b : BSrc) (s : State) : Host.Outcome State Fault Refusal :=
  s.vec2 g d a b (.ofN m.n) (.ofN m.n) (tagOfN m.n) fun x y => arith32 m (readInt m.n x * readInt m.n y)
/-- VMULH (R92). -/
def execVmulh (g : Guard) (n : Bool) (d a : Reg) (b : BSrc) (s : State) : Host.Outcome State Fault Refusal :=
  s.vec2 g d a b (.ofN n) (.ofN n) (tagOfN n) (mulHigh n)
/-- VMAD (R92). -/
def execVmad (g : Guard) (m : IntMod) (d a : Reg) (b : BSrc) (c : Reg) (s : State) :
    Host.Outcome State Fault Refusal :=
  s.vec3 g d a b c (.ofN m.n) (.ofN m.n) (.ofN m.n) (tagOfN m.n) fun x y z =>
    arith32 m (readInt m.n x * readInt m.n y + readInt m.n z)

/-- VMADW: a 64-bit result as a pair, the low word N32 and the high word by signedness (R94). -/
def execVmadw (g : Guard) (m : IntMod) (d a : Reg) (b : BSrc) (c : Reg) (s : State) :
    Host.Outcome State Fault Refusal :=
  s.issue g fun e gr => do
    let d ← gr.vNum d 2
    let a ← gr.vNum a
    let b ← gr.bNum b
    let c ← gr.vNum c 2
    gr.check ((a, .ofN m.n) :: b.srcs (.ofN m.n) ++ [(c, .int), (c + 1, .ofN m.n)]) [d, d + 1] b.ss
    .ok (gr.setPair e d .n32 (tagOfN m.n) fun l =>
      narrow m.sat m.n 64 (readInt m.n (gr.lane a l) * readInt m.n (gr.bLane b l) + readInt m.n (gr.pair c l)))

/-- VABS (R92). -/
def execVabs (g : Guard) (sat : Bool) (d a : Reg) (s : State) : Host.Outcome State Fault Refusal :=
  s.vec1 g d a .i32 .i32 fun x => narrow sat false 32 (x.toInt.natAbs : Int)
/-- VMIN (R92). -/
def execVmin (g : Guard) (n : Bool) (d a : Reg) (b : BSrc) (s : State) : Host.Outcome State Fault Refusal :=
  s.vec2 g d a b (.ofN n) (.ofN n) (tagOfN n) (minInt n)
/-- VMAX (R92). -/
def execVmax (g : Guard) (n : Bool) (d a : Reg) (b : BSrc) (s : State) : Host.Outcome State Fault Refusal :=
  s.vec2 g d a b (.ofN n) (.ofN n) (tagOfN n) (maxInt n)
/-- VCMP (R95). -/
def execVcmp (g : Guard) (cc : Cond) (n : Bool) (d : BitVec 3) (a : Reg) (b : BSrc) (s : State) :
    Host.Outcome State Fault Refusal :=
  s.vecCmp g d a b (.ofN n) fun x y => Cond.holds cc (readInt n x) (readInt n y)

/-- VSEL: the tag is A's when B has the same or comes from S, and RAW otherwise (R96). -/
def execVsel (g : Guard) (d a : Reg) (b : BSrc) (c : BitVec 3) (s : State) : Host.Outcome State Fault Refusal :=
  s.issue g fun e gr => do
    let d ← gr.vNum d
    let a ← gr.vNum a
    let b ← gr.bNum b
    gr.check ((a, .any) :: b.srcs .any) [d] b.ss [c]
    let tag := match b with
      | .v n => if gr.tag a = gr.tag n then gr.tag a else .raw
      | .s _ => gr.tag a
    .ok (gr.setV e d tag fun l => if (gr.predMask c).getLsbD l then gr.lane a l else gr.bLane b l)

/-- VMOV copies bits and tag (R96). -/
def execVmov (g : Guard) (d a : Reg) (s : State) : Host.Outcome State Fault Refusal :=
  s.issue g fun e gr => do
    let d ← gr.vNum d
    let a ← gr.vNum a
    gr.check [(a, .any)] [d]
    .ok (gr.setV e d (gr.tag a) fun l => gr.lane a l)

/-- VLI (R96). -/
def execVli (g : Guard) (tag : Tag) (d : Reg) (imm : Word32) (s : State) : Host.Outcome State Fault Refusal :=
  s.issue g fun e gr => do
    let d ← gr.vNum d
    gr.ready [d] [] []
    .ok (gr.setV e d tag fun _ => imm)

/-! ## Row 3 (R97) -/

/-- VAND. -/
def execVand (g : Guard) (d a : Reg) (b : BSrc) (s : State) : Host.Outcome State Fault Refusal :=
  s.vec2 g d a b .any .any .raw (· &&& ·)
/-- VOR. -/
def execVor (g : Guard) (d a : Reg) (b : BSrc) (s : State) : Host.Outcome State Fault Refusal :=
  s.vec2 g d a b .any .any .raw (· ||| ·)
/-- VXOR. -/
def execVxor (g : Guard) (d a : Reg) (b : BSrc) (s : State) : Host.Outcome State Fault Refusal :=
  s.vec2 g d a b .any .any .raw (· ^^^ ·)
/-- VNOT. -/
def execVnot (g : Guard) (d a : Reg) (s : State) : Host.Outcome State Fault Refusal :=
  s.vec1 g d a .any .raw (~~~ ·)
/-- VSHL. -/
def execVshl (g : Guard) (d a : Reg) (b : BSrc) (s : State) : Host.Outcome State Fault Refusal :=
  s.vec2 g d a b .any .int .raw shl
/-- VSHR. -/
def execVshr (g : Guard) (d a : Reg) (b : BSrc) (s : State) : Host.Outcome State Fault Refusal :=
  s.vec2 g d a b .any .int .raw shr
/-- VSRA: signed. -/
def execVsra (g : Guard) (d a : Reg) (b : BSrc) (s : State) : Host.Outcome State Fault Refusal :=
  s.vec2 g d a b .i32 .int .i32 sra
/-- VROT. -/
def execVrot (g : Guard) (d a : Reg) (b : BSrc) (s : State) : Host.Outcome State Fault Refusal :=
  s.vec2 g d a b .any .int .raw fun x y => x.rotateLeft (y.toNat % 32)
/-- VCLZ. -/
def execVclz (g : Guard) (d a : Reg) (s : State) : Host.Outcome State Fault Refusal :=
  s.vec1 g d a .any .n32 fun x => BitVec.ofNat 32 (clz x)
/-- VPOP. -/
def execVpop (g : Guard) (d a : Reg) (s : State) : Host.Outcome State Fault Refusal :=
  s.vec1 g d a .any .n32 fun x => BitVec.ofNat 32 (popcount x)
/-- VBFE (R98). -/
def execVbfe (g : Guard) (i : Bool) (lenM1 pos : BitVec 5) (d a : Reg) (s : State) :
    Host.Outcome State Fault Refusal :=
  s.vec1 g d a .any (if i then .i32 else .n32) fun x => fieldExtract i x pos.toNat (vecFieldLen lenM1 pos)
/-- VBFI (R98). -/
def execVbfi (g : Guard) (lenM1 pos : BitVec 5) (d a : Reg) (b : BReg) (s : State) :
    Host.Outcome State Fault Refusal :=
  s.vec2 g d a (.v b.r b.ru) .any .any .raw fun x y => fieldInsert y x pos.toNat (vecFieldLen lenM1 pos)
/-- VBREV. -/
def execVbrev (g : Guard) (d a : Reg) (s : State) : Host.Outcome State Fault Refusal :=
  s.vec1 g d a .any .raw BitVec.reverse
/-- VPERMB (R99). -/
def execVpermb (g : Guard) (d a : Reg) (b : BReg) (c : Reg) (s : State) : Host.Outcome State Fault Refusal :=
  s.vec3 g d a (.v b.r b.ru) c .any .any .int .raw permBytes

end Sys2Proof.Machine
end

