-- ==== Sys2Proof/Machine/Float.lean ====
section
/-! DEFINITION. Row 4, row 5 and the dot products, PACK and UNPK of row 6 (spec 04 R100 to R121). -/

namespace Sys2Proof.Machine

/-! ## Writing results with flags -/

/-- A V register written with the codes of results, and their flags raised (R62). -/
def Group.setVF (g : Group) (e : Mask) (n : Nat) (t : Tag) (f : Nat → FRes) : Group :=
  (g.setV e n t fun l => BitVec.ofNat 32 (f l).code).raise (laneFlags e fun l => (f l).flags)

/-- An FP64 pair written with the codes of results, and their flags raised. -/
def Group.setDF (g : Group) (e : Mask) (n : Nat) (f : Nat → FRes) : Group :=
  (g.setPair e n .dLo .dHi fun l => BitVec.ofNat 64 (f l).code).raise (laneFlags e fun l => (f l).flags)

/-- NB and NC flip the sign bit (R103). -/
def negIf {w : Nat} (c : Bool) (x : BitVec w) : BitVec w := if c then x ^^^ BitVec.twoPow w (w - 1) else x

/-- The FP32 value of a lane. -/
def f32v (x : Word32) : FVal := FpFmt.f32.value x.toNat

/-- The FP64 value of a pair. -/
def f64v (x : Word64) : FVal := FpFmt.f64.value x.toNat

/-! ## Shapes -/

/-- FP32: one source. -/
def State.fp1 (s : State) (gd : Guard) (d a : Reg) (f : FVal → FRes) : Host.Outcome State Fault Refusal :=
  s.issue gd fun e g => do
    let d ← g.vNum d
    let a ← g.vNum a
    g.check [(a, .f32)] [d]
    .ok (g.setVF e d .f32 fun l => f (f32v (g.lane a l)))

/-- FP32: two sources by code. -/
def State.fp2 (s : State) (gd : Guard) (nb : Bool) (d a : Reg) (b : BSrc) (f : Word32 → Word32 → FRes) :
    Host.Outcome State Fault Refusal :=
  s.issue gd fun e g => do
    let d ← g.vNum d
    let a ← g.vNum a
    let b ← g.bNum b
    g.check ((a, .f32) :: b.srcs .f32) [d] b.ss
    .ok (g.setVF e d .f32 fun l => f (g.lane a l) (negIf nb (g.bLane b l)))

/-- The element format and tag of the packed instructions (R110). -/
def packedFmt (bf : Bool) : FpFmt := if bf then .bf16 else .f16

/-- The expectation of a packed source (R55, R110). -/
def packedSrc (bf : Bool) : Expect := if bf then .b2 else .h2

/-- The tag of a packed result (R110). -/
def packedTag (bf : Bool) : Tag := if bf then .b2 else .h2

/-- A packed result from its two elements (R52). -/
def packTwo (lo hi : FRes) : FRes := ⟨lo.code + hi.code * 2 ^ 16, lo.flags ||| hi.flags⟩

/-- Element j of a packed pair of 16-bit codes. -/
def half (x : Word32) (j : Nat) : BitVec 16 := x.extractLsb' (16 * j) 16

/-- Packed: two sources, element by element, by code (R110). -/
def State.packed2 (s : State) (gd : Guard) (bf nb : Bool) (d a : Reg) (b : BSrc) (f : FpFmt → Nat → Nat → FRes) :
    Host.Outcome State Fault Refusal :=
  s.issue gd fun e g => do
    let d ← g.vNum d
    let a ← g.vNum a
    let b ← g.bNum b
    g.check ((a, packedSrc bf) :: b.srcs (packedSrc bf)) [d] b.ss
    let el (l j : Nat) : FRes :=
      f (packedFmt bf) (half (g.lane a l) j).toNat (negIf nb (half (g.bLane b l) j)).toNat
    .ok (g.setVF e d (packedTag bf) fun l => packTwo (el l 0) (el l 1))

/-- FP64: two sources by code (R111). -/
def State.dbl2 (s : State) (gd : Guard) (nb : Bool) (d a : Reg) (b : BSrc) (f : Word64 → Word64 → FRes) :
    Host.Outcome State Fault Refusal :=
  s.issue gd fun e g => do
    let d ← g.vNum d 2
    let a ← g.vNum a 2
    let b ← g.bNum b 2
    g.check (pairSrc a ++ b.pairs) [d, d + 1] b.ss
    .ok (g.setDF e d fun l => f (g.pair a l) (negIf nb (g.bPair b l)))

/-- A floating-point comparison into a predicate (R107). -/
def Group.setCmp (g : Group) (e : Mask) (d : BitVec 3) (f : Nat → Bool × FpFlags) : Group :=
  (g.setP e d (maskOf fun l => (f l).1)).raise (laneFlags e fun l => (f l).2)

/-! ## FP32 (R104 to R109) -/

/-- FADD. -/
def execFadd (g : Guard) (nb : Bool) (rnd : Round) (d a : Reg) (b : BSrc) (s : State) :
    Host.Outcome State Fault Refusal :=
  s.fp2 g nb d a b fun x y => FpFmt.f32.add rnd (f32v x) (f32v y)
/-- FSUB. -/
def execFsub (g : Guard) (nb : Bool) (rnd : Round) (d a : Reg) (b : BSrc) (s : State) :
    Host.Outcome State Fault Refusal :=
  s.fp2 g nb d a b fun x y => FpFmt.f32.add rnd (f32v x) (f32v (negIf true y))
/-- FMUL. -/
def execFmul (g : Guard) (nb : Bool) (rnd : Round) (d a : Reg) (b : BSrc) (s : State) :
    Host.Outcome State Fault Refusal :=
  s.fp2 g nb d a b fun x y => FpFmt.f32.mul rnd (f32v x) (f32v y)
/-- FFMA. -/
def execFfma (g : Guard) (nc nb : Bool) (rnd : Round) (d a : Reg) (b : BSrc) (c : Reg) (s : State) :
    Host.Outcome State Fault Refusal :=
  s.issue g fun e gr => do
    let d ← gr.vNum d
    let a ← gr.vNum a
    let b ← gr.bNum b
    let c ← gr.vNum c
    gr.check ((a, .f32) :: b.srcs .f32 ++ [(c, .f32)]) [d] b.ss
    .ok (gr.setVF e d .f32 fun l =>
      FpFmt.f32.fma rnd (f32v (gr.lane a l)) (f32v (negIf nb (gr.bLane b l))) (f32v (negIf nc (gr.lane c l))))
/-- FMIN (R106). -/
def execFmin (g : Guard) (d a : Reg) (b : BSrc) (s : State) : Host.Outcome State Fault Refusal :=
  s.fp2 g false d a b fun x y => FpFmt.f32.minMax false x.toNat y.toNat
/-- FMAX (R106). -/
def execFmax (g : Guard) (d a : Reg) (b : BSrc) (s : State) : Host.Outcome State Fault Refusal :=
  s.fp2 g false d a b fun x y => FpFmt.f32.minMax true x.toNat y.toNat
/-- FCMP (R107). -/
def execFcmp (g : Guard) (cc : FCond) (d : BitVec 3) (a : Reg) (b : BSrc) (s : State) :
    Host.Outcome State Fault Refusal :=
  s.issue g fun e gr => do
    let a ← gr.vNum a
    let b ← gr.bNum b
    gr.check ((a, .f32) :: b.srcs .f32) [] b.ss [d]
    .ok (gr.setCmp e d fun l => fpCompare cc (f32v (gr.lane a l)) (f32v (gr.bLane b l)))
/-- FCLASS (R108). -/
def execFclass (g : Guard) (dbl : Bool) (d a : Reg) (s : State) : Host.Outcome State Fault Refusal :=
  s.issue g fun e gr => do
    let d ← gr.vNum d
    let a ← gr.vNum a (if dbl then 2 else 1)
    gr.check (if dbl then pairSrc a else [(a, .f32)]) [d]
    .ok (gr.setV e d .n32 fun l => BitVec.ofNat 32
      (if dbl then FpFmt.f64.classify (gr.pair a l).toNat else FpFmt.f32.classify (gr.lane a l).toNat))
/-- FRND (R109). -/
def execFrnd (g : Guard) (dbl : Bool) (rnd : Round) (d a : Reg) (s : State) : Host.Outcome State Fault Refusal :=
  s.issue g fun e gr => do
    let d ← gr.vNum d (if dbl then 2 else 1)
    let a ← gr.vNum a (if dbl then 2 else 1)
    if dbl then
      gr.check (pairSrc a) [d, d + 1]
      .ok (gr.setDF e d fun l => FpFmt.f64.integral rnd (f64v (gr.pair a l)))
    else
      gr.check [(a, .f32)] [d]
      .ok (gr.setVF e d .f32 fun l => FpFmt.f32.integral rnd (f32v (gr.lane a l)))

/-! ## Packed FP16 and BF16 (R110) -/

/-- HADD2. -/
def execHadd2 (g : Guard) (bf nb : Bool) (rnd : Round) (d a : Reg) (b : BSrc) (s : State) :
    Host.Outcome State Fault Refusal :=
  s.packed2 g bf nb d a b fun f x y => f.add rnd (f.value x) (f.value y)
/-- HMUL2. -/
def execHmul2 (g : Guard) (bf nb : Bool) (rnd : Round) (d a : Reg) (b : BSrc) (s : State) :
    Host.Outcome State Fault Refusal :=
  s.packed2 g bf nb d a b fun f x y => f.mul rnd (f.value x) (f.value y)
/-- HFMA2. -/
def execHfma2 (g : Guard) (bf nc nb : Bool) (rnd : Round) (d a : Reg) (b : BSrc) (c : Reg) (s : State) :
    Host.Outcome State Fault Refusal :=
  s.issue g fun e gr => do
    let d ← gr.vNum d
    let a ← gr.vNum a
    let b ← gr.bNum b
    let c ← gr.vNum c
    gr.check ((a, packedSrc bf) :: b.srcs (packedSrc bf) ++ [(c, packedSrc bf)]) [d] b.ss
    let f := packedFmt bf
    let el (l j : Nat) : FRes :=
      f.fma rnd (f.value (half (gr.lane a l) j).toNat) (f.value (negIf nb (half (gr.bLane b l) j)).toNat)
        (f.value (negIf nc (half (gr.lane c l) j)).toNat)
    .ok (gr.setVF e d (packedTag bf) fun l => packTwo (el l 0) (el l 1))
/-- HMIN2. -/
def execHmin2 (g : Guard) (bf : Bool) (d a : Reg) (b : BSrc) (s : State) : Host.Outcome State Fault Refusal :=
  s.packed2 g bf false d a b fun f x y => f.minMax false x y
/-- HMAX2. -/
def execHmax2 (g : Guard) (bf : Bool) (d a : Reg) (b : BSrc) (s : State) : Host.Outcome State Fault Refusal :=
  s.packed2 g bf false d a b fun f x y => f.minMax true x y

/-! ## FP64 (R111) -/

/-- DADD. -/
def execDadd (g : Guard) (nb : Bool) (rnd : Round) (d a : Reg) (b : BSrc) (s : State) :
    Host.Outcome State Fault Refusal :=
  s.dbl2 g nb d a b fun x y => FpFmt.f64.add rnd (f64v x) (f64v y)
/-- DMUL. -/
def execDmul (g : Guard) (nb : Bool) (rnd : Round) (d a : Reg) (b : BSrc) (s : State) :
    Host.Outcome State Fault Refusal :=
  s.dbl2 g nb d a b fun x y => FpFmt.f64.mul rnd (f64v x) (f64v y)
/-- DFMA. -/
def execDfma (g : Guard) (nc nb : Bool) (rnd : Round) (d a : Reg) (b : BSrc) (c : Reg) (s : State) :
    Host.Outcome State Fault Refusal :=
  s.issue g fun e gr => do
    let d ← gr.vNum d 2
    let a ← gr.vNum a 2
    let b ← gr.bNum b 2
    let c ← gr.vNum c 2
    gr.check (pairSrc a ++ b.pairs ++ pairSrc c) [d, d + 1] b.ss
    .ok (gr.setDF e d fun l =>
      FpFmt.f64.fma rnd (f64v (gr.pair a l)) (f64v (negIf nb (gr.bPair b l))) (f64v (negIf nc (gr.pair c l))))
/-- DCMP. -/
def execDcmp (g : Guard) (cc : FCond) (d : BitVec 3) (a : Reg) (b : BSrc) (s : State) :
    Host.Outcome State Fault Refusal :=
  s.issue g fun e gr => do
    let a ← gr.vNum a 2
    let b ← gr.bNum b 2
    gr.check (pairSrc a ++ b.pairs) [] b.ss [d]
    .ok (gr.setCmp e d fun l => fpCompare cc (f64v (gr.pair a l)) (f64v (gr.bPair b l)))
/-- DMIN. -/
def execDmin (g : Guard) (d a : Reg) (b : BSrc) (s : State) : Host.Outcome State Fault Refusal :=
  s.dbl2 g false d a b fun x y => FpFmt.f64.minMax false x.toNat y.toNat
/-- DMAX. -/
def execDmax (g : Guard) (d a : Reg) (b : BSrc) (s : State) : Host.Outcome State Fault Refusal :=
  s.dbl2 g false d a b fun x y => FpFmt.f64.minMax true x.toNat y.toNat

/-! ## Correctly rounded functions (R112, R113) -/

/-- FDIV. -/
def execFdiv (g : Guard) (rnd : Round) (d a : Reg) (b : BSrc) (s : State) : Host.Outcome State Fault Refusal :=
  s.fp2 g false d a b fun x y => FpFmt.f32.div rnd (f32v x) (f32v y)
/-- FSQRT. -/
def execFsqrt (g : Guard) (rnd : Round) (d a : Reg) (s : State) : Host.Outcome State Fault Refusal :=
  s.fp1 g d a (FpFmt.f32.sqrt rnd)
/-- FRCP. -/
def execFrcp (g : Guard) (rnd : Round) (d a : Reg) (s : State) : Host.Outcome State Fault Refusal :=
  s.fp1 g d a (FpFmt.f32.rcp rnd)
/-- FRSQ. -/
def execFrsq (g : Guard) (rnd : Round) (d a : Reg) (s : State) : Host.Outcome State Fault Refusal :=
  s.fp1 g d a (FpFmt.f32.rsq rnd)
/-- FEXP2. -/
def execFexp2 (g : Guard) (rnd : Round) (d a : Reg) (s : State) : Host.Outcome State Fault Refusal :=
  s.fp1 g d a (FpFmt.f32.exp2 rnd)
/-- FLOG2. -/
def execFlog2 (g : Guard) (rnd : Round) (d a : Reg) (s : State) : Host.Outcome State Fault Refusal :=
  s.fp1 g d a (FpFmt.f32.log2 rnd)
/-- FSIN. -/
def execFsin (g : Guard) (rnd : Round) (d a : Reg) (s : State) : Host.Outcome State Fault Refusal :=
  s.fp1 g d a (FpFmt.f32.sin rnd)
/-- FCOS. -/
def execFcos (g : Guard) (rnd : Round) (d a : Reg) (s : State) : Host.Outcome State Fault Refusal :=
  s.fp1 g d a (FpFmt.f32.cos rnd)

/-! ## CVT (R114, R115) -/

/-- The registers that a type occupies (R114). -/
def cvtSpan : CvtTy → Nat
  | .f64 | .i64 | .n64 => 2
  | .i32 | .n32 | .f32 | .e8m0 => 1

/-- The source tags that a type accepts (R114). -/
def cvtSources (n : Nat) : CvtTy → Sources
  | .i32 => [(n, .i32)]
  | .n32 => [(n, .n32)]
  | .f32 => [(n, .f32)]
  | .f64 => pairSrc n
  | .i64 => [(n, .int), (n + 1, .i32)]
  | .n64 => [(n, .int), (n + 1, .n32)]
  | .e8m0 => [(n, .int)]

/-- The result tags of a type, low and high (R114). -/
def cvtTags : CvtTy → Tag × Tag
  | .i32 => (.i32, .i32)
  | .n32 | .e8m0 => (.n32, .n32)
  | .f32 => (.f32, .f32)
  | .f64 => (.dLo, .dHi)
  | .i64 => (.n32, .i32)
  | .n64 => (.n32, .n32)

/-- A value to convert: floating point, or an integer. -/
inductive CvtVal where
  | fl (x : FVal)
  | int (i : Int)
  deriving DecidableEq, Repr

/-- The value of a source, of which `x` holds the register or the pair (R115). -/
def cvtRead (x : Word64) : CvtTy → CvtVal
  | .i32 => .int (x.extractLsb' 0 32).toInt
  | .n32 => .int (x.extractLsb' 0 32).toNat
  | .f32 => .fl (f32v (x.extractLsb' 0 32))
  | .f64 => .fl (f64v x)
  | .i64 => .int x.toInt
  | .n64 => .int x.toNat
  | .e8m0 => .fl (ofE8M0 (x.extractLsb' 0 8).toNat)

/-- An integer type: unsigned, and its width; none for the others. -/
def cvtInt : CvtTy → Option (Bool × Nat)
  | .i32 => some (false, 32)
  | .n32 => some (true, 32)
  | .i64 => some (false, 64)
  | .n64 => some (true, 64)
  | .f32 | .f64 | .e8m0 => none

/-- The conversion (R115). -/
def cvtConvert (dst : CvtTy) (sat : Bool) (rnd : Round) (v : CvtVal) : FRes :=
  match cvtInt dst, v with
  | some (n, w), .fl x => toIntConv n w rnd x
  | some (n, w), .int i => .exact (narrow sat n w i : BitVec w).toNat
  | none, .fl x => (match dst with
    | .e8m0 => toE8M0 rnd sat x
    | .f64 => FpFmt.f64.convert rnd sat x
    | .f32 | .i32 | .n32 | .i64 | .n64 => FpFmt.f32.convert rnd sat x)
  | none, .int i => (match dst with
    | .f64 => FpFmt.f64.ofInt rnd sat i
    | .f32 | .e8m0 | .i32 | .n32 | .i64 | .n64 => FpFmt.f32.ofInt rnd sat i)

/-- CVT. -/
def execCvt (g : Guard) (dst src : CvtTy) (sat : Bool) (rnd : Round) (d a : Reg) (s : State) :
    Host.Outcome State Fault Refusal :=
  s.issue g fun e gr => do
    let d ← gr.vNum d (cvtSpan dst)
    let a ← gr.vNum a (cvtSpan src)
    gr.check (cvtSources a src) (if cvtSpan dst = 2 then [d, d + 1] else [d])
    let r (l : Nat) : FRes :=
      cvtConvert dst sat rnd (cvtRead (if cvtSpan src = 2 then gr.pair a l else (gr.lane a l).setWidth 64) src)
    let tags := cvtTags dst
    let fl := laneFlags e fun l => (r l).flags
    .ok ((if cvtSpan dst = 2 then gr.setPair e d tags.1 tags.2 fun l => BitVec.ofNat 64 (r l).code
      else gr.setV e d tags.1 fun l => BitVec.ofNat 32 (r l).code).raise fl)

/-! ## TAGS and TAGRD (R120, R121) -/

/-- TAGS. -/
def execTags (g : Guard) (tag : Tag) (d a : Reg) (s : State) : Host.Outcome State Fault Refusal :=
  s.vec1 g d a .any tag id

/-- TAGRD: the tag code of a V register or of a tile, with no tag check and no trap. -/
def execTagrd (g : Guard) (tile : Bool) (d a : Reg) (s : State) : Host.Outcome State Fault Refusal :=
  s.issue g fun e gr => do
    let d ← gr.vNum d
    if tile then
      let a ← gr.aNum a
      gr.ready [d] [] []
      .ok (gr.setV e d .n32 fun _ => (gr.tile a).tag.code.setWidth 32)
    else
      let a ← gr.vNum a
      gr.ready [d, a] [] []
      .ok (gr.setV e d .n32 fun _ => (gr.tag a).code.setWidth 32)

/-! ## PACK and UNPK (R116, R117) -/

/-- The elements of a packed format: how many, of how many bits, and their kind. -/
inductive PackElem where
  | fl (f : FpFmt)
  | int (n : Bool)
  deriving DecidableEq, Repr

/-- n, the element width and the kind of each format (R116). -/
def packShape : PackFmt → Nat × Nat × PackElem
  | .f16 => (2, 16, .fl .f16)
  | .bf16 => (2, 16, .fl .bf16)
  | .e4m3 => (4, 8, .fl .e4m3)
  | .e5m2 => (4, 8, .fl .e5m2)
  | .e2m1 => (8, 4, .fl .e2m1)
  | .i8 => (4, 8, .int false)
  | .n8 => (4, 8, .int true)
  | .i4 => (8, 4, .int false)
  | .n4 => (8, 4, .int true)
  | .e3m2 => (5, 6, .fl .e3m2)
  | .e2m3 => (5, 6, .fl .e2m3)

/-- The tag of a packed register, the tag whose code is PF (R116). -/
def packTag : PackFmt → Tag
  | .f16 => .h2
  | .bf16 => .b2
  | .e4m3 => .e4x4
  | .e5m2 => .e5x4
  | .e2m1 => .e2x8
  | .i8 | .n8 => .i8x4
  | .i4 | .n4 => .i4x8
  | .e3m2 => .f6ax5
  | .e2m3 => .f6bx5

/-- What UNPK expects of its source (R116). -/
def unpkSource : PackFmt → Expect
  | .f16 => .h2
  | .bf16 => .b2
  | .e4m3 => .e4x4
  | .e5m2 => .e5x4
  | .e2m1 => .e2x8
  | .i8 | .n8 => .i8x4
  | .i4 | .n4 => .i4x8
  | .e3m2 => .f6a
  | .e2m3 => .f6b

/-- A modifier that selects an FP6 format (R71). -/
def packIsF6 : PackFmt → Bool
  | .e3m2 | .e2m3 => true
  | .f16 | .bf16 | .e4m3 | .e5m2 | .e2m1 | .i8 | .n8 | .i4 | .n4 => false

/-- One element of PACK (R116). -/
def packElem (w : Nat) (k : PackElem) (sat : Bool) (rnd : Round) (x : Word32) : FRes :=
  match k with
  | .fl f => f.convert rnd sat (f32v x)
  | .int n => .exact (narrow sat n w (readInt n x) : BitVec w).toNat

/-- PACK. -/
def execPack (g : Guard) (f : PackFmt) (sat : Bool) (rnd : Round) (d a : Reg) (s : State) :
    Host.Outcome State Fault Refusal :=
  s.issue g fun e gr => do
    let sh := packShape f
    let d ← gr.vNum d
    let a ← gr.vNum a sh.1
    let ex : Expect := match sh.2.2 with
      | .fl _ => .f32
      | .int n => .ofN n
    gr.check ((List.range sh.1).map fun i => (a + i, ex)) [d] [] [] (packIsF6 f)
    .ok (gr.setVF e d (packTag f) fun l =>
      (List.range sh.1).foldl (fun acc i =>
        let r := packElem sh.2.1 sh.2.2 sat rnd (gr.lane (a + i) l)
        ⟨acc.code + r.code * 2 ^ (sh.2.1 * i), acc.flags ||| r.flags⟩) ⟨0, 0⟩)

/-- One element of UNPK (R117). -/
def unpkElem (w : Nat) (k : PackElem) (x : Nat) : FRes :=
  match k with
  | .fl f => FpFmt.f32.convert .rn false (f.value x)
  | .int n => .exact (BitVec.ofInt 32 (readInt n (BitVec.ofNat w x))).toNat

/-- UNPK. -/
def execUnpk (g : Guard) (f : PackFmt) (d a : Reg) (s : State) : Host.Outcome State Fault Refusal :=
  s.issue g fun e gr => do
    let sh := packShape f
    let d ← gr.vNum d sh.1
    let a ← gr.vNum a
    gr.check [(a, unpkSource f)] ((List.range sh.1).map (d + ·)) [] [] (packIsF6 f)
    let tag : Tag := match sh.2.2 with
      | .fl _ => .f32
      | .int n => tagOfN n
    let el (l i : Nat) : FRes := unpkElem sh.2.1 sh.2.2 ((gr.lane a l).toNat / 2 ^ (sh.2.1 * i) % 2 ^ sh.2.1)
    .ok ((List.range sh.1).foldl (fun acc i => acc.setVF e (d + i) tag fun l => el l i) gr)

/-! ## DOT4 and DOT8 (R118, R119) -/

/-- Element i of w bits of a lane. -/
def elemOf (w : Nat) (x : Word32) (i : Nat) : Nat := x.toNat / 2 ^ (w * i) % 2 ^ w

/-- The integer dot product of a lane. -/
def dotInt (w n : Nat) (ta tb nacc sat : Bool) (a b c : Word32) : Word32 :=
  narrow sat nacc 32 ((List.range n).foldl (fun acc i =>
    acc + readInt ta (BitVec.ofNat w (elemOf w a i)) * readInt tb (BitVec.ofNat w (elemOf w b i))) (readInt nacc c))

/-- The floating-point dot product of a lane, taken exactly and rounded once. -/
def dotFp (w n : Nat) (fa fb : FpFmt) (sat : Bool) (rnd : Round) (a b c : Word32) : FRes :=
  let cv := f32v c
  let ps := (List.range n).map fun i => (fa.value (elemOf w a i)).mul (fb.value (elemOf w b i))
  let ts := cv :: ps.filterMap id
  if ts.any FVal.isNan then FpFmt.f32.nan (snanFlag [cv])
  else if ps.any Option.isNone then FpFmt.f32.nan flagNV
  else FpFmt.f32.sum rnd sat 0 ts

/-- A dot product of three V sources. -/
def State.dot (s : State) (gd : Guard) (d a : Reg) (b : BReg) (c : Reg) (ea eb ec : Expect) (tag : Tag)
    (f : Word32 → Word32 → Word32 → FRes) : Host.Outcome State Fault Refusal :=
  s.issue gd fun e g => do
    let d ← g.vNum d
    let a ← g.vNum a
    let b ← g.vNum b.r
    let c ← g.vNum c
    g.check [(a, ea), (b, eb), (c, ec)] [d]
    .ok (g.setVF e d tag fun l => f (g.lane a l) (g.lane b l) (g.lane c l))

/-- DOT4. -/
def execDot4 (g : Guard) (m : Dot4Mod) (d a : Reg) (b : BReg) (c : Reg) (s : State) :
    Host.Outcome State Fault Refusal :=
  match m with
  | .int ta tb nacc sat => s.dot g d a b c .i8x4 .i8x4 (.ofN nacc) (tagOfN nacc) fun x y z =>
      .exact (dotInt 8 4 ta tb nacc sat x y z).toNat
  | .fp ta tb sat rnd =>
    s.dot g d a b c (if ta then .e5x4 else .e4x4) (if tb then .e5x4 else .e4x4) .f32 .f32
      (dotFp 8 4 (if ta then .e5m2 else .e4m3) (if tb then .e5m2 else .e4m3) sat rnd)

/-- DOT8. -/
def execDot8 (g : Guard) (m : Dot8Mod) (d a : Reg) (b : BReg) (c : Reg) (s : State) :
    Host.Outcome State Fault Refusal :=
  match m with
  | .int ta tb nacc sat => s.dot g d a b c .i4x8 .i4x8 (.ofN nacc) (tagOfN nacc) fun x y z =>
      .exact (dotInt 4 8 ta tb nacc sat x y z).toNat
  | .fp sat rnd => s.dot g d a b c .e2x8 .e2x8 .f32 .f32 (dotFp 4 8 .e2m1 .e2m1 sat rnd)

end Sys2Proof.Machine
end

