-- ==== Sys2Proof/Machine/Cross.lean ====
section
/-! DEFINITION. Row 6, the cross-lane instructions (spec 07 R176 to R183). -/

namespace Sys2Proof.Machine

/-! ## SHFL and BCAST -/

/-- Segment widths (R178). -/
def segWidth : Seg → Nat
  | .w32 => 32
  | .w2 => 2
  | .w4 => 4
  | .w8 => 8
  | .w16 => 16

/-- The source lane of SHFL (R179). -/
def shflSource (w : Nat) (m : ShflMode) (l b : Nat) : Nat :=
  let p := l % w
  let base := l - p
  match m with
  | .idx => base + b % w
  | .up => if b ≤ p then l - b else l
  | .down => if p + b < w then l + b else l
  | .xor => base + (p ^^^ b) % w

/-- SHFL (R179). -/
def execShfl (g : Guard) (seg : Seg) (m : ShflMode) (d a : Reg) (b : BSrc) (s : State) :
    Host.Outcome State Fault Refusal :=
  s.issue g fun e gr => do
    let d ← gr.vNum d
    let a ← gr.vNum a
    let b ← gr.bNum b
    gr.check ((a, .any) :: b.srcs .int) [d] b.ss
    .ok (gr.setV e d (gr.tag a) fun l => gr.lane a (shflSource (segWidth seg) m l (gr.bLane b l).toNat))

/-- BCAST (R180). -/
def execBcast (g : Guard) (src : BcastSrc) (d a : Reg) (s : State) : Host.Outcome State Fault Refusal :=
  s.issue g fun e gr => do
    let d ← gr.vNum d
    let a ← gr.vNum a
    match src with
    | .lane k =>
      gr.check [(a, .any)] [d]
      .ok (gr.setV e d (gr.tag a) fun _ => gr.lane a k.toNat)
    | .s r =>
      let r ← gr.sNum r
      gr.check [(a, .any)] [d] [r]
      .ok (gr.setV e d (gr.tag a) fun _ => gr.lane a ((gr.s r).extractLsb' 0 5).toNat)

/-! ## VOTE and MATCH -/

/-- The mask of a Boolean for every lane. -/
def allLanes (b : Bool) : Mask := if b then BitVec.allOnes 32 else 0

/-- The number of lanes of a mask. -/
def countLanes (m : Mask) : Word32 := BitVec.ofNat 32 (lanesOf m).length

/-- VOTE over the member set (R181). -/
def execVote (g : Guard) (d : VoteDst) (a : BitVec 3) (mm : Option Reg) (s : State) :
    Host.Outcome State Fault Refusal :=
  s.issue g fun e gr => do
    let c ← gr.mmNum mm
    let ballot := gr.members e c &&& gr.predMask a
    match d with
    | .any p =>
      gr.check [] [] c.toList [a, p]
      .ok (gr.setP e p (allLanes (ballot != 0)))
    | .all p =>
      gr.check [] [] c.toList [a, p]
      .ok (gr.setP e p (allLanes (ballot == gr.members e c)))
    | .ballot r =>
      let n ← gr.vNum r
      gr.check [] [n] c.toList [a]
      .ok (gr.setV e n .n32 fun _ => ballot)
    | .count r =>
      let n ← gr.vNum r
      gr.check [] [n] c.toList [a]
      .ok (gr.setV e n .n32 fun _ => countLanes ballot)

/-- MATCH over the member set (R183). -/
def execMatchx (g : Guard) (d : MatchDst) (a : Reg) (mm : Option Reg) (s : State) :
    Host.Outcome State Fault Refusal :=
  s.issue g fun e gr => do
    let a ← gr.vNum a
    let c ← gr.mmNum mm
    let same (l : Nat) : Mask := gr.members e c &&& maskOf fun m => gr.lane a m == gr.lane a l
    match d with
    | .any r =>
      let n ← gr.vNum r
      gr.check [(a, .any)] [n] c.toList
      .ok (gr.setV e n .n32 same)
    | .all p =>
      gr.check [(a, .any)] [] c.toList [p]
      .ok (gr.setP e p (maskOf fun l => same l == gr.members e c))

/-! ## REDX and SCANX -/

/-- The tags that V[A] carries (R182). -/
def redSources (k : RedKind) (a : Nat) : Sources :=
  match k with
  | .intAdd n _ | .intOp n _ => [(a, Expect.ofN n)]
  | .fAdd dbl _ | .fMin dbl | .fMax dbl => if dbl then pairSrc a else [(a, .f32)]

/-- The result takes a pair of registers (R182). -/
def redDouble : RedKind → Bool
  | .intAdd _ _ | .intOp _ _ => false
  | .fAdd dbl _ | .fMin dbl | .fMax dbl => dbl

/-- An integer operation with its identity (R182). -/
def redInt (n : Bool) (op : RedIntOp) (xs : List Word32) : Word32 :=
  match op with
  | .min => xs.foldl (fun a b => if readInt n b < readInt n a then b else a) (if n then 0xFFFFFFFF else 0x7FFFFFFF)
  | .max => xs.foldl (fun a b => if readInt n a < readInt n b then b else a) (if n then 0 else 0x80000000)
  | .and => xs.foldl (· &&& ·) 0xFFFFFFFF
  | .or => xs.foldl (· ||| ·) 0
  | .xor => xs.foldl (· ^^^ ·) 0

/-- MIN or MAX over codes under R106, from the canonical NaN, which is the identity (R182). -/
def redMinMax (f : FpFmt) (greater : Bool) (xs : List Nat) : FRes :=
  xs.foldl (fun r x => let y := f.minMax greater r.code x; ⟨y.code, r.flags ||| y.flags⟩) (f.nan 0)

/-- The exact sum of the members rounded once; +0 over an empty set (R182). -/
def redSum (f : FpFmt) (rnd : Round) (xs : List Nat) : FRes :=
  if xs.isEmpty then f.zero false
  else f.sum rnd false (snanFlag (xs.map f.value)) (xs.map f.value)

/-- The combination of member values, given as 64-bit values, by kind (R182). -/
def redValue (k : RedKind) (xs : List Word64) : FRes :=
  let ws := xs.map fun x => x.extractLsb' 0 32
  let codes := xs.map BitVec.toNat
  let fmt (dbl : Bool) : FpFmt := if dbl then .f64 else .f32
  match k with
  | .intAdd n sat => .exact (narrow sat n 32 (ws.foldl (fun a x => a + readInt n x) 0)).toNat
  | .intOp n op => .exact (redInt n op ws).toNat
  | .fAdd dbl rnd => redSum (fmt dbl) rnd codes
  | .fMin dbl => redMinMax (fmt dbl) false codes
  | .fMax dbl => redMinMax (fmt dbl) true codes

/-- The value of a member (R182). -/
def Group.redLane (g : Group) (k : RedKind) (a l : Nat) : Word64 :=
  if redDouble k then g.pair a l else (g.lane a l).setWidth 64

/-- A result by lane written with the result tag of the kind, its flags raised (R182). -/
def Group.setRed (g : Group) (e : Mask) (k : RedKind) (d : Nat) (f : Nat → FRes) : Group :=
  let t := match k with
    | .intAdd n _ | .intOp n _ => g.setV e d (tagOfN n) fun l => BitVec.ofNat 32 (f l).code
    | .fAdd dbl _ | .fMin dbl | .fMax dbl =>
      if dbl then g.setPair e d .dLo .dHi fun l => BitVec.ofNat 64 (f l).code
      else g.setV e d .f32 fun l => BitVec.ofNat 32 (f l).code
  t.raise (laneFlags e fun l => (f l).flags)

/-- REDX and SCANX: lane l's result is over the members that `pick l` takes (R182). -/
def State.reduce (s : State) (gd : Guard) (k : RedKind) (d a : Reg) (mm : Option Reg) (pick : Nat → Nat → Bool) :
    Host.Outcome State Fault Refusal :=
  s.issue gd fun e g => do
    let span := if redDouble k then 2 else 1
    let d ← g.vNum d span
    let a ← g.vNum a span
    let c ← g.mmNum mm
    g.check (redSources k a) (if redDouble k then [d, d + 1] else [d]) c.toList
    let ms := lanesOf (g.members e c)
    .ok (g.setRed e k d fun l => redValue k ((ms.filter (pick l)).map (g.redLane k a)))

/-- REDX (R182). -/
def execRedx (g : Guard) (k : RedKind) (d a : Reg) (mm : Option Reg) (s : State) : Host.Outcome State Fault Refusal :=
  s.reduce g k d a mm fun _ _ => true

/-- SCANX: members up to the lane, or below it under .EX (R182). -/
def execScanx (g : Guard) (k : RedKind) (ex : Bool) (d a : Reg) (mm : Option Reg) (s : State) :
    Host.Outcome State Fault Refusal :=
  s.reduce g k d a mm fun l m => if ex then decide (m < l) else decide (m ≤ l)

end Sys2Proof.Machine
end

