-- ==== Sys2Proof/Machine/Limb.lean ====
section
/-! DEFINITION. Row 7, the limb instructions (spec 07 R184 to R190). -/

namespace Sys2Proof.Machine

/-- Widths of a binding (R184). -/
def limbWidth : LimbW → Nat
  | .w2 => 2
  | .w4 => 4
  | .w8 => 8
  | .w16 => 16
  | .w32 => 32

/-- LBIND (R184). -/
def execLbind (g : Guard) (w : LimbW) (s : State) : Host.Outcome State Fault Refusal :=
  s.issue g fun e gr =>
    if e = BitVec.allOnes 32 then .ok { gr with limb := some w } else .error (.plain .limbmask)

/-- LFREE (R185). -/
def execLfree (g : Guard) (s : State) : Host.Outcome State Fault Refusal :=
  s.issue g fun _ gr => .ok { gr with limb := none }

/-- The lanes of a set as a mask: width w from lane `base` (R184). -/
def setMask (w base : Nat) : Mask := maskOf fun l => decide (base ≤ l) && decide (l < base + w)

/-- The base lanes of the sets of width w. -/
def setBases (w : Nat) : List Nat := (List.range (32 / w)).map fun j => j * w

/-- A mask is a union of whole sets (R186, R187). -/
def wholeSets (w : Nat) (m : Mask) : Bool :=
  (setBases w).all fun b => (m &&& setMask w b) == 0 || (m &&& setMask w b) == setMask w b

/-- The width and the sets inside E, or LIMBMASK (R187). -/
def Group.limbSets (g : Group) (e : Mask) : Res (Nat × List Nat) :=
  match g.limb with
  | none => .error (.plain .limbmask)
  | some lw =>
    let w := limbWidth lw
    if wholeSets w e then .ok (w, (setBases w).filter fun b => (e &&& setMask w b) == setMask w b)
    else .error (.plain .limbmask)

/-- num(n, J) (R187). -/
def Group.num (g : Group) (w n base : Nat) : Nat :=
  (List.range w).foldl (fun x i => x + (g.lane n (base + i)).toNat * 2 ^ (32 * i)) 0

/-- sgn(x) (R187). -/
def sgn (w x : Nat) : Int := if x ≥ 2 ^ (32 * w - 1) then (x : Int) - 2 ^ (32 * w) else x

/-- The limb of lane l of a number by set base (R187). -/
def limbOf (w : Nat) (f : Nat → Int) (l : Nat) : Word32 :=
  BitVec.ofInt 32 (f (l / w * w) / 2 ^ (32 * (l % w)))

/-- The carries of the sets as lanes. -/
def carryMask (w : Nat) (co : Nat → Bool) : Mask := maskOf fun l => co (l / w * w)

/-- The carry predicate written in the lanes of the sets (R189). -/
def Group.setCarry (g : Group) (e : Mask) (k : Option (BitVec 3)) (w : Nat) (co : Nat → Bool) : Group :=
  match k with
  | none => g
  | some p => g.setP e p (carryMask w co)

/-- The result of a limb instruction: its carry-out, which under .TRAP faults LIMBOVF (R190), its number and its carry
predicate (R188, R189). -/
def Group.putLimbs (g : Group) (e : Mask) (trap : Bool) (k : Option (BitVec 3)) (w : Nat) (sets : List Nat) (d : Nat)
    (x : Nat → Int) (co : Nat → Bool) : Res Group := do
  need (!(trap && sets.any co)) (.plain .limbovf)
  .ok ((g.setV e d .limb (limbOf w x)).setCarry e k w co)

/-- Carry.none and Carry.out as a predicate number and a carry-in flag (R189). -/
def carryPred : Carry → Option (BitVec 3)
  | .none => none
  | .out k _ => some k

/-- The carry-in of a set (R189). -/
def Group.carryIn (g : Group) (c : Carry) (base : Nat) : Int :=
  match c with
  | .out k true => if (g.predMask k).getLsbD base then 1 else 0
  | .out _ false | .none => 0

/-- LADD and LSUB by their exact operation (R188, R189). -/
def State.limbAdd (s : State) (gd : Guard) (trap : Bool) (k : Carry) (d a b : Reg) (sub : Bool) :
    Host.Outcome State Fault Refusal :=
  s.issue gd fun e g => do
    let d ← g.vNum d
    let a ← g.vNum a
    let b ← g.vNum b
    g.check [(a, .limb), (b, .limb)] [d] [] (carryPred k).toList
    let (w, sets) ← g.limbSets e
    let x (j : Nat) : Int :=
      if sub then (g.num w a j : Int) - g.num w b j - g.carryIn k j else (g.num w a j : Int) + g.num w b j + g.carryIn k j
    g.putLimbs e trap (carryPred k) w sets d x fun j => decide (x j < 0) || decide (x j ≥ 2 ^ (32 * w))

/-- LADD (R188). -/
def execLadd (g : Guard) (trap : Bool) (k : Carry) (d a b : Reg) (s : State) : Host.Outcome State Fault Refusal :=
  s.limbAdd g trap k d a b false

/-- LSUB (R188). -/
def execLsub (g : Guard) (trap : Bool) (k : Carry) (d a b : Reg) (s : State) : Host.Outcome State Fault Refusal :=
  s.limbAdd g trap k d a b true

/-- A shift count: the set's lowest lane, or S[B] whole under .S (R188). -/
def Group.countNum (g : Group) : CountSrc → Res BVal
  | .v r => do
    let n ← g.vNum r
    .ok (.v n)
  | .s r => do
    let n ← g.sNum r
    .ok (.s n)

/-- The count of a set, capped where no larger count differs: at 32w. -/
def Group.shiftCount (g : Group) (w : Nat) (b : BVal) (base : Nat) : Nat :=
  match b with
  | .v n => min (g.lane n base).toNat (32 * w)
  | .s n => min (g.s n).toNat (32 * w)

/-- LSHL (R188). -/
def execLshl (g : Guard) (trap : Bool) (k : Option (BitVec 3)) (d a : Reg) (b : CountSrc) (s : State) :
    Host.Outcome State Fault Refusal :=
  s.issue g fun e gr => do
    let d ← gr.vNum d
    let a ← gr.vNum a
    let b ← gr.countNum b
    gr.check ((a, .limb) :: b.srcs .int) [d] b.ss k.toList
    let (w, sets) ← gr.limbSets e
    let n (j : Nat) : Nat := gr.shiftCount w b j
    gr.putLimbs e trap k w sets d (fun j => (gr.num w a j * 2 ^ n j : Nat))
      fun j => gr.num w a j / 2 ^ (32 * w - n j) != 0

/-- LSHR, arithmetic under .AR (R188). -/
def execLshr (g : Guard) (trap ar : Bool) (k : Option (BitVec 3)) (d a : Reg) (b : CountSrc) (s : State) :
    Host.Outcome State Fault Refusal :=
  s.issue g fun e gr => do
    let d ← gr.vNum d
    let a ← gr.vNum a
    let b ← gr.countNum b
    gr.check ((a, .limb) :: b.srcs .int) [d] b.ss k.toList
    let (w, sets) ← gr.limbSets e
    let n (j : Nat) : Nat := gr.shiftCount w b j
    gr.putLimbs e trap k w sets d
      (fun j => (if ar then sgn w (gr.num w a j) else (gr.num w a j : Int)) / 2 ^ n j)
      fun j => gr.num w a j % 2 ^ n j != 0

/-- LMULS: the product and, in V[C], its high word (R188). -/
def execLmuls (g : Guard) (trap : Bool) (k : Option (BitVec 3)) (d a b c : Reg) (s : State) :
    Host.Outcome State Fault Refusal :=
  s.issue g fun e gr => do
    let d ← gr.vNum d
    let a ← gr.vNum a
    let b ← gr.sNum b
    let c ← gr.vNum c
    gr.check [(a, .limb)] [d, c] [b] k.toList
    let (w, sets) ← gr.limbSets e
    let x (j : Nat) : Nat := gr.num w a j * ((gr.s b).extractLsb' 0 32).toNat
    let high (j : Nat) : Nat := x j / 2 ^ (32 * w)
    let t ← gr.putLimbs e trap k w sets d (fun j => (x j : Int)) fun j => high j != 0
    .ok (t.setV e c .n32 fun l => BitVec.ofNat 32 (high (l / w * w)))

/-- LCMP (R188). -/
def execLcmp (g : Guard) (cc : Cond) (ar : Bool) (d : BitVec 3) (a b : Reg) (s : State) :
    Host.Outcome State Fault Refusal :=
  s.issue g fun e gr => do
    let a ← gr.vNum a
    let b ← gr.vNum b
    gr.check [(a, .limb), (b, .limb)] [] [] [d]
    let (w, _) ← gr.limbSets e
    let v (n j : Nat) : Int := if ar then sgn w (gr.num w n j) else gr.num w n j
    .ok (gr.setP e d (carryMask w fun j => Cond.holds cc (v a j) (v b j)))

/-- LNEG (R188). -/
def execLneg (g : Guard) (k : Option (BitVec 3)) (d a : Reg) (s : State) : Host.Outcome State Fault Refusal :=
  s.issue g fun e gr => do
    let d ← gr.vNum d
    let a ← gr.vNum a
    gr.check [(a, .limb)] [d] [] k.toList
    let (w, sets) ← gr.limbSets e
    gr.putLimbs e false k w sets d (fun j => -(gr.num w a j : Int)) fun j => gr.num w a j != 0

/-- The leading zero bits of a number of 32w bits (R188). -/
def limbClz (w x : Nat) : Nat := if x = 0 then 32 * w else 32 * w - 1 - x.log2

/-- LCLZ (R188). -/
def execLclz (g : Guard) (d a : Reg) (s : State) : Host.Outcome State Fault Refusal :=
  s.issue g fun e gr => do
    let d ← gr.vNum d
    let a ← gr.vNum a
    gr.check [(a, .limb)] [d]
    let (w, _) ← gr.limbSets e
    .ok (gr.setV e d .n32 fun l => BitVec.ofNat 32 (limbClz w (gr.num w a (l / w * w))))

end Sys2Proof.Machine
end

