-- ==== Sys2Proof/Machine/Control.lean ====
section
/-! DEFINITION. Row 13, the control instructions (spec 07 R191 to R197). -/

namespace Sys2Proof.Machine

/-! ## Clause-ending instructions -/

/-- The byte offset F of the header that follows the clause (R191). -/
def Group.fall (g : Group) : Int :=
  match g.clause with
  | some c => (c.off : Int) + 8 * (c.head.n + 1)
  | none => g.clauseOff

/-- The target of a C-format branch as a byte offset (R191). -/
def Group.target (g : Group) (off : Word32) : Int := (g.clauseOff : Int) + 8 * off.toInt

/-- Moves with equal targets make one entry (R192). -/
def mergeMoves : List (Int × Mask) → List (Int × Mask)
  | [] => []
  | (t, m) :: rest =>
    let r := mergeMoves rest
    if r.any fun p => p.1 == t then r.map fun p => if p.1 == t then (t, p.2 ||| m) else p else (t, m) :: r

/-- A target lies outside the text section (R193). -/
def Group.outside (g : Group) (t : Int) : Bool := decide (t < 0) || decide ((g.code.tlen : Int) ≤ t)

/-- BUFBOUND for the lowest lane that leaves the text section (R193, R449). -/
def Group.boundsOk (g : Group) (ms : List (Int × Mask)) : Res Unit :=
  let bad := ms.filter fun p => g.outside p.1
  match (List.range 32).findSome? fun l => (bad.find? fun p => p.2.getLsbD l).map fun p => (l, p.1) with
  | none => .ok ()
  | some (l, t) =>
    .error (.fault
      { code := .bufbound, lane := some l, acc := 3, va := (((g.code.text : Int) + t) % 2 ^ 64).toNat, off := t,
        buf := g.code.buf })

/-- LIMBDIV where an entry would hold part of a set (R186). -/
def Group.setsOk (g : Group) (ms : List (Int × Mask)) : Res Unit :=
  match g.limb with
  | none => .ok ()
  | some w => need (ms.all fun p => wholeSets (limbWidth w) p.2) (.plain .limbdiv)

/-- A clause-ending instruction sends lanes to targets: the entries that the table *Frontier effect* gives, those without
a lane left out, after the checks of R193 in order. The set rule looks at each of them (R186, log 27, DEDUCED); entries with equal
addresses merge when the frontier changes, at the end of the clause (R165). -/
def Group.send (g : Group) (ms : List (Int × Mask)) : Res Group := do
  let ms := ms.filter fun p => p.2 != 0
  g.boundsOk ms
  g.setsOk ms
  .ok { g with moves := some ((mergeMoves ms).map fun p => (p.1.toNat, p.2)) }

/-- A clause-ending instruction, which acts for an empty E too (R192). -/
def State.ending (s : State) (gd : Guard) (f : Mask → Group → Res Group) : Host.Outcome State Fault Refusal :=
  s.guarded gd fun e =>
  match f e s.focus with
  | .ok g => .next { s with focus := g }.advance
  | .error st => s.stopped e st

/-- BRA (R192). -/
def execBra (g : Guard) (off : Word32) (s : State) : Host.Outcome State Fault Refusal :=
  s.ending g fun e gr => gr.send [(gr.target off, e), (gr.fall, gr.active &&& ~~~e)]

/-- The condition of BRC (R192). -/
def brcHolds (c : BrcCond) (e active : Mask) : Bool :=
  match c with
  | .any => e != 0
  | .all => e == active
  | .none => e == 0
  | .nall => e != active

/-- BRC moves the whole entry (R192). -/
def execBrc (g : Guard) (c : BrcCond) (off : Word32) (s : State) : Host.Outcome State Fault Refusal :=
  s.ending g fun e gr => gr.send [(if brcHolds c e gr.active then gr.target off else gr.fall, gr.active)]

/-- The condition of BRU (R192). -/
def bruHolds (c : BruCond) (xi imm : Nat) : Bool :=
  match c with
  | .eq => xi == imm
  | .ne => xi != imm
  | .ltu => decide (xi < imm)
  | .geu => decide (imm ≤ xi)

/-- BRU moves the whole entry (R192). -/
def execBru (g : Guard) (imm : BitVec 14) (c : BruCond) (off : Word32) (s : State) :
    Host.Outcome State Fault Refusal :=
  s.ending g fun e gr =>
    gr.send [(if e != 0 && bruHolds c gr.xi.toNat imm.toNat then gr.target off else gr.fall, gr.active)]

/-- CALL: the link register of the lanes of E receives the fall-through as a word offset (R192). -/
def execCall (g : Guard) (link : BitVec 8) (off : Word32) (s : State) : Host.Outcome State Fault Refusal :=
  s.ending g fun e gr => do
    if e = 0 then gr.send [(gr.fall, gr.active)]
    else
      let n ← gr.vNum ⟨link, false⟩
      gr.ready [n] [] []
      let t ← gr.send [(gr.target off, e), (gr.fall, gr.active &&& ~~~e)]
      .ok (t.setV e n .n32 fun _ => BitVec.ofInt 32 (gr.fall / 8))

/-- RET and JMPI: each lane of E to its own target (R192). -/
def State.indirect (s : State) (gd : Guard) (a : Reg) : Host.Outcome State Fault Refusal :=
  s.ending gd fun e g => do
    let out := (g.fall, g.active &&& ~~~e)
    if e = 0 then g.send [out]
    else
      let n ← g.vNum a
      g.check [(n, .int)]
      g.send (mergeMoves ((lanesOf e).map fun l => (8 * ((g.lane n l).toNat : Int), 1#32 <<< l)) ++ [out])

/-- RET (R192). -/
def execRet (g : Guard) (a : Reg) (s : State) : Host.Outcome State Fault Refusal := s.indirect g a

/-- JMPI (R192). -/
def execJmpi (g : Guard) (a : Reg) (s : State) : Host.Outcome State Fault Refusal := s.indirect g a

/-- EXIT: the lanes of E leave the frontier (R17, R192). -/
def execExit (g : Guard) (s : State) : Host.Outcome State Fault Refusal :=
  s.ending g fun e gr => do
    let t ← gr.send [(gr.fall, gr.active &&& ~~~e)]
    .ok { t with exited := t.exited ||| e }

/-- YIELD moves the whole entry to F; with E not empty the slot passes the group over (R195). -/
def execYield (g : Guard) (s : State) : Host.Outcome State Fault Refusal :=
  s.ending g fun e gr => do
    let t ← gr.send [(gr.fall, gr.active)]
    .ok { t with yielded := t.yielded || e != 0 }

/-! ## NOP, WAIT, BKPT, SETXI -/

/-- NOP (R195). -/
def execNop (g : Guard) (s : State) : Host.Outcome State Fault Refusal := s.issue g fun _ gr => .ok gr

/-- The later of two deadlines, seen from now: one that has passed is before any other (R194). -/
def laterDeadline (now new : Word64) : Option Word64 → Word64
  | none => new
  | some old => if (old - now).toInt < (new - now).toInt then new else old

/-- WAIT sets the resume count (R194). -/
def execWait (g : Guard) (n : WaitSrc) (s : State) : Host.Outcome State Fault Refusal :=
  let now := (s.core (s.coreOf s.focus)).cycle
  s.issue g fun _ gr =>
    match n with
    | .imm k => .ok { gr with waitUntil := some (laterDeadline now (now + k.setWidth 64) gr.waitUntil) }
    | .s r => do
      let r ← gr.sNum r
      gr.ready [] [r] []
      let k := (gr.s r).extractLsb' 0 32
      .ok { gr with waitUntil := some (laterDeadline now (now + k.setWidth 64) gr.waitUntil) }

/-- BKPT stops the group at the following boundary where the hedge has debug enabled, and sends a breakpoint record to the
service core of the slice that owns the group's context; a checked pair sends one (R195). Where the record stands there
is the model's: it is appended to the physical log, with that slice (log 9, DESIGN CHOICE). -/
def execBkpt (g : Guard) (code : BitVec 12) (s : State) : Host.Outcome State Fault Refusal :=
  s.issueS g fun _ t =>
    let gr := t.focus
    if ((t.hedge gr.hedge).map fun h => h.p.debug).getD false then
      let u := { t with focus := { gr with holds := gr.holds ++ [Hold.bkpt] } }
      match gr.role with
      | .trailing _ => .ok u
      | .single | .leading _ =>
        .ok (u.logEvent (.breakpoint (contextSlice gr.hedge) gr.hedge code.toNat (gr.code.text + gr.clauseOff)))
    else .ok t

/-- SETXI #imm (R196). -/
def execSetxi (g : Guard) (imm : Word32) (s : State) : Host.Outcome State Fault Refusal :=
  s.issue g fun _ gr => .ok { gr with xi := imm.extractLsb' 0 16 }

/-- SETXI Sa, #imm (R196). -/
def execSetxiS (g : Guard) (a : Reg) (imm : Word32) (s : State) : Host.Outcome State Fault Refusal :=
  s.issue g fun _ gr => do
    let a ← gr.sNum a
    gr.ready [] [a] []
    .ok { gr with xi := (gr.s a + imm.signExtend 64).extractLsb' 0 16 }

/-- SETXI.ADD #imm (R196). -/
def execSetxiAdd (g : Guard) (imm : Word32) (s : State) : Host.Outcome State Fault Refusal :=
  s.issue g fun _ gr => .ok { gr with xi := gr.xi + imm.extractLsb' 0 16 }

/-! ## RDSR -/

/-- The value of a selector other than LANE (R197). -/
def State.rdsrValue (s : State) (sel : RdsrSel) : Nat :=
  let g := s.focus
  let core := s.coreOf g
  let wg := s.wgOf g.wg
  let lcore := (wg.map (·.lcore)).getD 0
  match sel with
  | .lane => 0
  | .group => g.number
  | .groups => ((s.launch g.hedge g.lseq).map (·.groups)).getD 0
  | .wgid => (wg.map (·.wgid)).getD 0
  | .wgidx => (wg.map (·.index)).getD 0
  | .cx => xOf core
  | .cy => yOf core
  | .die => dieOf core
  | .hedge => g.hedge
  | .lseq => g.lseq
  | .flags | .flagsClr => g.flags.toNat
  | .cycle => (s.core core).cycle.toNat
  | .limbw => (g.limb.map limbWidth).getD 0
  | .lcore => lcore
  | .lrcore =>
    match s.hedge g.hedge, s.launch g.hedge g.lseq with
    | some h, some l => rectNumber l.rect (h.logical lcore)
    | _, _ => 0

/-- The value that RDSR of a selector other than LANE and CYCLE gives a group: what its leading group got where it is the
trailing group of a pair, which waits for it (R169, R171). -/
def State.rdsrShared (s : State) (sel : RdsrSel) : Res Word64 :=
  let own := BitVec.ofNat 64 (s.rdsrValue sel)
  match s.focus.role with
  | .single | .leading _ => .ok own
  | .trailing p =>
    match (s.group p).bind fun x => find1 x.rdsrs s.focus.issued with
    | some x => .ok x
    | none => .error .wait

/-- What a pair keeps of an RDSR: the leading group's value for the trailing group, until that has taken it (R169). -/
def State.rdsrKept (s : State) (x : Word64) : State :=
  match s.focus.role with
  | .single => s
  | .leading _ => { s with focus := { s.focus with rdsrs := s.focus.rdsrs ++ [(s.focus.issued, x)] } }
  | .trailing p => s.mapGroup p fun y => { y with rdsrs := del1 y.rdsrs s.focus.issued }

/-- RDSR (R197). -/
def execRdsr (g : Guard) (sel : RdsrSel) (d : Reg) (s : State) : Host.Outcome State Fault Refusal :=
  s.issueS g fun e t =>
    match sel with
    | .lane => do
      let d ← t.focus.vNum d
      t.focus.ready [d] [] []
      .ok { t with focus := t.focus.setV e d .n32 fun l => BitVec.ofNat 32 l }
    | .cycle => do
      let d ← t.focus.sNum d
      t.focus.ready [] [d] []
      .ok { t with focus := t.focus.setS d (BitVec.ofNat 64 (t.rdsrValue .cycle)) }
    | .flagsClr => do
      let d ← t.focus.sNum d
      t.focus.ready [] [d] []
      let x ← t.rdsrShared .flagsClr
      let u := t.rdsrKept x
      .ok { u with focus := { u.focus with flags := 0 }.setS d x }
    | .group | .groups | .wgid | .wgidx | .cx | .cy | .die | .hedge | .lseq | .flags | .limbw | .lcore | .lrcore => do
      let d ← t.focus.sNum d
      t.focus.ready [] [d] []
      let x ← t.rdsrShared sel
      let u := t.rdsrKept x
      .ok { u with focus := u.focus.setS d x }

end Sys2Proof.Machine
end

