-- ==== Sys2Proof/Machine/Buffer.lean ====
section
/-! DEFINITION. The buffer table, the on-chip windows and the checks of a lane (spec 05 R123 to R132; spec 10 R249,
R250; spec 19 R398; spec 22 R439). -/

namespace Sys2Proof.Machine

/-! ## Buffer entries -/

/-- Fields of a buffer table entry (R123). -/
structure BufEntry where
  vbase : Nat
  len : Nat
  r : Bool
  w : Bool
  x : Bool
  atom : Bool
  cadd : Bool
  remote : Bool
  owner : Nat
  tier : BitVec 3
  iclass : Nat
  pub : Bool
  spec : Bool
  counter : Bool
  fabred : Bool
  bankmv : Bool
  aux : Nat
  deriving DecidableEq, Repr

/-- The bits of word 2 that R123 reserves: 7, 15:14, 23:19, 31:28, 63:37. -/
def entryReserved : Word64 := 0xFFFFFFE0F0F8C080

/-- The entry of four words, or none where the device treats it as invalid (R124, R447). -/
def decodeEntry (feat : BitVec 256) : List Word64 → Option BufEntry
  | [w0, w1, w2, w3] =>
    let len := w1.toNat
    let pub := w2.getLsbD 32
    let spec := w2.getLsbD 33
    let counter := w2.getLsbD 34
    let fabred := w2.getLsbD 35
    let bankmv := w2.getLsbD 36
    let canonical := w0.extractLsb' 57 7 == (if w0.getLsbD 56 then 0x7F#7 else 0#7)
    let two (a b : Bool) : Bool := a && b
    if !w2.getLsbD 0 || w2 &&& entryReserved != 0 || w3.extractLsb' 16 48 != 0 || w0.extractLsb' 0 7 != 0 ||
        !canonical || 2 ^ 56 < w0.toNat % 2 ^ 56 + len || (counter && (pub || spec || fabred || bankmv)) ||
        (counter && (w0.toNat % 8 != 0 || len % 8 != 0)) ||
        (two pub fabred || two pub bankmv || two fabred bankmv) || (w3 != 0 && !(fabred || bankmv)) ||
        (fabred && !feat.getLsbD 6) || (bankmv && !feat.getLsbD 5) || (pub && !feat.getLsbD 11) ||
        (w2.getLsbD 18 && !feat.getLsbD 9) then none
    else some {
      vbase := w0.toNat, len := len, r := w2.getLsbD 1, w := w2.getLsbD 2, x := w2.getLsbD 3, atom := w2.getLsbD 4,
      cadd := w2.getLsbD 5, remote := w2.getLsbD 6, owner := (w2.extractLsb' 8 6).toNat, tier := w2.extractLsb' 16 3,
      iclass := (w2.extractLsb' 24 4).toNat, pub := pub, spec := spec, counter := counter, fabred := fabred,
      bankmv := bankmv, aux := (w3.extractLsb' 0 16).toNat }
  | _ => none

/-- The feature word of a hedge (R447). -/
def Hedge.features (h : Hedge) : BitVec 256 := h.p.features &&& 0x1FFF

/-- A valid entry of the hedge's table (R123, R124). -/
def Hedge.entry (h : Hedge) (i : Nat) : Option BufEntry :=
  if 0xFF0 ≤ i then none else (find1 h.bufs i).bind (decodeEntry h.features)

/-! ## Reduction window descriptors (R439) -/

/-- A reduction window descriptor. -/
structure Window where
  rbuf : Nat
  route : Nat
  sigma : Int
  ty : Nat
  group : Nat
  deriving DecidableEq, Repr

/-- The descriptor of four words, or none where R439 faults BUFIDX. -/
def decodeWindow : List Word64 → Option Window
  | [w0, w1, w2, w3] =>
    let ty := (w0.extractLsb' 45 3).toNat
    let sigma := (w0.extractLsb' 48 8).toInt
    let rbuf := (w1.extractLsb' 32 12).toNat
    let route := (w1.extractLsb' 0 12).toNat
    if w0.extractLsb' 56 8 != 0 || w0.extractLsb' 32 13 != 0 || w1.extractLsb' 44 20 != 0 ||
        w1.extractLsb' 12 20 != 0 || w2 != 0 || w3 != 0 || ty == 0 || ty == 4 || ty == 7 || sigma < -126 ||
        (route != 0 && rbuf == 0) then none
    else some ⟨rbuf, route, sigma, ty, (w0.extractLsb' 0 32).toNat⟩
  | _ => none

/-- A descriptor of the hedge by AUX. -/
def Hedge.window (h : Hedge) (aux : Nat) : Option Window :=
  if 1024 ≤ aux then none else (find1 h.windows aux).bind decodeWindow

/-- Width of a window's words (R439). -/
def Window.bytes (w : Window) : Nat := if w.ty ≤ 3 then 4 else 8

/-- A peer route entry is one that R433 makes valid. -/
def routeOk : List Word64 → Bool
  | [w0, w1, w2, w3] =>
    w0.getLsbD 63 && w0.extractLsb' 48 12 == 0 && w1.extractLsb' 32 26 == 0 && w2.extractLsb' 16 48 == 0 && w3 == 0
  | _ => false

/-- Outgoing counter operations, and watches, that a route allows (R433, R434). -/
def Hedge.routeAllows (h : Hedge) (route : Nat) (watch : Bool) : Bool :=
  route < 4096 &&
    match find1 h.routes route with
    | some e => routeOk e && (e.getD 0 0).getLsbD 62 && (!watch || (e.getD 0 0).getLsbD 61)
    | none => false

/-- The ends of a request over a route (R433, R435). -/
def Hedge.link (h : Hedge) (route : Nat) : PeerLink :=
  let ws := (find1 h.routes route).getD []
  ⟨(ws.getD 0 0).extractLsb' 0 48, ((ws.getD 1 0).extractLsb' 58 6).toNat, h.p.id, h.epoch⟩

/-! ## Rights (R126) -/

/-- What an instruction does to a buffer (R126, R201, R256, R375). -/
inductive Access where
  | load | store | atomic
  | red (add : Bool) (ty : Nat)
  /-- CFL, CINV, PLACE, PIN, UNPIN, MCRD: R or W. -/
  | either
  | copySrc | copyDst | bank
  /-- PFX: no right (R147). -/
  | prefetch
  /-- MLD and MST: LD and ST, without windows 0xFFC and 0xFFD (R240). -/
  | tileLoad | tileStore
  deriving DecidableEq, Repr

/-- The entry lacks the right, or an attribute refuses the access (R126, R256, R246). -/
def BufEntry.refuses (e : BufEntry) : Access → Bool
  | .load | .tileLoad => !e.r || e.bankmv
  | .store | .tileStore => !e.w || e.counter || e.pub || e.fabred
  | .atomic => !e.atom || e.counter || e.pub || e.fabred || e.bankmv
  | .red add _ => !e.atom || e.counter || e.pub || e.bankmv || (e.fabred && !add)
  | .either => !(e.r || e.w)
  | .prefetch => false
  | .copySrc => !e.r || e.counter || e.bankmv
  | .copyDst => !e.w || e.counter || e.fabred
  | .bank => !e.bankmv || !e.r

/-- The access writes (R125, R398). -/
def Access.writes : Access → Bool
  | .store | .atomic | .red _ _ | .copyDst | .tileStore => true
  | .load | .either | .prefetch | .copySrc | .bank | .tileLoad => false

/-- The needs of the access in translation (R334), which names none for PFX, CFL and CINV: PFX asks for R, as the load that it
prepares, and a lane without it does nothing; CFL and CINV ask for none (log 96, DESIGN CHOICE). -/
def Access.need : Access → Need
  | .load | .prefetch | .copySrc | .bank | .tileLoad => needR
  | .either => needNone
  | .store | .copyDst | .tileStore => needW
  | .atomic | .red _ _ => needRW

/-! ## Speculation as an access sees it (R151, R398, R401) -/

/-- An unresolved page of a write set holds a guest virtual address, whatever entry names it; `plain`: a page of a buffer that
has no published frame beside its own (R398, R399, R401). -/
def Hedge.specPage (h : Hedge) (x : Spec) (va : Nat) (plain : Bool) : Bool :=
  x.wset.any fun b => match h.entry b with
    | some e => decide (e.vbase ≤ va) && decide (va < e.vbase + e.len) && !x.done.contains (b, (va - e.vbase) / 4096) &&
        !(plain && e.pub)
    | none => false

/-- Another launch's unresolved write set holds the page of a guest virtual address (R151, R401). -/
def Hedge.otherSpec (h : Hedge) (lseq va : Nat) : Bool :=
  h.launches.any fun l => l.seq != lseq && ((l.spec.filter fun x => !x.resolved).map fun x => h.specPage x va false).getD false

/-! ## Windows -/

/-- What the group's workgroup is. -/
def State.wgOfGroup (s : State) (g : Group) : Option Workgroup := s.wgOf g.wg

/-- The logical core of a number of window 0xFFE: the launch rectangle on a die of the hedge (R129, R381). -/
def Hedge.windowCore (h : Hedge) (l : Launch) (die c : Nat) : Option Nat :=
  let x := l.rect.x0 + c % 2 ^ l.rect.lw
  let y := l.rect.y0 + c / 2 ^ l.rect.lw
  if c < 2 ^ l.rect.lw * 2 ^ l.rect.lh then
    (rectCores h.p.rect).findIdx? fun k => k == coreAt die x y
  else none

/-- The workgroup resident at a position of a logical core, 0 where none is: its lines read as absent (R250). -/
def State.wgAt (s : State) (h lseq lcore pos : Nat) : Nat :=
  ((s.wgs.find? fun w => w.hedge == h && w.lseq == lseq && w.lcore == lcore && w.pos == pos && w.core.isSome).map
    (·.id)).getD 0

/-- One byte of window 0xFFE of a launch on a die, by its 32-bit offset (R129, R250). -/
def State.regionAt (s : State) (hedge lseq die off : Nat) : Option Place := do
  let h ← s.hedge hedge
  let l ← s.launch hedge lseq
  let lc ← h.windowCore l die (off / 2 ^ 22)
  let b := off % 2 ^ 22
  if l.p * l.scr ≤ b || l.scr = 0 then none
  else some (.scratch (s.wgAt hedge lseq lc (b / l.scr)) (b % l.scr))

/-- The logical die of a group's workgroup (R129, R381). -/
def State.windowDie (s : State) (g : Group) : Nat :=
  match s.hedge g.hedge, s.wgOf g.wg with
  | some h, some w => dieOf (h.logical w.lcore)
  | _, _ => 0

/-- One byte of window 0xFFE as a group sees it. -/
def State.regionByte (s : State) (g : Group) (off : Nat) : Option Place :=
  s.regionAt g.hedge g.lseq (s.windowDie g) off

/-- The bytes of an access in a window, or none where BUFBOUND is raised (R127, R129, R131). R129 splits a lane's offset and
does not say what an access does that runs from the last bytes of a full region of 4 MiB into the next core number: the
model splits the offset of each of its bytes, so that it goes on at the next core (log 75, DESIGN CHOICE). -/
def State.windowPlaces (s : State) (g : Group) (idx : Nat) (off : Int) (size : Nat) : Option (List Place) :=
  let o := off.toNat
  if off < 0 then none
  else if idx = 0xFFF then
    let a := ((s.wgOf g.wg).map (·.size)).getD 0
    if o + size ≤ a then some ((List.range size).map fun i => .scratch g.wg (o + i)) else none
  else if idx = 0xFFE then
    if 2 ^ 32 < o + size then none
    else (List.range size).mapM fun i => s.regionByte g (o + i)
  else if idx = 0xFFD then
    if o + size ≤ g.tiles.length * 4096 then some ((List.range size).map fun i => .tile (o + i)) else none
  else
    let k := ((s.hedge g.hedge).map (·.slots.length)).getD 0
    let lc := ((s.wgOf g.wg).map (·.lcore)).getD 0
    if o + size ≤ 256 * k then
      some ((List.range size).map fun i => .ctr (.c1 g.hedge lc ((o + i) / 8)) ((o + i) % 8))
    else none

/-- What a window allows (R127); the other instructions fault BUFRIGHT. -/
def windowAllows (idx : Nat) : Access → Bool
  | .load => true
  | .store => idx != 0xFFC
  | .atomic | .red _ _ | .copySrc | .copyDst | .tileLoad | .tileStore => idx == 0xFFF || idx == 0xFFE
  | .either | .prefetch | .bank => false

/-- Buffer index of an operand, with the S registers that it reads (R125, R128). The record of the BUFIDX that R128 gives
for a nibble below 0xC shows the index that the nibble stands for, 0xFF0 + n: the rule names none (log 74, DESIGN CHOICE). -/
def Group.bufIndex (g : Group) (b : BufSel) : Res (Word64 × List Nat) :=
  match b with
  | .reg s _ => do
    let n ← g.sDirect s
    .ok (g.s n, [n])
  | .window k => .ok (0xFF0#64 ||| k.setWidth 64, [])

/-- The scope of a window form (R127). -/
def windowScope (idx : Nat) : Scope :=
  if idx == 0xFFE then .rect else if idx == 0xFFD then .grp else .core

/-- The scope of an operand. -/
def selScope (b : BufSel) : Scope :=
  match b with
  | .reg _ sc => sc
  | .window k => windowScope (0xFF0 + k.toNat)

/-! ## The check of a lane (R125) -/

/-- A fault of a lane's check. -/
def laneFault (c : FaultCode) (a : Access) (lane : Nat) (va : Nat) (off : Int) (buf : Nat) : Stop :=
  .fault { code := c, lane := some lane, acc := a.need.acc, va := va, off := off, buf := buf }

/-- VBASE + offset, the address of an access that a fault record shows; 0 where no valid entry gives one (R342). -/
def State.bufVa (s : State) (hedge idx : Nat) (off : Int) : Nat :=
  match (s.hedge hedge).bind fun h => h.entry idx with
  | some e => ((e.vbase + off) % 2 ^ 64).toNat
  | none => 0

/-- A translation's fault gets the lane's address, offset and buffer. -/
def atLane (lane : Nat) (va : Nat) (off : Int) (buf : Nat) : Stop → Stop
  | .fault i => .fault { i with lane := some lane, va := va, off := off, buf := buf, byte := some i.va }
  | st => st

/-- The place of a byte of memory by its attributes: at its home only for an NC page and a COUNTER buffer, not in an L1 for
a PUB buffer (R126, R307, R333). -/
def plainPlace (e : BufEntry) (nc : Bool) (pa : Nat) : Place :=
  if nc || e.counter then .home pa else if e.pub then .pub pa else .mem pa

/-- The place of a byte of memory as a group sees it: a page that an unresolved speculative launch of the group may
write is seen through its shadow, whatever entry names it (R398), but a PUB page through the published frame (R399). -/
def Hedge.memPlace (h : Hedge) (sp : Option Spec) (lseq : Nat) (e : BufEntry) (va : Nat) (nc : Bool) (pa : Nat) : Place :=
  match sp with
  | some x => if h.specPage x va true then .spec lseq pa else plainPlace e nc pa
  | none => plainPlace e nc pa

/-- The place that a prefetch asks for: the line of the byte itself, which no cache may hold of an NC page, whatever the
kind of the group's own loads from there (R147, R307, R333). -/
def prefetchPlace (e : BufEntry) (nc : Bool) (pa : Nat) : Place :=
  if nc then .home pa else if e.pub then .pub pa else .mem pa

/-- The descriptor checks of a FABRED entry (R439). -/
def Hedge.fabredOk (h : Hedge) (e : BufEntry) (a : Access) : Except FaultCode Unit :=
  if !e.fabred then .ok ()
  else
    match h.window e.aux with
    | none => .error .bufidx
    | some w =>
      match a with
      | .red _ ty => if ty != w.ty || (w.route != 0 && !h.routeAllows w.route false) then .error .bufright else .ok ()
      | .load | .tileLoad | .copySrc => if w.route != 0 then .error .bufright else .ok ()
      | _ => .ok ()

/-- check(l): the places of the lane's bytes, or its first fault (R125 to R131). -/
def State.checkLane (s : State) (g : Group) (a : Access) (align : Nat) (iw : Word64) (lane : Nat) (off : Int)
    (size : Nat) : Res (List Place) := do
  let idx := iw.toNat
  let va := if idx < 0xFF0 then s.bufVa g.hedge idx off else 0
  let bad (c : FaultCode) : Stop := laneFault c a lane va off (idx % 4096)
  if 0xFFC ≤ idx && idx ≤ 0xFFF then
    match s.windowPlaces g idx off size with
    | none => .error (bad .bufbound)
    | some ps =>
      if off % (align : Int) != 0 then .error (bad .bufbound)
      else if windowAllows idx a then .ok ps
      else .error (bad .bufright)
  else
    match s.hedge g.hedge with
    | none => .error (bad .bufidx)
    | some h =>
      match (if 0x1000 ≤ idx then none else h.entry idx) with
      | none => .error (bad .bufidx)
      | some e =>
        match h.fabredOk e a with
        | .error .bufidx => .error (bad .bufidx)
        | fab =>
          if off < 0 || (e.len : Int) < off + size || off % (align : Int) != 0 then .error (bad .bufbound)
          else if e.owner != g.hedge || e.refuses a || (match fab with | .error _ => true | .ok _ => false) then
            .error (bad .bufright)
          else
            let sp := s.specOf g
            if a.writes && (sp.map fun x => !x.wset.contains idx).getD false then .error (bad .specviol)
            else
              let ps ← (List.range size).mapM fun i =>
                match s.translate (s.coreOf g) g.hedge (va + i) a.need with
                | .ok (pa, nc) =>
                  .ok (if e.fabred then Place.red e.aux (off.toNat + i)
                    else if a == .prefetch then prefetchPlace e nc pa
                    else h.memPlace sp g.lseq e (va + i) nc pa)
                | .error st => .error (atLane lane va off idx st)
              if (List.range size).any fun i => h.otherSpec g.lseq (va + i) then .error .wait
              else .ok ps

/-- The pages of a write that have no speculative shadow yet (R398). -/
def State.newPages (s : State) (g : Group) (ps : List Place) : List Nat :=
  (ps.filterMap fun p => match p with
    | .spec q pa => if (s.shadow g.hedge (some q) (pa / 4096)).isSome then none else some (pa / 4096)
    | _ => none).eraseDups

/-- The shadow quota of a hedge (R266, R398). -/
def State.shadowQuota (s : State) (h : Nat) : Nat := ((s.hedge h).map fun x => x.p.shadowQuota).getD 0

/-- A place in a scratch line that holds an uncorrectable error (R305). -/
def State.badScratch (s : State) (p : Place) : Bool :=
  match p with
  | .scratch w off => ((s.wgOf w).map fun x => x.bad.contains (off / 128)).getD false
  | _ => false

/-- A place in a dirty line of the core's L1 that holds an uncorrectable error (R173). -/
def State.badLine (s : State) (core hedge : Nat) (p : Place) : Bool :=
  match p with
  | .mem pa => (((s.core core).l1Line hedge (pa / 128)).map (·.bad)).getD false
  | _ => false

/-- The fault that consuming the bytes at places raises: UNCORR, then SDC (R139, R305, R340). -/
def State.consumeFault (s : State) (ps : List Place) : Option FaultCode :=
  let as := ps.filterMap placePa
  if as.any s.isBad || ps.any s.badScratch then some .uncorr else if as.any s.isMismatched then some .sdc else none

/-- The leading group of a trailing one has gone past the instruction at issue, which then makes no access of its own
(R170). -/
def State.followed (s : State) (g : Group) : Bool :=
  match g.role with
  | .trailing p => ((s.group p).map fun x => decide (g.issued < x.issued)).getD false
  | .single | .leading _ => false

/-- The first byte of a lane whose write finds the stalled-write window full, beside the lines of lower lanes (R139,
R368). -/
def State.windowStop (s : State) (ps : List Place) (lines : List Nat) : Option Nat :=
  ((List.range ps.length).find? fun i =>
    let before := (ps.take i).filterMap Place.framePa
    ((ps[i]?).bind Place.framePa).any fun pa => !s.windowRoom pa (lines ++ before.map (· / 128)).eraseDups)

/-- UNCORR or SDC of a lane's bytes, which a weak access may find in the core's L1 (R139, R173, R340). A trailing group
takes its values from its leading group's access (R170). -/
def State.laneError (s : State) (g : Group) (strong : Bool) (ps : List Place) : Option FaultCode :=
  if s.followed g then none
  else if !strong && ps.any (s.badLine (s.coreOf g) g.hedge) then some .uncorr
  else s.consumeFault ps

/-- The checks of every lane of E in ascending order; the first fault of the lowest faulting lane decides (R139): the
shadow pages that the instruction would make (R398) and its entries in the stalled-write window (R368) are counted lane by
lane, and UNCORR and SDC come last, where `reads` says that the access reads and whether it is strong. -/
def State.checkLanes (s : State) (g : Group) (a : Access) (reads : Option Bool) (align : Nat) (iw : Word64)
    (off : Nat → Int) (size : Nat) : List Nat → List Nat → List Nat → Res (List (Nat × List Place))
  | [], _, _ => .ok []
  | l :: ls, made, lines => do
    let ps ← s.checkLane g a align iw l (off l) size
    let made' := (made ++ s.newPages g ps).eraseDups
    let va := s.bufVa g.hedge iw.toNat (off l)
    let bad (c : FaultCode) : FaultInfo :=
      { code := c, lane := some l, acc := a.need.acc, va := va, off := off l, buf := iw.toNat % 4096 }
    if a.writes && made'.length != made.length && s.shadowQuota g.hedge < s.shadowsOf g.hedge + made'.length then
      .error (.fault (bad .specviol))
    else
      match (if a.writes then s.windowStop ps lines else none), reads.bind fun b => s.laneError g b ps with
      | some i, _ => .error (.fault { bad .migr with resumable := true, byte := some (va + i) })
      | none, some c => .error (.fault (bad c))
      | none, none =>
        let lines' := if a.writes then (lines ++ (ps.filterMap Place.framePa).map (· / 128)).eraseDups else lines
        let rest ← s.checkLanes g a reads align iw off size ls made' lines'
        .ok ((l, ps) :: rest)

/-- A place whose scratch line is absent (R132). -/
def State.placeAbsent (s : State) : Place → Bool
  | .scratch w off => s.scratchAbsent w off
  | _ => false

/-- The line of a place is one that a held instruction of the group will clear (R170, R261). -/
def Group.clearsPlace (g : Group) : Place → Bool
  | .scratch w off => g.pend.any fun o => o.held && o.clears.contains (w, off / 128)
  | _ => false

/-- The group parks while a touched scratch line is absent (R132). -/
def State.present (s : State) (ps : List Place) : Res Unit :=
  need (s.followed s.focus || !ps.any fun p => s.placeAbsent p || s.focus.clearsPlace p) .presence

/-- The tiles that places touch (R130). -/
def placeTiles (ps : List Place) : List Nat :=
  (ps.filterMap fun p => match p with
    | .tile o => some (o / 4096)
    | _ => none).eraseDups

/-- A tile is targeted by the open batch (R235, R242). -/
def Group.openTarget (g : Group) (t : Nat) : Bool := g.openBatch.tiles.contains t || g.restored.contains t

/-- A tile is targeted by a committed batch that has not retired (R235). -/
def Group.committedTarget (g : Group) (t : Nat) : Bool := g.batches.any fun b => b.tiles.contains t

/-- A store through window 0xFFD on a tile is outstanding in a group of a checked pair, where it reaches the tiles of both
groups once both have issued it (R130, R170). -/
def Group.tileStored (g : Group) (t : Nat) : Bool :=
  g.role != .single && g.pend.any fun o =>
    o.kind == .store && o.accs.any fun x => x.places.any fun p => match p with
      | .tile off => off / 4096 == t
      | _ => false

/-- An operation on a tile is outstanding: MZERO, MLD or MST (R235). R235 orders no access to a tile after an earlier load
or store through window 0xFFD on it: the model lets it pass, but for such stores in a checked pair, whose two groups would
otherwise see them at different places of the program (log 79, DESIGN CHOICE). -/
def Group.tileBusy (g : Group) (t : Nat) : Bool :=
  g.tileStored t || g.pend.any fun o => match o.kind, o.dst with
    | .mzero u, _ => u == t
    | _, .tile u _ => u == t
    | _, _ => false

/-- The hazards of an access through window 0xFFD, judged after every lane has passed (R130, R235). -/
def Group.tileHazard (g : Group) (ps : List Place) : Res Unit := do
  let ts := placeTiles ps
  need (!ts.any g.openTarget) (.plain .acchaz)
  need (!(ts.any g.committedTarget || ts.any g.tileBusy)) .wait

end Sys2Proof.Machine
end

