-- ==== Sys2Proof/Machine/Pend.lean ====
section
/-! DEFINITION. Outstanding operations of a group: issuing them, the order in which they may be performed, performing a
lane's access, and landing results (spec 05 R136 to R141, R149, R150; spec 06 R162, R170, R171; spec 15 R311 to R322). -/

namespace Sys2Proof.Machine

/-! ## Landing results in registers -/

/-- Registers, bytes and tags of a memory format (R136). -/
def memBytes : MemFmt → Nat
  | .f64 => 8
  | .n8 | .i8 => 1
  | .n16 | .i16 => 2
  | .raw | .i32 | .n32 | .f32 | .h2 | .b2 | .e4x4 | .e5x4 | .e2x8 | .i8x4 | .i4x8 => 4

/-- The tag that a load of a format leaves, for .F64 in the low register (R136). -/
def memTag : MemFmt → Tag
  | .raw => .raw
  | .i32 | .i8 | .i16 => .i32
  | .n32 | .n8 | .n16 => .n32
  | .f32 => .f32
  | .f64 => .dLo
  | .h2 => .h2
  | .b2 => .b2
  | .e4x4 => .e4x4
  | .e5x4 => .e5x4
  | .e2x8 => .e2x8
  | .i8x4 => .i8x4
  | .i4x8 => .i4x8

/-- A loaded element widened to a lane word (R136). -/
def memWiden (f : MemFmt) (x : Nat) : Word32 :=
  match f with
  | .i8 => (BitVec.ofNat 8 x).signExtend 32
  | .i16 => (BitVec.ofNat 16 x).signExtend 32
  | _ => BitVec.ofNat 32 x

/-- The tags of the old value of an atomic: low register, high register (R142). -/
def oldTags : AtomTy → Tag × Tag
  | .raw | .b64 => (.raw, .raw)
  | .i32 => (.i32, .i32)
  | .i64 => (.n32, .i32)
  | .n32 | .n64 => (.n32, .n32)
  | .f32 => (.f32, .f32)
  | .f64 => (.dLo, .dHi)

/-- An atomic type takes register pairs (R142). -/
def atomWide : AtomTy → Bool
  | .b64 | .i64 | .n64 | .f64 => true
  | .raw | .i32 | .n32 | .f32 => false

/-- Bytes of an atomic type. -/
def atomBytes (ty : AtomTy) : Nat := if atomWide ty then 8 else 4

/-- Bytes of a scalar format (R86). -/
def scalarBytes : ScalarFmt → Nat
  | .n8 | .i8 => 1
  | .n16 | .i16 => 2
  | .n32 | .i32 => 4
  | .n64 => 8

/-- A loaded scalar extended (R86). -/
def scalarWiden (f : ScalarFmt) (x : Nat) : Word64 :=
  match f with
  | .i8 => (BitVec.ofNat 8 x).signExtend 64
  | .i16 => (BitVec.ofNat 16 x).signExtend 64
  | .i32 => (BitVec.ofNat 32 x).signExtend 64
  | .n8 | .n16 | .n32 | .n64 => BitVec.ofNat 64 x

/-- The bytes of a lane among values by lane, in order. -/
def laneBytes (vals : List (Nat × List Byte)) (l : Nat) : List Byte :=
  (vals.filter fun p => p.1 == l).flatMap (·.2)

/-- Words of a row's bytes. -/
def rowOfBytes (bs : List Byte) : Lanes :=
  Vector.ofFn fun w => BitVec.ofNat 32 (leNat ((bs.drop (4 * w.val)).take 4))

/-- The results of an operation written to its destination in the lanes of its mask (R86, R137, R144, R240). -/
def Group.land (g : Group) (e : Mask) (dst : Dst) (vals : List (Nat × List Byte)) : Group :=
  let x (l : Nat) : Nat := leNat (laneBytes vals l)
  match dst with
  | .none => g
  | .v n f =>
    if f == .f64 then g.setPair e n .dLo .dHi fun l => BitVec.ofNat 64 (x l)
    else g.setV e n (memTag f) fun l => memWiden f (x l)
  | .s n f => g.setS n (scalarWiden f (x (lowest e)))
  | .s64 n => g.setS n (BitVec.ofNat 64 (x 0))
  | .old n ty =>
    if atomWide ty then g.setPair e n (oldTags ty).1 (oldTags ty).2 fun l => BitVec.ofNat 64 (x l)
    else g.setV e n (oldTags ty).1 fun l => BitVec.ofNat 32 (x l)
  | .tile t _ => g.setRows e t fun l => rowOfBytes (laneBytes vals l)
  | .pred p => g.setP e p (if x 0 = 0 then 0 else BitVec.allOnes 32)

/-! ## Issuing -/

/-- A slice, whose accesses are the engine's and not the group's (R260). -/
def Op.isSlice (o : Op) : Bool :=
  match o.kind with
  | .slice _ => true
  | _ => false

/-- The operation makes accesses of the group, which fences order: those of engines, placement and system instructions are
none (R149, R260). -/
def Op.isAccess (o : Op) : Bool :=
  match o.kind with
  | .load | .store | .atom _ _ | .cas _ | .maint _ | .ctr _ _ => true
  | .place _ | .pin | .unpin | .mcrd _ | .quota | .mzero _ | .mvb _ _ _ _ _ _ _ _ | .slice _ | .publ _ _ | .lnch _
  | .sys _ | .resolve _ _ _ _ => false

/-- The identities of what a group still has outstanding. -/
def Group.outstanding (g : Group) : List Nat := g.pend.map (·.id) ++ g.cwaits.map (·.id)

/-- Earlier accesses that a fence orders: for .ACQ loads and the reads of CWAIT, CTEST and CRD, otherwise all; for FENCEE
stores and atomics (R149, R150). -/
def Group.fenceBefore (g : Group) (engine : Bool) (k : FenceKind) : List Nat :=
  let mine := g.pend.filter Op.isAccess
  if engine then (mine.filter (·.writes)).map (·.id)
  else
    match k with
    | .acq => (mine.filter (·.reads)).map (·.id) ++ g.cwaits.map (·.id)
    | .ar | .rel => mine.map (·.id) ++ g.cwaits.map (·.id)

/-- A later operation that a fence orders (R149, R150). -/
def PendingFence.orders (f : PendingFence) (writes engine : Bool) : Bool :=
  if f.engine then engine else
    match f.kind with
    | .rel => writes || engine
    | .acq | .ar => true

/-- The acquire part of a fence: the releases that the group's reads have met, and no acquire has covered yet, are promoted
as the fence's scope asks, the others wait for a wider one, and the scope's copies are discarded (R310, R320, R321). -/
def State.fenceAcquire (s : State) (sc : CtrScope) : State :=
  let g := s.focus
  let t := g.metTags.foldl (fun u p =>
    if promotedAt sc p.2 then
      let v := u.flushHedge p.2.core p.2.hedge
      if find1 v.tags p.1 == some p.2 then { v with tags := del1 v.tags p.1 } else v
    else u) s
  let t := g.metCtrs.foldl (fun u p =>
    if promotedAt sc p.2 then
      let v := u.flushHedge p.2.core p.2.hedge
      if (v.ctr p.1).tag == some p.2 then v.mapCtr p.1 fun c => { c with tag := none } else v
    else u) t
  { t with focus := { t.focus with
      metTags := g.metTags.filter fun p => !promotedAt sc p.2
      metCtrs := g.metCtrs.filter fun p => !promotedAt sc p.2 } }.acquire g sc

/-- The release part of a fence: what stands before it is performed at its scope; where that is narrower than RECT, the
group's later strong stores leave the tag of a release at it (R320, R321; log 71, DEDUCED). -/
def State.fenceRelease (s : State) (sc : Scope) : State :=
  let t := s.release s.focus (sidedScope sc)
  { t with focus := { t.focus with relScope := if narrowScope sc then some sc else none } }

/-- What a fence does once everything before it is performed: the acquire and release parts at its scope; FENCEE makes
the group's stores visible to engine reads (R149, R150, R310). -/
def State.fenceEffect (s : State) (f : PendingFence) : State :=
  if f.engine then s.flushHedge (s.coreOf s.focus) s.focus.hedge
  else
    match f.kind with
    | .rel => s.fenceRelease f.scope
    | .acq => s.fenceAcquire (sidedScope f.scope)
    | .ar => (s.fenceRelease f.scope).fenceAcquire (sidedScope f.scope)

/-- A later operation passes the fences that order it, or waits at issue for what stands before them (R149, R150). -/
def State.passFences (s : State) (writes engine : Bool) : Res State :=
  let mine := s.focus.fences.filter fun f => f.orders writes engine
  if mine.any fun f => f.before.any fun i => s.focus.outstanding.contains i then .error .wait
  else
    let t := mine.foldl State.fenceEffect s
    .ok { t with focus := { t.focus with fences := t.focus.fences.filter fun f => !f.orders writes engine } }

/-- The operation is a memory instruction of rows 1, 8 or 9, or MLD or MST, that has issued and is not held (R140, R154,
R170). -/
def Op.isRequest (o : Op) : Bool :=
  !o.held && match o.kind with
    | .load | .store | .atom _ _ | .cas _ | .maint _ => true
    | _ => false

/-- The memory instructions that a hedge's groups have outstanding on a core (R140, R154; log 19, DEDUCED). -/
def State.requests (s : State) (h core : Nat) : Nat :=
  ((s.groups.filter fun g => g.hedge == h && s.coreOf g == core).map fun g => (g.pend.filter Op.isRequest).length).sum

/-- The hedge's share of outstanding requests has room (R140, R154, R157). -/
def State.requestRoom (s : State) : Bool :=
  match s.hedge s.focus.hedge with
  | some h => decide (s.requests h.p.id (s.coreOf s.focus) < 128 * h.slots.length)
  | none => true

/-- An operation that the instruction at issue leaves outstanding, with nothing of its own yet. -/
def State.newOp (s : State) (cls : OpClass) (kind : OpKind) (e : Mask) : Op := s.focus.freshOp cls kind e

/-- The words of a lane's access that a comparison looks at: lane, address, offset, data (R170). -/
def accWords (x : LaneAcc) : List Word64 :=
  [BitVec.ofNat 64 x.lane, BitVec.ofNat 64 x.va, BitVec.ofInt 64 x.off, BitVec.ofNat 64 (leNat x.data),
    BitVec.ofNat 64 (leNat x.data2)]

/-- An operation as a comparison looks at it: opcode, modifiers and mask, buffer, addresses and data, handles (R170). -/
def Op.words' (o : Op) : List Word64 := o.compared ++ BitVec.ofNat 64 o.buf :: o.accs.flatMap accWords

/-- The loads of a leading group that are outstanding. -/
def Group.loadsOut (g : Group) : Nat := (g.pend.filter fun o => o.cls == .load).length

/-- A leading group's queue has room for one more load-class instruction (R171). -/
def Group.queueRoom (g : Group) : Bool := decide (g.lvq.length + g.loadsOut < 64)

/-- A load, which a leading group performs unheld (R170). -/
def Op.isLoad (o : Op) : Bool :=
  match o.kind with
  | .load | .mcrd _ | .quota => true
  | _ => false

/-- A load of a trailing group takes its results from the pair's queue (R170, R171). -/
def State.takeLoad (s : State) (p : Nat) (lead : Group) (o : Op) : Res State :=
  let g := s.focus
  match lead.lvq.find? fun x => x.id == o.id with
  | some x =>
    match firstDiff [BitVec.ofNat 64 x.off, BitVec.ofNat 64 x.idx, x.emask.setWidth 64]
        [BitVec.ofNat 64 o.off, BitVec.ofNat 64 o.idx, o.emask.setWidth 64] with
    | some (a, b) => .error (.mismatch a b)
    | none =>
      .ok { s.mapGroup p (fun y => { y with lvq := y.lvq.filter fun z => z.id != o.id }) with
            focus := (g.land o.emask o.dst x.values).nextId }
  | none => if lead.nextOp ≤ o.id || lead.pend.any (fun x => x.id == o.id) then .error .wait else .error (.mismatch 0 o.word)

/-- The operation accesses a tile through window 0xFFD. -/
def Op.touchesTile (o : Op) : Bool := !(placeTiles (o.accs.flatMap (·.places))).isEmpty

/-- An operation is left outstanding. A leading group's load needs room in the pair's queue, its other operations are
held, at most 32; a trailing group takes its load from the queue, and its other operations are compared with the leading
group's and release them, a result following through the queue; a store to a tile stays with both until it reaches the tiles of both
(R130, R151, R170, R171, R219). -/
def State.addOp (s : State) (o : Op) : Res State :=
  let g := s.focus
  let push (x : Op) : State := { s with focus := { g.nextId with pend := g.pend ++ [x] } }
  match g.role with
  | .single => .ok (push o)
  | .leading _ =>
    if o.cls == .load && !g.queueRoom then .error .wait
    else if o.isLoad then .ok (push o)
    else if !g.holdRoom then .error .wait
    else .ok (push { o with held := true })
  | .trailing p =>
    match s.group p with
    | none => .error .wait
    | some lead =>
      if o.isLoad then s.takeLoad p lead o
      else
        match lead.heldFor o.id with
        | .error st => .error st
        | .ok none => .error (.mismatch 0 o.word)
        | .ok (some x) =>
          match firstDiff x.words' o.words' with
          | some (a, b) => .error (.mismatch a b)
          | none =>
            let t := if o.cls == .load then push { o with held := true, accs := [] }
              else if o.touchesTile then push { o with held := true }
              else { s with focus := g.nextId }
            .ok (t.mapGroup p fun y => { y with pend := y.pend.map fun z =>
              if z.id == x.id then { z with held := false } else z })

/-! ## Order (R141, R216, R317, R318, R320) -/

/-- The counter of an operation. -/
def Op.ctrRef (o : Op) : Option CtrRef :=
  match o.kind with
  | .ctr k _ => some k
  | _ => none

/-- The byte of storage that a place names: a byte of memory however it is reached, and a class 3 counter's bytes among
them (R201). -/
def Place.byte : Place → Place
  | .home pa | .pub pa | .spec _ pa => .mem pa
  | .ctr (.c3 pa) b => .mem (pa + b)
  | p => p

/-- The bytes that an operation accesses, those of its counter among them. -/
def Op.bytes (o : Op) : List Place :=
  (o.accs.flatMap fun x => x.places.map Place.byte) ++
    match o.ctrRef with
    | some (.here k) => (List.range 8).map fun i => (Place.ctr k i).byte
    | _ => []

/-- Two operations access one byte. -/
def overlaps (a b : Op) : Bool := let bs := b.bytes; a.bytes.any bs.contains

/-- Accesses of one byte always keep program order there: scratch (R315), and counters (R216). -/
def Op.coherent (o : Op) : Bool :=
  o.ctrRef.isSome || o.accs.any fun x => x.places.any fun p => match p with
    | .scratch _ _ | .ctr _ _ => true
    | _ => false

/-- The 32-byte sector of a place, of memory or of a workgroup's scratch (R137, R262). -/
def Place.sector : Place → Option (Option Nat × Nat)
  | .mem pa | .home pa | .pub pa | .spec _ pa => some (none, pa / 32)
  | .scratch w off => some (some w, off / 32)
  | .tile _ | .ctr _ _ | .red _ _ => none

/-- The bytes of memory of an operation. -/
def Op.memory (o : Op) : List Nat := o.bytes.filterMap placePa

/-- Every agent that has accessed a byte, or has an access to it outstanding, is a group or an engine on one die (R318;
log 67, DEDUCED). -/
def State.onlyDie (s : State) (die : Nat) (pas : List Nat) : Bool :=
  (pas.all fun pa => s.seenBy pa &&& ~~~dieAgents die == 0) &&
    s.groups.all fun g => dieOf (s.coreOf g) == die || g.pend.all fun o => let ms := o.memory; pas.all fun pa => !ms.contains pa

/-- Two accesses of a group lie within one die (R318): no agent outside it has accessed their bytes or has an access to
them outstanding, and none will, which is free (log 67, DEDUCED). -/
def State.oneDie (s : State) (g : Group) (a b : Op) : Bool :=
  s.onlyDie (dieOf (s.coreOf g)) (a.memory ++ b.memory) && !Config.touchedLater g.id a.id && !Config.touchedLater g.id b.id

/-- The operation is ordered as a strong one: it is strong, or accesses an NC page (R317, R333). -/
def Op.orderedStrong (o : Op) : Bool := o.strong || o.accs.any fun x => x.places.any fun p => match p with
  | .home _ => true
  | _ => false

/-- A load from a PUB buffer: a group's are performed in program order, whatever their kind (R326). -/
def Op.pubLoad (o : Op) : Bool := o.reads && !o.writes && o.accs.any fun x => x.places.any fun p => match p with
  | .pub _ => true
  | _ => false

/-- An earlier operation must be performed before a later one of its group (R141, R216, R290, R317, R320, R326). RED, which
returns nothing, counts as a store, ATOM and ATOMC as loads too: R317 does not say which a later strong load may pass (log
67, DEDUCED). -/
def State.precedes (s : State) (g : Group) (a b : Op) : Bool :=
  a.acq || (b.rel && a.isAccess) ||
  (overlaps a b && (a.writes || b.writes || a.coherent)) ||
  (a.ctrRef.isSome && a.ctrRef == b.ctrRef) || (a.pubLoad && b.pubLoad) ||
  (a.ctrRef.isNone && b.ctrRef.isNone && a.orderedStrong && b.orderedStrong && a.isAccess && b.isAccess &&
    ((a.reads && b.reads) || (!(a.writes && !a.reads && b.reads && !b.writes) && s.oneDie g a b)))

/-- The operation may be performed now: it is not held, and nothing that must precede it is outstanding. -/
def State.mayPerform (s : State) (g : Group) (o : Op) : Bool :=
  !o.held && (g.pend.takeWhile fun x => x.id != o.id).all fun x => !s.precedes g x o

/-! ## Reading and writing places -/

/-- Where an operation's accesses go through: core, quarter, hedge and kind. -/
structure Via where
  core : Nat
  quarter : Nat
  hedge : Nat
  strong : Bool
  deriving DecidableEq, Repr

/-- The path of a group's accesses; those still outstanding when the group is saved complete at their homes (R347) (log 56, DEDUCED). -/
def State.via (s : State) (g : Group) (strong : Bool) : Via :=
  ⟨s.coreOf g, (g.seat.map (·.quarter)).getD 0, g.hedge, strong || g.seat.isNone⟩

/-- A word of a local reduction window as a load reads it (R440). -/
def windowWord (w : Window) (c : Contribution) : Nat :=
  if w.ty = 3 then
    if c.nan || c.ovf || (c.pinf && c.ninf) then 0x7FC00000
    else if c.pinf then 0x7F800000
    else if c.ninf then 0xFF800000
    else if c.i = 0 then 0
    else (FpFmt.f32.round .rn false c.i.msb c.i.toInt.natAbs (w.sigma - 72)).code
  else c.i.toNat % 2 ^ (8 * w.bytes)

/-- An accumulator that nothing has merged into (R440). -/
def emptyAcc : Contribution := ⟨0, false, false, false, false⟩

/-- The byte at a place, as it is read once caches are ready (R306). -/
def State.placeByte (s : State) (v : Via) (g : Group) (p : Place) : Byte :=
  match p with
  | .mem pa => if v.strong then s.homeRead pa else s.weakByte v.core v.quarter v.hedge pa
  | .home pa | .pub pa => s.homeRead pa
  | .spec q pa => s.specRead v.hedge q pa
  | .scratch w off => s.scratchRead w off
  | .tile off => ((g.tile (off / 4096)).rows.toList.getD (off % 4096 / 128) (Vector.replicate 32 0)).toList.getD
      (off % 128 / 4) 0 |>.extractLsb' (off % 4 * 8) 8
  | .ctr k b => (s.ctrView k g.hedge g.lseq).extractLsb' (8 * b) 8
  | .red aux off =>
    match (s.hedge v.hedge).bind fun h => (h.window aux).map fun w => (h, w) with
    | some (h, w) =>
      (leBytes w.bytes (windowWord w ((find1 h.accs (aux, off / w.bytes)).getD emptyAcc))).getD (off % w.bytes) 0
    | none => 0

/-- How a place is reached through the caches. -/
inductive Path where
  /-- The quarter buffer and the L1. -/
  | cached
  /-- The die L2. -/
  | die
  /-- The home. -/
  | home
  deriving DecidableEq, Repr

/-- The path of a place of memory (R307, R312). -/
def Place.path (strong : Bool) : Place → Option Path
  | .mem _ => some (if strong then .home else .cached)
  | .pub _ => some (if strong then .home else .die)
  | .home _ | .spec _ _ => some .home
  | _ => none

/-- The lines of memory that an access touches, each once, with its path. -/
def accLines (strong : Bool) (ps : List Place) : List (Path × Nat) :=
  (ps.filterMap fun p => match p.path strong, placePa p with
    | some k, some pa => some (k, pa / 128)
    | _, _ => none).eraseDups

/-- A line is made ready for an access: a weak load brings it into the buffer and the L1; one performed at the home, or
read through the die L2 alone, first has the core's own dirty bytes written back, which it must not miss, and one at the
home is counted there (R141, R307, R312, R365). -/
def State.prepareLine (s : State) (v : Via) (rd wr : Bool) (k : Path) (n : Nat) : State :=
  match k with
  | .cached => if rd then s.touchLine v.core v.quarter v.hedge n else s
  | .die => (s.flushLine v.core v.hedge (n * 128)).readL2 (dieOf v.core) v.hedge (n * 128)
  | .home => (s.flushLine v.core v.hedge (n * 128)).homeAccess v.hedge (n * 128) rd wr

/-- The lines of an access are made ready, and its bytes have been accessed from the core's die (R318). -/
def State.prepare (s : State) (v : Via) (rd wr : Bool) (ps : List Place) : State :=
  ((accLines v.strong ps).foldl (fun t x => t.prepareLine v rd wr x.1 x.2) s).see (dieAgents (dieOf v.core))
    (ps.filterMap placePa)

/-- One byte of a tile written (R130). -/
def Group.setTileByte (g : Group) (off : Nat) (b : Byte) : Group :=
  let t := off / 4096
  let row := off % 4096 / 128
  let w := off % 128 / 4
  let sh := off % 4 * 8
  g.setRows (1#32 <<< row) t fun l =>
    let old := (g.tile t).rows.toList.getD l (Vector.replicate 32 0)
    Vector.ofFn fun i => if i.val = w then (old[i] &&& ~~~(0xFF#32 <<< sh)) ||| (b.setWidth 32 <<< sh) else old[i]

/-- A group, and in a checked pair its partner too. -/
def State.mapPair (s : State) (gid : Nat) (f : Group → Group) : State :=
  match (s.group gid).bind Group.partner with
  | some p => (s.mapGroup gid f).mapGroup p f
  | none => s.mapGroup gid f

/-- A byte stored at a place (R306, R398): weak stores to the L1, strong ones to the home, after which the core's own
copy of the line is dropped (R141); a store to a tile reaches the tiles of both groups of a checked pair (R130, R170). -/
def State.storeByte (s : State) (v : Via) (gid : Nat) (p : Place) (b : Byte) : State :=
  match p with
  | .mem pa =>
    if v.strong then (s.homeWrite pa b).dropOwnLine v.core v.hedge pa else s.weakWrite v.core v.quarter v.hedge pa b
  | .home pa => (s.homeWrite pa b).dropOwnLine v.core v.hedge pa
  | .pub pa => s.homeWrite pa b
  | .spec q pa => s.shadowWrite v.hedge (some q) pa b
  | .scratch w off => s.scratchWrite w off b
  | .tile off => s.mapPair gid fun g => g.setTileByte off b
  | .ctr _ _ | .red _ _ => s

/-- The bytes of an access stored in ascending order. -/
def State.storeBytes (s : State) (v : Via) (gid : Nat) (ps : List Place) (bs : List Byte) : State :=
  (ps.zip bs).foldl (fun t x => t.storeByte v gid x.1 x.2) s

/-- A place's home is in COPY, so that a store is accepted by the stalled-write window (R368). -/
def State.placeInCopy (s : State) (p : Place) : Bool :=
  match p with
  | .mem pa | .home pa | .pub pa => s.inCopy pa
  | _ => false

/-- The line that a write at a place enters in the interval log: of memory, or of a layer's shadow frame (R405). -/
def Place.logged : Place → Option (Option (Option Nat) × Nat)
  | .mem pa | .home pa | .pub pa => some (none, pa)
  | .spec q pa => some (some (some q), pa)
  | .scratch _ _ | .tile _ | .ctr _ _ | .red _ _ => none

/-- The home can take a write of the places now: the interval log and the window have room (R368, R405). -/
def State.placesRoom (s : State) (strong : Bool) (ps : List Place) : Bool :=
  s.logFits (ps.filterMap Place.logged) && ps.all fun p => match p with
    | .mem pa => !strong || s.windowRoom pa
    | .home pa | .pub pa => s.windowRoom pa
    | _ => true

/-- A write that finds the interval log full waits at its home and asks for a snapshot (R405). -/
def State.askRoom (s : State) (ps : List Place) : State :=
  let ws := ps.filterMap Place.logged
  if s.logFits ws then s
  else
    match (ws.head?).bind fun w => (s.frame (frameOf w.2)).owner with
    | some h => s.wantSnap h
    | none => s

/-- The next write of an outstanding operation waits at its home for room in the interval log (R405). -/
def State.logBlocked (s : State) (o : Op) : Bool :=
  match o.kind with
  | .ctr (.here (.c3 a)) _ => !s.logRoom a
  | _ => o.writes && ((o.accs.head?).map fun x => !s.logFits (x.places.filterMap Place.logged)).getD false

/-- A write of which some lanes have written a sector of the places, and others have yet to: an engine reads a sector whole,
before the write or after it (R236, R262, R286). -/
def State.torn (s : State) (ps : List Place) : Bool :=
  let ks := (ps.filterMap Place.sector).eraseDups
  s.groups.any fun g => g.pend.any fun o => o.wrote.any fun k =>
    ks.contains k && o.accs.any fun x => x.places.any fun p => p.sector == some k

end Sys2Proof.Machine
end

