-- ==== Sys2Proof/Machine/Mem.lean ====
section
/-! DEFINITION. Rows 8 and 9, the scalar loads and stores of row 1, and the placement instructions: their issue, and
the performing of one access at its home (spec 03 R86 to R89; spec 05 R135 to R150; spec 18 R375 to R378; spec 22
R440). -/

namespace Sys2Proof.Machine

/-! ## Offsets and operands -/

/-- The offset forms of R135. -/
inductive OffKind where
  | v (a : Reg)
  | wide (a : Reg)
  | sp (a : BitVec 7)
  deriving DecidableEq, Repr

/-- Lane offsets with the sources that they read (R135, R137): exact, signed. -/
def Group.memOff (g : Group) (k : OffKind) (off size : Int) : Res ((Nat → Int) × Sources × List Nat) := do
  match k with
  | .v a =>
    let n ← g.vNum a
    .ok (fun l => ((g.lane n l).toNat : Int) + off * size, [(n, .int)], [])
  | .wide a =>
    let n ← g.vNum a 2
    .ok (fun l => ((g.pair n l).toNat : Int) + off * size, [(n, .int), (n + 1, .int)], [])
  | .sp a =>
    let n ← g.sDirect a
    .ok (fun l => (g.s n).toInt + l * size + off * size, [], [n])

/-- What a memory instruction asks for once its registers are resolved. -/
structure MemReq where
  cls : OpClass
  kind : OpKind
  acc : Access
  align : Nat
  iw : Word64
  off : Nat → Int
  size : Nat
  lanes : List Nat
  data : Nat → List Byte
  data2 : Nat → List Byte
  dst : Dst
  reads : Bool
  writes : Bool
  ord : MemOrd
  scope : Scope

/-- The accesses of a lane: one single-copy atomic access where the offset is a multiple of the size, otherwise byte by
byte (R138). -/
def laneAccs (r : MemReq) (va : Nat) (l : Nat) (ps : List Place) : List LaneAcc :=
  if r.off l % (r.size : Int) = 0 then [⟨l, ps, r.data l, r.data2 l, va, r.off l⟩]
  else ps.zipIdx.map fun p => ⟨l, [p.1], ((r.data l).drop p.2).take 1, ((r.data2 l).drop p.2).take 1, va, r.off l⟩

/-- Order codes (R133, R142). -/
def isAcq (o : MemOrd) : Bool := o == .acq || o == .ar
/-- Order codes (R133, R142). -/
def isRel (o : MemOrd) : Bool := o == .rel || o == .ar

/-- A load that is strong whatever its order: of a COUNTER word, and through window 0xFFC (R126, R323). -/
def State.strongLoad (s : State) (g : Group) (iw : Word64) : Bool :=
  iw.toNat == 0xFFC || ((((s.hedge g.hedge).bind fun h => h.entry iw.toNat).map (·.counter)).getD false)

/-- A byte of a word of a reduction window. -/
def Place.isRed : Place → Bool
  | .red _ _ => true
  | _ => false

/-- The access is strong: by its order, or as a load of a COUNTER word or through window 0xFFC is (R126, R133, R323). -/
def MemReq.strong (r : MemReq) (s : State) (g : Group) : Bool := r.ord != .weak || s.strongLoad g r.iw

/-- The checks of the lanes of a request (R125, R139). -/
def MemReq.check (r : MemReq) (s : State) (g : Group) : Res (List (Nat × List Place)) :=
  s.checkLanes g r.acc (if r.reads then some (r.strong s g) else none) r.align r.iw r.off r.size r.lanes [] []

/-- The scope of a request: a RED on a reduction window is of scope SYS (R441). -/
def MemReq.scopeOf (r : MemReq) (ps : List Place) : CtrScope := if ps.any Place.isRed then .sys else sidedScope r.scope

/-- The issue of a memory instruction: the checks of every lane, the tile hazard, presence, and then the operation is
outstanding (R125, R130, R132, R139, R140). A load of a COUNTER word or through window 0xFFC acquires nothing, and a RED on
a reduction window is of scope SYS (R323, R441). -/
def State.memOp (s : State) (e : Mask) (r : MemReq) : Res State := do
  let g := s.focus
  let chk ← r.check s g
  let ps := chk.flatMap (·.2)
  g.tileHazard ps
  s.present ps
  need s.requestRoom .wait
  let t ← s.passFences r.writes false
  let va (l : Nat) : Nat := if r.iw.toNat < 0xFF0 then s.bufVa g.hedge r.iw.toNat (r.off l) else 0
  t.addOp { s.newOp r.cls r.kind e with
    dst := r.dst, reads := r.reads, writes := r.writes, strong := r.strong s g
    acq := isAcq r.ord && !s.strongLoad g r.iw, rel := isRel r.ord, scope := r.scopeOf ps
    accs := chk.flatMap fun p => laneAccs r (va p.1) p.1 p.2
    buf := r.iw.toNat % 4096 }

/-- No bytes. -/
def noData : Nat → List Byte := fun _ => []

/-! ## Vector loads and stores -/

/-- LD, LDX and LDSP (R137). -/
def State.vload (s : State) (gd : Guard) (f : MemFmt) (ord : MemOrd) (buf : BufSel) (off : BitVec 14) (k : OffKind)
    (d : Reg) : Host.Outcome State Fault Refusal :=
  s.issueS gd fun e t => do
    let g := t.focus
    let n ← g.vNum d (if f == .f64 then 2 else 1)
    let (offs, srcs, ss) ← g.memOff k off.toInt (memBytes f)
    let (iw, bs) ← g.bufIndex buf
    g.check srcs (Dst.v n f).vs (ss ++ bs)
    t.memOp e ⟨.load, .load, .load, 1, iw, offs, memBytes f, lanesOf e, noData, noData, .v n f, true, false, ord,
      selScope buf⟩

/-- What a store expects of its data register (R136). -/
def storeSources (f : MemFmt) (n : Nat) : Sources :=
  match f with
  | .raw => [(n, .any)]
  | .i32 => [(n, .i32)]
  | .n32 => [(n, .n32)]
  | .f32 => [(n, .f32)]
  | .f64 => pairSrc n
  | .h2 => [(n, .h2)]
  | .b2 => [(n, .b2)]
  | .e4x4 => [(n, .e4x4)]
  | .e5x4 => [(n, .e5x4)]
  | .e2x8 => [(n, .e2x8)]
  | .i8x4 => [(n, .i8x4)]
  | .i4x8 => [(n, .i4x8)]
  | .n8 | .i8 | .n16 | .i16 => [(n, .int)]

/-- The value of a lane as 64 bits: the pair for formats of eight bytes. -/
def Group.wideLane (g : Group) (wide : Bool) (n l : Nat) : Nat :=
  if wide then (g.pair n l).toNat else (g.lane n l).toNat

/-- ST, STX and STSP (R137). -/
def State.vstore (s : State) (gd : Guard) (f : MemFmt) (ord : MemOrd) (buf : BufSel) (off : BitVec 14) (k : OffKind)
    (d : Reg) : Host.Outcome State Fault Refusal :=
  s.issueS gd fun e t => do
    let g := t.focus
    let n ← g.vNum d (if f == .f64 then 2 else 1)
    let (offs, srcs, ss) ← g.memOff k off.toInt (memBytes f)
    let (iw, bs) ← g.bufIndex buf
    g.check (storeSources f n ++ srcs) [] (ss ++ bs)
    let data (l : Nat) : List Byte := leBytes (memBytes f) (g.wideLane (f == .f64) n l)
    t.memOp e ⟨.store, .store, .store, 1, iw, offs, memBytes f, lanesOf e, data, noData, .none, false, true, ord,
      selScope buf⟩

/-- LD (R137). -/
def execLd (g : Guard) (f : MemFmt) (m : MemArg) (d : Reg) (s : State) : Host.Outcome State Fault Refusal :=
  s.vload g f m.ord m.buf m.off (.v m.a) d
/-- ST (R137). -/
def execSt (g : Guard) (f : MemFmt) (m : MemArg) (d : Reg) (s : State) : Host.Outcome State Fault Refusal :=
  s.vstore g f m.ord m.buf m.off (.v m.a) d
/-- LDX (R137). -/
def execLdx (g : Guard) (f : MemFmt) (m : MemArg) (d : Reg) (s : State) : Host.Outcome State Fault Refusal :=
  s.vload g f m.ord m.buf m.off (.wide m.a) d
/-- STX (R137). -/
def execStx (g : Guard) (f : MemFmt) (m : MemArg) (d : Reg) (s : State) : Host.Outcome State Fault Refusal :=
  s.vstore g f m.ord m.buf m.off (.wide m.a) d
/-- LDSP (R137). -/
def execLdsp (g : Guard) (f : MemFmt) (m : SpArg) (d : Reg) (s : State) : Host.Outcome State Fault Refusal :=
  s.vload g f m.ord m.buf m.off (.sp m.a) d
/-- STSP (R137). -/
def execStsp (g : Guard) (f : MemFmt) (m : SpArg) (d : Reg) (s : State) : Host.Outcome State Fault Refusal :=
  s.vstore g f m.ord m.buf m.off (.sp m.a) d

/-! ## Scalar loads and stores -/

/-- The last operation of the group in focus with its accesses changed. -/
def Group.mapLast (g : Group) (i : Nat) (f : Op → Op) : Group :=
  { g with pend := g.pend.map fun o => if o.id == i then f o else o }

/-- A scalar access: one access of the width at S[A] + OFF × bytes. It is uniform, and stands under the lowest lane of E,
which its fault record then shows (R87, R342; log 74, DESIGN CHOICE). -/
def State.scalarOp (s : State) (e : Mask) (f : ScalarFmt) (m : MemArg) (store : Option Word64) (dst : Dst) (a : Nat)
    (iw : Word64) : Res State :=
  let size := scalarBytes f
  let off := (s.focus.s a + BitVec.ofInt 64 (m.off.toInt * size)).toInt
  s.memOp e ⟨if store.isSome then .store else .load, if store.isSome then .store else .load,
    if store.isSome then .store else .load, 1, iw, fun _ => off, size, [lowest e],
    fun _ => (store.map fun x => leBytes size x.toNat).getD [], noData, dst, store.isNone, store.isSome, m.ord,
    selScope m.buf⟩

/-- SLD (R87). -/
def execSld (g : Guard) (f : ScalarFmt) (m : MemArg) (d : Reg) (s : State) : Host.Outcome State Fault Refusal :=
  s.issueS g fun e t => do
    let n ← t.focus.sNum d
    let a ← t.focus.sNum m.a
    let (iw, bs) ← t.focus.bufIndex m.buf
    t.focus.ready [] ([n, a] ++ bs) []
    t.scalarOp e f m none (.s n f) a iw

/-- SST (R87). -/
def execSst (g : Guard) (f : ScalarFmt) (m : MemArg) (d : Reg) (s : State) : Host.Outcome State Fault Refusal :=
  s.issueS g fun e t => do
    let n ← t.focus.sNum d
    let a ← t.focus.sNum m.a
    let (iw, bs) ← t.focus.bufIndex m.buf
    t.focus.ready [] ([n, a] ++ bs) []
    t.scalarOp e f m (some (t.focus.s n)) .none a iw

/-- SLDK: an 8-byte word of the const section. In its fault records OFFSET counts from the start of that section and BUF is
the buffer of the code object, and a BUFBOUND shows VADDR 0, since no word is addressed: the rules name no offset, buffer
or address for it (R89, R342; log 74, DESIGN CHOICE). -/
def execSldk (g : Guard) (d a : Reg) (imm : Word32) (s : State) : Host.Outcome State Fault Refusal :=
  s.issueS g fun e t => do
    let gr := t.focus
    let n ← gr.sNum d
    let a ← gr.sNum a
    gr.ready [] [n, a] []
    let i := (gr.s a).toNat + imm.toNat
    if gr.code.clen / 8 ≤ i then
      .error (.fault { code := .bufbound, off := (8 * i : Nat), buf := gr.code.buf })
    else
      let ps ← (List.range 8).mapM fun k =>
        match t.translate (t.coreOf gr) gr.hedge ((gr.code.const + 8 * i + k) % 2 ^ 64) needR with
        | .ok (pa, nc) => .ok (if nc then Place.home pa else .mem pa)
        | .error st => .error (atLane (lowest e) (gr.code.const + 8 * i + k) (8 * i : Nat) gr.code.buf st)
      need t.requestRoom .wait
      let u ← t.passFences false false
      u.addOp { t.newOp .load .load e with
        dst := .s n .n64, reads := true
        accs := [⟨lowest e, ps, [], [], (gr.code.const + 8 * i) % 2 ^ 64, (8 * i : Nat)⟩], buf := gr.code.buf }

/-! ## Atomics and reductions -/

/-- The operand of an atomic type (R142). -/
def atomSources (ty : AtomTy) (n : Nat) : Sources :=
  match ty with
  | .raw => [(n, .any)]
  | .b64 => [(n, .any), (n + 1, .any)]
  | .i32 => [(n, .i32)]
  | .i64 => [(n, .int), (n + 1, .i32)]
  | .n32 => [(n, .n32)]
  | .n64 => [(n, .int), (n + 1, .n32)]
  | .f32 => [(n, .f32)]
  | .f64 => pairSrc n

/-- TYPE of a reduction window for an atomic type; 0 for the types that no window has (R439). -/
def windowType : AtomTy → Nat
  | .i32 => 1
  | .n32 => 2
  | .f32 => 3
  | .i64 => 5
  | .n64 => 6
  | .raw | .b64 | .f64 => 0

/-- ATOM (R144). -/
def execAtom (g : Guard) (op : AtomOp) (ty : AtomTy) (m : AtomArg) (d : Reg) (s : State) :
    Host.Outcome State Fault Refusal :=
  s.issueS g fun e t => do
    let gr := t.focus
    let w := atomWide ty
    let n ← gr.vNum d (if w then 2 else 1)
    let size := atomBytes ty
    let (offs, srcs, _) ← gr.memOff (.v m.a) m.aoff.toInt size
    let (iw, bs) ← gr.bufIndex m.buf
    gr.check (atomSources ty n ++ srcs) (Dst.old n ty).vs bs
    t.memOp e ⟨.load, .atom op ty, .atomic, size, iw, offs, size, lanesOf e,
      fun l => leBytes size (gr.wideLane w n l), noData, .old n ty, true, true,
      if m.ord == .weak then .rlx else m.ord, selScope m.buf⟩

/-- ATOMC: comparand in D, new value above it (R145). -/
def execAtomc (g : Guard) (ty : AtomTy) (m : AtomArg) (d : Reg) (s : State) : Host.Outcome State Fault Refusal :=
  s.issueS g fun e t => do
    let gr := t.focus
    let w := atomWide ty
    let k := if w then 2 else 1
    let n ← gr.vNum d (2 * k)
    let size := atomBytes ty
    let (offs, srcs, _) ← gr.memOff (.v m.a) m.aoff.toInt size
    let (iw, bs) ← gr.bufIndex m.buf
    gr.check (atomSources ty n ++ atomSources ty (n + k) ++ srcs) (Dst.old n ty).vs bs
    t.memOp e ⟨.load, .cas ty, .atomic, size, iw, offs, size, lanesOf e,
      fun l => leBytes size (gr.wideLane w n l), fun l => leBytes size (gr.wideLane w (n + k) l), .old n ty, true, true,
      if m.ord == .weak then .rlx else m.ord, selScope m.buf⟩

/-- RED (R146). -/
def execRed (g : Guard) (op : AtomOp) (ty : AtomTy) (m : AtomArg) (d : Reg) (s : State) :
    Host.Outcome State Fault Refusal :=
  s.issueS g fun e t => do
    let gr := t.focus
    let w := atomWide ty
    let n ← gr.vNum d (if w then 2 else 1)
    let size := atomBytes ty
    let (offs, srcs, _) ← gr.memOff (.v m.a) m.aoff.toInt size
    let (iw, bs) ← gr.bufIndex m.buf
    gr.check (atomSources ty n ++ srcs) [] bs
    t.memOp e ⟨.store, .atom op ty, .red (op == .add) (windowType ty), size, iw, offs, size, lanesOf e,
      fun l => leBytes size (gr.wideLane w n l), noData, .none, false, true,
      if m.ord == .weak then .rlx else m.ord, selScope m.buf⟩

/-! ## Hints, cache maintenance and fences -/

/-- The index word names a window (R127). -/
def isWindow (iw : Word64) : Bool := decide (0xFFC ≤ iw.toNat) && decide (iw.toNat ≤ 0xFFF)

/-- The lines that PFX brings in: a lane that would fault, or whose page is not mapped, is skipped; a translation that is
not cached is walked for (R147). -/
def State.prefetchLanes (s : State) (g : Group) (iw : Word64) (off : Nat → Int) (size : Nat) :
    List Nat → Res (List Place)
  | [] => .ok []
  | l :: ls => do
    let ps ← match s.checkLane g .prefetch 1 iw l (off l) size with
      | .ok ps => .ok ps
      | .error (.walk h c p) => .error (.walk h c p)
      | .error _ => .ok []
    let r ← s.prefetchLanes g iw off size ls
    .ok (ps ++ r)

/-- The failed walks of the group's hedge on its core have been answered to it (R337). -/
def State.dropAnswers (s : State) (g : Group) : State :=
  { s with walks := s.walks.filter fun w => !(w.hedge == g.hedge && w.core == s.coreOf g && w.answer.isSome) }

/-- PFX brings lines into the die L2 and the L1, one that the L1 holds already into the die L2 too, and a PUB buffer's into
the die L2 alone (R147, R307). -/
def execPfx (g : Guard) (f : MemFmt) (b : BitVec 7) (off : BitVec 14) (a : Reg) (s : State) :
    Host.Outcome State Fault Refusal :=
  s.issueS g fun e t => do
    let gr := t.focus
    let (offs, srcs, ss) ← gr.memOff (.v a) off.toInt (memBytes f)
    let (iw, bs) ← gr.bufIndex (.reg b .grp)
    gr.check srcs [] (ss ++ bs)
    if isWindow iw then .ok t
    else
      need t.requestRoom .wait
      let ps ← t.prefetchLanes gr iw offs (memBytes f) (lanesOf e)
      let c := t.coreOf gr
      .ok ((accLines false ps).foldl (fun u x => match x.1 with
        | .cached => (u.readL2 (dieOf c) gr.hedge (x.2 * 128)).l1Bring c gr.hedge x.2
        | .die => u.readL2 (dieOf c) gr.hedge (x.2 * 128)
        | .home => u) (t.dropAnswers gr))

/-- The lanes of CFL and CINV: BUFIDX, BUFBOUND and BUFRIGHT fault, a lane whose page is not mapped is skipped (R148). -/
def State.maintLanes (s : State) (g : Group) (iw : Word64) (off : Nat → Int) (size : Nat) :
    List Nat → Res (List (Nat × List Place))
  | [] => .ok []
  | l :: ls => do
    let rest (ps : List (Nat × List Place)) : Res (List (Nat × List Place)) := do
      let r ← s.maintLanes g iw off size ls
      .ok (ps ++ r)
    match s.checkLane g .either 1 iw l (off l) size with
    | .ok ps => rest [(l, ps)]
    | .error (.fault i) => if i.code == .xlat || i.code == .migr then rest [] else .error (.fault i)
    | .error st => .error st

/-- CFL and CINV (R148). -/
def State.maint (s : State) (gd : Guard) (inv : Bool) (f : MemFmt) (sc : Scope) (b : BitVec 7) (off : BitVec 14)
    (a : Reg) : Host.Outcome State Fault Refusal :=
  s.issueS gd fun e t => do
    let gr := t.focus
    let (offs, srcs, ss) ← gr.memOff (.v a) off.toInt (memBytes f)
    let (iw, bs) ← gr.bufIndex (.reg b sc)
    gr.check srcs [] (ss ++ bs)
    if isWindow iw then .ok t
    else
      let chk ← t.maintLanes gr iw offs (memBytes f) (lanesOf e)
      need t.requestRoom .wait
      let u ← t.passFences true false
      let va (l : Nat) : Nat := t.bufVa gr.hedge iw.toNat (offs l)
      (u.dropAnswers gr).addOp { t.newOp .store (.maint inv) e with
        scope := sidedScope sc, accs := chk.map fun p => ⟨p.1, p.2, [], [], va p.1, offs p.1⟩, buf := iw.toNat % 4096 }

/-- CFL (R148). -/
def execCfl (g : Guard) (f : MemFmt) (scope : Scope) (b : BitVec 7) (off : BitVec 14) (a : Reg) (s : State) :
    Host.Outcome State Fault Refusal := s.maint g false f scope b off a
/-- CINV (R148). -/
def execCinv (g : Guard) (f : MemFmt) (scope : Scope) (b : BitVec 7) (off : BitVec 14) (a : Reg) (s : State) :
    Host.Outcome State Fault Refusal := s.maint g true f scope b off a

/-- FENCE (R149). -/
def execFence (g : Guard) (k : FenceKind) (scope : Scope) (s : State) : Host.Outcome State Fault Refusal :=
  s.issue g fun _ gr => .ok { gr with fences := gr.fences ++ [⟨false, k, scope, gr.fenceBefore false k⟩] }

/-- FENCEE (R150). -/
def execFencee (g : Guard) (s : State) : Host.Outcome State Fault Refusal :=
  s.issue g fun _ gr => .ok { gr with fences := gr.fences ++ [⟨true, .ar, .sys, gr.fenceBefore true .ar⟩] }

/-! ## Placement (R375 to R378) -/

/-- The physical address of a byte of a buffer that has passed its checks (R376, R378). -/
def State.pageOf (s : State) (g : Group) (iw : Word64) (off : Int) : Res Nat :=
  match s.translate (s.coreOf g) g.hedge (s.bufVa g.hedge iw.toNat off) needNone with
  | .ok (pa, _) => .ok pa
  | .error st => .error st

/-- PLACE, PIN and UNPIN: the checks of every lane, then one operation that the homes record (R376). On a window they
do nothing. -/
def State.placement (s : State) (gd : Guard) (kind : OpKind) (buf : BufSel) (off : BitVec 14) (a : Reg) :
    Host.Outcome State Fault Refusal :=
  s.issueS gd fun e t => do
    let gr := t.focus
    let (offs, srcs, ss) ← gr.memOff (.v a) off.toInt 1
    let (iw, bs) ← gr.bufIndex buf
    gr.check srcs [] (ss ++ bs)
    if isWindow iw then .ok t
    else
      let _ ← t.checkLanes gr .either none 1 iw offs 1 (lanesOf e) [] []
      let pas ← (lanesOf e).mapM fun l => t.pageOf gr iw (offs l)
      need t.requestRoom .wait
      t.addOp { t.newOp .store kind e with
        accs := [⟨0, (pas.map fun pa => Place.home (frameOf pa * 65536)).eraseDups, [], [], 0, 0⟩], buf := iw.toNat % 4096
        words := (lanesOf e).map fun l => BitVec.ofInt 64 (offs l) }

/-- PLACE (R376). -/
def execPlace (g : Guard) (tier : Tier) (buf : BufSel) (off : BitVec 14) (a : Reg) (s : State) :
    Host.Outcome State Fault Refusal := s.placement g (.place tier) buf off a
/-- PIN (R376). -/
def execPin (g : Guard) (buf : BufSel) (off : BitVec 14) (a : Reg) (s : State) : Host.Outcome State Fault Refusal :=
  s.placement g .pin buf off a
/-- UNPIN (R376). -/
def execUnpin (g : Guard) (buf : BufSel) (off : BitVec 14) (a : Reg) (s : State) : Host.Outcome State Fault Refusal :=
  s.placement g .unpin buf off a

/-- MCRD.PAGE (R378). -/
def execMcrdPage (g : Guard) (d a b : Reg) (s : State) : Host.Outcome State Fault Refusal :=
  s.issueS g fun e t => do
    let gr := t.focus
    let n ← gr.sNum d
    let a ← gr.sNum a
    let b ← gr.sNum b
    gr.ready [] [n, a, b] []
    let _ ← t.checkLane gr .either 1 (gr.s a) (lowest e) (gr.s b).toInt 1
    let pa ← t.pageOf gr (gr.s a) (gr.s b).toInt
    need t.requestRoom .wait
    t.addOp { t.newOp .load (.mcrd pa) e with dst := .s64 n, reads := true, buf := (gr.s a).toNat % 4096 }

/-- MCRD.QUOTA (R378). -/
def execMcrdQuota (g : Guard) (d : Reg) (s : State) : Host.Outcome State Fault Refusal :=
  s.issueS g fun e t => do
    let n ← t.focus.sNum d
    t.focus.ready [] [n] []
    need t.requestRoom .wait
    t.addOp { t.newOp .load .quota e with dst := .s64 n, reads := true }

/-! ## Performing one access -/

/-- The new memory value of an atomic (R143). -/
def atomNew (op : AtomOp) (ty : AtomTy) (m v : Nat) : Nat :=
  let w := 8 * atomBytes ty
  let signed := ty == .i32 || ty == .i64
  let read (x : Nat) : Int := readInt (!signed) (BitVec.ofNat w x)
  let fmt : FpFmt := if ty == .f64 then .f64 else .f32
  let isF := ty == .f32 || ty == .f64
  match op with
  | .swap => v
  | .add => if isF then (fmt.add .rn (fmt.value m) (fmt.value v)).code else (m + v) % 2 ^ w
  | .and => m &&& v
  | .or => m ||| v
  | .xor => m ^^^ v
  | .min => if isF then (fmt.minMax false m v).code else if read v < read m then v else m
  | .max => if isF then (fmt.minMax true m v).code else if read m < read v then v else m

/-- fx96(x, σ) of a finite value (R51). -/
def fx96 (x : FVal) (sigma : Int) : BitVec 96 :=
  match x with
  | .fin n m e =>
    let r := (roundTo .rn n m e (sigma - 72)).1
    BitVec.ofInt 96 (signedInt n r)
  | _ => 0

/-- |x| ≥ 2^(σ+23) for a finite value (R440). -/
def beyondFx (x : FVal) (sigma : Int) : Bool :=
  match x with
  | .fin _ m e =>
    let d := e - (sigma + 23)
    if 0 ≤ d then m != 0 else decide (2 ^ (-d).toNat ≤ m)
  | _ => false

/-- enter(x) of R440; integer windows carry x itself. -/
def enterWindow (w : Window) (x : Nat) : Contribution :=
  if w.ty = 3 then
    let v := FpFmt.f32.value x
    { nan := v.isNan, pinf := v == .inf false, ninf := v == .inf true, ovf := beyondFx v w.sigma,
      i := if beyondFx v w.sigma then BitVec.ofInt 96 (if v.neg then -(2 ^ 95) else 2 ^ 95 - 1) else fx96 v w.sigma }
  else { i := BitVec.ofNat 96 x, nan := false, pinf := false, ninf := false, ovf := false }

/-- merge(a, b) of R440. -/
def mergeAcc (a b : Contribution) : Contribution :=
  ⟨a.i + b.i, a.nan || b.nan, a.pinf || b.pinf, a.ninf || b.ninf, a.ovf || b.ovf⟩

/-- A contribution performed at its home's accumulator (R440). -/
def State.mergeAt (s : State) (h aux word : Nat) (c : Contribution) : State :=
  s.mapHedge h fun x => { x with accs := put1 x.accs (aux, word) (mergeAcc ((find1 x.accs (aux, word)).getD emptyAcc) c) }

/-- A RED on a reduction window: merged at home in this package, sent to the home's package otherwise (R439 to R441). -/
def State.reduceWindow (s : State) (g : Group) (o : Op) (aux off : Nat) (data : List Byte) : State :=
  match (s.hedge g.hedge).bind fun h => (h.window aux).map fun w => (h, w) with
  | none => s
  | some (h, w) =>
    let c := enterWindow w (leNat data)
    if w.route = 0 then s.mergeAt g.hedge aux (off / w.bytes) c
    else s.send (.contribute (h.link w.route) g.id o.id w.group w.rbuf off c)

/-- CFL or CINV of a line at a scope: dirty copies are written back as far as the scope's point, and under CINV discarded
(R148). What the group's own quarter buffer holds of the line goes with it, so that its next weak load is no older than
the point. -/
def State.maintLine (s : State) (v : Via) (inv : Bool) (sc : Scope) (n : Nat) : State :=
  let pick (l : Line) : Bool := l.hedge == v.hedge && l.num == n
  if narrowScope sc then s
  else
    let t := s.flush v.core pick
    let t := if inv then t.mapCore v.core fun k => { k with
        l1 := k.l1.filter fun l => !pick l
        quarters := k.quarters.filter fun x => !(x.quarter == v.quarter && pick x.line) } else t
    let t := if sc == .pkg || sc == .sys then t.cleanL2 (dieOf v.core) (n * 128) inv else t
    if sc == .sys && tierOfFrame (frameOf (t.redirect (n * 128))) == .pool then t.cleanSlice (n * 128) inv else t

/-- The scope that a strong store releases at: its own, or the one of an earlier narrow release fence (R320, R322; log 71,
DEDUCED). -/
def Group.releasesAt (g : Group) (o : Op) : Option Scope := if o.rel then some (scopeKind o.scope) else g.relScope

/-- The access is strong: by its instruction, or by the NC page that it lies in (R333). -/
def LaneAcc.strong (o : Op) (x : LaneAcc) : Bool := o.strong || x.places.any fun p => match p with
  | .home _ => true
  | _ => false

/-- The counters whose words an access touches (R126, R131). -/
def LaneAcc.counters (x : LaneAcc) : List CtrKey :=
  (x.places.filterMap fun p => match p with
    | .ctr k _ => some k
    | .home pa => some (.c3 (pa / 8 * 8))
    | _ => none).eraseDups

/-- What a strong read at the home makes of the release tags that it meets: an acquire promotes those that its scope covers,
and whatever it leaves, as a relaxed read leaves every tag, a later fence of the group may cover (R320 to R323). -/
def State.meetTags (s : State) (g : Group) (o : Op) (x : LaneAcc) : State :=
  let pas := x.places.filterMap placePa
  let t := if o.acq then pas.foldl (fun t pa => t.promote pa (promotedAt o.scope)) s else s
  if x.strong o && o.reads then
    let met := (pas.map (· / 512)).eraseDups.filterMap fun b => (find1 t.tags b).map fun t => (b, t)
    let ctrs := x.counters.filterMap fun k => (t.ctr k).tag.map fun r => (k, r)
    if met.isEmpty && ctrs.isEmpty then t
    else t.mapGroup g.id fun y =>
      { y with metTags := (y.metTags ++ met).eraseDups, metCtrs := (y.metCtrs ++ ctrs).eraseDups }
  else t

/-- What a strong store leaves as the release tags of its superblocks (R322). -/
def State.leaveTags (s : State) (g : Group) (o : Op) (x : LaneAcc) : State :=
  if x.strong o then
    ((x.places.filterMap placePa).map fun pa => pa / 512 * 512).eraseDups.foldl
      (fun t pa => t.tagStore pa (g.releasesAt o) (scopeKind o.scope) (s.coreOf g) g.hedge) s
  else s

/-- One access performed: the state after it, and the bytes read (R137, R143 to R146, R148). -/
def State.performAcc (s : State) (g : Group) (o : Op) (x : LaneAcc) : State × List Byte :=
  let v := s.via g o.strong
  let s := (if o.rel then s.release g o.scope else s).meetTags g o x
  match o.kind with
  | .load =>
    let t := s.prepare v true false x.places
    (t, x.places.map (t.placeByte v g))
  | .store =>
    let t := s.prepare v false true x.places
    ((t.storeBytes v g.id x.places x.data).leaveTags g o x, [])
  | .atom op ty =>
    match x.places with
    | .red aux off :: _ => (s.reduceWindow g o aux off x.data, [])
    | _ =>
      let t := s.prepare v true true x.places
      let m := x.places.map (t.placeByte v g)
      let new := atomNew op ty (leNat m) (leNat x.data)
      ((t.storeBytes v g.id x.places (leBytes (atomBytes ty) new)).leaveTags g o x, m)
  | .cas _ =>
    let t := s.prepare v true true x.places
    let m := x.places.map (t.placeByte v g)
    (if m == x.data then (t.storeBytes v g.id x.places x.data2).leaveTags g o x else t, m)
  | .maint inv => ((accLines false x.places).foldl (fun t k => t.maintLine v inv (scopeKind o.scope) k.2) s, [])
  | _ => (s, [])

/-- CFL or CINV in every lane at one time, so that no line that a lane has discarded is there again when the last one is
done (R148). -/
def State.performMaint (s : State) (g : Group) (o : Op) : State := o.accs.foldl (fun t x => (t.performAcc g o x).1) s

end Sys2Proof.Machine
end

