-- ==== Sys2Proof/Machine/CounterOps.lean ====
section
/-! DEFINITION. Row 10, the counter instructions (spec 08 R198 to R215, R220; spec 22 R434). -/

namespace Sys2Proof.Machine

/-! ## Handles (R198 to R202) -/

/-- What an instruction asks of a handle (R201). -/
structure HandleUse where
  /-- The class 3 right needed is CADD; otherwise R. -/
  cadd : Bool
  /-- A peer handle is allowed. -/
  peer : Bool
  /-- The instruction arms a watch at the peer (R434). -/
  watch : Bool
  /-- The instruction is CLINK, whose handles are not of class 0. -/
  link : Bool
  deriving DecidableEq, Repr

/-- CLASS of a handle. -/
def handleClass (h : Word64) : Nat := (h.extractLsb' 28 4).toNat
/-- INDEX of a handle. -/
def handleIndex (h : Word64) : Nat := (h.extractLsb' 0 28).toNat
/-- PEER of a handle. -/
def handlePeer (h : Word64) : Nat := (h.extractLsb' 48 16).toNat
/-- The word index of a class 3 handle (R201). -/
def handleWord (h : Word64) : Nat := (h.extractLsb' 32 16).toNat * 65536 + handleIndex h % 65536

/-- The cores of a hedge (R200, R381). -/
def Hedge.cores (h : Hedge) : Nat := (rectCores h.p.rect).length

/-- Item 1 of R202 but for the amount: the handle's shape, class, allotment and route. -/
def Hedge.handleOk (h : Hedge) (u : HandleUse) (x : Word64) : Bool :=
  let i := handleIndex x
  match handleClass x with
  | 0 => x.extractLsb' 32 32 == 0 && i < 8 && !u.link
  | 1 => x.extractLsb' 32 32 == 0 && i / 512 < h.cores && i % 512 < 32 * h.slots.length
  | 2 => x.extractLsb' 32 32 == 0 && i < 16384 && i / 8192 < h.clusters &&
      i % 8192 < h.p.clusterCounters
  | 3 => handlePeer x == 0 || (u.peer && h.features.getLsbD 12 && h.routeAllows (handlePeer x) u.watch)
  | _ => false

/-- Item 1 of R202 for one handle. -/
def State.handleShape (s : State) (u : HandleUse) (x : Word64) : Res Unit :=
  match s.hedge s.focus.hedge with
  | some h => need (h.handleOk u x) (.plain .cnthandle)
  | none => need (handleClass x == 0 && x.extractLsb' 32 32 == 0 && handleIndex x < 8 && !u.link) (.plain .cnthandle)

/-- Item 2 of R202: the class 3 buffer checks (R201) (log 28, DEDUCED). -/
def State.handleBuffer (s : State) (u : HandleUse) (x : Word64) : Res Unit :=
  if handleClass x != 3 || handlePeer x != 0 then .ok ()
  else
    let idx := handleIndex x / 65536
    let off : Int := 8 * handleWord x
    let bad (c : FaultCode) : Stop := .fault { code := c, acc := if u.cadd then 1 else 0, va := s.bufVa s.focus.hedge idx off, off := off,
                                               buf := idx }
    match (s.hedge s.focus.hedge).bind fun h => h.entry idx with
    | none => .error (bad .bufidx)
    | some e =>
      if (e.len : Int) < off + 8 then .error (bad .bufbound)
      else if e.owner != s.focus.hedge || !e.counter || !(if u.cadd then e.cadd else e.r) then .error (bad .bufright)
      else .ok ()

/-- Item 3 of R202 for an add to a class 3 counter: outside the write set of a speculative launch, as every peer's counter
is (R219, R220). -/
def State.handleSpec (s : State) (u : HandleUse) (x : Word64) : Res Unit :=
  match s.specOf s.focus with
  | some sp =>
    need (!(u.cadd && handleClass x == 3 && (handlePeer x != 0 || !sp.wset.contains (handleIndex x / 65536))))
      (.plain .specviol)
  | none => .ok ()

/-- The group whose class 0 counters a group names: of a checked pair the leading one's (R169). -/
def Group.self (g : Group) : Nat :=
  match g.role with
  | .single | .leading _ => g.id
  | .trailing p => p

/-- Item 4 of R202, and the counter that the handle names. -/
def State.handleRef (s : State) (u : HandleUse) (x : Word64) : Res CtrRef :=
  let i := handleIndex x
  let g := s.focus
  match handleClass x with
  | 0 => .ok (.here (.c0 g.self i))
  | 1 => .ok (.here (.c1 g.hedge (i / 512) (i % 512)))
  | 2 => .ok (.here (.c2 g.hedge (i / 8192) (i % 8192)))
  | _ =>
    if handlePeer x != 0 then .ok (.peer x)
    else
      let idx := i / 65536
      let base := (((s.hedge g.hedge).bind fun h => h.entry idx).map (·.vbase)).getD 0
      let va := (base + 8 * handleWord x) % 2 ^ 64
      match s.translate (s.coreOf g) g.hedge va (if u.cadd then needCtr else needR) with
      | .ok (pa, _) => .ok (.here (.c3 pa))
      | .error (.fault f) => .error (.fault { f with off := (8 * handleWord x : Nat), buf := idx })
      | .error st => .error st

/-- The handles of an instruction checked item by item, the handle named by A first (R202); `amount` is an amount read
from a register, `never` the instructions that a speculative launch may not issue. -/
def State.handles (s : State) (hs : List (HandleUse × Word64)) (amount : Option Word64) (never : Bool) :
    Res (List CtrRef) := do
  let _ ← hs.mapM fun p => s.handleShape p.1 p.2
  need (!(amount.map (·.msb)).getD false) (.plain .cnthandle)
  let _ ← hs.mapM fun p => s.handleBuffer p.1 p.2
  need (!(never && (s.specOf s.focus).isSome)) (.plain .specviol)
  let _ ← hs.mapM fun p => s.handleSpec p.1 p.2
  hs.mapM fun p => s.handleRef p.1 p.2

/-- Uses of R201. -/
def useAdd : HandleUse := ⟨true, true, false, false⟩
def useRead : HandleUse := ⟨false, false, false, false⟩
def useLink : HandleUse := ⟨true, false, false, true⟩
def useSource : HandleUse := ⟨false, true, true, false⟩

/-! ## Issue -/

/-- ORD carries an acquire. -/
def ctrAcq (o : CtrOrd) : Bool := o == .acq || o == .ar
/-- ORD carries a release. -/
def ctrRel (o : CtrOrd) : Bool := o == .rel || o == .ar

/-- A counter operation left outstanding, with the operand words that a checked pair compares (R162, R170, R205); on a
peer's counter it is of scope SYS (R436). -/
def State.ctrOp (s : State) (e : Mask) (cls : OpClass) (k : CtrRef) (a : CtrAct) (dst : Dst) (ord : CtrOrd)
    (sc : CtrScope) (writes : Bool) (ws : List Word64) : Res State := do
  need s.requestRoom .wait
  let t ← s.passFences writes false
  t.addOp { s.newOp cls (.ctr k a) e with
    dst := dst, reads := cls == .load, writes := writes, strong := true, acq := ctrAcq ord, rel := ctrRel ord,
    scope := match k with
      | .peer _ => .sys
      | .here _ => sc
    words := ws }

/-- An add with its amount from a register or an immediate (R209). -/
def State.caddOp (s : State) (e : Mask) (x amount : Word64) (fromReg : Bool) (ord : CtrOrd) (sc : CtrScope) :
    Res State := do
  let ks ← s.handles [(useAdd, x)] (if fromReg then some amount else none) false
  match ks with
  | [k] => s.ctrOp e .store k (.add amount.toNat) .none ord sc true [x, amount]
  | _ => .error .wait

/-- CADD (R209). -/
def execCadd (g : Guard) (m : CtrMod) (a b : Reg) (s : State) : Host.Outcome State Fault Refusal :=
  s.issueS g fun e t => do
    let a ← t.focus.sNum a
    let b ← t.focus.sNum b
    t.focus.ready [] [a, b] []
    t.caddOp e (t.focus.s a) (t.focus.s b) true m.ord m.scope

/-- CADD with an immediate amount (R207). -/
def execCaddImm (g : Guard) (ord : CtrOrd) (scope : Scope) (a : Reg) (imm : Word32) (s : State) :
    Host.Outcome State Fault Refusal :=
  s.issueS g fun e t => do
    let a ← t.focus.sNum a
    t.focus.ready [] [a] []
    t.caddOp e (t.focus.s a) (imm.setWidth 64) false ord (sidedScope scope)

/-- CNEXT (R210). -/
def execCnext (g : Guard) (m : CtrMod) (d a b : Reg) (s : State) : Host.Outcome State Fault Refusal :=
  s.issueS g fun e t => do
    let d ← t.focus.sNum d
    let a ← t.focus.sNum a
    let b ← t.focus.sNum b
    t.focus.ready [] [d, a, b] []
    let ks ← t.handles [(useAdd, t.focus.s a)] (some (t.focus.s b)) false
    match ks with
    | [k] => t.ctrOp e .load k (.next (t.focus.s b).toNat) (.s64 d) m.ord m.scope true [t.focus.s a, t.focus.s b]
    | _ => .error .wait

/-- CTEST (R212). -/
def execCtest (g : Guard) (m : CtrMod) (d : BitVec 3) (a b : Reg) (s : State) : Host.Outcome State Fault Refusal :=
  s.issueS g fun e t => do
    let a ← t.focus.sNum a
    let b ← t.focus.sNum b
    t.focus.ready [] [a, b] [d]
    let ks ← t.handles [(useRead, t.focus.s a)] none false
    match ks with
    | [k] => t.ctrOp e .load k (.test (t.focus.s b)) (.pred d) m.ord m.scope false [t.focus.s a, t.focus.s b]
    | _ => .error .wait

/-- CRD (R212). -/
def execCrd (g : Guard) (m : CtrMod) (d a : Reg) (s : State) : Host.Outcome State Fault Refusal :=
  s.issueS g fun e t => do
    let d ← t.focus.sNum d
    let a ← t.focus.sNum a
    t.focus.ready [] [d, a] []
    let ks ← t.handles [(useRead, t.focus.s a)] none false
    match ks with
    | [k] => t.ctrOp e .load k .read (.s64 d) m.ord m.scope false [t.focus.s a]
    | _ => .error .wait

/-- CINIT (R213). -/
def execCinit (g : Guard) (m : CtrMod) (a b : Reg) (s : State) : Host.Outcome State Fault Refusal :=
  s.issueS g fun e t => do
    let a ← t.focus.sNum a
    let b ← t.focus.sNum b
    t.focus.ready [] [a, b] []
    let ks ← t.handles [(useAdd, t.focus.s a)] none true
    match ks with
    | [k] => t.ctrOp e .store k (.init (t.focus.s b)) .none m.ord m.scope true [t.focus.s a, t.focus.s b]
    | _ => .error .wait

/-- The parent's class is greater than the child's, which is 1 or 2 (R214). -/
def linkOk (child parent : Word64) : Bool :=
  (handleClass child == 1 || handleClass child == 2) && decide (handleClass child < handleClass parent)

/-- CLINK (R214). -/
def execClink (g : Guard) (e : BitVec 5) (a b : Reg) (s : State) : Host.Outcome State Fault Refusal :=
  s.issueS g fun m t => do
    let a ← t.focus.sNum a
    let b ← t.focus.sNum b
    t.focus.ready [] [a, b] []
    t.handleShape useLink (t.focus.s a)
    t.handleShape useLink (t.focus.s b)
    need (linkOk (t.focus.s a) (t.focus.s b)) (.plain .cnthandle)
    let ks ← t.handles [(useLink, t.focus.s a), (useLink, t.focus.s b)] none true
    match ks with
    | [k, .here p] => t.ctrOp m .store k (.link p e.toNat) .none .rlx .grp true [t.focus.s a, t.focus.s b]
    | _ => .error (.plain .cnthandle)

/-- CLINK.U (R214). -/
def execClinkU (g : Guard) (a : Reg) (s : State) : Host.Outcome State Fault Refusal :=
  s.issueS g fun m t => do
    let a ← t.focus.sNum a
    t.focus.ready [] [a] []
    t.handleShape useLink (t.focus.s a)
    need (handleClass (t.focus.s a) == 1 || handleClass (t.focus.s a) == 2) (.plain .cnthandle)
    let ks ← t.handles [(useLink, t.focus.s a)] none true
    match ks with
    | [k] => t.ctrOp m .store k .unlink .none .rlx .grp true [t.focus.s a]
    | _ => .error .wait

/-- The logical core that a watch is charged to (R215). -/
def State.lcoreOf (s : State) (g : Group) : Nat := ((s.wgOf g.wg).map (·.lcore)).getD 0

/-- The watch quota of a hedge. -/
def State.watchQuota (s : State) (h : Nat) : Nat := ((s.hedge h).map fun x => x.p.watchQuota).getD 0

/-- A watch of the group finds room in its logical core's quota, or faults CNTQUOTA. In a checked pair the check is made
once, at the leading group's (R170, R215). -/
def State.watchRoom (s : State) (g : Group) : Res Unit :=
  let room := decide (s.watchesOf g.hedge (s.lcoreOf g) < s.watchQuota g.hedge)
  match g.role.leader.bind s.group with
  | none => need room (.plain .cntquota)
  | some x =>
    if g.issued < x.issued then .ok ()
    else if x.issued = g.issued && x.pairFault.isSome then need (x.pairFault != some .cntquota) (.plain .cntquota)
    else .error .wait

/-- CWATCH (R215). ORD 3 orders the add that the watch fires, and the CWATCH itself orders nothing (R206, R215). -/
def execCwatch (g : Guard) (m : CtrMod) (a b c d : Reg) (s : State) : Host.Outcome State Fault Refusal :=
  s.issueS g fun e t => do
    let a ← t.focus.sNum a
    let b ← t.focus.sNum b
    let c ← t.focus.sNum c
    let d ← t.focus.sNum d
    t.focus.ready [] [a, b, c, d] []
    let x := t.focus.s a
    let ks ← t.handles [(useSource, x), (useAdd, t.focus.s c)] (some (t.focus.s d)) true
    let local_ := handlePeer x == 0
    if local_ then t.watchRoom t.focus
    match ks with
    | [k, target] =>
      t.ctrOp e .store k (.watch (t.focus.s b) target (t.focus.s d).toNat
        (if local_ then some (t.lcoreOf t.focus) else none) (m.ord == .ar) (x, t.focus.s c)) .none .rlx m.scope
        true [x, t.focus.s b, t.focus.s c, t.focus.s d]
    | _ => .error .wait

/-- The bytes of a counter. -/
def ctrBytes (k : CtrKey) : List Place := (List.range 8).map fun i => (Place.ctr k i).byte

/-- An operation of the group on the counter or a load of its word, or an acquire, is outstanding, so that a CWAIT may not
take its place in the modification order yet (R216, R320). -/
def Group.ctrPending (g : Group) (k : CtrKey) : Bool :=
  g.pend.any fun o => o.acq || o.ctrRef == some (.here k) || o.bytes.any (ctrBytes k).contains

/-- A CWAIT of a group takes its place at the counter: answered at once, armed at a relay or at the home, or polled where
the hedge's share is full at each of them (R211, R218, R297). -/
def State.armWait (s : State) (g : Group) (c : CWaitRef) : State :=
  let w : Waiter := ⟨.cwait g.id c.id, g.hedge, c.t⟩
  let core := some (s.coreOf g)
  let set (a : CWaitAt) : State :=
    s.mapGroup g.id fun x => { x with cwaits := x.cwaits.map fun y => if y.id == c.id then { y with at_ := a } else y }
  let full := !sat (s.ctrView c.key g.hedge g.lseq) c.t && (s.relayFor core c.key w).isNone && !s.shareRoom g.hedge (s.homeId c.key)
  if full then set .polled else ((set .armed).countCtr c.key true false).arm core c.key w

/-- A CWAIT as the words that a checked pair compares (R170, R219). -/
def Group.waitWords (g : Group) (e : Mask) (handle t : Word64) : List Word64 :=
  [g.position.2, BitVec.ofNat 64 g.clauseOff, BitVec.ofNat 64 g.position.1, e.setWidth 64, handle, t]

/-- CWAIT (R211). In a checked pair the leading group's is held until the trailing group has issued the same one; then it
is armed, once, and its answer answers both (R219). -/
def execCwait (g : Guard) (m : CtrMod) (a b : Reg) (s : State) : Host.Outcome State Fault Refusal :=
  s.issueS g fun e t => do
    let a ← t.focus.sNum a
    let b ← t.focus.sNum b
    t.focus.ready [] [a, b] []
    let x := t.focus.s b
    let ks ← t.handles [(useRead, t.focus.s a)] none false
    match ks with
    | [.here k] =>
      need (!t.focus.ctrPending k) .wait
      need (t.ctrBad k).isNone (.plain (if t.ctrBad k == some .sdc then .sdc else .uncorr))
      let u ← t.passFences false false
      let gr := u.focus
      let c (at_ : CWaitAt) : CWaitRef := ⟨gr.nextOp, k, x, ctrAcq m.ord, m.scope, at_, gr.waitWords e (gr.s a) x⟩
      let held : State := { u with focus := { gr.nextId with cwaits := gr.cwaits ++ [c .held] } }
      match gr.role with
      | .single => .ok (held.armWait gr (c .armed))
      | .leading _ => if gr.holdRoom then .ok held else .error .wait
      | .trailing p =>
        match u.group p with
        | none => .error .wait
        | some lead =>
          match lead.cwaits.find? fun y => y.id == gr.nextOp && y.at_ == .held with
          | none => if lead.nextOp ≤ gr.nextOp then .error .wait else .error (.mismatch 0 gr.position.2)
          | some y =>
            match firstDiff y.words (c .held).words with
            | some (v, w) => .error (.mismatch v w)
            | none => .ok (held.armWait lead y)
    | _ => .error (.plain .cnthandle)

/-! ## Performing at the home -/

/-- What an operation that adds to a counter or sets it leaves as the counter's release tag (R217, R322). -/
def State.ctrRelease (s : State) (g : Group) (o : Op) (k : CtrKey) : State :=
  s.tagCtr k (g.releasesAt o) (scopeKind o.scope) (s.coreOf g) g.hedge

/-- The acquire part of a read of a counter: it promotes the tag that its scope covers and discards copies; a tag that it
meets and does not cover is left for a later fence (R217, R310, R320 to R322). -/
def State.ctrAcquire (s : State) (g : Group) (acq : Bool) (sc : CtrScope) (k : CtrKey) : State :=
  let s := if acq then s.promoteCtr k (promotedAt sc) else s
  let s := match (s.ctr k).tag with
    | some t => s.mapGroup g.id fun x => { x with metCtrs := (x.metCtrs ++ [(k, t)]).eraseDups }
    | none => s
  if acq then s.acquire g sc else s

/-- An add of a group performed at its home: held as a pending add in an unresolved speculative launch (R209, R219,
R401). -/
def State.groupAdd (s : State) (g : Group) (k : CtrKey) (a : Nat) : State :=
  match s.specOf g with
  | some _ => s.holdAdd k ⟨g.hedge, g.lseq, a, none⟩
  | none => s.addCtr k a

/-- An operation on a counter adds to it (R209, R210). -/
def CtrAct.adds : CtrAct → Bool
  | .add _ | .next _ => true
  | .test _ | .read | .init _ | .link _ _ | .unlink | .watch _ _ _ _ _ _ => false

/-- A watch armed at a peer that is to add to a counter of a file here (R436). -/
def CtrAct.farWatch (a : CtrAct) : Option FarWatch :=
  match a with
  | .watch _ (.here (.c3 _)) _ _ _ _ => none
  | .watch _ (.here k) _ _ _ (src, dst) => some ⟨handlePeer src, src, dst, k⟩
  | _ => none

/-- The message of an operation on a peer's counter (R435, R436); an add counts among the adds sent to peers (R406). -/
def State.sendCtr (s : State) (g : Group) (o : Op) (x : Word64) (a : CtrAct) : State :=
  match s.hedge g.hedge with
  | none => s
  | some h =>
    (s.send (.ctr (h.link (handlePeer x)) g.id o.id x a)).mapHedge g.hedge fun h =>
      { h with sentAdds := h.sentAdds + (if a.adds then 1 else 0), farWatches := h.farWatches ++ a.farWatch.toList }

/-- The order that a watch keeps with it: its add leaves a tag where it releases at a scope narrower than RECT, and clears
the tag at RECT or wider, as any strong store does (R215, R322). -/
def State.watchOrder (s : State) (g : Group) (sc : CtrScope) (ar : Bool) : WatchOrder :=
  { acq := if ar then some sc else none
    rel := if !narrowScope (scopeKind sc) then some none
      else if ar then some (some ⟨s.coreOf g, g.hedge, scopeKind sc == .core⟩) else none }

/-- An operation of row 10 performed at its home: the state, and the value read where it reads one (R209 to R215). A read
meets the counter's tag before an add of the same operation leaves its own (R322). -/
def State.performCtr (s : State) (g : Group) (o : Op) (r : CtrRef) (a : CtrAct) : State × Option Word64 :=
  let s := if o.rel then s.release g o.scope else s
  match r with
  | .peer x =>
    match a with
    | .next _ =>
      let t := s.sendCtr g o x a
      ((t.free 64).2, some (t.free 64).1)
    | _ => (s.sendCtr g o x a, none)
  | .here k =>
    let v := s.ctrView k g.hedge g.lseq
    let s := match a with
      | .test _ | .read | .watch _ _ _ _ _ _ => s.countCtr k true false
      | .init _ => s.countCtr k false true
      | .add _ | .next _ | .link _ _ | .unlink => s
    match a with
    | .add n => ((s.ctrRelease g o k).groupAdd g k n, none)
    | .next n => (((s.ctrAcquire g o.acq o.scope k).ctrRelease g o k).groupAdd g k n, some v)
    | .test t => (s.ctrAcquire g (o.acq && sat v t) o.scope k, some (if sat v t then 1 else 0))
    | .read => (s.ctrAcquire g o.acq o.scope k, some v)
    | .init x => (if s.ctrBusy k then s else (s.ctrRelease g o k).setCtr k x, none)
    | .link p e => ((s.unproxy k).mapCtr k fun c => { c with link := some (p, e) }, none)
    | .unlink => ((s.unproxy k).mapCtr k fun c => { c with link := none }, none)
    | .watch t target n charge ar hs =>
      (s.arm (some (s.coreOf g)) k ⟨.watch g.hedge target n charge (s.watchOrder g o.scope ar) hs, g.hedge, t⟩, none)

end Sys2Proof.Machine
end

