-- ==== Sys2Proof/Machine/Copy.lean ====
section
/-! DEFINITION. Row 11, the copy engine: slices and copies, engine reads, landing, presence, completion adds, publish
and abandonment (spec 10 R252 to R270; spec 19 R398 to R401). -/

namespace Sys2Proof.Machine

/-! ## Geometry (R255, R259, R263) -/

/-- The runs of a tensor's elements. -/
def tensorRuns : List (Nat × Int × Int) → Int → Int → Nat → List Run
  | [], s, t, len => if len = 0 then [] else [⟨s, t, len⟩]
  | (n, ss, ds) :: rest, s, t, len =>
    (List.range n).flatMap fun (i : Nat) => tensorRuns rest (s + i * ss) (t + i * ds) len

/-- The runs of a slice. -/
def Geom.runs : Geom → List Run
  | .tensor src dst len dims => tensorRuns dims src dst len
  | .rows rs => rs.filter fun r => r.len != 0
  | .fill dst len dims _ => tensorRuns dims 0 dst len

/-- The numbers of the blocks of `b` bytes that a range touches. -/
def blocksOf (lo : Int) (len b : Nat) : List Int :=
  if len = 0 then []
  else (List.range (((lo + len - 1) / b - lo / b + 1).toNat)).map fun (i : Nat) => lo / b + i

/-- The part of a run that one 32-byte sector of the destination holds. -/
structure Piece where
  src : Int
  dst : Int
  len : Nat
  deriving DecidableEq, Repr

/-- The destination sector of a piece (R260). -/
def Piece.sector (p : Piece) : Int := p.dst / 32

/-- The chunk of a piece (R259). -/
def Piece.chunk (p : Piece) : Int := p.dst / 512

/-- A run cut at the sectors of its destination (R260). -/
def Run.pieces (r : Run) : List Piece :=
  (blocksOf r.dst r.len 32).map fun k =>
    let lo := max r.dst (32 * k)
    ⟨r.src + (lo - r.dst), lo, (min (r.dst + r.len) (32 * k + 32) - lo).toNat⟩

/-- The pieces of a slice's own geometry. -/
def Slice.pieces (x : Slice) : List Piece := x.geom.runs.flatMap Run.pieces

/-- The source sectors of a slice (R262). -/
def Slice.sectors (x : Slice) : List Int :=
  match x.geom with
  | .fill _ _ _ _ => []
  | .tensor _ _ _ _ | .rows _ => (x.geom.runs.flatMap fun r => blocksOf r.src r.len 32).eraseDups

/-- The engine has read every source byte of the slice. -/
def Slice.readDone (x : Slice) : Bool := x.sectors.all fun i => (find1 x.got i).isSome

/-- A slice that moves nothing (R257). -/
def Slice.isEmpty (x : Slice) : Bool := x.geom.runs.isEmpty

/-! ## What lands where -/

/-- The number of a workgroup's core in the launch rectangle (R129). -/
def State.rotCore (s : State) (h : Hedge) (l : Launch) (w : Nat) : Nat :=
  match s.wgOf w with
  | some x => rectNumber l.rect (h.logical x.lcore)
  | none => 0

/-- The slice that sends to a slice of a rotation: same position, same group, on the core before (R265). -/
def State.sender (s : State) (c : Copy) (x : Slice) : Option (Nat × Slice) :=
  match s.hedge c.hedge, s.launch c.hedge c.lseq with
  | some h, some l =>
    let n := 2 ^ l.rect.lw * 2 ^ l.rect.lh
    let pos (w : Nat) : Option Nat := (s.wgOf w).map (·.pos)
    (c.slices.zipIdx.find? fun p =>
      p.1.number == x.number && pos p.1.wg == pos x.wg &&
        (s.rotCore h l p.1.wg + 1) % n == s.rotCore h l x.wg).map fun p => (p.2, p.1)
  | _, _ => none

/-- The block of a rotation's slice; none of an empty one (R265). -/
def Slice.block (x : Slice) : Option Run :=
  match x.geom with
  | .rows (r :: _) => some r
  | .rows [] | .tensor _ _ _ _ | .fill _ _ _ _ => none

/-- The pieces that land in the i-th slice, with the index of the slice that they are read from (R259, R265) (log 38, DEDUCED). -/
def State.incoming (s : State) (c : Copy) (i : Nat) : List Piece × Nat :=
  match c.slices[i]? with
  | none => ([], i)
  | some x =>
    if !c.rot then (x.pieces, i)
    else
      match x.block, s.sender c x with
      | some r, some (j, y) => (((y.block.map fun q => Run.pieces ⟨q.src, r.dst, q.len⟩).getD []), j)
      | _, _ => ([], i)

/-- The chunks that land in the i-th slice (R259). -/
def State.chunks (s : State) (c : Copy) (i : Nat) : List Int := ((s.incoming c i).1.map (·.chunk)).eraseDups

/-- Every chunk of the i-th slice has landed. -/
def State.sliceLanded (s : State) (c : Copy) (i : Nat) : Bool :=
  match c.slices[i]? with
  | some x => (s.chunks c i).all fun k => x.landed.contains k
  | none => true

/-- Every chunk of every slice has landed. -/
def State.copyLanded (s : State) (c : Copy) : Bool := (List.range c.slices.length).all fun i => s.sliceLanded c i

/-- The scratch line, by workgroup and number, of an offset of a side; none where no workgroup stands or the side is a
buffer (R250, R261). -/
def State.sideLine (s : State) (hedge : Nat) (d : Side2) (off : Int) : Option (Nat × Nat) :=
  match d with
  | .own w => some (w, off.toNat / 128)
  | .region die q =>
    match s.regionAt hedge q die off.toNat with
    | some (.scratch w o) => if w = 0 then none else some (w, o / 128)
    | _ => none
  | .buf _ => none

/-- The lines that a range of a side touches. -/
def State.linesOf (s : State) (hedge : Nat) (d : Side2) (lo : Int) (len : Nat) : List (Nat × Nat) :=
  (blocksOf lo len 128).filterMap fun b => s.sideLine hedge d (128 * b)

/-- The destination pieces of a slice that have not landed; before a rotation has started, those of its own length. -/
def State.owedPieces (s : State) (c : Copy) (i : Nat) : List Piece :=
  match c.slices[i]? with
  | some x =>
    if c.rot && !c.started then x.pieces else (s.incoming c i).1.filter fun p => !x.put.contains p.sector
  | none => []

/-- The instruction of a slice is held in a checked pair, so that the slice has not issued for others yet (R170). -/
def State.sliceHeld (s : State) (x : Slice) : Bool :=
  ((s.group x.group).map fun g => g.pend.any fun o => o.held && o.id == x.op).getD false

/-- The lines in which a slice of a copy has yet to land bytes. -/
def State.owedBy (s : State) (c : Copy) (i : Nat) : List (Nat × Nat) :=
  match c.slices[i]? with
  | some x => ((s.owedPieces c i).flatMap fun p => s.linesOf c.hedge x.dst p.dst p.len).eraseDups
  | none => []

/-- A copy still has a byte to land in a line (R261). -/
def State.owesLine (s : State) (c : Copy) (line : Nat × Nat) : Bool :=
  !c.abandoned && c.slices.zipIdx.any fun x => !s.sliceHeld x.1 && (s.owedBy c x.2).contains line

/-- The lines of a list of scratch places, by workgroup and number. -/
def placeLines (ps : List Place) : List (Nat × Nat) :=
  (ps.filterMap fun p => match p with
    | .scratch w o => some (w, o / 128)
    | _ => none).eraseDups

/-- An MVB still has a result to land in a line (R246). -/
def State.mvbOwes (s : State) (line : Nat × Nat) : Bool :=
  s.groups.any fun g => g.pend.any fun o => match o.kind with
    | .mvb _ _ _ _ _ _ result todo => todo.any fun i => (placeLines result)[i]? == some line
    | _ => false

/-- Lines whose bytes have all landed become present (R246, R261). -/
def State.present1 (s : State) (ls : List (Nat × Nat)) : State :=
  ls.foldl (fun t l =>
    if t.mvbOwes l || t.copies.any fun c => t.owesLine c l then t else t.setPresent l true) s

/-- Every line that a slice's own geometry writes. -/
def State.sliceLines (s : State) (hedge : Nat) (x : Slice) : List (Nat × Nat) :=
  (x.geom.runs.flatMap fun r => s.linesOf hedge x.dst r.dst r.len).eraseDups

/-! ## The checks of R256 -/

/-- The entry of a buffer that a copy names, with its descriptor checks (R125, R439). -/
def Hedge.copyEntry (h : Hedge) (idx : Nat) : Option BufEntry :=
  (h.entry idx).bind fun e =>
    match h.fabredOk e .load with
    | .error .bufidx => none
    | _ => some e

/-- A range of byte offsets that a side touches, lowest and highest. -/
structure Span where
  lo : Int
  hi : Int
  runs : List (Int × Nat)

/-- The side of a buffer index as a group names it (R254). -/
def State.sideOf (s : State) (g : Group) (idx : Nat) : Side2 :=
  if idx = 0xFFF then .own g.wg else if idx = 0xFFE then .region (s.windowDie g) g.lseq else .buf idx

/-- The 4 KiB pages of memory that runs of a buffer touch, counted from the page of its first byte: VBASE may lie within a
page (R123, R266, R268). -/
def pagesOf (vbase : Nat) (runs : List (Int × Nat)) : List Nat :=
  ((runs.flatMap fun r => blocksOf (r.1 + (vbase % 4096 : Nat)) r.2 4096).map Int.toNat).eraseDups

/-- The address of a page of a buffer. -/
def pageVa (vbase j : Nat) : Nat := (vbase / 4096 * 4096 + 4096 * j) % 2 ^ 64

/-- The pages of a write set that a slice would shadow anew (R398). -/
def State.freshPages (s : State) (h : Hedge) (lseq idx : Nat) (e : BufEntry) (x : Spec) (pages : List Nat) : List Nat :=
  pages.filter fun j =>
    !x.done.contains (idx, j) &&
      match s.hubTranslate h (pageVa e.vbase j) needNone with
      | some (pa, _) => (s.shadow h.p.id (some lseq) (pa / 4096)).isNone
      | none => true

/-- One side of a slice is checked over what it touches (R125, R127, R129, R256, R266, R398); OFFSET of the record is
the lowest offset touched (log 20, DEDUCED). -/
def State.checkSide (s : State) (g : Group) (a : Access) (idx : Nat) (r : Span) (pub : Bool) : Res Unit := do
  let bad (c : FaultCode) : Stop :=
    .fault { code := c, acc := a.need.acc, va := s.bufVa g.hedge idx r.lo, off := r.lo, buf := idx }
  if 0xFFC ≤ idx then
    let inside : Bool :=
      if idx = 0xFFE then r.runs.all fun p =>
        p.1 ≥ 0 && (List.range p.2).all fun (i : Nat) =>
          (p.1 + i).toNat < 2 ^ 32 && (s.regionAt g.hedge g.lseq (s.windowDie g) (p.1 + i).toNat).isSome
      else r.lo ≥ 0 && (s.windowPlaces g idx r.hi 1).isSome
    need inside (bad .bufbound)
    need (windowAllows idx a) (bad .bufright)
  else
    match s.hedge g.hedge with
    | none => .error (bad .bufidx)
    | some h =>
      match h.copyEntry idx with
      | none => .error (bad .bufidx)
      | some e =>
        need (r.lo ≥ 0 && r.hi < (e.len : Int)) (bad .bufbound)
        need (e.owner == g.hedge && !e.refuses a && (h.fabredOk e a).isOk) (bad .bufright)
        need (!(pub && e.pub && decide (h.p.shadowQuota < (pagesOf e.vbase r.runs).length))) (bad .bufright)
        if a.writes then
          match s.specOf g with
          | some x =>
            need (x.wset.contains idx) (bad .specviol)
            let new := s.freshPages h g.lseq idx e x (pagesOf e.vbase r.runs)
            need (new.isEmpty || decide (s.shadowsOf g.hedge + new.length ≤ h.p.shadowQuota)) (bad .specviol)
          | none => .ok ()
        else .ok ()

/-- The span of a tensor on one side, computed from its extents (R256). -/
def tensorSpan (off : Int) (len : Nat) (dims : List (Nat × Int)) (runs : List (Int × Nat)) : Span :=
  ⟨off + (dims.map fun d => min 0 (((d.1 : Int) - 1) * d.2)).sum,
   off + (dims.map fun d => max 0 (((d.1 : Int) - 1) * d.2)).sum + len - 1, runs⟩

/-- The span of a list of runs. -/
def runsSpan (runs : List (Int × Nat)) : Span :=
  ⟨(runs.map (·.1)).foldl min ((runs.head?.map (·.1)).getD 0),
   (runs.map fun (r : Int × Nat) => r.1 + r.2 - 1).foldl max ((runs.head?.map fun (r : Int × Nat) => r.1 + r.2 - 1).getD 0), runs⟩

/-- What an instruction of row 11 has checked and read at issue. -/
structure SliceReq where
  src : Nat
  dst : Nat
  geom : Geom
  handle : Word64
  regs : List Word64

/-- Items 3 and 4 of R256 for a slice: the source, the destination, the handle. -/
def State.checkSlice (s : State) (g : Group) (fill : Bool) (q : SliceReq) (src dst : Span) (pub : Bool) : Res Unit := do
  if !q.geom.runs.isEmpty then
    if !fill then s.checkSide g .copySrc q.src src false
    s.checkSide g .copyDst q.dst dst pub
  s.handleShape useAdd q.handle
  s.handleBuffer useAdd q.handle

/-- The descriptor of CPY and CPYS, its registers and its checks up to item 2 of R256 (R254). -/
def State.tensorReq (s : State) (a b : Reg) (fill : Option Reg) : Res (SliceReq × Span × Span) := do
  let g := s.focus
  let a0 ← g.sNum a 3
  g.ready [] [a0] []
  let w := g.s a0
  let ndim := (w.extractLsb' 37 3).toNat
  let nd := if ndim = 0 || ndim = 7 then 1 else ndim
  let n := 3 + 2 * (nd - 1)
  let a0 ← g.sNum a n
  let b0 ← g.sNum b
  let cs ← match fill with
    | none => .ok []
    | some r => do
      let c ← g.sNum r
      .ok [c]
  let regs := (List.range n).map fun i => g.s (a0 + i)
  g.ready [] ((List.range n).map (a0 + ·) ++ b0 :: cs) []
  let size := 2 ^ (w.extractLsb' 35 2).toNat
  let len := (w.extractLsb' 0 32).toNat * size
  let soff := (g.s (a0 + 1)).toInt
  let doff := (g.s (a0 + 2)).toInt
  let dims := (List.range (nd - 1)).map fun d =>
    let x := g.s (a0 + 2 * d + 3)
    let y := g.s (a0 + 2 * d + 4)
    ((x.extractLsb' 40 24).toNat, (x.extractLsb' 0 40).toInt, (y.extractLsb' 0 40).toInt)
  let reserved := w.extractLsb' 32 3 != 0 ||
    (List.range (nd - 1)).any fun d => (g.s (a0 + 2 * d + 4)).extractLsb' 40 24 != 0
  let off (x : Int) : Bool := x % size != 0
  need (!(ndim == 0 || ndim == 7 || reserved || off doff || dims.any (fun d => off d.2.2) ||
    (fill.isNone && (off soff || dims.any fun d => off d.2.1)))) (.plain .bufbound)
  let geom : Geom := match cs with
    | c :: _ => .fill doff len dims (leBytes size (g.s c).toNat)
    | [] => .tensor soff doff len dims
  .ok (⟨(w.extractLsb' 52 12).toNat, (w.extractLsb' 40 12).toNat, geom, g.s b0, regs⟩,
    tensorSpan soff len (dims.map fun d => (d.1, d.2.1)) (geom.runs.map fun r => (r.src, r.len)),
    tensorSpan doff len (dims.map fun d => (d.1, d.2.2)) (geom.runs.map fun r => (r.dst, r.len)))

/-! ## Joining a copy -/

/-- The copies of a group that count toward WCP (R258). -/
def Group.copiesOut (g : Group) : Nat := (g.pend.filter fun o => o.cls == .copy).length

/-- The copies of a workgroup that are joined and not started (R258). -/
def State.joined (s : State) (w : Nat) : Nat :=
  (s.copies.filter fun c => !c.started && !c.abandoned && c.slices.any fun x => x.wg == w).length

/-- The slice that a request makes. -/
def State.mkSlice (s : State) (e : Mask) (q : Option SliceReq) (pub : Bool) (sc : Scope) : Slice :=
  let g := s.focus
  { group := g.id, number := g.number, wg := g.wg, op := g.nextOp
    src := (q.map fun x => s.sideOf g x.src).getD (.own g.wg)
    dst := (q.map fun x => s.sideOf g x.dst).getD (.own g.wg)
    geom := (q.map (·.geom)).getD (.rows [])
    handle := q.map (·.handle)
    pub := pub && (q.map fun x => !x.geom.runs.isEmpty).getD false
    scope := sc
    word := g.position.2
    regs := (q.map (·.regs)).getD []
    idx := g.position.1, off := g.clauseOff, mask := e
    got := [], put := [], landed := [], added := [] }

/-- A record for the handle of a slice that joins an abandoned copy, unless it has had one (R257, R269). -/
def State.tellAbandoned (s : State) (c : Copy) (x : Slice) : State :=
  match c.abandoned, x.handle with
  | true, some w => if c.told.contains w then s else s.reportKind c.hedge 36 [w, 0]
  | _, _ => s

/-- The slice joins its copy, clears the presence bits of its destination, and counts toward WCP until its last source
byte is read (R257, R261, R162); in a checked pair the bits are cleared when it is released (R170). Nothing is kept of a
slice of an abandoned copy but that its handle has had its record. -/
def State.addSlice (s : State) (c : Copy) (x : Slice) : State :=
  let keep := !c.abandoned
  let s := s.tellAbandoned c x
  let known := s.copies.any fun y => y.id == c.id
  let c' := if keep then { c with slices := c.slices ++ [x] } else { c with told := (c.told ++ x.handle.toList).eraseDups }
  let t := { s with copies := if known then s.copies.map fun (y : Copy) => if y.id == c.id then c' else y else s.copies ++ [c'] }
  let lines := if keep then t.sliceLines c.hedge x else []
  let single := t.focus.role == .single
  let counts := keep && !x.readDone
  let o : Op := { t.newOp (if counts then .copy else .none) (.slice c.id) x.mask with clears := lines }
  let t := if single then t.absent1 lines else t
  { t with focus := { t.focus.nextId with pend := if counts || !single then t.focus.pend ++ [o] else t.focus.pend } }

/-- An instruction of a slice that is held when its copy is abandoned stays to be compared, with nothing left to do (R170,
R270). -/
def Op.unslice (o : Op) : Op := { o with cls := .none, kind := .sys false, clears := [] }

/-- The copy abandoned: nothing more lands or adds, its counts are released, its lines become present, and a record
goes to the virtual error queue for each of its handles, or one without a handle where it has none (R257, R269, R412)
(log 37, DEDUCED). -/
def State.abandon (s : State) (i : Nat) : State :=
  match s.copies.find? fun c => c.id == i with
  | none => s
  | some c =>
    if c.abandoned then s
    else
      let lines := ((c.slices.flatMap fun x => s.sliceLines c.hedge x) ++
        (List.range c.slices.length).flatMap (s.owedBy c)).eraseDups
      let handles := (c.slices.filterMap (·.handle)).eraseDups
      let t := { s with copies := s.copies.map fun (y : Copy) =>
        if y.id == i then { y with abandoned := true, slices := [], told := handles } else y }
      let mine (o : Op) : Bool := match o.kind with
        | .slice j => j == i
        | _ => false
      let drop (g : Group) : Group :=
        { g with pend := (g.pend.filter fun o => o.held || !mine o).map fun o => if mine o then o.unslice else o }
      let t := (c.slices.map (·.group)).eraseDups.foldl (fun u g => u.mapGroup g drop) t
      let t := t.present1 lines
      if handles.isEmpty then t.reportKind c.hedge 36 [0, 0]
      else handles.foldl (fun u x =>
        let n := ((c.slices.filter fun y => y.handle == some x).map fun y => y.landed.length).sum
        u.reportKind c.hedge 36 [x, BitVec.ofNat 64 n]) t

/-- A group that the service kernel has ended has not supplied its slice, so the copy cannot start (R257, R265). -/
def State.lacksEnded (s : State) (c : Copy) : Bool :=
  match c.wg with
  | some w =>
    match s.wgOf w with
    | some x => x.ended.any fun n => !c.slices.any fun y => y.number == n
    | none => false
  | none => (((s.launch c.hedge c.lseq).bind (·.rotLost)).map fun n => decide (n ≤ c.n)).getD false

/-- A new copy. -/
def State.newCopy (s : State) (wg : Option Nat) (n : Nat) (rot started : Bool) : Copy × State :=
  (⟨s.nextId, s.focus.hedge, s.focus.lseq, wg, n, rot, [], started, false, false, []⟩,
    { s with nextId := s.nextId + 1 })

/-- The copy that a collective execution joins, made where there is none (R257, R265). -/
def State.collective (s : State) (rot : Bool) : Copy × State :=
  let g := s.focus
  let wg := if rot then none else some g.wg
  let n := if rot then g.rrots else g.cpys
  match s.copies.find? fun c =>
    c.hedge == g.hedge && c.lseq == g.lseq && c.wg == wg && c.rot == rot && c.n == n && !c.started with
  | some c => (c, s)
  | none => s.newCopy wg n rot false

/-- A collective slice is supplied, and its execution is counted (R257, R349). A workgroup joins at most 4 copies and
rotations that have not started (R258). -/
def State.supply (s : State) (e : Mask) (rot : Bool) (q : Option SliceReq) (pub : Bool) (sc : Scope) : Res State := do
  need (decide (s.focus.copiesOut < 16)) .wait
  let (c, t) := s.collective rot
  need (c.abandoned || (c.slices.any fun x => x.wg == s.focus.wg) || decide (s.joined s.focus.wg < 4)) .wait
  let t ← t.passFences true true
  let u := t.addSlice c (t.mkSlice e q pub sc)
  let u := match u.copies.find? fun y => y.id == c.id with
    | some y => if u.lacksEnded y then u.abandon c.id else u
    | none => u
  let count (g : Group) : Group :=
    if rot then { g with rrots := (g.rrots + 1) % 2 ^ 32 } else { g with cpys := (g.cpys + 1) % 2 ^ 32 }
  .ok { u with focus := count u.focus }

/-- A copy that has nothing left to do leaves the engine. -/
def State.settleCopy (s : State) (i : Nat) : State :=
  { s with copies := s.copies.filter fun c =>
      !(c.id == i && c.started && !c.abandoned && s.copyLanded c && c.slices.all Slice.readDone &&
        (c.published || !c.slices.any (·.pub))) }

/-- A copy of one slice starts at once (R263, R264). -/
def State.alone (s : State) (e : Mask) (q : SliceReq) (pub : Bool) (sc : Scope) : Res State := do
  need (decide (s.focus.copiesOut < 16)) .wait
  let t ← s.passFences true true
  let (c, u) := t.newCopy (some t.focus.wg) 0 false true
  .ok ((u.addSlice c (u.mkSlice e (some q) pub sc)).settleCopy c.id)

/-- The words that a checked pair compares: the S registers from those named (R170). -/
def Group.words (g : Group) (rs : List (Reg × Nat)) : List Word64 :=
  rs.flatMap fun r => (List.range r.2).map fun i => g.s (g.regIndex r.1 + i)

/-- The registers of a tensor descriptor that starts at a register (R254, R256). -/
def Group.descLen (g : Group) (a : Reg) : Nat :=
  let n := ((g.s (g.regIndex a)).extractLsb' 37 3).toNat
  3 + 2 * ((if n = 0 || n = 7 then 1 else n) - 1)

/-- CPY (R257). -/
def execCpy (g : Guard) (p : Bool) (scope : Scope) (a b : Reg) (s : State) : Host.Outcome State Fault Refusal :=
  s.paired g (fun e x => if e = 0 then [] else x.words [(a, x.descLen a), (b, 1)]) fun e t =>
    if e = 0 then t.supply e false none p scope
    else do
      let (q, src, dst) ← t.tensorReq a b none
      t.checkSlice t.focus false q src dst p
      t.supply e false (some q) p scope

/-- CPYS (R264). -/
def execCpys (g : Guard) (p : Bool) (scope : Scope) (a b c : Reg) (s : State) : Host.Outcome State Fault Refusal :=
  s.paired g (fun e x => if e = 0 then [] else x.words [(a, x.descLen a), (b, 1), (c, 1)]) fun e t =>
    if e = 0 then .ok t
    else do
      let (q, src, dst) ← t.tensorReq a b (some c)
      t.checkSlice t.focus true q src dst p
      t.alone e q p scope

/-- The number of lanes of E below a lane (R263). -/
def rankIn (e : Mask) (l : Nat) : Nat := ((lanesOf e).filter fun k => k < l).length

/-- CPYG (R263). -/
def execCpyg (g : Guard) (sc p : Bool) (scope : Scope) (a b c : Reg) (s : State) :
    Host.Outcome State Fault Refusal :=
  s.paired g (fun e x => if e = 0 then [] else
      x.words [(a, 4), (b, 1)] ++ (lanesOf e).map fun l => (x.lane (x.regIndex c) l).setWidth 64) fun e t =>
    if e = 0 then .ok t
    else do
      let gr := t.focus
      let a0 ← gr.sNum a 4
      let b0 ← gr.sNum b
      let v ← gr.vNum c
      gr.check [(v, .int)] [] [a0, a0 + 1, a0 + 2, a0 + 3, b0]
      let w := gr.s a0
      let len := (w.extractLsb' 0 32).toNat
      need (w.extractLsb' 32 8 == 0 && len != 0 && decide (len ≤ 65536)) (.plain .bufbound)
      let soff := (gr.s (a0 + 1)).toInt
      let doff := (gr.s (a0 + 2)).toInt
      let stride := (gr.s (a0 + 3)).toInt
      let runs := (lanesOf e).map fun l =>
        let r : Int := rankIn e l * len
        let i : Int := (gr.lane v l).toNat * stride
        if sc then Run.mk (soff + r) (doff + i) len else Run.mk (soff + i) (doff + r) len
      let q : SliceReq := ⟨(w.extractLsb' 52 12).toNat, (w.extractLsb' 40 12).toNat, .rows runs, gr.s b0,
        (List.range 4).map fun i => gr.s (a0 + i)⟩
      t.checkSlice gr false q (runsSpan (runs.map fun r => (r.src, r.len))) (runsSpan (runs.map fun r => (r.dst, r.len))) p
      t.alone e q p scope

/-- The launch of a rotation lies on one die and has n × P workgroups (R265). -/
def Launch.rotates (l : Launch) : Bool :=
  l.rect.dies != 3 && l.wgcount == 2 ^ l.rect.lw * 2 ^ l.rect.lh * l.p

/-- RROT (R265). -/
def execRrot (g : Guard) (scope : Scope) (a b c : Reg) (s : State) : Host.Outcome State Fault Refusal :=
  s.paired g (fun e x => if e = 0 then [] else x.words [(a, 1), (b, 1), (c, 1)]) fun e t =>
    if e = 0 then t.supply e true none false scope
    else do
      let gr := t.focus
      let a0 ← gr.sNum a
      let b0 ← gr.sNum b
      let c0 ← gr.sNum c
      gr.ready [] [a0, b0, c0] []
      let len := (gr.s a0).extractLsb' 32 32 |>.toNat
      let soff := (gr.s a0).extractLsb' 0 32 |>.toNat
      let doff := (gr.s c0).extractLsb' 0 32 |>.toNat
      let size := ((t.wgOf gr.wg).map (·.size)).getD 0
      need ((gr.s c0).extractLsb' 32 32 == 0 && len % 32 == 0 && soff % 32 == 0 && doff % 32 == 0 &&
        decide (soff + len ≤ size) && decide (doff + len ≤ size)) (.plain .bufbound)
      need (((t.launch gr.hedge gr.lseq).map Launch.rotates).getD false) (.plain .bufright)
      t.handleShape useAdd (gr.s b0)
      t.handleBuffer useAdd (gr.s b0)
      t.supply e true (some ⟨0xFFF, 0xFFF, .rows [⟨soff, doff, len⟩], gr.s b0, [gr.s a0, gr.s c0]⟩) false scope

/-! ## Starting -/

/-- Every group of the workgroup has supplied its slice or has retired (R257). -/
def State.allSupplied (s : State) (c : Copy) (w : Workgroup) : Bool :=
  let n := ((s.launch c.hedge c.lseq).map (·.groups)).getD 0
  (List.range n).all fun i =>
    (c.slices.any fun x => x.number == i && x.wg == w.id) ||
      (!c.rot && w.retired.contains i && !w.ended.contains i)

/-- The copy with an identity changed. -/
def State.mapCopy (s : State) (i : Nat) (f : Copy → Copy) : State :=
  { s with copies := s.copies.map fun c => if c.id == i then f c else c }

/-- COPY_START (R257). -/
def execCopyStart (c : Nat) (s : State) : Host.Outcome State Fault Refusal :=
  match s.copies.find? fun x => x.id == c with
  | some x =>
    match x.wg.bind s.wgOf with
    | some w =>
      if !x.started && !x.abandoned && !x.rot && s.allSupplied x w && !x.slices.any s.sliceHeld then
        .next (((s.mapCopy c fun y => { y with started := true }).mapWg w.id fun y =>
          { y with copies := (y.copies + 1) % 2 ^ 32 }).settleCopy c)
      else .next s
    | none => .next s
  | none => .next s

/-- The workgroups of a launch that are placed or saved. -/
def State.wgsOf (s : State) (h q : Nat) : List Workgroup := s.wgs.filter fun w => w.hedge == h && w.lseq == q

/-- A receiving offset that does not hold the bytes sent to it (R265). -/
def State.rotMisfit (s : State) (c : Copy) : Bool :=
  (List.range c.slices.length).any fun i =>
    (s.incoming c i).1.any fun p =>
      match (c.slices[i]?).bind fun x => s.wgOf x.wg with
      | some w => decide ((w.size : Int) < p.dst + p.len)
      | none => true

/-- The presence bits of a rotation that starts, now that each receiver's bytes are known: lines in which a sender's bytes
will land are absent, and those that the receiver's own length had cleared for nothing are present (R261, R265; log 38,
DEDUCED). -/
def State.rotLines (s : State) (i : Nat) : State :=
  match s.copies.find? fun c => c.id == i with
  | none => s
  | some c =>
    let owed := (List.range c.slices.length).flatMap fun k => match c.slices[k]? with
      | some x => (s.owedPieces c k).flatMap fun p => s.linesOf c.hedge x.dst p.dst p.len
      | none => []
    (s.absent1 owed.eraseDups).present1 ((c.slices.flatMap fun x => s.sliceLines c.hedge x).eraseDups)

/-- RROT_START: every group of every workgroup has supplied its slice (R265); a receiving offset that does not hold the
bytes abandons the rotation (R269). -/
def execRrotStart (c : Nat) (s : State) : Host.Outcome State Fault Refusal :=
  match s.copies.find? fun x => x.id == c, with_ s with
  | some x, some l =>
    let ws := s.wgsOf x.hedge x.lseq
    if !x.started && !x.abandoned && x.rot && ws.length == l.wgcount && ws.all (fun w => s.allSupplied x w) &&
        !x.slices.any s.sliceHeld then
      let t := s.mapCopy c fun y => { y with started := true }
      let t := ws.foldl (fun u w => u.mapWg w.id fun y => { y with rots := (y.rots + 1) % 2 ^ 32 }) t
      if t.rotMisfit { x with started := true } then .next (t.abandon c) else .next ((t.rotLines c).settleCopy c)
    else .next s
  | _, _ => .next s
where
  /-- The launch of the rotation. -/
  with_ (s : State) : Option Launch :=
    (s.copies.find? fun x => x.id == c).bind fun x => s.launch x.hedge x.lseq

/-! ## Engine reads (R261, R262) -/

/-- The place of a source byte, or none while it does not resolve or another launch's speculation holds it (R250, R269,
R401). -/
def State.sourcePlace (s : State) (h : Hedge) (lseq : Nat) (d : Side2) (off : Int) : Option Place :=
  match d with
  | .own w => some (.scratch w off.toNat)
  | .region die q =>
    match s.regionAt h.p.id q die off.toNat with
    | some (.scratch w o) => if w = 0 then none else some (.scratch w o)
    | _ => none
  | .buf i =>
    match h.entry i with
    | none => none
    | some e =>
      if e.fabred then some (.red e.aux off.toNat)
      else if h.otherSpec lseq ((e.vbase + off.toNat) % 2 ^ 64) then none
      else
        match s.hubTranslate h ((e.vbase + off.toNat) % 2 ^ 64) needR with
        | some (pa, nc) => some (h.memPlace (s.specAt h.p.id lseq) lseq e ((e.vbase + off.toNat) % 2 ^ 64) nc pa)
        | none => none

/-- The virtual address of an offset of a side that lies in memory. -/
def Hedge.sideVa (h : Hedge) (d : Side2) (off : Int) : Option Nat :=
  match d with
  | .buf i => (h.entry i).bind fun e => if e.fabred then none else some ((e.vbase + off.toNat) % 2 ^ 64)
  | .own _ | .region _ _ => none

/-- An engine's access to bytes of a side waits: where MIGR meets it the home asks for a frame that another package owns (R269,
R370, R373). -/
def State.sideAsks (s : State) (h : Hedge) (d : Side2) (n : Need) (offs : List Int) : State :=
  (offs.filterMap (h.sideVa d)).foldl (fun t va => t.askFound (s.find h va n)) s

/-- An engine accesses bytes of a side (R357). -/
def State.sideReaches (s : State) (h : Hedge) (d : Side2) (offs : List Int) : State := s.hubReaches h (offs.filterMap (h.sideVa d))

/-- A scratch line that an engine read waits for: absent, and not for the sake of the same copy alone (R261). -/
def State.readWaits (s : State) (i : Nat) : Place → Bool
  | .scratch w o =>
    s.scratchAbsent w o &&
      ((s.copies.any fun c => c.id != i && s.owesLine c (w, o / 128)) ||
        !(s.copies.any fun c => c.id == i && s.owesLine c (w, o / 128)))
  | _ => false

/-- An engine's path to memory: at the home (R324). -/
def engineVia (hedge : Nat) : Via := ⟨0, 0, hedge, true⟩

/-- The physical core of a workgroup: of a saved one, the core that runs its logical core. -/
def State.wgCore (s : State) (h : Hedge) (w : Nat) : Nat :=
  match s.wgOf w with
  | some x => x.core.getD (h.map.getD x.lcore 0)
  | none => 0

/-- What an engine's access does to the caches: it reads through the die L2, or at the home where a page is held by
neither, and writes at the home (R307, R318, R324, R365). -/
def State.engineTouch (s : State) (h : Hedge) (core : Nat) (wr : Bool) (ps : List Place) : State :=
  ((accLines false ps).foldl (fun t x =>
    if wr || x.1 == .home then t.homeAccess h.p.id (x.2 * 128) (!wr) wr else t.readL2 (dieOf core) h.p.id (x.2 * 128)) s).see
    (dieAgents (dieOf core)) (ps.filterMap placePa)

/-- UNCORR or SDC of engine work for the group of a slice (R269, R342). -/
def Slice.late (x : Slice) (code : FaultCode) : LateFault := ⟨code, x.idx, x.off, x.word, x.mask⟩

/-- Every contributing group that has not retired stops at its next boundary, which rolls the hedge back (R269); where
none of them is on a core, the rollback follows at once. -/
def State.engineError (s : State) (c : Copy) (code : FaultCode) (pa : Nat) : State :=
  let xs := c.slices.filter fun x => ((s.group x.group).bind (·.seat)).isSome
  if xs.isEmpty then s.askRollback c.hedge (if code == .sdc then .sdc else .uncorr) (.home pa)
  else xs.foldl (fun u x => u.mapGroup x.group fun g => { g with lateFault := some (x.late code) }) s

/-- A slice of a copy changed. -/
def Copy.mapSlice (c : Copy) (i : Nat) (f : Slice → Slice) : Copy :=
  { c with slices := c.slices.zipIdx.map fun p => if p.2 == i then f p.1 else p.1 }

/-- ENGINE_READ of one source sector, in one access of 32 bytes (R262). -/
def execEngineRead (c slice : Nat) (sector : Int) (s : State) : Host.Outcome State Fault Refusal :=
  match s.copies.find? fun x => x.id == c with
  | none => .next s
  | some x =>
    match x.slices[slice]?, s.hedge x.hedge with
    | some y, some h =>
      if !x.started || x.abandoned || s.sliceHeld y || !y.sectors.contains sector || (find1 y.got sector).isSome then .next s
      else
        match (List.range 32).mapM fun (i : Nat) => s.sourcePlace h x.lseq y.src (32 * sector + i) with
        | none => .next (s.sideAsks h y.src needR [32 * sector, 32 * sector + 31])
        | some ps =>
          if ps.any (s.readWaits c) || s.torn ps then .next s
          else
            match s.consumeFault ps with
            | some code => .next (s.engineError x code (((ps.filterMap placePa).head?).getD 0))
            | none =>
              let bs := ps.map (s.placeByte (engineVia x.hedge) s.focus)
              let t := (s.sideReaches h y.src [32 * sector, 32 * sector + 31]).engineTouch h (s.wgCore h y.wg) false ps
              let y' := { y with got := y.got ++ [(sector, bs)] }
              let t := t.mapCopy c fun z => z.mapSlice slice fun _ => y'
              let t := if y'.readDone then t.mapGroup y.group fun g =>
                { g with pend := g.pend.filter fun o => o.id != y.op } else t
              .next (t.settleCopy c)
    | _, _ => .next s

/-! ## Landing (R259, R260, R266) -/

/-- Where a landing byte goes: a place, or the unpublished layer of a PUB page (R266). -/
inductive Spot where
  | at_ (p : Place)
  | unpub (pa : Nat)
  deriving DecidableEq, Repr

/-- The spot of a destination byte, or none while it waits (R250, R266, R269, R398, R399, R401). -/
def State.spot (s : State) (h : Hedge) (lseq : Nat) (d : Side2) (off : Int) : Option Spot :=
  match d with
  | .own w => some (.at_ (.scratch w off.toNat))
  | .region die q =>
    match s.regionAt h.p.id q die off.toNat with
    | some (.scratch w o) => if w = 0 then none else some (.at_ (.scratch w o))
    | _ => none
  | .buf i =>
    match h.entry i with
    | none => none
    | some e =>
      let page := off.toNat / 4096
      let va := (e.vbase + off.toNat) % 2 ^ 64
      if h.otherSpec lseq va then none
      else
        match s.hubTranslate h va needW with
        | none => none
        | some (pa, _) =>
          match s.specAt h.p.id lseq with
          | some x =>
            if x.wset.contains i && !x.done.contains (i, page) then some (.at_ (.spec lseq pa))
            else some (if e.pub then .unpub pa else .at_ (.home pa))
          | none => some (if e.pub then .unpub pa else .at_ (.home pa))

/-- The shadow page that a spot makes: layer and page. -/
def State.spotPage (s : State) (h : Nat) : Spot → Option (Option Nat × Nat)
  | .unpub pa => if (s.shadow h none (pa / 4096)).isSome then none else some (none, pa / 4096)
  | .at_ (.spec q pa) => if (s.shadow h (some q) (pa / 4096)).isSome then none else some (some q, pa / 4096)
  | .at_ _ => none

/-- The line that a landing at a spot enters in the interval log (R405). -/
def Spot.logged : Spot → Option (Option (Option Nat) × Nat)
  | .unpub pa => some (some none, pa)
  | .at_ p => p.logged

/-- The interval log has room for landings (R405). -/
def State.spotsLog (s : State) (xs : List Spot) : Bool := s.logFits (xs.filterMap Spot.logged)

/-- The landing finds room: the shadow quota, the interval log, the stalled-write window (R266, R368, R405). -/
def State.spotsRoom (s : State) (h : Hedge) (xs : List Spot) : Bool :=
  let new := (xs.filterMap (s.spotPage h.p.id)).eraseDups
  (new.isEmpty || decide (s.shadowsOf h.p.id + new.length ≤ h.p.shadowQuota)) && s.spotsLog xs &&
    xs.all fun x => match x with
      | .at_ (.home pa) => s.windowRoom pa
      | _ => true

/-- The bytes of memory that a landing writes at their homes. -/
def Spot.merged : Spot → Option Nat
  | .at_ (.home pa) => some pa
  | .at_ _ | .unpub _ => none

/-- A byte landed. -/
def State.landByte (s : State) (h : Nat) (x : Spot) (b : Byte) : State :=
  match x with
  | .unpub pa => s.shadowWrite h none pa b
  | .at_ (.spec q pa) => s.shadowWrite h (some q) pa b
  | .at_ (.scratch w o) => s.scratchWrite w o b
  | .at_ (.home pa) | .at_ (.mem pa) => s.homeWrite pa b
  | .at_ _ => s

/-- A byte that has been read, by its source offset (R262). -/
def Slice.byteAt (x : Slice) (off : Int) : Option Byte :=
  (find1 x.got (off / 32)).bind fun bs => bs[(off % 32).toNat]?

/-- The bytes of a piece: read, or the fill value (R255, R264). -/
def Slice.pieceBytes (y : Slice) (p : Piece) : Option (List Byte) :=
  match y.geom with
  | .fill _ _ _ v => some ((List.range p.len).map fun (i : Nat) => v.getD ((p.dst + i) % (v.length : Int)).toNat 0)
  | .tensor _ _ _ _ | .rows _ => (List.range p.len).mapM fun (i : Nat) => y.byteAt (p.src + i)

/-- The virtual address of the word that a class 3 handle of this package names. -/
def Hedge.handleVa (h : Hedge) (x : Word64) : Option Nat :=
  if handleClass x != 3 || handlePeer x != 0 then none
  else (h.entry (handleIndex x / 65536)).map fun e => (e.vbase + 8 * handleWord x) % 2 ^ 64

/-- The counter of a handle as an agent without a core resolves it: class 3 through the buffer and its page (R256, R269,
R334). -/
def State.handleAt (s : State) (h : Hedge) (group : Nat) (x : Word64) (n : Need := needCtr) : Option CtrRef :=
  let i := handleIndex x
  match handleClass x with
  | 0 => some (.here (.c0 group i))
  | 1 => some (.here (.c1 h.p.id (i / 512) (i % 512)))
  | 2 => some (.here (.c2 h.p.id (i / 8192) (i % 8192)))
  | _ =>
    if handlePeer x != 0 then some (.peer x)
    else (h.handleVa x).bind fun va => (s.hubTranslate h va n).map fun p => .here (.c3 p.1)

/-- The page of a handle's word is gone: not only refusing accesses with MIGR (R269, R370). -/
def State.handleLost (s : State) (h : Hedge) (x : Word64) : Bool :=
  handleClass x == 3 && handlePeer x == 0 && ((h.handleVa x).all fun va => s.find h va needCtr == .missing)

/-- A completion add waits for the page of its counter (R269, R373). -/
def State.handleAsks (s : State) (h : Hedge) (x : Option Word64) : State :=
  ((x.bind h.handleVa).map fun va => s.askFound (s.find h va needCtr)).getD s

/-- The speculative launch that a chunk's add belongs to, with the page of its chunk (R401). -/
def State.chunkSpec (s : State) (c : Copy) (y : Slice) (chunk : Int) : Option (Nat × Option (Nat × Nat)) :=
  (s.specAt c.hedge c.lseq).map fun x =>
    (c.lseq, match y.dst with
      | .buf i => if x.wset.contains i then some (i, (512 * chunk).toNat / 4096) else none
      | .own _ | .region _ _ => none)

/-- The release that a completion add of a slice is: at its SCOPE, with a tag where that is narrower than RECT (R260,
R322). -/
def State.completionRel (s : State) (h : Hedge) (y : Slice) : Option RelTag :=
  if narrowScope y.scope then some ⟨s.wgCore h y.wg, h.p.id, y.scope == .core⟩ else none

/-- The completion adds of chunks of a slice set out (R259, R260, R267). -/
def State.sendAdds (s : State) (h : Hedge) (c : Copy) (i : Nat) (y : Slice) (target : CtrRef) (chunks : List Int) : State :=
  let rel := s.completionRel h y
  let t := { s with adds := s.adds ++ chunks.map fun k => AddReq.mk target c.hedge (s.chunkSpec c y k) 1 none (some rel) false }
  t.mapCopy c.id fun z => z.mapSlice i fun w => { w with added := w.added ++ chunks }

/-- The cores of a slice's SCOPE (R292, R324): its own, and those of the hedge that the scope takes in. -/
def State.sliceCores (s : State) (h : Hedge) (c : Copy) (y : Slice) : List Nat :=
  let own := s.wgCore h y.wg
  let g := (s.group y.group).getD { Group.start y.group 0 0 0 with hedge := c.hedge, lseq := c.lseq, wg := y.wg }
  own :: h.physical.filter fun k => k != own && s.inScope g (sidedScope y.scope) k

/-- A full interval log asks for a snapshot (R405). -/
def State.askSnap (s : State) (h : Nat) (xs : List Spot) : State := if s.spotsLog xs then s else s.wantSnap h

/-- A load, store or atomic that passed its presence check before the lines were cleared is still to be performed: a copy
is ordered after it (R132). -/
def State.passedAccess (s : State) (lines : List (Nat × Nat)) : Bool :=
  s.groups.any fun g => g.pend.any fun o => o.isAccess && o.accs.any fun x => x.places.any fun p => match p with
    | .scratch w off => lines.contains (w, off / 128)
    | _ => false

/-- Pieces of one sector that overlap. -/
def piecesOverlap : List Piece → Bool
  | [] => false
  | p :: ps => (ps.any fun q => decide (p.dst < q.dst + q.len) && decide (q.dst < p.dst + p.len)) || piecesOverlap ps

/-- The order in which the pieces of a sector are written: where two give a byte, either may be last, and a free value says
which (R255; log 36, DEDUCED). -/
def State.pieceOrder (s : State) (ps : List Piece) : List Piece × State :=
  if piecesOverlap ps then
    let k := (s.free 32).1.toNat % ps.length
    (ps.drop k ++ ps.take k, (s.free 32).2)
  else (ps, s)

/-- The spots of pieces, or none while one of them waits. -/
def State.spotsOf (s : State) (h : Hedge) (c : Copy) (y : Slice) (ps : List Piece) : Option (List Spot) :=
  (ps.mapM fun p => (List.range p.len).mapM fun (i : Nat) => s.spot h c.lseq y.dst (p.dst + i)).map List.flatten

/-- The place in memory of a spot that engines write at its home. -/
def Spot.home : Spot → Option Place
  | .at_ p => (placePa p).map Place.home
  | .unpub _ => none

/-- A chunk of a slice has landed: the copies of its lines in L1s and quarter buffers of the scope are discarded, and then
its add sets out, but under P (R259, R260, R267, R324). -/
def State.chunkDone (s : State) (h : Hedge) (c : Copy) (i : Nat) (y : Slice) (k : CtrRef) (chunk : Int) (xs : List Spot) :
    State :=
  let lines := ((xs.filterMap Spot.home).filterMap placePa).map (· / 128) |>.eraseDups
  let t := s.mapCopy c.id fun z => z.mapSlice i fun w => { w with landed := w.landed ++ [chunk] }
  let t := t.discard c.hedge (t.sliceCores h c y) lines
  if y.pub then t else t.sendAdds h c i y k [chunk]

/-- CHUNK_LAND: the destination bytes of a slice in one sector of a chunk are written in one access, once every source byte
of the chunk is read (R260, R269) and what R132 orders before the copy is performed; with the last sector the chunk has
landed (R259 to R261, R266, R267). -/
def execChunkLand (c slice : Nat) (sector : Int) (s : State) : Host.Outcome State Fault Refusal :=
  match s.copies.find? fun x => x.id == c with
  | none => .next s
  | some x =>
    match x.slices[slice]?, s.hedge x.hedge with
    | some y, some h =>
      let (all, from_) := s.incoming x slice
      let chunk := sector / 16
      let mine := all.filter fun p => p.chunk == chunk
      let (ps, s') := s.pieceOrder (mine.filter fun p => p.sector == sector)
      let offs := ps.flatMap fun (p : Piece) => [p.dst, p.dst + (p.len : Int) - 1]
      if !x.started || x.abandoned || ps.isEmpty || y.put.contains sector || s.sliceHeld y ||
          (x.rot && !x.slices.all Slice.readDone) then .next s
      else
        let src := x.slices[from_]?
        let read := (src.bind fun z => mine.mapM z.pieceBytes).isSome
        match src.bind fun z => ps.mapM z.pieceBytes, s.spotsOf h x y ps, y.handle.bind (s.handleAt h y.group) with
        | some ds, some xs, some k =>
          let places := xs.filterMap fun z => match z with
            | .at_ p => some p
            | .unpub _ => none
          if !read || s.passedAccess (placeLines places) then .next s
          else if !s.spotsRoom h xs then .next (s.askSnap x.hedge xs)
          else if (s.mergeError (xs.filterMap Spot.merged)).isSome then
            match s.mergeError (xs.filterMap Spot.merged) with
            | some (o, a) => .next (s.askRollback o .sdc (.home a))
            | none => .next s
          else
            let t := s'.hubReaches h ((y.handle.bind h.handleVa).toList ++ offs.filterMap (h.sideVa y.dst))
            let t := t.engineTouch h (s.wgCore h y.wg) true (xs.filterMap Spot.home)
            let t := (xs.zip ds.flatten).foldl (fun u p => u.landByte x.hedge p.1 p.2) t
            let t := t.mapCopy c fun z => z.mapSlice slice fun w => { w with put := w.put ++ [sector] }
            let t := t.present1 (placeLines places)
            let left := mine.any fun p => p.sector != sector && !y.put.contains p.sector
            let t := if left then t else t.chunkDone h x slice y k chunk ((s.spotsOf h x y mine).getD xs)
            .next (t.settleCopy c)
        | _, _, _ => .next ((s.sideAsks h y.dst needW offs).handleAsks h y.handle)
    | _, _ => .next s

/-! ## Publish (R266 to R268, R399) -/

/-- A page of a PUB buffer: its physical page; none while it waits for another launch's speculation or does not translate
(R399, R401). -/
def State.pubPage (s : State) (h : Hedge) (lseq buf : Nat) (j : Nat) : Option Nat :=
  match h.entry buf with
  | none => none
  | some e =>
    if h.otherSpec lseq (pageVa e.vbase j) then none
    else (s.hubTranslate h (pageVa e.vbase j) needNone).map fun p => p.1 / 4096

/-- A page to publish: buffer, page of the buffer, the scope of the publish and the core that it releases for. -/
structure PubPage where
  buf : Nat
  page : Nat
  scope : Scope
  core : Nat
  deriving DecidableEq, Repr

/-- A shadow frame of a page becomes the page, in one step for every observer, as a release at a scope: die L2 copies and
the copies of its lines in the hedge's L1s and quarter buffers go, and the page's release tags are those of the scope (R266,
R307, R322, R326, R402, R426). -/
def State.publishAs (s : State) (h : Nat) (layer : Option Nat) (page : Nat) (sc : Scope) (core : Nat) : State :=
  match s.shadow h layer page with
  | none => s
  | some _ =>
    let new := s.shadowDiff h layer page
    let t := (s.publishShadow h layer page).see (dieAgents (dieOf core)) new
    let t := t.discard h (((t.hedge h).map (·.physical)).getD []) ((List.range 32).map fun i => page * 32 + i)
    let t := (List.range 32).foldl (fun u i => u.recall none (page * 4096 + 128 * i) true) t
    (List.range 8).foldl (fun u i => u.tagStore (page * 4096 + 512 * i) (some sc) sc core h) t

/-- A publish of a page: held with the launch when it may still be discarded, otherwise the shadow frame becomes the
published one (R266, R399). -/
def State.publish1 (s : State) (h : Nat) (lseq : Nat) (p : PubPage) (page : Nat) : State :=
  match s.specAt h lseq with
  | some x =>
    if x.wset.contains p.buf && !x.done.contains (p.buf, p.page) then
      s.mapLaunch h lseq fun l => { l with spec := l.spec.map fun y =>
        { y with held := if y.held.contains (p.buf, p.page) then y.held else y.held ++ [(p.buf, p.page)] } }
    else s.publishAs h none page p.scope p.core
  | none => s.publishAs h none page p.scope p.core

/-- The pages of P slices of a copy; a page of several is published at a narrow scope where one of them has one, whose tag
then lets every wider acquire promote it (R267, R322). -/
def State.pubPages (s : State) (c : Copy) (h : Hedge) : List PubPage :=
  let all := (c.slices.filter (·.pub)).flatMap fun y => match y.dst with
    | .buf i =>
      match h.entry i with
      | some e =>
        if e.pub then (pagesOf e.vbase (y.geom.runs.map fun r => (r.dst, r.len))).map fun j =>
          PubPage.mk i j y.scope (s.wgCore h y.wg)
        else []
      | none => []
    | .own _ | .region _ _ => []
  let first (ps : List PubPage) : List PubPage :=
    ps.foldl (fun acc p => if acc.any fun q => q.buf == p.buf && q.page == p.page then acc else acc ++ [p]) []
  first ((all.filter fun p => narrowScope p.scope) ++ all)

/-- Pages to publish with their physical pages, where every one of them resolves (R269). -/
def State.pagesAt (s : State) (h : Hedge) (lseq : Nat) (pages : List PubPage) : Option (List (PubPage × Nat)) :=
  pages.mapM fun p => (s.pubPage h lseq p.buf p.page).map fun x => (p, x)

/-- A page of a publish has to wait for room in the interval log (R405). -/
def State.logShort (s : State) (h : Hedge) (ps : List (PubPage × Nat)) : Bool :=
  ps.any fun p => !s.pageRoom h none p.2 && !s.inCopy (p.2 * 4096)

/-- Pages published together, in one step, where every one of them resolves and has room. -/
def State.publishAll (s : State) (h : Hedge) (lseq : Nat) (pages : List PubPage) : Option State := do
  let ps ← s.pagesAt h lseq pages
  if ps.all fun p => s.pageRoom h none p.2 || (s.shadow h.p.id none p.2).isNone then
    some (ps.foldl (fun t p => t.publish1 h.p.id lseq p.1 p.2) s)
  else none

/-- A publish that does not find room in the interval log asks for a snapshot (R403, R405). -/
def State.publishWaits (s : State) (h : Hedge) (lseq : Nat) (pages : List PubPage) : State :=
  if ((s.pagesAt h lseq pages).map (s.logShort h)).getD false then s.wantSnap h.p.id else s

/-- COPY_PUBLISH: once every chunk of every slice has landed, the pages of the slices with P are published in one step,
as a release at their scopes, and their adds are sent (R266, R267, R326). -/
def execCopyPublish (c : Nat) (s : State) : Host.Outcome State Fault Refusal :=
  match s.copies.find? fun x => x.id == c with
  | none => .next s
  | some x =>
    match s.hedge x.hedge with
    | none => .next s
    | some h =>
      if !x.started || x.abandoned || x.published || !x.slices.any (·.pub) || !s.copyLanded x then .next s
      else
        let targets := x.slices.mapM fun y =>
          if y.pub then (y.handle.bind (s.handleAt h y.group)).map some else some none
        match targets, s.publishAll h x.lseq (s.pubPages x h) with
        | some ts, some t =>
          let t := t.mapCopy c fun z => { z with published := true }
          let t := (x.slices.zip ts).zipIdx.foldl (fun u p => match p.1.2 with
            | some k => u.sendAdds h x p.2 p.1.1 k p.1.1.landed
            | none => u) t
          .next (t.settleCopy c)
        | some _, none => .next (s.publishWaits h x.lseq (s.pubPages x h))
        | none, _ => .next (x.slices.foldl (fun t y => if y.pub then t.handleAsks h y.handle else t) s)

/-- A byte of a copy that cannot be resolved: a source sector, a landing, or the word of its counter, whose translation fails;
MIGR is only waited for (R269, R370). -/
def State.unresolved (s : State) (h : Hedge) (c : Copy) : Bool :=
  (List.range c.slices.length).any fun i =>
    match c.slices[i]? with
    | none => false
    | some y =>
      let lost (d : Side2) (n : Need) (off : Int) : Bool :=
        match d with
        | .buf b =>
          match h.entry b with
          | none => true
          | some e => !e.fabred && s.find h ((e.vbase + off.toNat) % 2 ^ 64) n == .missing
        | .own _ | .region _ _ => false
      (y.sectors.any fun k => (find1 y.got k).isNone && lost y.src needR (32 * k)) ||
        ((s.owedPieces c i).any fun p => lost y.dst needW p.dst || lost y.dst needW (p.dst + p.len - 1)) ||
        ((s.chunks c i).any (fun k => !y.added.contains k) && (y.handle.map (s.handleLost h)).getD false)

/-- COPY_ABANDON: the owning service core gives up a translation of a started copy (R269). -/
def execCopyAbandon (c : Nat) (s : State) : Host.Outcome State Fault Refusal :=
  match s.copies.find? fun x => x.id == c with
  | none => .next s
  | some x =>
    match s.hedge x.hedge with
    | none => .next s
    | some h => if x.started && !x.abandoned && s.unresolved h x then .next (s.abandon c) else .next s

/-- PUBL (R268, R400). -/
def execPubl (g : Guard) (scope : Scope) (a b c : Reg) (s : State) : Host.Outcome State Fault Refusal :=
  s.paired g (fun e x => if e = 0 then [] else x.words [(a, 1), (b, 1), (c, 1)]) fun e t =>
    if e = 0 then .ok t
    else do
      let gr := t.focus
      let a0 ← gr.sNum a
      let b0 ← gr.sNum b
      let c0 ← gr.sNum c
      gr.ready [] [a0, b0, c0] []
      let iw := gr.s a0
      let idx := iw.toNat % 4096
      let lo := (gr.s b0).toNat
      let len := (gr.s c0).toNat
      let bad (f : FaultCode) : Stop :=
        .fault { code := f, acc := 1, va := t.bufVa gr.hedge idx lo, off := (gr.s b0).toInt, buf := idx }
      need (iw.toNat < 4096 && !(0xFF0 ≤ idx && idx ≤ 0xFFB)) (bad .bufidx)
      need (idx < 0xFFC) (bad .bufright)
      match (t.hedge gr.hedge).bind fun h => h.entry idx with
      | none => .error (bad .bufidx)
      | some e' =>
        need (len == 0 || decide (lo + len ≤ e'.len)) (bad .bufbound)
        need (e'.pub && e'.w && e'.owner == gr.hedge) (bad .bufright)
        need (len == 0 || ((t.specOf gr).map fun x => x.wset.contains idx).getD true) (bad .specviol)
        need (decide (gr.copiesOut < 16)) .wait
        let u ← t.passFences true true
        if len = 0 && u.focus.role == .single then .ok u
        else
          .ok { u with focus := { u.focus.nextId with
            pend := u.focus.pend ++ [{ u.newOp (if len = 0 then .none else .copy) (.publ lo len) e with
              writes := true, strong := true, rel := true, scope := sidedScope scope, buf := idx }] } }

/-- A copy that a group issued or contributed to before PUBL still has bytes to land in its range, or may have: slices are
still to come of one that has not started (R268). -/
def State.publWaits (s : State) (g : Group) (o : Op) (lo len : Nat) : Bool :=
  s.copies.any fun c =>
    !c.abandoned && c.slices.any (fun y => y.group == g.id && decide (y.op < o.id)) &&
      (!c.started || (List.range c.slices.length).any fun i =>
        match c.slices[i]? with
        | some y => y.dst == .buf o.buf && (s.owedPieces c i).any fun p =>
            decide (p.dst < (lo + len : Nat)) && decide ((lo : Int) < p.dst + p.len)
        | none => false)

/-- The pages of PUBL's range (R268). -/
def State.publPages (s : State) (h : Hedge) (g : Group) (o : Op) (lo len : Nat) : List PubPage :=
  (pagesOf (((h.entry o.buf).map (·.vbase)).getD 0) [((lo : Int), len)]).map fun j =>
    PubPage.mk o.buf j (scopeKind o.scope) (s.coreOf g)

/-- A copy, or PUBL of a group, has landed or performed what it can while the interval log has no room: the rest waits at its
homes for the snapshot, which R403 takes when a log is full (R405; log 46, DEDUCED). -/
def State.copyHeld (s : State) (h : Hedge) (c : Copy) : Bool :=
  let owed := (List.range c.slices.length).flatMap fun i => match c.slices[i]? with
    | some y => (s.owedPieces c i).map fun p => (y, p)
    | none => []
  c.slices.all Slice.readDone && (if owed.isEmpty then
      ((s.pagesAt h c.lseq (s.pubPages c h)).map (s.logShort h)).getD false
    else owed.all fun x => ((s.spotsOf h c x.1 [x.2]).map fun xs => !s.spotsLog xs).getD false)

end Sys2Proof.Machine
end

