-- ==== Sys2Proof/Machine/Matrix.lean ====
section
/-! DEFINITION. Row 12, the matrix engine, tiles and the bank-side units (spec 09 R221 to R248; spec 02 R67 to R70). -/

namespace Sys2Proof.Machine

/-! ## Formats (R67, R228) -/

/-- Bits of a matrix element. -/
def matBits : MatFmt → Nat
  | .f64 => 64
  | .f16 | .bf16 => 16
  | .e4m3 | .e5m2 | .i8 | .n8 => 8
  | .e2m1 | .i4 | .n4 => 4

/-- The floating-point format of a code; none for the integer codes. -/
def matFp : MatFmt → Option FpFmt
  | .f64 => some .f64
  | .f16 => some .f16
  | .bf16 => some .bf16
  | .e4m3 => some .e4m3
  | .e5m2 => some .e5m2
  | .e2m1 => some .e2m1
  | .i8 | .n8 | .i4 | .n4 => none

/-- An unsigned integer code. -/
def matUnsigned (f : MatFmt) : Bool := f == .n8 || f == .n4

/-- The tile tag of the accumulator of a class (R228). -/
def accTag : MatFmt → Tag
  | .f64 => .dLo
  | .f16 | .bf16 | .e4m3 | .e5m2 | .e2m1 => .f32
  | .i8 | .n8 | .i4 | .n4 => .i32

/-- Chunk width w (R67). -/
def chunkWidth : MatFmt → Nat
  | .f64 => 4
  | .f16 | .bf16 => 8
  | .e4m3 | .e5m2 | .i8 | .n8 => 16
  | .e2m1 | .i4 | .n4 => 32

/-- K with 0 for 64 (R227). -/
def mmaDepth (m : MmaArg) : Nat := if m.k = 0 then 64 else m.k.toNat

/-- N (R227). -/
def mmaCols (m : MmaArg) : Nat := m.n1.toNat + 1

/-- Element j of a row's bytes (R225). -/
def elemAt (bits : Nat) (row : List Byte) (j : Nat) : Nat :=
  if bits = 4 then (row.getD (j / 2) 0).toNat / 2 ^ (4 * (j % 2)) % 16
  else leNat ((row.drop (j * bits / 8)).take (bits / 8))

/-! ## Operands in scratch (R224 to R226) -/

/-- The packed pitch of a row of n elements (R225). -/
def packedPitch (n bits : Nat) : Nat := 32 * ((n * bits + 255) / 256)

/-- The places of one byte of an operand by WIN and offset. -/
def State.operandByte (s : State) (g : Group) (win : Bool) (off : Nat) : Option Place :=
  if win then s.regionByte g off
  else if off < ((s.wgOf g.wg).map (·.size)).getD 0 then some (.scratch g.wg off) else none

/-- An operand's rows as the places of their bytes, and a place in every line of its footprint, gaps between rows among
them, after the checks of R226; `fixed` refuses an explicit pitch (R246). -/
def State.operand (s : State) (g : Group) (w : Word64) (rows elems bits : Nat) (fixed : Bool) :
    Res (List (List Place) × List Place) := do
  let bad : Stop := .plain .bufbound
  let pitch0 := (w.extractLsb' 32 16).toNat
  let off := (w.extractLsb' 0 32).toNat
  let win := w.getLsbD 63
  need (w.extractLsb' 48 15 == 0 && off % 32 == 0 && pitch0 % 32 == 0 && !(fixed && pitch0 != 0)) bad
  let pitch := if pitch0 = 0 then packedPitch elems bits else pitch0
  let len := (elems * bits + 7) / 8
  let size := (rows - 1) * pitch + len
  need (!win || decide (off % 2 ^ 22 + size ≤ 2 ^ 22)) bad
  need ((s.operandByte g win off).isSome && (s.operandByte g win (off + size - 1)).isSome) bad
  let at_ (o : Nat) : Place := (s.operandByte g win o).getD (.scratch 0 0)
  .ok ((List.range rows).map fun q => (List.range len).map fun i => at_ (off + q * pitch + i),
    (blocksOf off size 128).map fun (b : Int) => at_ (max off (128 * b.toNat)))

/-! ## Batches (R232, R233) -/

/-- An empty batch. -/
def Batch.empty : Batch := ⟨[], 0, [], []⟩

/-- The open batch is committed; a batch that only a saved one left is retired at once (R233, R242). -/
def Group.commit (g : Group) : Group :=
  if g.openBatch.count = 0 then { g with restored := [] }
  else { g with batches := g.batches ++ [g.openBatch], openBatch := Batch.empty, restored := [] }

/-- MMA (R227 to R232). -/
def execMma (g : Guard) (m : MmaArg) (s : State) : Host.Outcome State Fault Refusal :=
  s.issueS g fun e t => do
    let gr := t.focus
    let n ← gr.aNum m.t
    let a ← gr.sDirect m.sa
    let b ← gr.sDirect m.sb
    gr.ready [] [a, b] []
    let tag := (gr.tile n).tag
    need (m.z || tag == .raw || tag == accTag m.fa) (.plain .tagmis)
    let (as, af) ← t.operand gr (gr.s a) 32 (mmaDepth m) (matBits m.fa) false
    let (bs, bf) ← if m.tb then t.operand gr (gr.s b) (mmaCols m) (mmaDepth m) (matBits m.fb) false
      else t.operand gr (gr.s b) (mmaDepth m) (mmaCols m) (matBits m.fb) false
    t.present (af ++ bf)
    need (!gr.tileStored n) .wait
    need (gr.openBatch.count < 256 || decide (gr.batches.length < 8)) .wait
    let u ← t.passFences false true
    let x := if u.focus.openBatch.count < 256 then u.focus else u.focus.commit
    let op : MmaOp := ⟨x.nextOp, m, n, e, as, bs, gr.s a, gr.s b, gr.position.1, gr.clauseOff, gr.position.2⟩
    let ob := x.openBatch
    .ok { u with focus := { x.setTileTag n (accTag m.fa) with
      nextOp := x.nextOp + 1
      openBatch := { ob with
        tiles := if ob.tiles.contains n then ob.tiles else ob.tiles ++ [n]
        count := ob.count + 1
        mmas := ob.mmas ++ [op] } } }

/-- MCOMMIT (R233). -/
def execMcommit (g : Guard) (s : State) : Host.Outcome State Fault Refusal :=
  s.issue g fun _ gr => do
    need (gr.openBatch.count == 0 || decide (gr.batches.length < 8)) .wait
    .ok gr.commit

/-- MWAIT (R234). -/
def execMwait (g : Guard) (n : BitVec 3) (s : State) : Host.Outcome State Fault Refusal :=
  s.issue g fun _ gr => .ok { gr with mwait := some (min n.toNat (gr.mwait.getD n.toNat)) }

/-! ## Performing an MMA (R229, R231, R237) -/

/-- The exact product of two floating-point elements. -/
def fpProduct (fa fb : FpFmt) (x y : Nat) : Option FVal := (fa.value x).mul (fb.value y)

/-- The chunks of a list. -/
def chunksOf (w : Nat) : Nat → List (Option FVal) → List (List (Option FVal))
  | 0, _ => []
  | n + 1, xs => if xs.isEmpty then [] else xs.take w :: chunksOf w n (xs.drop w)

/-- An accumulator element after the products of its row and column (R67, R69, R229). -/
def mmaElement (m : MmaArg) (x : Nat) (a b : Nat → Nat) : Nat :=
  let ks := List.range (mmaDepth m)
  match matFp m.fa, matFp m.fb with
  | some fa, some fb =>
    let acc : FpFmt := if m.fa == .f64 then .f64 else .f32
    let window := if m.fa == .f64 then 108 else 50
    (chunksOf (chunkWidth m.fa) (mmaDepth m) (ks.map fun k => fpProduct fa fb (a k) (b k))).foldl
      (fun x ps => chunkSum acc window (acc.value x) ps) x
  | _, _ =>
    let read (f : MatFmt) (v : Nat) : Int := readInt (matUnsigned f) (BitVec.ofNat (matBits f) v)
    (BitVec.ofInt 32 ((x : Int) + (ks.map fun k => read m.fa (a k) * read m.fb (b k)).sum)).toNat

/-- A column of a tile row as the accumulator reads it (R221). -/
def rowElem (wide : Bool) (row : Lanes) (c : Nat) : Nat :=
  if wide then (row.toList.getD (2 * c) 0).toNat + 2 ^ 32 * (row.toList.getD (2 * c + 1) 0).toNat
  else (row.toList.getD c 0).toNat

/-- The tile after an MMA: rows of its mask, columns below N (R229). -/
def mmaTile (m : MmaArg) (e : Mask) (t : Tile) (a b : List (List Byte)) : Tile :=
  let wide := m.fa == .f64
  let ba := matBits m.fa
  let bb := matBits m.fb
  let row (i : Nat) (old : Lanes) : Lanes :=
    let xs := (List.range (mmaCols m)).map fun j =>
      mmaElement m (if m.z then 0 else rowElem wide old j) (fun k => elemAt ba (a.getD i []) k)
        (fun k => if m.tb then elemAt bb (b.getD j []) k else elemAt bb (b.getD k []) j)
    Vector.ofFn fun w =>
      if wide then
        (if w.val / 2 < (mmaCols m) then BitVec.ofNat 32 (xs.getD (w.val / 2) 0 / 2 ^ (32 * (w.val % 2))) else old[w])
      else if w.val < (mmaCols m) then BitVec.ofNat 32 (xs.getD w.val 0) else old[w]
  { t with rows := Vector.ofFn fun l => if e.getLsbD l.val then row l.val t.rows[l] else t.rows[l] }

/-- The next MMA of a group. R231 leaves the order of MMAs on different tiles open: the model performs a group's MMAs in
program order (log 77, DESIGN CHOICE). -/
def Group.nextMma (g : Group) : Option MmaOp :=
  (g.batches.flatMap (·.mmas) ++ g.openBatch.mmas).head?

/-- The group with an MMA performed: its tile as it is now, and the MMA taken out of its batch, which keeps the tile's
rows where a pair compares them (R170). -/
def Group.doneMma (g : Group) (m : MmaOp) (t : Tile) : Group :=
  let cut (b : Batch) : Batch :=
    if b.mmas.any fun x => x.id == m.id then
      { b with
        mmas := b.mmas.filter fun x => x.id != m.id
        results := if g.role == .single then b.results else put1 b.results m.t t.rows }
    else b
  { g with tiles := g.tiles.set m.t t, batches := g.batches.map cut, openBatch := cut g.openBatch }

/-- An operation on a tile that was issued before an identity is outstanding (R231). -/
def Group.tileEarlier (g : Group) (t i : Nat) : Bool :=
  g.pend.any fun o => decide (o.id < i) && match o.kind, o.dst with
    | .mzero u, _ => u == t
    | _, .tile u _ => u == t
    | _, _ => false

/-- The operand latches that an MMA may take (R237) (log 40, DEDUCED). -/
def MmaOp.latched (m : MmaOp) (l : MmaLatch) : Option (List (List Byte)) × Option (List (List Byte)) :=
  (if l.wa == m.wa && l.arg.fa == m.arg.fa && l.arg.k == m.arg.k then l.a else none,
   if l.wb == m.wb && l.arg.fa == m.arg.fa && l.arg.k == m.arg.k && l.arg.fb == m.arg.fb && l.arg.n1 == m.arg.n1 &&
      l.arg.tb == m.arg.tb then l.b else none)

/-- Lines that an engine read waits for: absent ones, but for those that are absent for the sake of the same instruction,
and sectors that a write has written in part (R261, R262, R286). -/
def State.engineWaits (s : State) (own : List (Nat × Nat)) (ps : List Place) : Bool :=
  (ps.any fun p => match p with
    | .scratch w off => s.scratchAbsent w off && !own.contains (w, off / 128)
    | _ => false) || s.torn ps

/-- MMA_PERFORM: the engine reads the fragments, or takes latched ones, and accumulates; a read of an absent line waits
(R229, R236, R237, R261), and one of a line with an uncorrectable error stops the group at its next boundary (R269, R305).
R236 gives each fragment an unspecified time of its own: the model reads all of an MMA's at one time (log 76, DESIGN
CHOICE). -/
def execMmaPerform (g : Nat) (s : State) : Host.Outcome State Fault Refusal :=
  match s.group g with
  | none => .next s
  | some gr =>
    match gr.nextMma with
    | none => .next s
    | some m =>
      if gr.tileEarlier m.t m.id then .next s
      else
        let read (ps : List (List Place)) : List (List Byte) := ps.map fun r => r.map (s.placeByte (engineVia gr.hedge) gr)
        let (la, lb) := (gr.latch.map m.latched).getD (none, none)
        let fresh := (if la.isNone then m.aRows.flatten else []) ++ if lb.isNone then m.bRows.flatten else []
        if s.engineWaits [] fresh then .next s
        else
          match s.consumeFault fresh with
          | some c =>
            .next (s.mapGroup g fun x =>
              { x.doneMma m (x.tile m.t) with lateFault := some ⟨c, m.idx, m.off, m.word, m.emask⟩ })
          | none =>
            let a := la.getD (read m.aRows)
            let b := lb.getD (read m.bRows)
            let latch : Option MmaLatch :=
              if m.arg.ra || m.arg.rb then
                some ⟨m.arg, m.wa, m.wb, if m.arg.ra then some a else none, if m.arg.rb then some b else none⟩
              else none
            .next (s.mapGroup g fun x => { x.doneMma m (mmaTile m.arg m.emask (x.tile m.t) a b) with latch := latch })

/-- A batch as the words that a comparison looks at: the tiles, the number of MMAs and the rows that they left (R170). -/
def Batch.compared (b : Batch) : List Word64 :=
  BitVec.ofNat 64 b.count :: b.tiles.flatMap fun t => BitVec.ofNat 64 t ::
    (((find1 b.results t).map fun rows => rows.toList.flatMap fun r => r.toList.map fun w => w.setWidth 64).getD [])

/-- BATCH_RETIRE: the oldest batch retires when its MMAs are performed, and in a checked pair compared (R170, R232). -/
def execBatchRetire (g : Nat) (s : State) : Host.Outcome State Fault Refusal :=
  match s.group g with
  | none => .next s
  | some gr =>
    match gr.batches with
    | [] => .next s
    | b :: rest =>
      if !b.mmas.isEmpty then .next s
      else
        match gr.role with
        | .single => .next (s.mapGroup g fun x => { x with batches := rest })
        | .trailing _ => .next s
        | .leading p =>
          match s.group p with
          | none => .next (s.mapGroup g fun x => { x with batches := rest })
          | some q =>
            match q.batches with
            | [] => .next s
            | c :: rest' =>
              if !c.mmas.isEmpty then .next s
              else match firstDiff b.compared c.compared with
              | some (x, y) => .next (((s.focusOn g).mismatch gr.active x y).focusOn s.focus.id)
              | none =>
                .next ((s.mapGroup g fun x => { x with batches := rest }).mapGroup p fun x =>
                  { x with batches := rest' })

/-! ## Moving tiles (R235, R238 to R241) -/

/-- ACCHAZ, or a wait at issue, for an instruction that names a tile (R235); `port` for MRD and MWR, which also wait
for earlier tile operations. -/
def Group.hazard (g : Group) (t : Nat) (port : Bool) : Res Unit := do
  need (!g.openTarget t) (.plain .acchaz)
  need (!(g.committedTarget t || g.tileStored t || (port && g.tileBusy t))) .wait

/-- The tag of a tile format (R238). -/
def tileTag : TileFmt → Tag
  | .raw => .raw
  | .i32 => .i32
  | .f32 => .f32
  | .f64 => .dLo

/-- An operation that every group of a pair performs for itself (R170). -/
def State.pushOp (s : State) (o : Op) : State :=
  { s with focus := { s.focus.nextId with pend := s.focus.pend ++ [o] } }

/-- MZERO (R239). -/
def execMzero (g : Guard) (f : TileFmt) (d : Reg) (s : State) : Host.Outcome State Fault Refusal :=
  s.issueS g fun e t => do
    let n ← t.focus.aNum d
    t.focus.hazard n false
    let u ← t.passFences false true
    .ok ({ u with focus := u.focus.setTileTag n (tileTag f) }.pushOp (u.newOp .tile (.mzero n) e))

/-- The four single-copy atomic accesses of a lane's row (R240). -/
def rowAccs (l va : Nat) (off : Int) (ps : List Place) : List LaneAcc :=
  (List.range 4).map fun i => ⟨l, (ps.drop (32 * i)).take 32, [], [], va, off⟩

/-- The checks and the operation of MLD and MST (R240). A wrong tag on the offset register faults TAGMIS by R55 for both, though
R248's table has no such row for MLD (log 98, DEDUCED). -/
def State.tileMove (s : State) (e : Mask) (store : Bool) (f : TileFmt) (m : MemArg) (n : Nat) : Res (State × Op) := do
  let gr := s.focus
  let (offs, srcs, _) ← gr.memOff (.v m.a) m.off.toInt 128
  let (iw, bs) ← gr.bufIndex m.buf
  gr.ready (srcs.map (·.1)) bs []
  need (!(store && f != .raw && (gr.tile n).tag != tileTag f && (gr.tile n).tag != .raw)) (.plain .tagmis)
  gr.tagsOk srcs
  let acc : Access := if store then .tileStore else .tileLoad
  let chk ← s.checkLanes gr acc (if store then none else some (m.ord != .weak)) 32 iw offs 128 (lanesOf e) [] []
  gr.hazard n false
  s.present (chk.flatMap (·.2))
  need s.requestRoom .wait
  let t ← s.passFences store true
  let va (l : Nat) : Nat := if iw.toNat < 0xFF0 then s.bufVa gr.hedge iw.toNat (offs l) else 0
  .ok (t, { s.newOp .tile (if store then .store else .load) e with
    dst := .tile n f, reads := !store, writes := store, strong := m.ord != .weak, acq := isAcq m.ord,
    rel := isRel m.ord, scope := sidedScope (selScope m.buf)
    accs := chk.flatMap fun p => rowAccs p.1 (va p.1) (offs p.1) p.2
    buf := iw.toNat % 4096 })

/-- MLD (R240). -/
def execMld (g : Guard) (f : TileFmt) (m : MemArg) (d : Reg) (s : State) : Host.Outcome State Fault Refusal :=
  s.issueS g fun e t => do
    let n ← t.focus.aNum d
    let (u, o) ← t.tileMove e false f m n
    .ok ({ u with focus := u.focus.setTileTag n (tileTag f) }.pushOp o)

/-- The rows of a tile as words, in the lanes of a mask. -/
def Group.tileWords (g : Group) (e : Mask) (t : Nat) : List Word64 :=
  (lanesOf e).flatMap fun l =>
    ((g.tile t).rows.toList.getD l (Vector.replicate 32 0)).toList.map fun w => w.setWidth 64

/-- The buffer and the lane offsets of a memory operand as words. -/
def Group.offWords (g : Group) (e : Mask) (m : MemArg) : List Word64 :=
  (match m.buf with
    | .reg n _ => g.s n.toNat
    | .window k => k.setWidth 64) :: (lanesOf e).map fun l => (g.lane (g.regIndex m.a) l).setWidth 64

/-- MST (R240); in a checked pair the rows that it would store are compared (R243). -/
def execMst (g : Guard) (f : TileFmt) (m : MemArg) (d : Reg) (s : State) : Host.Outcome State Fault Refusal :=
  s.paired g (fun e x => x.offWords e m ++ x.tileWords e (x.regIndex d)) fun e t =>
    if e = 0 then .ok t
    else do
      let n ← t.focus.aNum d
      let (u, o) ← t.tileMove e true f m n
      need (u.focus.role == .single || !u.focus.tileBusy n) .wait
      .ok (u.pushOp o)

/-- The first word c of MRD and MWR (R241). -/
def Group.colNum (g : Group) : ColSrc → Res (Option Nat)
  | .imm _ => .ok none
  | .s r => do
    let n ← g.sNum r
    .ok (some n)

/-- The value of c. -/
def Group.col (g : Group) : ColSrc → Option Nat → Nat
  | .imm c, _ => c.toNat
  | .s _, n => (g.s (n.getD 0)).toNat % 32

/-- The tag of word w of a row (R241). -/
def wordTag (t : Tag) (w : Nat) : Tag :=
  match t with
  | .dLo => if w % 2 = 0 then .dLo else .dHi
  | _ => t

/-- MRD (R241). -/
def execMrd (g : Guard) (nM1 : BitVec 5) (col : ColSrc) (d a : Reg) (s : State) : Host.Outcome State Fault Refusal :=
  s.issue g fun e gr => do
    let n := nM1.toNat + 1
    let d ← gr.vNum d n
    let t ← gr.aNum a
    let b ← gr.colNum col
    gr.ready ((List.range n).map (d + ·)) b.toList []
    gr.hazard t true
    let c := gr.col col b
    .ok ((List.range n).foldl (fun x j =>
      let w := (c + j) % 32
      x.setV e (d + j) (wordTag (gr.tile t).tag w) fun l =>
        ((gr.tile t).rows.toList.getD l (Vector.replicate 32 0)).toList.getD w 0) gr)

/-- What a tile's tag accepts at a word (R241). -/
def wordExpect (t : Tag) (w : Nat) : Expect :=
  match t with
  | .i32 => .i32
  | .f32 => .f32
  | .dLo => if w % 2 = 0 then .dLo else .dHi
  | _ => .any

/-- MWR (R241). -/
def execMwr (g : Guard) (nM1 : BitVec 5) (col : ColSrc) (d a : Reg) (s : State) : Host.Outcome State Fault Refusal :=
  s.issue g fun e gr => do
    let n := nM1.toNat + 1
    let t ← gr.aNum d
    let v ← gr.vNum a n
    let b ← gr.colNum col
    gr.ready ((List.range n).map (v + ·)) b.toList []
    let c := gr.col col b
    gr.check ((List.range n).map fun j => (v + j, wordExpect (gr.tile t).tag ((c + j) % 32))) [] b.toList
    gr.hazard t true
    .ok (gr.setRows e t fun l =>
      let old := (gr.tile t).rows.toList.getD l (Vector.replicate 32 0)
      Vector.ofFn fun w =>
        match ((List.range n).filter fun j => (c + j) % 32 == w.val).getLast? with
        | some j => gr.lane (v + j) l
        | none => old[w])

/-- An operation on a tile that comes before one, in the group's program order, is not done: an earlier operation, or an
earlier MMA (R231). -/
def Group.tileTurn (g : Group) (t i : Nat) : Bool :=
  !g.tileEarlier t i && (g.batches.flatMap (·.mmas) ++ g.openBatch.mmas).all fun m => m.t != t || i < m.id

/-- The rows of a tile as the accesses of MST store them. -/
def rowBytes (t : Tile) (l i : Nat) : List Byte :=
  (((t.rows.toList.getD l (Vector.replicate 32 0)).toList.flatMap fun w => leBytes 4 w.toNat).drop (32 * i)).take 32

/-- The operation of a group replaced. -/
def Group.setOp (g : Group) (o : Op) : Group := { g with pend := g.pend.map fun x => if x.id == o.id then o else x }

/-- The operation of a group removed. -/
def Group.dropOp (g : Group) (i : Nat) : Group := { g with pend := g.pend.filter fun x => x.id != i }

/-- An acquiring operation is complete: promotions were made access by access, and what R310 gives is discarded. -/
def State.opAcquire (s : State) (g : Group) (o : Op) : State := if o.acq then s.acquire g o.scope else s

/-- The fault of an outstanding operation: at its own instruction, whose lanes take no result (R139). -/
def opFault (o : Op) (code : FaultCode) (x : LaneAcc) : FaultInfo :=
  { code := code, lane := some x.lane, acc := if o.writes then (if o.reads then 2 else 1) else 0, va := x.va, off := x.off
    buf := o.buf, place := some (o.idx, o.off, o.word), mask := some o.emask }

/-- The first access, in ascending lane order, whose bytes cannot be consumed (R139, R173, R340). -/
def State.opError (s : State) (g : Group) (o : Op) : Option (FaultCode × LaneAcc) :=
  if !o.reads then none
  else o.accs.findSome? fun x =>
    (if !o.strong && x.places.any (s.badLine (s.coreOf g) g.hedge) then some .uncorr else s.consumeFault x.places).map
      fun c => (c, x)

/-- A fault of an outstanding operation of a group, which is in focus only while it is taken. -/
def State.faultAt (s : State) (g : Nat) (e : Mask) (i : FaultInfo) : State :=
  ((s.focusOn g).takeFault e i).focusOn s.focus.id

/-- Every access of an operation in COPY is left to STALLED_WRITE_ACCEPT. -/
def LaneAcc.copying (s : State) (x : LaneAcc) : Bool := x.places.any s.placeInCopy

/-- TILE_OP_DONE: MZERO clears its rows; MLD and MST perform one more sector of a lane's row, and the last one completes
the instruction (R231, R239, R240). R240 does not order the sectors and lanes of one instruction: the model moves them in
ascending order (log 78, DESIGN CHOICE). -/
def execTileOpDone (g p : Nat) (s : State) : Host.Outcome State Fault Refusal :=
  match s.group g with
  | none => .next s
  | some gr =>
    match gr.pend.find? (fun o => o.id == p) with
    | none => .next s
    | some o =>
      match o.kind, o.dst with
      | .mzero t, _ =>
        if !gr.tileTurn t o.id then .next s
        else .next (s.mapGroup g fun x =>
          (x.setRows o.emask t fun _ => Vector.replicate 32 0).dropOp o.id)
      | .load, .tile t f =>
        if !gr.tileTurn t o.id || !s.mayPerform gr o then .next s
        else
          match s.opError gr o with
          | some (c, a) => .next ((s.mapGroup g fun x => x.dropOp o.id).faultAt g o.emask (opFault o c a))
          | none =>
            match o.accs with
            | [] => .next (s.mapGroup g fun x => x.dropOp o.id)
            | x :: rest =>
              let (u, bs) := s.performAcc gr o x
              let got := o.got ++ [(x.lane, bs)]
              if rest.isEmpty then
                .next ((u.opAcquire gr o).mapGroup g fun y => (y.land o.emask (.tile t f) got).dropOp o.id)
              else .next (u.mapGroup g fun y => y.setOp { o with accs := rest, got := got })
      | .store, .tile t _ =>
        if !gr.tileTurn t o.id || !s.mayPerform gr o then .next s
        else
          match o.accs with
          | [] => .next (s.mapGroup g fun x => x.dropOp o.id)
          | x :: rest =>
            if !s.placesRoom o.strong x.places then .next (s.askRoom x.places)
            else
              let i := 4 - (o.accs.filter fun y => y.lane == x.lane).length
              let (u, _) := s.performAcc gr o { x with data := rowBytes (gr.tile t) x.lane i }
              .next (u.mapGroup g fun y =>
                if rest.isEmpty then y.dropOp o.id else y.setOp { o with accs := rest })
      | _, _ => .next s

/-! ## Bank-side matrix-vector work (R244 to R247) -/

/-- A bank layout descriptor. -/
structure Bank where
  cols : Nat
  kb : Nat
  rows : Nat
  stackMask : Nat
  fmt : Nat
  deriving DecidableEq, Repr

/-- The descriptor of four words, or none where R244 faults BUFIDX whatever the entry. The layout's table asks for a KB that is a
nonzero multiple of 16, and R244's list of cases does not name another one: it counts as a malformed descriptor, BUFIDX (log 97,
DESIGN CHOICE). -/
def decodeBank : List Word64 → Option Bank
  | [w0, w1, w2, w3] =>
    let b : Bank := ⟨(w0.extractLsb' 0 32).toNat, (w0.extractLsb' 32 16).toNat, (w1.extractLsb' 0 32).toNat,
      (w2.extractLsb' 0 12).toNat, (w2.extractLsb' 12 4).toNat⟩
    if w3 != 0 || w2.extractLsb' 16 48 != 0 || w1.extractLsb' 32 32 != 0 || w0.extractLsb' 48 16 != 0 ||
        b.fmt == 0 || 5 < b.fmt || b.rows == 0 || b.cols == 0 || b.stackMask == 0 || b.kb == 0 || b.kb % 16 != 0 ||
        256 < (b.cols + b.kb - 1) / b.kb then none
    else some b
  | _ => none

/-- The code of a matrix format (R228). -/
def matCode : MatFmt → Nat
  | .f64 => 0
  | .f16 => 1
  | .bf16 => 2
  | .e4m3 => 3
  | .e5m2 => 4
  | .e2m1 => 5
  | .i8 => 6
  | .n8 => 7
  | .i4 => 8
  | .n4 => 9

/-- Bits of a weight, codes 1 to 5. -/
def Bank.bits (b : Bank) : Nat := if b.fmt ≤ 2 then 16 else if b.fmt ≤ 4 then 8 else 4

/-- The row pitch of the weights. -/
def Bank.pitch (b : Bank) : Nat := packedPitch b.cols b.bits

/-- The descriptor of a BANKMV entry, or none where R244 faults BUFIDX. -/
def Hedge.bank (h : Hedge) (e : BufEntry) : Option Bank :=
  if 1024 ≤ e.aux then none
  else
    (find1 h.banks e.aux).bind fun ws =>
      (decodeBank ws).bind fun b => if e.len < b.rows * b.pitch then none else some b

/-- MVB (R245, R246). In a checked pair it is held, and its operands are compared: its result bytes follow from them
(R243; log 17, DESIGN CHOICE). -/
def execMvb (g : Guard) (fb fa : MatFmt) (n1 : BitVec 5) (sb sa : BitVec 7) (d : Reg) (s : State) :
    Host.Outcome State Fault Refusal :=
  s.paired g (fun e x => if e = 0 then [] else
      [x.s (x.regIndex d), x.s sa.toNat, x.s sb.toNat]) fun e t =>
    if e = 0 then .ok t
    else do
      let gr := t.focus
      let dn ← gr.sNum d
      let an ← gr.sDirect sa
      let bn ← gr.sDirect sb
      gr.ready [] [dn, an, bn] []
      let n := 32 * (n1.toNat + 1)
      let sw := gr.s an
      let idx := (sw.extractLsb' 0 12).toNat
      let row0 := (sw.extractLsb' 32 32).toNat
      let bad (c : FaultCode) : Stop := .fault { code := c, buf := idx }
      need (sw.extractLsb' 12 20 == 0 && !(0xFF0 ≤ idx && idx ≤ 0xFFB)) (bad .bufidx)
      need (idx < 0xFFC) (bad .bufright)
      match t.hedge gr.hedge with
      | none => .error (bad .bufidx)
      | some h =>
        match h.entry idx with
        | none => .error (bad .bufidx)
        | some en =>
          need (!en.bankmv || (h.bank en).isSome) (bad .bufidx)
          need (en.owner == gr.hedge && !en.refuses .bank) (bad .bufright)
          match h.bank en with
          | none => .error (bad .bufright)
          | some b =>
            need (b.fmt == matCode fb) (bad .bufright)
            let off (q : Nat) : Nat := (row0 + q) * b.pitch
            need (decide (row0 + n ≤ b.rows)) (.fault
              { code := .bufbound, va := t.bufVa gr.hedge idx (off 0), off := (off 0 : Nat), buf := idx })
            let len := (b.cols * matBits fb + 7) / 8
            let va (q i : Nat) : Nat := (en.vbase + off q + i) % 2 ^ 64
            let rows ← (List.range n).mapM fun q => (List.range len).mapM fun i =>
              match t.translate (t.coreOf gr) gr.hedge (va q i) needR with
              | .ok (pa, _) => .ok (match t.specOf gr with
                | some x => if h.specPage x (va q i) true then Place.spec gr.lseq pa else .home pa
                | none => .home pa)
              | .error st => .error (atLane (lowest e) (va q i) (off q + i : Nat) idx st)
            need (!(List.range n).any fun q => (List.range len).any fun i => h.otherSpec gr.lseq (va q i)) .wait
            let (vec, vf) ← t.operand gr (gr.s bn) 1 b.cols (matBits fa) true
            let (res, _) ← t.operand gr (gr.s dn) 1 n 32 true
            t.present vf
            need (!res.flatten.any fun p => match p with
              | .scratch w _ => w == 0
              | _ => true) .presence
            need t.requestRoom .wait
            let u ← t.passFences true true
            let result := res.flatten
            let lines := placeLines result
            let v := u.pushOp { u.newOp .tile (.mvb fa fb rows vec.flatten b.kb b.cols result
              (List.range lines.length)) e with writes := true, buf := idx, clears := lines }
            .ok (if gr.role == .single then v.absent1 lines else v)

/-- The result of one row of the weights and the vector (R70). -/
def mvbElement (fa fb : MatFmt) (kb cols : Nat) (row vec : List Byte) : Nat :=
  match matFp fa, matFp fb with
  | some ea, some eb =>
    let part (b : Nat) : Nat :=
      let ks := (List.range (min kb (cols - b * kb))).map (b * kb + ·)
      (chunksOf 16 cols (ks.map fun k => fpProduct eb ea (elemAt (matBits fb) row k) (elemAt (matBits fa) vec k))).foldl
        (fun x ps => chunkSum .f32 50 (FpFmt.f32.value x) ps) 0
    (List.range ((cols + kb - 1) / kb)).foldl
      (fun v b => if b = 0 then part 0 else (FpFmt.f32.add .rn (FpFmt.f32.value v) (FpFmt.f32.value (part b))).code) 0
  | _, _ => 0

/-- The elements of an MVB's result that lie in a scratch line, by number. -/
def mvbElems (result : List Place) (l : Nat × Nat) : List Nat :=
  ((result.zipIdx.filter fun q => match q.1 with
    | .scratch w off => (w, off / 128) == l
    | _ => false).map fun q => q.2 / 4).eraseDups

/-- The first line of an MVB's result whose rows have not been read yet. -/
def Op.mvbUnread (o : Op) (lines : List (Nat × Nat)) : Option Nat :=
  (List.range lines.length).find? fun i => (find1 o.got (i + 1)).isNone

/-- An MVB reads the rows of the weights for one line of its result, and the vector with the first of them; an error in a
sector that it reads lands nothing, and the group stops at its next boundary, the lines of the result present with the bytes
that they held, which R247 leaves open (R246, R247; log 88, DESIGN CHOICE). -/
def State.mvbRead (s : State) (gr : Group) (o : Op) (fa fb : MatFmt) (rows : List (List Place)) (vec : List Place)
    (kb cols : Nat) (result : List Place) (lines : List (Nat × Nat)) (i : Nat) : State :=
  let es := ((lines[i]?).map (mvbElems result)).getD []
  let weights := es.flatMap fun k => rows.getD k []
  let reads := weights ++ if o.got.isEmpty then vec else []
  if s.engineWaits lines reads then s
  else
    match s.consumeFault reads with
    | some c =>
      (s.mapGroup gr.id fun x => { x.dropOp o.id with lateFault := some ⟨c, o.idx, o.off, o.word, o.emask⟩ }).present1 lines
    | none =>
      let byte (q : Place) : Byte := s.placeByte (engineVia gr.hedge) gr q
      let v := ((o.got.head?).map (·.2)).getD (vec.map byte)
      let ys := es.flatMap fun k => leBytes 4 (mvbElement fa fb kb cols ((rows.getD k []).map byte) v)
      let t := match s.hedge gr.hedge with
        | some h => s.engineTouch h (s.coreOf gr) false weights
        | none => s
      t.mapGroup gr.id fun x => x.setOp { o with got := (if o.got.isEmpty then [(0, v)] else o.got) ++ [(i + 1, ys)] }

/-- MVB_RESULT_LAND: the rows and the vector are read, line by line of the result, and then, once none of them is in error,
the lines land (R246, R247). -/
def execMvbResultLand (g p line : Nat) (s : State) : Host.Outcome State Fault Refusal :=
  match s.group g with
  | none => .next s
  | some gr =>
    match gr.pend.find? (fun o => o.id == p) with
    | none => .next s
    | some o =>
      match o.kind with
      | .mvb fa fb rows vec kb cols result todo =>
        let lines := placeLines result
        if !todo.contains line || !s.mayPerform gr o then .next s
        else
          match o.mvbUnread lines, lines[line]? with
          | some i, _ => .next (s.mvbRead gr o fa fb rows vec kb cols result lines i)
          | none, none => .next s
          | none, some l =>
            if s.passedAccess [l] then .next s
            else
              let ys := (find1 o.got (line + 1)).getD []
              let bytes := ((mvbElems result l).flatMap fun k => (List.range 4).filterMap fun i => result[4 * k + i]?).zip ys
              let t := (bytes.filter fun q => placeLines [q.1] == [l]).foldl (fun u q => match q.1 with
                | .scratch w o' => u.scratchWrite w o' q.2
                | _ => u) s
              let left := todo.filter fun x => x != line
              let t := t.mapGroup g fun x =>
                if left.isEmpty then x.dropOp p else x.setOp { o with kind := .mvb fa fb rows vec kb cols result left }
              .next (t.present1 [l])
      | _ => .next s

end Sys2Proof.Machine
end

