-- ==== Sys2Proof/Machine/System.lean ====
section
/-! DEFINITION. Row 14, the system instructions (spec 19 R384 to R405; spec 20 R417 to R419; spec 21 R426). -/

namespace Sys2Proof.Machine

/-! ## What the system instructions share -/

/-- A change of the group in focus and, for a leading group, of its partner (R170). -/
def State.both (s : State) (f : Group → Group) : State :=
  let t := { s with focus := f s.focus }
  match s.focus.role with
  | .leading p => t.mapGroup p f
  | .single | .trailing _ => t

/-- The page actions of an SPCMT or SPDSC (R402). -/
def Op.isResolve (o : Op) : Bool :=
  match o.kind with
  | .resolve _ _ _ _ => true
  | _ => false

/-- An operation that is no access of the group: a slice, a held system instruction, the result of LNCH, or the page actions of
SPCMT and SPDSC. -/
def Op.noAccess (o : Op) : Bool :=
  match o.kind with
  | .slice _ | .lnch _ | .sys _ | .resolve _ _ _ _ => true
  | _ => false

/-- The group's earlier accesses are performed, as a release at SYS needs (R320, R387, R393; log 21, DEDUCED); those that a
leading group has issued since are not among them. -/
def Group.settled (g : Group) : Bool := g.pend.all fun o => o.noAccess || decide (g.nextOp ≤ o.id)

/-- A release at SYS by the group in focus, with the fences before it (R310, R320). -/
def State.releaseSys (s : State) : Res State := do
  need s.focus.settled .wait
  let t ← s.passFences true true
  .ok (t.release t.focus .sys)

/-- The group's launch is speculative and unresolved (R400). -/
def State.notSpec (s : State) : Res Unit := need (s.specOf s.focus).isNone (.plain .specviol)

/-! ## The request area (R392, R417) -/

/-- TICKET, FILL, FREE, RESUME[i] and slot i in the context area. -/
def Hedge.ticketAt (h : Hedge) : Nat := h.p.contextBase
/-- FILL. -/
def Hedge.fillAt (h : Hedge) : Nat := h.p.contextBase + 8
/-- FREE. -/
def Hedge.freeAt (h : Hedge) : Nat := h.p.contextBase + 16
/-- RESUME[i]. -/
def Hedge.resumeAt (h : Hedge) (i : Nat) : Nat := h.p.contextBase + 0x40 + 8 * i
/-- Slot i. -/
def Hedge.slotAt (h : Hedge) (i : Nat) : Nat := h.p.contextBase + 0x8040 + 0x840 * i
/-- The block of a lane in slot i. -/
def Hedge.blockAt (h : Hedge) (i lane : Nat) : Nat := h.slotAt i + 0x40 + 0x40 * lane

/-- Words written at their home from an address upwards; a sector that they are merged into is checked first (R409). -/
def State.homeWords (s : State) (pa : Nat) (ws : List Word64) : State :=
  match s.mergeError ((List.range (8 * ws.length)).map fun i => pa + i) with
  | some (h, a) => s.askRollback h .sdc (.home a)
  | none => ws.zipIdx.foldl (fun t p => t.homeWriteWord (pa + 8 * p.2) p.1) s

/-- The request in its slot: header, lane blocks, FILL, and the waiter on RESUME[i] (R393, R417). -/
def State.svcSend (s : State) (gr : Group) (h : Hedge) (w : SvcWait) : State :=
  let ticket := w.ticket.getD 0
  let i := ticket.toNat % h.p.nslot
  let wgidx := ((s.wgOf gr.wg).map (·.index)).getD 0
  let header : List Word64 :=
    [ ticket, BitVec.ofNat 64 gr.lseq, BitVec.ofNat 64 wgidx, w.emask ++ w.entry.mask,
      BitVec.ofNat 64 w.clauseVa, BitVec.ofNat 64 (w.d * 256 + gr.number), 0, 0 ]
  let t := s.homeWords (h.slotAt i) header
  let t := w.args.foldl (fun u p => u.homeWords (h.blockAt i p.1) (w.call.setWidth 64 :: p.2)) t
  let t := (t.tagCtr (.c3 h.fillAt) (some .sys) .sys (t.coreOf gr) h.p.id).addCtr (.c3 h.fillAt) 1
  let mark (x : Group) : Group := { x with svcWait := none, svcReplies := x.svcReplies ++ [⟨i, false⟩] }
  let t := t.mapGroup gr.id mark
  let t := match gr.role with
    | .leading p => t.mapGroup p mark
    | .single | .trailing _ => t
  let t := t.mapHedge h.p.id fun x => { x with calls := x.calls ++ [(i, lanesOf w.emask)] }
  t.arm (some (t.coreOf gr)) (.c3 (h.resumeAt i))
    ⟨.svcReply gr.id i, h.p.id, BitVec.ofNat 64 (ticket.toNat / h.p.nslot + 1)⟩

/-- The request goes to its slot where its lines find room in the interval log, and otherwise waits on-core for the snapshot
(R393, R405). -/
def State.svcTry (s : State) (gr : Group) (h : Hedge) (w : SvcWait) : State :=
  if s.logFits [(none, h.fillAt), (none, h.slotAt ((w.ticket.getD 0).toNat % h.p.nslot))] then s.svcSend gr h w
  else (s.mapPair gr.id fun x => { x with svcWait := some w }).wantSnap h.p.id

/-- The ticket is taken, and the group parks on-core until FREE allows it (R393). -/
def State.svcTake (s : State) (gr : Group) (h : Hedge) (w : SvcWait) : State :=
  let ticket := s.ctrValue (.c3 h.ticketAt)
  let t := s.addCtr (.c3 h.ticketAt) 1
  let limit := ticket - BitVec.ofNat 64 h.p.nslot + 1
  if sat (t.ctrValue (.c3 h.freeAt)) limit then t.svcTry gr h { w with ticket := some ticket }
  else
    (t.mapPair gr.id fun x => { x with svcWait := some { w with ticket := some ticket, ready := false } }).arm
      (some (t.coreOf gr)) (.c3 h.freeAt) ⟨.svcFree gr.id, h.p.id, limit⟩

/-- The SVC of a group goes as far as the homes that it writes have room for it (R393, R405). -/
def State.svcGo (s : State) (gr : Group) (h : Hedge) (w : SvcWait) : State :=
  if !w.ready then s
  else if w.ticket.isSome then s.svcTry gr h w
  else if s.logRoom h.ticketAt then s.svcTake gr h w
  else (s.mapPair gr.id fun x => { x with svcWait := some w }).wantSnap h.p.id

/-- The four argument words of a lane (R393). -/
def Group.svcArgs (g : Group) (a l : Nat) : List Word64 := (List.range 4).map fun k => g.pair (a + 2 * k) l

/-- SVC with lanes: a ticket is taken, the request goes to its slot or the group parks on-core until FREE allows it,
and the whole entry leaves the frontier (R393). -/
def State.svcCall (s : State) (h : Hedge) (call : BitVec 12) (d a : Nat) (e : Mask) : State :=
  let gr := s.focus
  let w : SvcWait :=
    { ticket := none, call := call, d := d, emask := e, entry := ⟨0, gr.clauseOff, gr.active⟩
      clauseVa := gr.code.text + gr.clauseOff, args := (lanesOf e).map fun l => (l, gr.svcArgs a l), ready := true }
  let t := s.both fun x => { x with moves := some [] }
  t.svcGo t.focus h w

/-- The lanes of a run of V registers, as a checked pair compares them (R170). -/
def Group.vWords (g : Group) (e : Mask) (r : Reg) (n : Nat) : List Word64 :=
  (List.range n).flatMap fun i => (lanesOf e).map fun l => (g.lane (g.regIndex r + i) l).setWidth 64

/-- The whole entry goes to F, which R416 has SVC and TRAP not check: an F outside the text faults when the entry there is
reached (R22, R393, R397; log 45, DEDUCED). -/
def Group.toFall (g : Group) : List (Nat × Mask) := [(g.fall.toNat, g.active)]

/-- SVC (R393) (log 45, DEDUCED). -/
def execSvc (g : Guard) (call : BitVec 12) (d a : Reg) (s : State) : Host.Outcome State Fault Refusal :=
  s.together g true (fun _ => .none) (fun e x => if e = 0 then [] else x.vWords e a 8) fun e t => do
    let gr := t.focus
    if e = 0 then .ok (t.both fun x => { x with moves := some gr.toFall })
    else
      let a ← gr.vNum a 8
      let d ← gr.vNum d 3
      gr.check ((List.range 8).map fun k => (a + k, .any)) ((List.range 3).map (d + ·))
      t.notSpec
      let t ← t.releaseSys
      match t.hedge gr.hedge with
      | none => .error .wait
      | some h => .ok (t.svcCall h call d a e)

/-! ## TRAP (R397) -/

/-- The words of a trap record: as a fault record with kind 32, RES 1 and a token, its CODE standing in IWORD (R412) (log 43, DEDUCED). -/
def State.trapRecord (s : State) (e : Mask) (token : Nat) : List Word64 :=
  let g := s.focus
  match s.faultRecord g e { code := .illop, resumable := true } token with
  | _ :: rest => recordWord0 g.hedge 32 true false 0 (lowest e) g.position.1 (s.coreOf g) :: rest
  | [] => []

/-- TRAP: the entry moves to F and the group stops at that boundary with a trap record and a resume token (R397). -/
def execTrap (g : Guard) (code : BitVec 12) (s : State) : Host.Outcome State Fault Refusal :=
  s.together g true (fun _ => .none) (fun _ _ => [code.setWidth 64]) fun e t => do
    let gr := t.focus
    let t := t.both fun x => { x with moves := some gr.toFall }
    if e = 0 then .ok t
    else
      let token := ((t.hedge gr.hedge).map (·.nextToken)).getD 1
      let t := t.report gr.hedge (t.trapRecord e token)
      let t := t.mapHedge gr.hedge fun h => { h with nextToken := h.nextToken + 1 }
      .ok (t.both fun x => { x with holds := x.holds ++ [Hold.trap token] })

/-! ## LNCH (R384 to R388) -/

/-- Reply codes (R387). -/
def enomem : Nat := 1
def eaddr : Nat := 2
def ewindow : Nat := 3
def equota : Nat := 4
def einval : Nat := 5

/-- A check of a launch: REASON and CODE of the refusal (R387). -/
def must (c : Bool) (reason code : Nat) : Except (Nat × Nat) Unit := if c then .ok () else .error (reason, code)

/-- The result word of a refusal (R387). -/
def refusalWord (r : Nat × Nat) : Word64 := 0x8000000000000000 + BitVec.ofNat 64 (r.1 * 256 + r.2)

/-- The words of bytes. -/
def wordsOf : List Byte → List Word64
  | b0 :: b1 :: b2 :: b3 :: b4 :: b5 :: b6 :: b7 :: rest =>
    BitVec.ofNat 64 (leNat [b0, b1, b2, b3, b4, b5, b6, b7]) :: wordsOf rest
  | _ => []

/-- A bit field of a word as a number. -/
def bits (w : Word64) (lo n : Nat) : Nat := w.toNat / 2 ^ lo % 2 ^ n

/-- Where the record or the header stands: a valid entry of the hedge with its rights, aligned and within LEN (REASONS 1
and 2 of R387). -/
def Hedge.launchPart (h : Hedge) (idx off len : Nat) (x : Bool) (high : Bool) : Except (Nat × Nat) BufEntry := do
  must (decide (idx < 0xFF0)) 1 ewindow
  must (!high) 2 eaddr
  match h.entry idx with
  | none => .error (2, eaddr)
  | some e =>
    must (e.owner == h.p.id && e.r && (!x || e.x) && off % 8 == 0 && decide (off + len ≤ e.len)) 2 eaddr
    .ok e

/-- R291 in the hedge's logical rectangle (R381). -/
def Hedge.rectOk (h : Hedge) (r : Rect) : Bool :=
  decide (r.lw ≤ 4) && decide (r.lh ≤ 4) && r.dies != 0 && r.x0 % 2 ^ r.lw == 0 && r.y0 % 2 ^ r.lh == 0 &&
    decide (h.p.rect.x0 ≤ r.x0) && decide (r.x0 + 2 ^ r.lw ≤ h.p.rect.x0 + 2 ^ h.p.rect.lw) &&
    decide (h.p.rect.y0 ≤ r.y0) && decide (r.y0 + 2 ^ r.lh ≤ h.p.rect.y0 + 2 ^ h.p.rect.lh) &&
    (h.p.rect.dies == 3 || h.p.rect.dies == r.dies)

/-- A DEP or DONE handle of a launch record (REASON 3 of R387): of class 1 to 3, of this package, as R202 asks. -/
def Hedge.depOk (h : Hedge) (u : HandleUse) (x : Word64) : Bool :=
  handleClass x != 0 && h.handleOk u x && (handleClass x != 3 || (handlePeer x == 0 &&
    match h.entry (handleIndex x / 65536) with
    | none => false
    | some e => e.owner == h.p.id && decide (8 * handleWord x + 8 ≤ e.len) && e.counter &&
        (if u.cadd then e.cadd else e.r)))

/-- The fields of a launch record (R385). -/
structure LaunchRecord where
  words : List Word64
  deriving DecidableEq, Repr

/-- A word of the record by its byte offset. -/
def LaunchRecord.at_ (r : LaunchRecord) (off : Nat) : Word64 := r.words.getD (off / 8) 0

/-- The rectangle of a record. -/
def LaunchRecord.rect (r : LaunchRecord) : Rect :=
  let w := r.at_ 8
  ⟨bits w 60 4, bits w 56 4, bits w 53 3, bits w 50 3, bits w 48 2⟩

/-- SPEC of a record. -/
def LaunchRecord.spec (r : LaunchRecord) : Bool := (r.at_ 0).getLsbD 53
/-- WSN of a record. -/
def LaunchRecord.wsn (r : LaunchRecord) : Nat := bits (r.at_ 0x68) 0 5
/-- An entry of WSET with its reserved bits. -/
def LaunchRecord.wset (r : LaunchRecord) (i : Nat) : Nat := bits (r.at_ (0x70 + 8 * (i / 4))) (16 * (i % 4)) 16
/-- The used DEP entries: handle and threshold. -/
def LaunchRecord.deps (r : LaunchRecord) : List (Word64 × Word64) :=
  ((List.range 4).map fun i => (r.at_ (0x20 + 16 * i), r.at_ (0x28 + 16 * i))).filter fun p => p.1 != 0

/-- Reserved bits of the record are zero (R385, R387). -/
def LaunchRecord.clean (r : LaunchRecord) : Bool :=
  bits (r.at_ 0) 47 6 == 0 && bits (r.at_ 0) 39 1 == 0 && bits (r.at_ 8) 0 48 == 0 && bits (r.at_ 0x10) 12 52 == 0 &&
    bits (r.at_ 0x68) 5 59 == 0 && (List.range 16).all (fun i => decide (r.wset i < 4096)) &&
    (List.range 14).all (fun i => r.at_ (0x90 + 8 * i) == 0) &&
    (List.range 16).all fun i => bits (r.at_ (0x180 + 8 * i)) 12 52 == 0

/-- The register that BIND names for each parameter, buffer and counter, with the word it receives (R384, R386). -/
def bindsOf (r : LaunchRecord) (head : List Word64) : List (Nat × Word64) :=
  ((List.range 48).map fun i => (bits (head.getD (12 + i / 8) 0) (8 * (i % 8)) 8, r.at_ (0x100 + 8 * i))).filter
    fun p => p.1 != 0xFF

/-- BIND keeps R44: registers within the allotment, none twice. -/
def bindsOk (s : Nat) (bs : List (Nat × Word64)) : Bool :=
  bs.all (fun p => decide (p.1 < s)) && decide ((bs.map (·.1)).Nodup)

/-- Each group of a checked pair counts (R154, R169). -/
def Hedge.twice (h : Hedge) (n : Nat) : Nat := if h.p.checked then 2 * n else n

/-- Slot numbers of a hedge hold n groups with v V registers and acc tiles among them: four groups a slot number, in checked
mode in the slots of leading groups and those of their partners, and 64 KiB and 128 KiB of registers (R154, R169). -/
def Hedge.slotsHold (h : Hedge) (ss : List Nat) (n v acc : Nat) : Bool :=
  decide (n ≤ 4 * ss.length) && (!h.p.checked || decide (n ≤ 32 * (ss.filter fun i => decide (i < 8)).length)) &&
    decide (v * 128 ≤ ss.length * 65536) && decide (acc * 4096 ≤ ss.length * 131072)

/-- REASONS 3 to 8 of R387 over the record and the code object header, and the launch that passes them (log 39, DEDUCED). `page`:
the page of a handle's word allows a use, item 4 of R202. -/
def Hedge.launchChecks (h : Hedge) (r : LaunchRecord) (head : List Word64) (codeLen : Nat) (page : Word64 → Need → Bool) :
    Except (Nat × Nat) Launch := do
  let w0 := r.at_ 0
  let hw (i : Nat) : Nat := (head.getD i 0).toNat
  let c0 := head.getD 0 0
  let v := 8 * bits c0 34 6
  let sr := 8 * bits c0 29 5
  let acc := bits c0 22 7
  let scr := 4096 * bits c0 11 11
  let off := (r.at_ 0x18).toNat
  let p := bits w0 40 7
  let groups := bits w0 32 7
  let binds := bindsOf r head
  let done := r.at_ 0x60
  must (bits w0 56 8 == 1 && bits c0 48 16 == 0xE9C0 && bits c0 40 8 == 1 && r.clean && bits c0 0 11 == 0 &&
    hw 6 == 0 && hw 7 == 0 && h.rectOk r.rect && p != 0 && decide (p ≤ 64) && groups != 0 && decide (groups ≤ 64) &&
    bits w0 0 32 != 0 && r.deps.all (fun d => h.depOk useRead d.1 && page d.1 needR) &&
    (done == 0 || (h.depOk useAdd done && page done needCtr)) &&
    hw 1 % 8 == 0 && hw 3 % 8 == 0 && hw 5 % 8 == 0 && hw 2 != 0 && decide (off + hw 1 + hw 2 ≤ codeLen) &&
    decide (off + hw 3 + hw 4 ≤ codeLen) && decide (hw 5 < hw 2) && v != 0 && decide (v ≤ 256) && sr != 0 &&
    decide (sr ≤ 128) && decide (acc ≤ 64) && decide (scr ≤ 4194304) && bindsOk sr binds) 3 einval
  let req : BitVec 256 := head.getD 11 0 ++ head.getD 10 0 ++ head.getD 9 0 ++ head.getD 8 0
  must (req &&& ~~~h.features == 0) 4 einval
  let n := h.twice groups
  must (h.slotsHold h.slots n (n * v) (n * acc) && decide (p * scr ≤ 4194304) && decide (p * scr ≤ h.scratchPages * 65536)) 5 enomem
  must (decide ((h.launches.filter fun l => !l.complete).length < 256)) 6 equota
  must (!r.spec || decide ((h.launches.filter fun l => (l.spec.map fun x => !x.resolved).getD false).length < 16))
    7 equota
  let ws := (List.range r.wsn).map r.wset
  must (if r.spec then h.features.getLsbD 8 && r.wsn != 0 && decide (r.wsn ≤ 16) && ws.all (fun i =>
      match h.entry i with
      | some e => e.owner == h.p.id && e.w && e.spec && e.vbase % 4096 == 0 && e.len % 4096 == 0
      | none => false)
    else r.wsn == 0) 8 einval
  .ok { seq := 0, cls := bits w0 54 2, spec := if r.spec then some ⟨ws, [], [], false⟩ else none, p := p,
        groups := groups, wgcount := bits w0 0 32, rect := r.rect, deps := [], done := none, v := v, s := sr,
        acc := acc, scr := scr, code := ⟨hw 1, hw 2, hw 3, hw 4, bits (r.at_ 0x10) 0 12⟩, entry := hw 5, binds := binds,
        admitted := false, placed := 0, finished := 0, complete := false, rotLost := none }

/-- The places of a range of a buffer as the system engine reads it; it waits for another launch's speculation (R401).
`tr` translates a guest virtual address. -/
def Hedge.sysPlaces (h : Hedge) (lseq : Nat) (e : BufEntry) (off len : Nat) (tr : Nat → Res (Nat × Bool)) :
    Res (List Place) := do
  let ws ← (List.range (len / 8)).mapM fun i => do
    let o := off + 8 * i
    let (pa, nc) ← tr ((e.vbase + o) % 2 ^ 64)
    if h.otherSpec lseq ((e.vbase + o) % 2 ^ 64) then .error .wait
    else
      .ok ((List.range 8).map fun b =>
        if e.fabred then Place.red e.aux (o + b) else plainPlace e nc (pa + b))
  .ok ws.flatten

/-- Who reads a launch request: the promotions of its acquire, its agents, and what its reaching a page does (R318, R321, R357,
R387). -/
structure Reader where
  covers : RelTag → Bool
  who : BitVec 3
  reach : State → Nat → State

/-- Bytes read at their homes as acquires at SYS (R321, R365, R387). -/
def State.sysRead (s : State) (r : Reader) (h : Nat) (ps : List Place) : State × List Byte :=
  let pas := ps.filterMap placePa
  let t := pas.foldl (fun u pa => u.promote pa r.covers) s
  let t := ((accLines true ps).foldl (fun u x => u.homeAccess h (x.2 * 128) true false) t).see r.who pas
  (t, ps.map (t.placeByte (engineVia h) t.focus))

/-- The pages of a record or header are reached. -/
def State.reachBy (s : State) (r : Reader) (va len : Nat) : State := r.reach (r.reach s (va % 2 ^ 64)) ((va + len - 1) % 2 ^ 64)

/-- Consuming an error at places is the instruction's fault (R139). -/
def State.consumed (s : State) (ps : List Place) (va off idx : Nat) : Res Unit :=
  match s.consumeFault ps with
  | some c => .error (.fault { code := c, va := va, off := off, buf := idx })
  | none => .ok ()

/-- A launch request: the record, the code object header and every check in the order of R387. The state is that after
the reads; the answer is the launch, or its refusal. -/
def State.launchForm (s : State) (rd : Reader) (h : Hedge) (lseq : Nat) (iw off : Word64) (tr : Nat → Nat → Nat → Res (Nat × Bool)) :
    Res (State × Except (Nat × Nat) Launch) := do
  let idx := iw.toNat % 4096
  match h.launchPart idx off.toNat 640 false (4096 ≤ iw.toNat) with
  | .error r => .ok (s, .error r)
  | .ok e =>
    let ps ← h.sysPlaces lseq e off.toNat 640 (tr idx e.vbase)
    s.consumed ps ((e.vbase + off.toNat) % 2 ^ 64) off.toNat idx
    let (s, bs) := (s.reachBy rd (e.vbase + off.toNat) 640).sysRead rd h.p.id ps
    let r : LaunchRecord := ⟨wordsOf bs⟩
    let cidx := bits (r.at_ 0x10) 0 12
    let coff := (r.at_ 0x18).toNat
    match h.launchPart cidx coff 144 true false with
    | .error x => .ok (s, .error x)
    | .ok ce =>
      let qs ← h.sysPlaces lseq ce coff 144 (tr cidx ce.vbase)
      s.consumed qs ((ce.vbase + coff) % 2 ^ 64) coff cidx
      let (s, cs) := (s.reachBy rd (ce.vbase + coff) 144).sysRead rd h.p.id qs
      match h.launchChecks r (wordsOf cs) ce.len fun x n => (s.handleAt h 0 x n).isSome with
      | .error x => .ok (s, .error x)
      | .ok l =>
        let deps ← r.deps.mapM fun d => match s.handleAt h 0 d.1 needR with
          | some (.here k) => .ok (Dep.mk k d.2 false)
          | _ => .error .wait
        let done ← if r.at_ 0x60 = 0 then .ok none else
          match s.handleAt h 0 (r.at_ 0x60) with
          | some (.here k) => .ok (some k)
          | _ => .error .wait
        let va (o : Nat) : Nat := (ce.vbase + coff + o) % 2 ^ 64
        .ok (s, .ok { l with
          deps := deps, done := done
          code := { l.code with text := va l.code.text, const := va l.code.const } })

/-- The launch joins the queue with the next sequence number, and its dependences are armed (R388). -/
def State.enqueue (s : State) (h : Nat) (l : Launch) : State × Word64 :=
  let q := ((s.hedge h).map (·.nextSeq)).getD 0
  let t := s.mapHedge h fun x => { x with launches := x.launches ++ [{ l with seq := q }], nextSeq := q + 1 }
  (l.deps.zipIdx.foldl (fun u p => u.arm none p.1.key ⟨.dep h q p.2, h, p.1.t⟩) t, BitVec.ofNat 64 q)

/-- The result word of a launch request, and the state with the launch queued. -/
def State.launchResult (s : State) (h : Nat) : Except (Nat × Nat) Launch → State × Word64
  | .ok l => s.enqueue h l
  | .error r => (s, refusalWord r)

/-- LNCH (R387). The result lands in S[D] later. -/
def execLnch (g : Guard) (d a b : Reg) (s : State) : Host.Outcome State Fault Refusal :=
  s.together g false (fun x => .s64 (x.regIndex d)) (fun e x => if e = 0 then [] else x.words [(a, 1), (b, 1)]) fun e t => do
    let gr := t.focus
    if e = 0 then .ok t
    else
      let d ← gr.sNum d
      let a ← gr.sNum a
      let b ← gr.sNum b
      gr.ready [] [d, a, b] []
      t.notSpec
      let t ← t.releaseSys
      match t.hedge gr.hedge with
      | none => .error .wait
      | some h =>
        let tr (idx base va : Nat) : Res (Nat × Bool) :=
          match t.translate (t.coreOf gr) gr.hedge va needR with
          | .error st => .error (atLane (lowest e) va ((va : Int) - base) idx st)
          | .ok r => .ok r
        let rd : Reader := ⟨promotedAt .sys, dieAgents (dieOf (t.coreOf gr)), fun u _ => u⟩
        let (u, r) ← t.launchForm rd h gr.lseq (gr.s a) (gr.s b) tr
        let (u, w) := (u.acquire gr .sys).launchResult gr.hedge r
        let o := { u.newOp .none (.lnch w) e with dst := .s64 d }
        let v := u.both fun x => { x with pend := x.pend ++ [o] }
        .ok { v with focus := v.focus.nextId }

/-- SBI_LAUNCH: a G-die thread launches through the service kernel, which resolves XLAT and MIGR itself and answers
with the result word (R387). -/
def execSbiLaunch (hedge : Nat) (buf off : Word64) (s : State) : Host.Outcome State Fault Refusal :=
  match s.hedge hedge with
  | none => .next s
  | some h =>
    let tr (_ _ va : Nat) : Res (Nat × Bool) :=
      match s.hubTranslate h va needR with
      | some r => .ok r
      | none => .error .wait
    match s.launchForm ⟨fun t => t.narrower .sys, offDie, fun u va => u.hubReach h va⟩ h 0 buf off tr with
    | .ok (t, r) =>
      let (u, w) := t.launchResult hedge r
      .next (u.send (.sbi hedge 0 w))
    | .error _ => .next (s.sideAsks h (.buf (buf.toNat % 4096)) needR [off.toNat, off.toNat + 639])

/-! ## CHKPT (R404) -/

/-- CHKPT asks for a snapshot, and the group starts no clause before it is taken (log 44, DEDUCED). -/
def execChkpt (g : Guard) (d : Reg) (s : State) : Host.Outcome State Fault Refusal :=
  s.together g true (fun _ => .none) (fun _ _ => []) fun e t => do
    let gr := t.focus
    if e = 0 then .ok t
    else
      let d ← gr.sNum d
      gr.ready [] [d] []
      t.notSpec
      .ok ((t.mapHedge gr.hedge fun h => { h with wantSnap := true }).both fun x =>
        { x with holds := x.holds ++ [Hold.chkpt d] })

/-! ## SPCMT and SPDSC (R398 to R402, R426) -/

/-- A pending add of a launch that a resolution acts on. -/
def PendingAdd.isOf (p : PendingAdd) (h q : Nat) (pick : Option (Nat × Nat) → Bool) : Bool :=
  p.hedge == h && p.lseq == q && pick p.page

/-- The adds of a launch that a resolution acts on: performed as one add per counter, or dropped; those still on their
way become ordinary, or are dropped (R402). -/
def State.resolveAdds (s : State) (h q : Nat) (pick : Option (Nat × Nat) → Bool) (commit : Bool) : State :=
  let mine (a : AddReq) : Bool := a.hedge == h && (a.spec.map fun x => x.1 == q && pick x.2).getD false
  let t := { s with adds :=
    if commit then s.adds.map fun (a : AddReq) => if mine a then { a with spec := none } else a
    else s.adds.filter fun a => !mine a }
  (s.ctrs.map (·.1)).foldl (fun u k =>
    let ps := (u.ctr k).pending.filter fun p => p.isOf h q pick
    if ps.isEmpty then u
    else
      let v := u.mapCtr k fun c => { c with pending := c.pending.filter fun p => !p.isOf h q pick }
      if commit then v.addCtr k (ps.map (·.amount)).sum else v) t

/-- The accesses of a launch to a resolved page, or after its resolution, are ordinary (R402). -/
def State.ordinary (s : State) (h q : Nat) (pick : Nat → Bool) : State :=
  let place (p : Place) : Place := match p with
    | .spec _ pa => if pick (pa / 4096) then .home pa else p
    | _ => p
  let fix (g : Group) : Group :=
    if g.hedge == h && g.lseq == q then
      { g with pend := g.pend.map fun o =>
        { o with accs := o.accs.map fun x => { x with places := x.places.map place } } }
    else g
  { s with focus := fix s.focus, others := s.others.map fix }

/-- SPCMT of one page with its shadow, as a release at SYS (R399, R402): of a PUB page it becomes the unpublished shadow,
and is published when a publish is held. -/
def State.commitPage (s : State) (h q page : Nat) (pub held : Bool) : State :=
  let core := s.coreOf s.focus
  if !pub then s.publishAs h (some q) page .sys core
  else
    let t := match s.shadow h (some q) page with
      | some x =>
        { s with shadows := (s.shadows.filter fun y => !(y.hedge == h && y.page == page &&
          (y.layer == none || y.layer == some q))) ++ [{ x with layer := none }] }
      | none => s
    if held then t.publishAs h none page .sys core else t

/-- The page of a write-set buffer, or none where it does not translate. -/
def State.specPage (s : State) (h : Hedge) (buf j : Nat) : Option (Nat × BufEntry) :=
  (h.entry buf).bind fun e => (s.hubTranslate h ((e.vbase + 4096 * j) % 2 ^ 64) needNone).map fun p => (p.1 / 4096, e)

/-- The action on one page that is not resolved yet (R402, R426). -/
def State.resolvePage (s : State) (h : Hedge) (q : Nat) (commit : Bool) (x : Nat × Nat) : State :=
  match s.specAt h.p.id q with
  | none => s
  | some sp =>
    if sp.done.contains x then s
    else
      let t := match s.specPage h x.1 x.2 with
        | none => s
        | some (page, e) =>
          (if commit then s.commitPage h.p.id q page e.pub (sp.held.contains x)
            else s.dropShadow h.p.id (some q) page).ordinary h.p.id q fun n => n == page
      let t := t.resolveAdds h.p.id q (fun p => p == some x) commit
      t.mapLaunch h.p.id q fun l => { l with spec := l.spec.map fun y =>
        { y with done := y.done ++ [x], held := y.held.filter fun z => z != x } }

/-- The pages of a launch's write set. -/
def Hedge.writePages (h : Hedge) (sp : Spec) : List (Nat × Nat) :=
  sp.wset.flatMap fun b => (List.range (((h.entry b).map (·.len)).getD 0 / 4096)).map fun j => (b, j)

/-- .FINAL, once every page is resolved: the unattributed adds, and the launch is resolved; a complete launch then leaves the
queue (R402, R426). -/
def State.resolveFinal (s : State) (h : Hedge) (q : Nat) (commit : Bool) : State :=
  let t := s.resolveAdds h.p.id q (fun _ => true) commit
  let t := t.ordinary h.p.id q fun _ => true
  let t := { t with shadows := t.shadows.filter fun y => !(y.hedge == h.p.id && y.layer == some q) }
  t.mapHedge h.p.id fun x => { x with
    launches := (x.launches.filter fun l => !(l.seq == q && l.complete)).map fun l =>
      if l.seq == q then { l with spec := l.spec.map fun y => { y with resolved := true, held := [] } } else l }

/-- The checks of R402 in their order, and the target with its range of pages. -/
def State.resolveCheck (s : State) (a b c : Nat) : Res (Hedge × Nat × Spec × List (Nat × Nat)) := do
  let gr := s.focus
  let iw := gr.s b
  let idx := iw.toNat % 4096
  let first := (gr.s c).toNat / 2 ^ 32
  let count := (gr.s c).toNat % 2 ^ 32
  let q := if gr.s a = 0 then gr.lseq else (gr.s a).toNat
  let bad (f : FaultCode) : Stop :=
    .fault { code := f, acc := 1, va := s.bufVa gr.hedge idx (4096 * first : Nat), off := (4096 * first : Nat), buf := idx }
  need (decide (iw.toNat < 4096)) (bad .bufidx)
  match s.hedge gr.hedge, s.specAt gr.hedge q with
  | some h, some sp =>
    need ((q == gr.lseq || (s.specOf gr).isNone) && sp.wset.contains idx) (bad .specviol)
    let len := ((h.entry idx).map (·.len)).getD 0
    need (count == 0 || decide (4096 * (first + count) ≤ len)) (bad .bufbound)
    .ok (h, q, sp, (List.range count).map fun j => (idx, first + j))
  | _, _ => .error (bad .specviol)

/-- The next page of an SPCMT can be committed now: its home takes it, or there is nothing to take (R368, R405). -/
def State.commitRoom (s : State) (h : Hedge) (q : Nat) (x : Nat × Nat) : Bool :=
  match s.specAt h.p.id q, s.specPage h x.1 x.2 with
  | some sp, some (page, e) => sp.done.contains x ||
      if e.pub then !sp.held.contains x || s.pageRoom h (some q) page else s.pageRoom h (some q) page
  | _, _ => true

/-- A page action of SPCMT or SPDSC, or after the last page the act of .FINAL, which is the operation's last: the resolved
pages are seen one after the other (R402, R426). A commit waits for its home (R368, R405). No rule names an event for the
action, and PUBL_PERFORM performs it (log 89, DESIGN CHOICE). -/
def State.resolveNext (s : State) (gr : Group) (o : Op) (h : Hedge) (q : Nat) (commit final : Bool) (todo : List (Nat × Nat)) :
    State :=
  let drop (t : State) : State := t.mapPair gr.id fun y => y.dropOp o.id
  match s.specAt h.p.id q, todo with
  | none, _ => drop s
  | some _, x :: rest =>
    if commit && !s.commitRoom h q x then
      (if ((s.specPage h x.1 x.2).map fun p => s.inCopy (p.1 * 4096)).getD false then s else s.wantSnap h.p.id)
    else
      let t := (s.focusOn gr.id).resolvePage h q commit x
      let t := t.focusOn s.focus.id
      if rest.isEmpty && !final then drop t
      else t.mapPair gr.id fun y => y.setOp { o with kind := .resolve q commit final rest }
  | some _, [] => drop (if final then s.resolveFinal h q commit else s)

/-- SPCMT and SPDSC (R402): the checks and the release; the page actions follow one by one, and the group starts no clause
before they are performed. -/
def State.resolveSpec (s : State) (gd : Guard) (commit final : Bool) (a b c : Reg) :
    Host.Outcome State Fault Refusal :=
  s.together gd true (fun _ => .none) (fun e x => if e = 0 then [] else x.words [(a, 1), (b, 1), (c, 1)]) fun e t => do
    let gr := t.focus
    if e = 0 then .ok t
    else
      let a ← gr.sNum a
      let b ← gr.sNum b
      let c ← gr.sNum c
      gr.ready [] [a, b, c] []
      let (h, q, sp, pages) ← t.resolveCheck a b c
      let t ← t.releaseSys
      let todo := (pages ++ if final then h.writePages sp else []).eraseDups
      let o := t.newOp .none (.resolve q commit final todo) e
      .ok (if todo.isEmpty && !final then t
        else t.both fun x => { x with pend := x.pend ++ [o], nextOp := max x.nextOp (o.id + 1) })

/-- PUBL of a group performed once its copies have landed: the pages of its range are published in one step, as a release (R266,
R268). -/
def State.publPerform (s : State) (gr : Group) (o : Op) (h : Hedge) (lo len : Nat) : State :=
  if !s.mayPerform gr o || s.publWaits gr o lo len then s
  else
    let pages := s.publPages h gr o lo len
    match (s.release gr o.scope).publishAll h gr.lseq pages with
    | some u => u.mapGroup gr.id fun x => x.dropOp o.id
    | none => s.publishWaits h gr.lseq pages

/-- PUBL_PERFORM: a publish of PUBL, or a page action of the group's oldest SPCMT or SPDSC, is performed (R266, R268, R402). -/
def execPublPerform (g p : Nat) (s : State) : Host.Outcome State Fault Refusal :=
  match s.group g with
  | none => .next s
  | some gr =>
    match gr.pend.find? (fun o => o.id == p), s.hedge gr.hedge with
    | some o, some h =>
      match o.kind with
      | .publ lo len => .next (s.publPerform gr o h lo len)
      | .resolve q commit final todo =>
        if gr.role.leader.isSome || (gr.pend.find? Op.isResolve).map (·.id) != some p then .next s
        else .next (s.resolveNext gr o h q commit final todo)
      | _ => .next s
    | _, _ => .next s

/-- SPCMT (R402). -/
def execSpcmt (g : Guard) (final : Bool) (a b c : Reg) (s : State) : Host.Outcome State Fault Refusal :=
  s.resolveSpec g true final a b c

/-- SPDSC (R402). -/
def execSpdsc (g : Guard) (final : Bool) (a b c : Reg) (s : State) : Host.Outcome State Fault Refusal :=
  s.resolveSpec g false final a b c

end Sys2Proof.Machine
end

