-- ==== Sys2Proof/Machine/Clause.lean ====
section
/-! DEFINITION. Clauses and issue: the barrel, starting a clause, its boundary, parking and emulation (spec 01 R18 to R39;
spec 02 R71 to R73; spec 06 R152 to R168; spec 14 R301, R302; spec 22 R447). -/

namespace Sys2Proof.Machine

/-! ## Acting on one group -/

/-- A step of one group, which is in focus while it acts. -/
def State.onGroup (s : State) (g : Nat) (f : State → Host.Outcome State Fault Refusal) :
    Host.Outcome State Fault Refusal :=
  match s.group g with
  | none => .next s
  | some _ =>
    match f (s.focusOn g) with
    | .next t => .next (t.focusOn s.focus.id)
    | .fault x => .fault x
    | .refused x => .refused x

/-! ## What R161 and R162 ask -/

/-- Outstanding instructions of a class; committed MMAs count among the tile operations (R162). -/
def Group.countOf (g : Group) (c : OpClass) : Nat :=
  (g.pend.filter fun o => o.cls == c).length + (if c == .tile then (g.batches.map (·.count)).sum else 0)

/-- A threshold is met; 15 sets no condition (R23, R161). -/
def meets (n threshold : Nat) : Bool := threshold == 15 || decide (n ≤ threshold)

/-- The four thresholds of a header (R23). -/
def Group.meetsHeader (g : Group) (h : Header) : Bool :=
  meets (g.countOf .load) h.wld && meets (g.countOf .store) h.wst && meets (g.countOf .copy) h.wcp &&
    meets (g.countOf .tile) h.wtl

/-- The pending MWAIT is satisfied (R234). -/
def Group.mwaitMet (g : Group) : Bool := (g.mwait.map fun n => decide (g.batches.length ≤ n)).getD true

/-- A page action of SPCMT or SPDSC of the group is still to be performed (R402). -/
def Group.resolves (g : Group) : Bool := g.pend.any Op.isResolve

/-- Nothing parks or holds the group at a clause boundary; `behind`: a group that has yet to reach the boundary of its
pair at which a save holds it goes on (R157, R161, R163, R172). -/
def Group.free_ (g : Group) (behind : Bool) : Bool :=
  g.seat.isSome && (g.holds.all fun x => behind && x == Hold.save) && g.waitUntil.isNone && g.cwaits.isEmpty && g.svcWait.isNone && g.mwaitMet &&
    !g.presence && g.emu == .none && !g.resolves

/-- What a save, and a group stopped by a fault, waits for: results still to land, tile operations, and source bytes still
to be read; a slice joined to a copy that has not started is no part of it (R270, R339, R347). -/
def State.drains (s : State) (o : Op) : Bool :=
  match o.kind with
  | .slice c => ((s.copies.find? fun x => x.id == c).map (·.started)).getD true
  | .lnch _ | .mvb _ _ _ _ _ _ _ _ | .mzero _ | .sys _ | .resolve _ _ _ _ => true
  | .load | .store | .atom _ _ | .cas _ | .maint _ | .ctr _ _ | .place _ | .pin | .unpin | .mcrd _ | .quota | .publ _ _ =>
    o.cls == .load || o.cls == .tile || o.dst != .none || o.held

/-- A leading group of a checked pair. -/
def Group.leads (g : Group) : Bool :=
  match g.role with
  | .leading _ => true
  | .single | .trailing _ => false

/-- The drains of R347 are complete, but for operations that a test leaves out. -/
def State.drainedBut (s : State) (but : Op → Bool) (g : Group) : Bool :=
  !g.pend.any (fun o => s.drains o && !but o) && !(g.leads && g.cwaits.any fun c => c.at_ == .held) && g.openBatch.mmas.isEmpty &&
    g.batches.isEmpty && g.emu == .none && g.pairFault.isNone

/-- The drains of R347 are complete. -/
def State.drained (s : State) (g : Group) : Bool := s.drainedBut (fun _ => false) g

/-- The group waits, drained and ready, at its resume point inside a clause (R159, R339, R346). -/
def State.resumable (s : State) (g : Group) : Bool :=
  g.seat.isSome && g.clause.isSome && ((g.stop.map (·.ready)).getD false) && !g.holds.contains .save && s.drained g

/-- A clause of the group is in progress and holds the slot (R159). -/
def Group.inProgress (g : Group) : Bool := g.clause.isSome && g.stop.isNone

/-- The next instruction of the clause in progress may be tried (R157). -/
def Group.runnable (g : Group) : Bool :=
  g.inProgress && !g.presence && (g.emu == .none || g.emu == .done) && g.pairFault.isNone &&
    (g.clause.map fun c => decide (c.idx < c.words.length)).getD false

/-- The higher priority first, then the lower address (R166). -/
def Entry.before (a b : Entry) : Bool := decide (b.prio < a.prio) || (a.prio == b.prio && decide (a.off ≤ b.off))

/-- The entry that R166 selects. -/
def bestEntry : List Entry → Option Entry
  | [] => none
  | e :: es =>
    match bestEntry es with
    | none => some e
    | some x => if e.before x then some e else some x

/-- The entry whose clause comes next: the one selected, as the frontier holds it now (R165, R166) (log 47, DEDUCED). -/
def Group.nextEntry (g : Group) : Option Entry :=
  match g.selected with
  | some e => (g.frontier.find? fun x => x.off == e.off).or (bestEntry g.frontier)
  | none => bestEntry g.frontier

/-- A trailing group has yet to come to where its leading group stands (R170, R172). -/
def State.trailsBehind (s : State) (g : Group) : Bool :=
  match g.role with
  | .trailing p =>
    match s.group p with
    | some x => decide (g.issued < x.issued) || x.clause.isSome || x.pairFault.isSome
    | none => false
  | .single | .leading _ => false

/-- The trailing group of a pair issues the clauses of its leading group, behind it (R170). -/
def State.leaderAhead (s : State) (g : Group) : Bool :=
  match g.role.leader.bind s.group with
  | some _ => s.trailsBehind g
  | none => true

/-- The header at an offset as the hub would read it, or none where it does not translate. -/
def State.peekWord (s : State) (g : Group) (off : Nat) : Option Word64 :=
  ((s.hedge g.hedge).bind fun h => s.hubTranslate h ((g.code.text + off) % 2 ^ 64) needX).map fun p => s.homeWord p.1

/-- The hedge is stopped for a snapshot, and its groups are held at their boundaries, a pair at one that both have reached
(R172, R403). -/
def State.snapHeld (s : State) (g : Group) : Bool :=
  ((s.hedge g.hedge).map (·.wantSnap)).getD false && !s.trailsBehind g

/-- F of an answered SVC: the header that follows the clause that its slot names (R393, R418). -/
def State.replyNext (s : State) (g : Group) (slot : Nat) : Nat :=
  let va := ((s.hedge g.hedge).map fun h => (s.homeWord (h.slotAt slot + 0x20)).toNat).getD 0
  let off := va - g.code.text
  off + 8 * ((((s.peekWord g off).map (·.toNat)).getD 0) % 32 + 1)

/-- The group stands at a clause boundary and is stopped by nothing (R159, R161). -/
def Group.atBoundary (g : Group) : Bool :=
  g.seat.isSome && g.clause.isNone && ((g.stop.map (·.ready)).getD true) && g.pairFault.isNone

/-! ## The barrel (R156 to R159) -/

/-- The groups of a slot of a quarter in residency order (R152). -/
def State.slotGroups (s : State) (core q slot : Nat) : List Group :=
  (List.range 4).filterMap fun p => s.groups.find? fun g => g.seat == some ⟨core, q, slot, p⟩

/-- The position of the group that most recently started a clause in the slot. -/
def Core.lastAt (k : Core) (q slot : Nat) : Option Nat :=
  (k.last.reverse.find? fun x => x.quarter == q && x.slot == slot).map (·.pos)

/-- The groups of a slot in the order of the pick: after the one that ran last, wrapping (R159). -/
def State.slotOrder (s : State) (core q slot : Nat) : List Group :=
  let gs := s.slotGroups core q slot
  match (s.core core).lastAt q slot with
  | none => gs
  | some p =>
    let pos (g : Group) : Nat := (g.seat.map (·.pos)).getD 0
    gs.filter (fun g => decide (p < pos g)) ++ gs.filter fun g => decide (pos g ≤ p)

/-- The groups of a slot that may issue, the one preferred first: the one whose clause is in progress, or those that may
start a clause, in the order of the pick, after which come those that have yielded (R157, R159, R195). -/
def State.slotPicks (s : State) (core q slot : Nat) : List Group :=
  match (s.slotGroups core q slot).find? Group.inProgress with
  | some g => [g]
  | none =>
    let gs := s.slotOrder core q slot
    (gs.filter fun g => !g.yielded) ++ gs.filter (·.yielded)

/-- The groups that a quarter may issue from at a count, the one preferred first: those of the count's slot, then those of
the other slots of its owner in order (R156). The first of them whose instruction can issue does (R157, R161). -/
def State.quarterPicks (s : State) (core q : Nat) (count : Nat) : List Nat :=
  let k := s.core core
  match k.slots.getD (count % 16) none with
  | none => []
  | some h =>
    (List.range 16).flatMap fun i =>
      let slot := (count + i) % 16
      if k.slots.getD slot none == some h then (s.slotPicks core q slot).map (·.id) else []

/-- A core without resident work is gated, and its count stands still (R351, R352). -/
def State.gated (s : State) (core : Nat) : Bool := !s.groups.any fun g => (g.seat.map (·.core)) == some core

/-- ISSUE_CYCLE of a core: the core-local count goes up by one, quarter-buffer lines past their 512 A-clocks leave, and
each quarter turns to its slot (R5, R156, R307) (log 65, DESIGN CHOICE). -/
def execIssueCycle (core : Nat) (s : State) : Host.Outcome State Fault Refusal :=
  if s.gated core then .next s
  else
    let c := (s.core core).cycle + 1
    let t := s.mapCore core fun k => { k with
      cycle := c
      quarters := k.quarters.filter fun x => decide ((c - x.since).toNat < 512) }
    .next { t with grants := t.grants ++ (List.range 4).map fun q => s.quarterPicks core q c.toNat }

/-- A group leaves its slot: with no group resident there that has started a clause, the next search starts at position 0
(R159). -/
def State.leaveSlot (s : State) (g : Group) : State :=
  match g.seat with
  | none => s
  | some x =>
    let mine (y : Started) : Bool := y.quarter == x.quarter && y.slot == x.slot
    let stays (y : Started) : Bool :=
      y.group != g.id && (s.slotGroups x.core x.quarter x.slot).any fun z => z.id == y.group
    s.mapCore x.core fun k =>
      if (k.last.filter mine).any stays then k else { k with last := k.last.filter fun y => !mine y }

/-- A group of a slot has started a clause, which the slot remembers, and the other groups' requests to be passed over at
that pick are used up (R159, R195). -/
def State.markStarted (s : State) : State :=
  match s.focus.seat with
  | none => s
  | some x =>
    let t := s.mapCore x.core fun k => { k with
      last := (k.last.filter fun y => y.group != s.focus.id) ++ [⟨x.quarter, x.slot, x.pos, s.focus.id⟩] }
    (t.slotGroups x.core x.quarter x.slot).foldl (fun (v : State) (y : Group) =>
      v.mapGroup y.id fun z => { z with yielded := false }) t

/-! ## Starting a clause (R22 to R27, R38, R161, R447) -/

/-- The feature bits from 1 up that gate an instruction by its encoding (R447). -/
def highGates (i : Instr) : List Nat :=
  let p (b : Bool) (n : Nat) : List Nat := if b then [n] else []
  match i with
  | .lbind _ _ | .lfree _ | .ladd _ _ _ _ _ _ | .lsub _ _ _ _ _ _ | .lshl _ _ _ _ _ _ | .lshr _ _ _ _ _ _ _
  | .lmuls _ _ _ _ _ _ _ | .lcmp _ _ _ _ _ _ | .lneg _ _ _ _ | .lclz _ _ _ => [1]
  | .mma _ m => p (m.fa == .f64) 2 ++ p (m.fa == .e2m1 || m.fb == .e2m1) 3
  | .mvb _ fb fa _ _ _ _ => p (fa == .e2m1 || fb == .e2m1) 3 ++ [5]
  | .dot8 _ (.fp _ _) _ _ _ _ => [3]
  | .pack _ f _ _ _ _ => p (f == .e3m2 || f == .e2m3) 4
  | .unpk _ f _ _ => p (f == .e3m2 || f == .e2m3) 4
  | .spcmt _ _ _ _ _ | .spdsc _ _ _ _ _ => [8]
  | .place _ .pool _ _ _ => [9]
  | .rrot _ _ _ _ _ => [10]
  | .publ _ _ _ _ _ => [11]
  | .cpy _ q _ _ _ => p q 11
  | .cpyg _ _ q _ _ _ _ => p q 11
  | .cpys _ q _ _ _ _ => p q 11
  | _ => []

/-- The feature bits that gate an instruction by its encoding: bit 0 gates every instruction that no other bit does
(R446, R447). -/
def gatesOf (i : Instr) : List Nat := if (highGates i).isEmpty then [0] else highGates i

/-- The feature word of the group's hedge; every bit where it has none. -/
def State.featuresOf (s : State) (g : Group) : BitVec 256 := ((s.hedge g.hedge).map (·.features)).getD (BitVec.allOnes 256)

/-- The fault that R38 finds in instruction word i of a clause. -/
def checkWord (feat : BitVec 256) (h : Header) (i : Nat) (w : Word64) : Option FaultCode :=
  match decodeWord w with
  | .error _ => some .illop
  | .ok x =>
    if (gatesOf x).any fun b => !feat.getLsbD b then some .illop
    else if !h.declares w then some .illclause
    else if clauseEnding w && (i + 1 != h.n || h.rep) then some .illclause
    else none

/-- The first instruction word that R38 refuses, with its index and fault. -/
def checkWords (feat : BitVec 256) (h : Header) : Nat → List Word64 → Option (Nat × Word64 × FaultCode)
  | _, [] => none
  | i, w :: ws =>
    match checkWord feat h i w with
    | some c => some (i, w, c)
    | none => checkWords feat h (i + 1) ws

/-- The offset of the word with an index in the clause at an offset; 31 is the header (R18, R342). -/
def wordOff (off idx : Nat) : Nat := if idx = 31 then off else off + 8 * (idx + 1)

/-- A fault found when a clause is reached (R449). -/
def Group.reachFault (g : Group) (e : Entry) (c : FaultCode) (idx : Nat) (word : Word64) (at_ : Nat) : Stop :=
  .fault { code := c, lane := some (lowest e.mask), acc := 3, va := (g.code.text + at_) % 2 ^ 64, off := at_,
           buf := g.code.buf, place := some (idx, e.off, word), mask := some e.mask }

/-- A word of text fetched for issue (R18, R334). -/
def State.fetchWord (s : State) (g : Group) (e : Entry) (idx : Nat) : Res (Nat × Word64) :=
  let off := wordOff e.off idx
  match s.translate (s.coreOf g) g.hedge ((g.code.text + off) % 2 ^ 64) needX with
  | .ok (pa, _) => .ok (pa, s.homeWord pa)
  | .error (.fault i) =>
    .error (.fault { i with
      lane := some (lowest e.mask), acc := 3, off := off, buf := g.code.buf, place := some (idx, e.off, 0),
      mask := some e.mask })
  | .error st => .error st

/-- An uncorrectable error, or a check-code mismatch, in a fetched word (R173, R410). -/
def State.fetchError (s : State) (pa : Nat) : Option FaultCode := s.consumeFault [.home pa]

/-- The first of a clause's words that lies in the text, translates and holds an error; checked before R38 (R173). -/
def State.wordsError (s : State) (g : Group) (e : Entry) (n : Nat) : Option (Nat × Word64 × FaultCode) :=
  (List.range n).findSome? fun i =>
    if g.code.tlen ≤ wordOff e.off i then none
    else
      match s.fetchWord g e i with
      | .ok (pa, w) => (s.fetchError pa).map fun c => (i, w, c)
      | .error _ => none

/-- The clause at an entry, fetched and checked (R22, R38); the pass count is left at 1 (log 48, DEDUCED). -/
def State.fetchClause (s : State) (g : Group) (e : Entry) : Res Clause := do
  need (decide (e.off < g.code.tlen)) (g.reachFault e .bufbound 31 0 e.off)
  let (pa, hw) ← s.fetchWord g e 31
  match s.fetchError pa with
  | some c => .error (g.reachFault e c 31 hw e.off)
  | none =>
    match s.wordsError g e (min 24 (hw.toNat % 32)) with
    | some (i, w, c) => .error (g.reachFault e c i w (wordOff e.off i))
    | none =>
      match decodeHeader hw with
      | none => .error (g.reachFault e .illclause 31 hw e.off)
      | some h =>
        need (decide (e.off + 8 * h.n < g.code.tlen)) (g.reachFault e .bufbound 31 hw ((g.code.tlen + 7) / 8 * 8))
        let ws ← (List.range h.n).mapM fun i => do
          let (_, w) ← s.fetchWord g e i
          .ok w
        match checkWords (s.featuresOf g) h 0 ws with
        | some (i, w, c) => .error (g.reachFault e c i w (wordOff e.off i))
        | none =>
          need (!h.rep || decide (h.rcnt < g.sregs.length)) (g.reachFault e .regbound 31 hw e.off)
          .ok ⟨e.off, hw, h, ws, 0, e.mask, 1⟩

/-- PRIO of the header at an offset, read when an entry is made or moved there (R164); a free value where its page does
not translate then (log 22, DESIGN CHOICE). -/
def State.prioAt (s : State) (g : Group) (off : Nat) : Nat × State :=
  match s.peekWord g off with
  | some w => ((w.extractLsb' 42 8).toNat, s)
  | none => ((s.free 8).1.toNat, (s.free 8).2)

/-- An entry joins the frontier: merged with one at its address (R165). -/
def joinEntry (es : List Entry) (e : Entry) : List Entry :=
  if es.any fun x => x.off == e.off then
    es.map fun x => if x.off == e.off then { x with mask := x.mask ||| e.mask } else x
  else es ++ [e]

/-- Lanes go to an offset: an entry of the group in focus, with the PRIO found there (R164, R165). -/
def State.joinLanes (s : State) (off : Nat) (m : Mask) : State :=
  let (p, t) := s.prioAt s.focus off
  { t with focus := { t.focus with frontier := joinEntry t.focus.frontier ⟨p, off, m⟩ } }

/-- A BUFBOUND on a continuation at a clause boundary (R22, R449). -/
def Group.continuationFault (g : Group) (c : Clause) : FaultInfo :=
  let off := c.off + 8 * (c.head.n + 1)
  { code := .bufbound, lane := some (lowest c.mask), acc := 3, va := (g.code.text + off) % 2 ^ 64, off := off,
    buf := g.code.buf, place := some (31, c.off, c.headWord), mask := some c.mask }

/-- The lanes of a clause leave its entry, which stays with those that a reply brought there while the clause ran (R27,
R165, R418). -/
def leaveEntry (es : List Entry) (off : Nat) (m : Mask) : List Entry :=
  (es.map fun x => if x.off == off then { x with mask := x.mask &&& ~~~m } else x).filter fun x => x.mask != 0

/-- The entry of a clause is replaced by moves, and the next one is selected; with no entry left the open batch is
committed (R165, R166, R168). -/
def State.moveEntry (s : State) (off : Nat) (mask : Mask) (ms : List (Nat × Mask)) : State :=
  let t := { s with focus := { s.focus with
    frontier := leaveEntry s.focus.frontier off mask
    clause := none, moves := none, replay := none, reached := none, selected := none } }
  let t := ms.foldl (fun u m => u.joinLanes m.1 m.2) t
  let g := t.focus
  if g.frontier.isEmpty then { t with focus := g.commit }
  else { t with focus := { g with selected := bestEntry g.frontier } }

/-- The clause in focus ends without a clause-ending instruction: its lanes go on at the following header (R21, R22). -/
def State.continue_ (s : State) (c : Clause) : State :=
  let next := c.off + 8 * (c.head.n + 1)
  if next < s.focus.code.tlen then s.moveEntry c.off c.mask [(next, c.mask)]
  else { s with focus := { s.focus with clause := none, replay := none, reached := none } }.raise c.mask (s.focus.continuationFault c)

/-- The group in focus starts a pass of a clause whose entry is selected, when the thresholds are met; WST 0 makes its
stores reach engine reads (R23, R27, R150, R161). -/
def State.startPass (s : State) (c : Clause) : State :=
  let g := s.focus
  if !g.meetsHeader c.head then s
  else
    let t := if c.head.wst = 0 then s.flushHedge (s.coreOf g) g.hedge else s
    { t with focus := { t.focus with
      clause := some c, replay := none, reached := none, mwait := none, moves := none, stop := none } }.markStarted

/-- The group in focus starts the clause of an entry, checked before, with the lanes that the entry has now: its pass count
is read once, and a count of 0 runs no pass (R24, R27) (log 49, DEDUCED). -/
def State.startClause (s : State) (e : Entry) (c : Clause) : State :=
  let g := s.focus
  let n := if c.head.rep then (g.s c.head.rcnt).toNat % 2 ^ 32 else 1
  if c.head.rep && g.awaitsS c.head.rcnt then s
  else if n = 0 then s.continue_ { c with mask := e.mask }
  else { s with focus := { g with selected := some e } }.startPass { c with passes := n, mask := e.mask }

/-- The clause of an entry that was fetched and checked when it was first reached (R161). -/
def Group.reachedAt (g : Group) (e : Entry) : Option Clause := g.reached.filter fun c => c.off == e.off

/-- The clause of an entry is latched as it is first reached, and started when its thresholds are met (R161). -/
def State.reach (s : State) (e : Entry) (c : Clause) : State :=
  { s with focus := { s.focus with selected := some e, reached := some c } }.startClause e c

/-- UNCORR or SDC of engine work is taken, at a clause boundary (R247, R269, R449). -/
def State.takeLate (s : State) (f : LateFault) : State :=
  { s with focus := { s.focus with lateFault := none } }.takeFault f.mask
    { code := f.code, place := some (f.idx, f.off, f.word), mask := some f.mask }

/-- A reply that is answered is taken at this boundary, before another clause or pass starts (R418). -/
def Group.replyFirst (g : Group) : Bool := g.svcReplies.any (·.ready)

/-- The group takes UNCORR or SDC of engine work now: at a clause boundary, held there or not, or parked for presence, where
it may wait for bytes that never land (R247, R269) (log 8, DESIGN CHOICE). -/
def Group.takesLate (g : Group) : Bool :=
  g.atBoundary || (g.seat.isSome && g.clause.isSome && g.presence && g.stop.isNone && g.pairFault.isNone)

/-- CLAUSE_START (R161): a fault of engine work is taken (R247, R269), by a parked or held group too; a group that is ready
at a resume point runs on (R346); a replayed clause goes on with the words latched and checked before its first pass;
otherwise the next entry's clause is fetched and checked, once, and started (log 42, DEDUCED). -/
def execClauseStart (g : Nat) (s : State) : Host.Outcome State Fault Refusal :=
  s.onGroup g fun s =>
    let gr := s.focus
    match gr.lateFault.filter fun _ => gr.takesLate with
    | some f => .next (s.takeLate f)
    | none =>
      if s.snapHeld gr then .next s
      else if s.resumable gr then .next { s with focus := gr.rerun }.markStarted
      else if !gr.atBoundary then .next s
      else
        if !(gr.free_ (s.trailsBehind gr) && s.leaderAhead gr && (gr.stop.isNone || s.drained gr)) ||
            (gr.replyFirst && !s.trailsBehind gr) then .next s
        else
          match gr.replay with
          | some c => .next (s.startPass c)
          | none =>
            match gr.nextEntry with
            | none => .next s
            | some e =>
              match gr.reachedAt e with
              | some c => .next (s.startClause e c)
              | none =>
                match s.fetchClause gr e with
                | .ok c => .next (s.reach e c)
                | .error st => s.stopped e.mask st

/-- A system instruction of the clause that a checked pair holds has yet to act, and its group goes no further (R170). -/
def Group.sysHeld (g : Group) : Bool :=
  g.pend.any fun o => o.held && match o.kind with
    | .sys ends => ends
    | _ => false

/-- CLAUSE_BOUNDARY (R25, R27, R165): XI steps; another pass of a replayed clause follows, or the entry is replaced as
the clause-ending instruction gave, or moves to the following header; a fault of engine work is taken. -/
def execClauseBoundary (g : Nat) (s : State) : Host.Outcome State Fault Refusal :=
  s.onGroup g fun s =>
    let gr := s.focus
    match gr.clause with
    | none => .next s
    | some c =>
      if c.idx < c.words.length || gr.stop.isSome || gr.presence || gr.emu != .none || gr.pairFault.isSome || gr.sysHeld then .next s
      else
        let t := { s with focus := { gr with xi := gr.xi + xiStep c.head.xstep } }
        let t :=
          if 1 < c.passes then { t with focus := { t.focus with clause := none, moves := none, replay := some { c with idx := 0, passes := c.passes - 1 } } }
          else
            match gr.moves with
            | some ms => t.moveEntry c.off c.mask ms
            | none => t.continue_ c
        match gr.lateFault with
        | some f => .next (if t.focus.stop.isSome then t else t.takeLate f)
        | none => .next t

/-! ## Parking -/

/-- WAIT_EXPIRE: the count has reached the deadline (R194). -/
def execWaitExpire (g : Nat) (s : State) : Host.Outcome State Fault Refusal :=
  match s.group g with
  | none => .next s
  | some gr =>
    match gr.waitUntil with
    | none => .next s
    | some d =>
      if gr.seat.isSome && decide (((s.core (s.coreOf gr)).cycle - d).toNat < 2 ^ 63) then
        .next (s.mapGroup g fun x => { x with waitUntil := none })
      else .next s

/-- PRESENCE_UNPARK: the parked instruction is tried again, and parks again while a line is absent (R132). -/
def execPresenceUnpark (g : Nat) (s : State) : Host.Outcome State Fault Refusal :=
  .next (s.mapGroup g fun x => if x.stop.isSome then x else { x with presence := false })

/-- The traps of a hedge that wait on a die. -/
def Mgmt.waiting (m : Mgmt) (h : Nat) : Nat := (m.queue.filter fun x => x.1 == h).length

/-- A trapped group joins its hedge's queue on its die, unless 64 wait there (R302). -/
def State.presentTrap (s : State) (gr : Group) : State :=
  let die := dieOf (s.coreOf gr)
  if gr.emu == .trapped && decide (((s.mgmt[die]?).map fun m => m.waiting gr.hedge).getD 64 < 64) then
    (s.mapMgmt die fun m => { m with queue := m.queue ++ [(gr.hedge, gr.id)] }).mapGroup gr.id fun x =>
      { x with emu := .queued }
  else s

/-- FMTEMU_TRAP: the trap is presented to the management core (R71, R72, R302). -/
def execFmtemuTrap (g : Nat) (s : State) : Host.Outcome State Fault Refusal :=
  match s.group g with
  | none => .next s
  | some gr => .next (s.presentTrap gr)

/-- FMTEMU_QUEUE_FREE: a trap that found its queue full is presented again (R302). -/
def execFmtemuQueueFree (die hedge : Nat) (s : State) : Host.Outcome State Fault Refusal :=
  match s.groups.find? fun g => g.emu == .trapped && g.hedge == hedge && dieOf (s.coreOf g) == die with
  | none => .next s
  | some gr => .next (s.presentTrap gr)

/-- The group and its partner (R169). -/
def State.members (s : State) (g : Group) : List Group := g :: (g.partner.bind s.group).toList

/-- Groups of a workgroup that hold seats. -/
def State.seated (s : State) (w : Nat) : List Group := s.groups.filter fun g => g.wg == w && g.seat.isSome

end Sys2Proof.Machine
end

