-- ==== Sys2Proof/Machine/Digest.lean ====
section
/-! DEFINITION. SHAKE256, which the boot measurements and the attestation report use (spec 22 R443 to R445). The spec names
the function; its definition is FIPS 202's (log 13, PRESUMED). -/

namespace Sys2Proof.Machine

/-- The state as five planes y of five lanes x each (FIPS 202, 3.1.2). -/
abbrev Planes := List (List Word64)

/-- Two rows of lanes added bit by bit. -/
def xorRows (a b : List Word64) : List Word64 := List.zipWith (· ^^^ ·) a b

/-- Theta: every lane meets the parities of the column before it and of the column behind it, the latter a bit further on
(FIPS 202, 3.2.1). -/
def theta (s : Planes) : Planes :=
  let parity := s.foldl xorRows (List.replicate 5 0)
  let effect := xorRows (parity.rotateRight 1) ((parity.rotateLeft 1).map (·.rotateLeft 1))
  s.map (xorRows effect)

/-- The walk of the lanes other than the origin, by which pi moves each to the place of the next one (FIPS 202, 3.2.2 and
3.2.3): n places from (x, y) on. -/
def piWalk : Nat → Nat → Nat → List (Nat × Nat)
  | 0, _, _ => []
  | n + 1, x, y => (x, y) :: piWalk n y ((2 * x + 3 * y) % 5)

/-- Rho and pi: the t-th lane of the walk, counted from 1, turns by t(t + 1) / 2 bits and takes the next one's place. -/
def rhoPi (s : Planes) : Planes :=
  let walk := piWalk 25 1 0
  let lane (p : Nat × Nat) : Word64 := (s.getD p.2 []).getD p.1 0
  let moved := (List.range 24).map fun t =>
    (walk.getD (t + 1) (0, 0), (lane (walk.getD t (0, 0))).rotateLeft ((t + 1) * (t + 2) / 2 % 64))
  (List.range 5).map fun y => (List.range 5).map fun x =>
    ((moved.find? fun m => m.1 == (x, y)).map fun m => m.2).getD (lane (x, y))

/-- Chi within one plane (FIPS 202, 3.2.4). -/
def chiRow (r : List Word64) : List Word64 :=
  xorRows r (List.zipWith (fun b c => ~~~b &&& c) (r.rotateLeft 1) (r.rotateLeft 2))

/-- The register behind the round constants after n shifts (FIPS 202, 3.2.5). -/
def roundRegister : Nat → Nat
  | 0 => 1
  | n + 1 =>
    let r := 2 * roundRegister n
    if 256 ≤ r then r ^^^ 0x171 else r

/-- The constant of round i: its bit 2^j - 1 is bit 0 of the register after j + 7i shifts (FIPS 202, 3.2.5). -/
def roundConstant (i : Nat) : Word64 :=
  (List.range 7).foldl (fun w j => w ||| (BitVec.ofNat 64 (roundRegister (j + 7 * i) % 2) <<< (2 ^ j - 1))) 0

/-- Round i; iota meets the lane at the origin. -/
def keccakRound (s : Planes) (i : Nat) : Planes :=
  match (rhoPi (theta s)).map chiRow with
  | (o :: row) :: rest => ((o ^^^ roundConstant i) :: row) :: rest
  | s => s

/-- Keccak-f[1600]. -/
def keccakF (s : Planes) : Planes := (List.range 24).foldl keccakRound s

/-- 136 bytes enter the first 17 lanes, plane by plane. -/
def absorb (s : Planes) (block : List Byte) : Planes :=
  keccakF (s.zipIdx.map fun p => p.1.zipIdx.map fun q =>
    q.1 ^^^ BitVec.ofNat 64 (leNat ((block.drop (40 * p.2 + 8 * q.2)).take 8)))

/-- The message absorbed block by block, padded with 0x1F and 0x80 in its last. -/
def absorbAll : Nat → Planes → List Byte → Planes
  | 0, a, _ => a
  | n + 1, a, bs =>
    if 136 ≤ bs.length then absorbAll n (absorb a (bs.take 136)) (bs.drop 136)
    else
      let block := (bs ++ [0x1F] ++ List.replicate 135 0).take 136
      absorb a (block.set 135 (block.getD 135 0 ||| 0x80))

/-- SHAKE256 with 256 bits of output, as 32 bytes. -/
def shake256 (bs : List Byte) : List Byte :=
  ((absorbAll (bs.length / 136 + 1) (List.replicate 5 (List.replicate 5 0)) bs).flatten.take 4).flatMap fun w =>
    leBytes 8 w.toNat

/-- Its bytes as a 256-bit value, the first byte lowest. -/
def shakeWord (bs : List Byte) : BitVec 256 := BitVec.ofNat 256 (leNat (shake256 bs))

end Sys2Proof.Machine
end

