-- ==== Sys2Proof/Machine/Aes.lean ====
section
/-! DEFINITION. AES-XTS-256, with which a home agent seals the lines of a tier (spec 18 R364). The spec names the function; its
definition is that of FIPS 197 and IEEE 1619 (log 84, PRESUMED). -/

namespace Sys2Proof.Machine

/-- Twice a byte in the field of AES (FIPS 197, 4.2). -/
def gfDouble (b : Byte) : Byte := (b <<< 1) ^^^ (if b.msb then 0x1B#8 else 0)

/-- The product of two bytes in the field. -/
def gfMul (a b : Byte) : Byte :=
  ((List.range 8).foldl (fun (x : Byte × Byte) i => (if b.getLsbD i then x.1 ^^^ x.2 else x.1, gfDouble x.2)) (0, a)).1

/-- The inverse of a byte, its 254th power; that of 0 is 0. -/
def gfInv (a : Byte) : Byte := (List.range 253).foldl (fun x _ => gfMul x a) a

/-- The S-box (FIPS 197, 5.1.1). -/
def aesSub (a : Byte) : Byte :=
  let i := gfInv a
  i ^^^ i.rotateLeft 1 ^^^ i.rotateLeft 2 ^^^ i.rotateLeft 3 ^^^ i.rotateLeft 4 ^^^ 0x63#8

/-- Bytes added in the field. -/
def xorBytes (a b : List Byte) : List Byte := List.zipWith (· ^^^ ·) a b

/-- Word n + 8 of the key schedule for 256 bits, from the words before it (FIPS 197, 5.2). -/
def keyWord (ws : List (List Byte)) (n : Nat) : List Byte :=
  let last := ws.getD (n + 7) []
  let round := (List.range (n / 8)).foldl (fun (c : Byte) _ => gfDouble c) 1
  let t := if n % 8 = 0 then xorBytes ((last.rotateLeft 1).map aesSub) [round, 0, 0, 0]
    else if n % 8 = 4 then last.map aesSub else last
  xorBytes (ws.getD n []) t

/-- The sixty words of the key schedule, as fifteen round keys of 16 bytes. -/
def roundKeys (key : List Byte) : List (List Byte) :=
  let ws := (List.range 52).foldl (fun ws n => ws ++ [keyWord ws n])
    ((List.range 8).map fun i => (key.drop (4 * i)).take 4)
  (List.range 15).map fun r => ((ws.drop (4 * r)).take 4).flatten

/-- Byte substitution and the rotation of the rows of a block, column by column (FIPS 197, 5.1.1 and 5.1.2). -/
def subShift (b : List Byte) : List Byte :=
  (List.range 16).map fun i => aesSub (b.getD ((i + 4 * (i % 4)) % 16) 0)

/-- The mixing of one column (FIPS 197, 5.1.3). -/
def mixColumn (c : List Byte) : List Byte :=
  (List.range 4).map fun i =>
    let at_ (k : Nat) : Byte := c.getD ((i + k) % 4) 0
    gfDouble (at_ 0) ^^^ gfDouble (at_ 1) ^^^ at_ 1 ^^^ at_ 2 ^^^ at_ 3

/-- The mixing of the four columns of a block. -/
def mixColumns (b : List Byte) : List Byte := (List.range 4).flatMap fun i => mixColumn ((b.drop (4 * i)).take 4)

/-- A block of 16 bytes enciphered under round keys (FIPS 197, 5.1). -/
def aesBlock (ks : List (List Byte)) (b : List Byte) : List Byte :=
  let first := xorBytes b (ks.getD 0 [])
  let mid := (List.range 13).foldl (fun x r => xorBytes (mixColumns (subShift x)) (ks.getD (r + 1) [])) first
  xorBytes (subShift mid) (ks.getD 14 [])

/-- The tweak of the next block: times x in the field of IEEE 1619, 5.2. -/
def nextTweak (t : BitVec 128) : BitVec 128 := (t <<< 1) ^^^ (if t.msb then 0x87#128 else 0)

/-- Blocks of a data unit enciphered in turn, each under its own tweak. -/
def xtsBlocks (ks : List (List Byte)) : Nat → BitVec 128 → List Byte → List Byte
  | 0, _, _ => []
  | n + 1, t, bs =>
    let tw := leBytes 16 t.toNat
    xorBytes (aesBlock ks (xorBytes (bs.take 16) tw)) tw ++ xtsBlocks ks n (nextTweak t) (bs.drop 16)

/-- A data unit of whole blocks sealed under a key of two halves and a tweak (IEEE 1619, 5.3). -/
def xtsSeal (key : BitVec 512) (tweak : Nat) (bs : List Byte) : List Byte :=
  let k := leBytes 64 key.toNat
  let t := aesBlock (roundKeys (k.drop 32)) (leBytes 16 tweak)
  xtsBlocks (roundKeys (k.take 32)) (bs.length / 16) (BitVec.ofNat 128 (leNat t)) bs

end Sys2Proof.Machine
end

