-- ==== Sys2Proof/Machine/Landing.lean ====
section
/-! DEFINITION. Outstanding operations perform and land: loads, stores, counter operations, placement, adds in flight,
walks, and the write-back of caches (spec 05 R136 to R146; spec 08 R209 to R219; spec 14 R296 to R299; spec 15 R313; spec
16 R337, R338; spec 18 R368, R376 to R378; spec 22 R436). -/

namespace Sys2Proof.Machine

/-! ## Completing an operation -/

/-- The results of an operation land in its group. Those of a leading group reach the trailing group too: the operation
there that awaits them, or else the pair's queue (R170, R219). -/
def State.landOp (s : State) (g : Nat) (o : Op) (vals : List (Nat × List Byte)) : State :=
  let t := s.mapGroup g fun x => (x.land o.emask o.dst vals).dropOp o.id
  match (s.group g).map Group.role with
  | some (.leading p) =>
    match (s.group p).bind fun y => y.pend.find? fun z => z.id == o.id with
    | some z => t.mapGroup p fun y => (y.land z.emask z.dst vals).dropOp z.id
    | none =>
      if o.cls == .load then t.mapGroup g fun y => { y with lvq := y.lvq ++ [⟨o.id, o.off, o.idx, o.emask, vals⟩] } else t
  | _ => t

/-- A fault of an outstanding operation stops its group (R139, R340). -/
def State.opFails (s : State) (g : Nat) (o : Op) (c : FaultCode) (x : LaneAcc) : Host.Outcome State Fault Refusal :=
  .next ((s.mapGroup g fun y => y.dropOp o.id).faultAt g o.emask (opFault o c x))

/-- An access is a contribution to a window whose home is at a peer (R439, R441). -/
def State.remoteRed (s : State) (h : Nat) (x : LaneAcc) : Bool :=
  x.places.any fun p => match p with
    | .red aux _ => (((s.hedge h).bind fun y => y.window aux).map fun w => w.route != 0).getD false
    | _ => false

/-- An operation after one of its accesses: what is left, what has been read, the sectors written (R262). -/
def Op.past (o : Op) (x : LaneAcc) (rest : List LaneAcc) (got : List (Nat × List Byte)) : Op :=
  { o with
    accs := rest, got := got
    wrote := if o.writes then (o.wrote ++ x.places.filterMap Place.sector).eraseDups else o.wrote }

/-- The next access of an operation is performed; the last one completes it (R137, R140). R138 leaves the order of the lanes of
one instruction, and of the bytes of a misaligned lane, open but for lanes that store to one byte: the model performs them
in ascending order (log 87, DESIGN CHOICE). A write in COPY is accepted by the stalled-write window, in a step of its own,
and finds the entry that its check kept for it (R368; log 86, DEDUCED). Contributions to a peer's window wait for their
acknowledgement (R441). -/
def State.performNext (s : State) (gr : Group) (o : Op) (copying : Bool) : Host.Outcome State Fault Refusal :=
  match o.accs with
  | [] => .next ((s.opAcquire gr o).landOp gr.id o o.got)
  | x :: rest =>
    if (o.writes && x.copying s) != copying then .next s
    else if o.writes && !s.placesRoom o.strong x.places then .next (s.askRoom x.places)
    else if o.writes && (s.mergeError (x.places.filterMap placePa)).isSome then
      match s.mergeError (x.places.filterMap placePa) with
      | some (h, pa) => .next ((s.mapGroup gr.id fun y => y.setOp (o.past x rest o.got)).askRollback h .sdc (.home pa))
      | none => .next s
    else
      let (t, bs) := s.performAcc gr o x
      let got := if o.dst == .none then o.got else o.got ++ [(x.lane, bs)]
      if rest.isEmpty then
        if s.remoteRed gr.hedge x then .next (t.mapGroup gr.id fun y => y.setOp { o with accs := [], got := [(0, [])] })
        else .next ((t.opAcquire gr o).landOp gr.id o got)
      else .next (t.mapGroup gr.id fun y => y.setOp (o.past x rest got))

/-- A lane's access of a load, store, atomic or maintenance operation, once it may be performed (R141, R317). -/
def State.access (s : State) (gr : Group) (o : Op) (copying : Bool) : Host.Outcome State Fault Refusal :=
  if !s.mayPerform gr o then .next s
  else
    match s.opError gr o with
    | some (c, x) => s.opFails gr.id o c x
    | none => s.performNext gr o copying

/-- The operation has been sent to its peer and waits for the acknowledgement (R436). -/
def Op.sent (o : Op) : Bool := !o.got.isEmpty

/-- An operation on a peer's counter: sent, then acknowledged; a CNEXT lands the value of the peer's counter, which is
free here (R436; log 24, DEDUCED). -/
def State.peerOp (s : State) (gr : Group) (o : Op) (x : Word64) (a : CtrAct) : Host.Outcome State Fault Refusal :=
  if o.sent then
    if o.dst == .none then .next (s.mapGroup gr.id fun y => y.dropOp o.id)
    else .next ((s.opAcquire gr o).landOp gr.id o o.got)
  else
    let (t, v) := s.performCtr gr o (.peer x) a
    .next (t.mapGroup gr.id fun y => y.setOp { o with got := [(0, leBytes 8 (v.getD 0).toNat)] })

/-! ## Placement (R365, R376 to R378) -/

/-- The frame that holds a frame's contents now (R367, R369). -/
def State.authFrame (s : State) (f : Nat) : Nat := frameOf (s.redirect (f * 65536))

/-- The frames that a hedge has pinned. -/
def State.pinned (s : State) (h : Nat) : Nat := (s.frames.filter fun p => p.2.owner == some h && p.2.pin).length

/-- Frames of a hedge in a tier, those that its migrations are filling among them (R361). -/
def State.framesIn (s : State) (h : Nat) (t : Tier) : Nat :=
  (s.frames.filter fun p => p.2.owner == some h && p.2.tier == t).length

/-- The frame quota of a hedge in a tier (R361). -/
def Hedge.quota (h : Hedge) : Tier → Nat
  | .hbm => h.p.quotaHbm
  | .lpddr => h.p.quotaLpddr
  | .pool => h.p.quotaPool

/-- Tier codes (R361). -/
def tierCode : Tier → Nat
  | .hbm => 1
  | .lpddr => 2
  | .pool => 3

/-- A tier is within an affinity, or the affinity is zero (R366). -/
def tierAllowed (a : BitVec 3) (t : Tier) : Bool := a == 0 || a.getLsbD (tierCode t - 1)

/-- A hedge has quota in a tier for n more frames (R361). -/
def State.quotaRoom (s : State) (h : Nat) (t : Tier) (n : Nat) : Bool :=
  ((s.hedge h).map fun y => decide (s.framesIn h t + n ≤ y.quota t)).getD false

/-- What R366 asks of a frame that moves to a tier. -/
def State.mayMove (s : State) (h f : Nat) (t : Tier) (allowed : BitVec 3) : Bool :=
  let x := s.frame f
  tierAllowed allowed t && !x.pin && x.owner == some h && !x.scrub && !x.retired &&
    s.quotaRoom h t 1 && ((x.pool.map fun p => p.owned && p.mappers ≤ 1).getD true)

/-- PLACE at a home: accepted into its hedge's queue, or refused (R377). -/
def State.placeAt (s : State) (h f : Nat) (t : Tier) (allowed : BitVec 3) (bank : Bool) : State :=
  let f := s.authFrame f
  let x := s.frame f
  if x.tier == t || bank || x.mig.isSome || !s.mayMove h f t allowed ||
      64 ≤ (s.places.filter fun p => p.hedge == h && some p.slice == x.slice).length then s
  else { s with places := s.places ++ [⟨h, x.slice.getD 0, f, t, allowed⟩] }

/-- PIN at a home (R376). -/
def State.pinAt (s : State) (h f : Nat) : State :=
  let f := s.authFrame f
  if (s.frame f).pin then s
  else if s.pinned h < ((s.hedge h).map fun x => x.p.pinQuota).getD 0 then
    s.mapFrame f fun x => { x with pin := true, pinref := false }
  else s.mapFrame f fun x => { x with pinref := true }

/-- UNPIN at a home (R376). -/
def State.unpinAt (s : State) (f : Nat) : State := s.mapFrame (s.authFrame f) fun x => { x with pin := false }

/-- A placement operation recorded at every home; a PIN of a frame in COPY waits (R374, R376). -/
def State.placementOp (s : State) (gr : Group) (o : Op) : Host.Outcome State Fault Refusal :=
  let fs := (o.accs.flatMap fun x => x.places.filterMap placePa).map frameOf
  let entry := (s.hedge gr.hedge).bind fun h => h.entry o.buf
  let done (t : State) : Host.Outcome State Fault Refusal := .next (t.mapGroup gr.id fun y => y.dropOp o.id)
  match o.kind with
  | .place t =>
    done (fs.foldl (fun u f =>
      u.placeAt gr.hedge f t ((entry.map (·.tier)).getD 0) ((entry.map (·.bankmv)).getD false)) s)
  | .pin => if fs.any fun f => s.inCopy (f * 65536) then .next s else done (fs.foldl (fun u f => u.pinAt gr.hedge f) s)
  | .unpin => done (fs.foldl State.unpinAt s)
  | _ => .next s

/-- STATE of the page status word: a pool frame of another package, COPY, FORWARD, RESIDENT (R378). -/
def State.frameStatus (s : State) (f : Nat) : Nat :=
  let x := s.frame f
  if (x.pool.map (·.owned)).getD true == false then 3
  else
    match x.mig with
    | some (.copy _ _ _) => 1
    | some (.forward _) => 2
    | none => if s.frames.any fun p => p.2.mig == some (.forward f) then 2 else 0

/-- The page status word (R378). -/
def State.pageStatus (s : State) (pa : Nat) : Word64 :=
  let x := s.frame (frameOf (s.redirect pa))
  BitVec.ofNat 16 x.rd ++ BitVec.ofNat 16 x.wr ++ 0#16 ++ BitVec.ofNat 8 (min 255 x.migs) ++ BitVec.ofBool x.pin ++
    BitVec.ofBool x.pinref ++ 0#2 ++ BitVec.ofNat 2 (s.frameStatus (frameOf pa)) ++ BitVec.ofNat 2 (tierCode x.tier)

/-- The result of MCRD.QUOTA (R378). -/
def State.quotaWord (s : State) (h : Nat) : Word64 :=
  BitVec.ofNat 32 (s.pinned h) ++ BitVec.ofNat 32 (((s.hedge h).map fun x => x.p.pinQuota).getD 0)

/-! ## LOAD_LANDS and STORE_PERFORMED -/

/-- A word as the bytes that land. -/
def wordValue (w : Word64) : List (Nat × List Byte) := [(0, leBytes 8 w.toNat)]

/-- LOAD_LANDS: one more lane of a load-class operation is performed, or its result lands (R137, R140, R208, R210,
R212, R378, R387). -/
def execLoadLands (g p : Nat) (s : State) : Host.Outcome State Fault Refusal :=
  match s.group g with
  | none => .next s
  | some gr =>
    match gr.pend.find? (fun o => o.id == p) with
    | none => .next s
    | some o =>
      match o.kind, o.dst with
      | _, .tile _ _ => .next s
      | .load, _ | .cas _, _ => s.access gr o false
      | .atom _ _, _ => if o.cls == .load then s.access gr o false else .next s
      | .mcrd pa, _ => if s.mayPerform gr o then .next (s.landOp g o (wordValue (s.pageStatus pa))) else .next s
      | .quota, _ => if s.mayPerform gr o then .next (s.landOp g o (wordValue (s.quotaWord gr.hedge))) else .next s
      | .lnch w, _ => .next (s.landOp g o (wordValue w))
      | .ctr (.peer x) a, _ => if o.cls == .load && s.mayPerform gr o then s.peerOp gr o x a else .next s
      | .ctr (.here k) a, _ =>
        match a with
        | .next _ => if o.sent then .next (s.landOp g o o.got) else .next s
        | .test _ | .read =>
          if !s.mayPerform gr o then .next s
          else
            match s.ctrBad k with
            | some c => s.opFails g o (if c == .sdc then .sdc else .uncorr) { lane := lowest o.emask, places := [], data := [], data2 := [] }
            | none =>
              let (t, v) := s.performCtr gr o (.here k) a
              .next (t.landOp g o (wordValue (v.getD 0)))
        | _ => .next s
      | _, _ => .next s

/-- STORE_PERFORMED: one more lane of a store-class operation is performed, or the operation is performed whole (R137,
R140, R148, R162, R213 to R215, R376). -/
def execStorePerformed (g p : Nat) (s : State) : Host.Outcome State Fault Refusal :=
  match s.group g with
  | none => .next s
  | some gr =>
    match gr.pend.find? (fun o => o.id == p) with
    | none => .next s
    | some o =>
      match o.kind, o.dst with
      | _, .tile _ _ => .next s
      | .store, _ => s.access gr o false
      | .maint _, _ => if s.mayPerform gr o then .next ((s.performMaint gr o).mapGroup g fun y => y.dropOp o.id) else .next s
      | .atom _ _, _ => if o.cls != .load then s.access gr o false else .next s
      | .place _, _ | .pin, _ | .unpin, _ => if s.mayPerform gr o then s.placementOp gr o else .next s
      | .ctr (.peer x) a, _ => if o.cls != .load && s.mayPerform gr o then s.peerOp gr o x a else .next s
      | .ctr (.here k) a, _ =>
        match a with
        | .init _ | .link _ _ | .unlink | .watch _ _ _ _ _ _ =>
          if !s.mayPerform gr o || !s.ctrRoom k then .next s
          else .next ((s.performCtr gr o (.here k) a).1.mapGroup g fun y => y.dropOp o.id)
        | _ => .next s
      | _, _ => .next s

/-- STALLED_WRITE_ACCEPT: a write or atomic to a frame in COPY is performed in the window (R368). -/
def execStalledWriteAccept (g p : Nat) (s : State) : Host.Outcome State Fault Refusal :=
  match s.group g with
  | none => .next s
  | some gr =>
    match gr.pend.find? (fun o => o.id == p) with
    | none => .next s
    | some o =>
      match o.kind, o.dst with
      | _, .tile _ _ => .next s
      | .store, _ | .cas _, _ | .atom _ _, _ => s.access gr o true
      | _, _ => .next s

/-! ## Adds (R209, R219, R296) -/

/-- The buffer through which a watch named its class 3 target is still there (R201, R215). -/
def State.targetLives (s : State) (h : Nat) (handle : Word64) : Bool :=
  handleClass handle != 3 ||
    match (s.hedge h).bind fun x => x.entry (handleIndex handle / 65536) with
    | some e => e.owner == h && e.counter && decide (8 * handleWord handle + 8 ≤ e.len)
    | none => false

/-- An add in flight is performed, with the release tag that it leaves: sent to its peer, and then acknowledged (R436, R437),
held as pending in an unresolved speculation, lost where its counter is gone, with a record when it is a watch's (R215, R219, R260, R322, R401). -/
def State.performAdd (s : State) (a : AddReq) : State :=
  match a.target with
  | .peer x =>
    match s.hedge a.hedge with
    | none => s
    | some h =>
      if a.sent then s
      else
        { s.send (.add (h.link (handlePeer x)) x a.amount) with adds := s.adds ++ [{ a with sent := true }] }.mapHedge a.hedge
          fun h => { h with sentAdds := h.sentAdds + 1 }
  | .here k =>
    if !(s.ctrLives a.hedge k && ((a.watch.map fun w => s.targetLives a.hedge w.2).getD true)) then
      match a.watch with
      | some (src, dst) => s.reportKind a.hedge 37 [src, dst]
      | none => s
    else
      let s := match a.rel with
        | some t => s.setTagCtr k t
        | none => s
      match a.spec with
      | some (q, page) =>
        match s.specAt a.hedge q with
        | some x =>
          if (page.map fun y => x.done.contains y).getD false then s.addCtr k a.amount
          else s.holdAdd k ⟨a.hedge, q, a.amount, page⟩
        | none => s.addCtr k a.amount
      | none => s.addCtr k a.amount

/-- HOME_ADD: a group's CADD or CNEXT, or an add in flight, is performed at the counter's home (R209, R210). -/
def execHomeAdd (src : AddSrc) (s : State) : Host.Outcome State Fault Refusal :=
  match src with
  | .queue i =>
    match s.adds[i]? with
    | none => .next s
    | some a =>
      let room := match a.target with
        | .here k => s.ctrRoom k
        | .peer _ => true
      if room then .next ({ s with adds := s.adds.eraseIdx i }.performAdd a) else .next s
  | .group g p =>
    match s.group g with
    | none => .next s
    | some gr =>
      match gr.pend.find? (fun o => o.id == p) with
      | none => .next s
      | some o =>
        match o.kind with
        | .ctr (.here k) (.add n) =>
          if !s.mayPerform gr o || !s.ctrRoom k then .next s
          else .next ((s.performCtr gr o (.here k) (.add n)).1.mapGroup g fun y => y.dropOp o.id)
        | .ctr (.here k) (.next n) =>
          if !s.mayPerform gr o || o.sent || !s.ctrRoom k then .next s
          else
            let (t, v) := s.performCtr gr o (.here k) (.next n)
            .next (t.mapGroup g fun y => y.setOp { o with got := wordValue (v.getD 0) })
        | _ => .next s

/-- CROSSING_ADD: a crossing reaches the parent's home, after every earlier one of its child (R209, R296). -/
def execCrossingAdd (i : Nat) (s : State) : Host.Outcome State Fault Refusal :=
  match s.crossings[i]? with
  | none => .next s
  | some c =>
    if ((s.crossings.take i).any fun x => x.child == c.child) || !s.ctrRoom c.parent then .next s
    else .next ({ s with crossings := s.crossings.eraseIdx i }.addCtr c.parent c.amount)

/-- DOWN_FLIP: a down-flip reaches its relay (R298). -/
def execDownFlip (i : Nat) (s : State) : Host.Outcome State Fault Refusal :=
  match s.flips[i]? with
  | none => .next s
  | some f => .next ({ s with flips := s.flips.eraseIdx i }.flip f)

/-- CWAIT_ANSWER: the answer reaches the group, which acquires, and with it the trailing group of a checked pair (R211, R217,
R219). -/
def execCwaitAnswer (g i : Nat) (s : State) : Host.Outcome State Fault Refusal :=
  match s.group g with
  | none => .next s
  | some gr =>
    match gr.cwaits.find? fun c => c.id == i with
    | none => .next s
    | some c =>
      if c.at_ != .answered then .next s
      else
        .next ((s.members gr).foldl (fun t m => t.mapGroup m.id fun x =>
          { x with cwaits := x.cwaits.filter fun y => y.id != i }) (s.ctrAcquire gr c.acq c.scope c.key))

/-- CWAIT_POLL: a wait that found its share full is polled (R218). -/
def execCwaitPoll (g i : Nat) (s : State) : Host.Outcome State Fault Refusal :=
  match s.group g with
  | none => .next s
  | some gr =>
    match gr.cwaits.find? fun c => c.id == i with
    | none => .next s
    | some c =>
      if c.at_ == .polled && sat (s.ctrView c.key gr.hedge gr.lseq) c.t then
        .next (s.mapGroup g fun x =>
          { x with cwaits := x.cwaits.map fun y => if y.id == i then { y with at_ := .answered } else y })
      else .next s

/-! ## Walks and invalidation (R336 to R338) -/

/-- A translation enters a share of a cache: when the share is full, one of the hedge's own, chosen freely, leaves
(R336; log 7, DESIGN CHOICE). -/
def keepOwn {α : Type} [BEq α] (pick cap : Nat) (mine : α → Bool) (ts : List α) (t : α) : List α :=
  let own := ts.filter mine
  if own.length < cap then ts ++ [t]
  else
    match own[pick % own.length]? with
    | some v => ts.erase v ++ [t]
    | none => ts ++ [t]

/-- The hedge of an entry of an L2 TLB (R336). -/
def L2Entry.hedge : L2Entry → Nat
  | .leaf t => t.hedge
  | .table h _ _ _ => h

/-- An entry enters a die's L2 TLB, in the hedge's share (R336). -/
def State.fillL2 (s : State) (die : Nat) (h : Hedge) (e : L2Entry) : State :=
  let pick := (s.free 32).1.toNat
  let here := (s.l2tlb.filter fun p => p.1 == die).map (·.2)
  if here.contains e then s
  else
    { (s.free 32).2 with l2tlb := (s.l2tlb.filter fun p => p.1 != die) ++
        (keepOwn pick (max 256 h.p.l2tlb) (fun (x : L2Entry) => x.hedge == h.p.id) here e).map fun x => (die, x) }

/-- A translation fills the core's L1 TLB and, with the non-leaf entries that its walk read, its die's L2 TLB (R336,
R337). -/
def State.fillTlb (s : State) (core : Nat) (h : Hedge) (t : TlbEntry) (reads : List TableRead) : State :=
  let pick := (s.free 32).1.toNat
  let u := ((s.free 32).2).mapCore core fun k =>
    { k with tlb := keepOwn pick (128 * h.slots.length) (fun (x : TlbEntry) => x.hedge == h.p.id) k.tlb t }
  let inner : List L2Entry := (reads.filter fun r => !pteLeaf r.pte).map fun r => .table h.p.id r.gstage r.addr r.pte
  (inner ++ [L2Entry.leaf t]).foldl (fun v e => v.fillL2 (dieOf core) h e) u

/-- The reads of guest tables by a walk are strong relaxed reads at SYS, made at their homes (R337, R365). -/
def State.countReads (s : State) (h : Nat) (reads : List TableRead) : State :=
  (reads.filter fun r => !r.gstage).foldl (fun t r => (t.homeAccess h r.pa true false).see offDie [r.pa]) s

/-- A walk has one of the walkers that its hedge has in its owning slice: fewer than those are taken by earlier walks
(R336, R337). -/
def State.walkerFree (s : State) (h : Hedge) (i va : Nat) : Bool :=
  let busy := (s.walks.take i).filter fun w =>
    w.hedge == h.p.id && w.answer.isNone && sliceOf h.p.id (w.va * 4096) == sliceOf h.p.id (va * 4096)
  decide (busy.length < max 1 h.p.walkers)

/-- WALK_COMPLETE: the walk's leaf is cached, or its failure waits for the instruction at issue; what it has read of guest
tables it has read either way (R334, R337). -/
def execWalkComplete (i : Nat) (s : State) : Host.Outcome State Fault Refusal :=
  match s.walks[i]? with
  | none => .next s
  | some w =>
    match s.hedge w.hedge with
    | none => .next { s with walks := s.walks.eraseIdx i }
    | some h =>
      if w.answer.isSome || !s.walkerFree h i w.va then .next s
      else
        match s.walk (some (dieOf w.core)) h (w.va * 4096) with
        | .ok (t, reads) =>
          .next (((({ s with walks := s.walks.eraseIdx i }.countReads h.p.id reads).homePage t).fillTlb w.core h t reads))
        | .error (.xlat a, reads) => .next ({ s with walks := s.walks.set i { w with answer := some a } }.countReads h.p.id reads)
        | .error (.hole a, _) => .fault (.noStorage a)

/-- Cached translations of a range of a hedge are dropped, with every non-leaf entry and the walks in progress (R338); a
length of 0 covers everything. -/
def State.dropTlb (s : State) (h va len : Nat) : State :=
  let hit (t : TlbEntry) : Bool :=
    t.hedge == h && (len == 0 || (decide (t.va < va % 2 ^ 57 + len) && decide (va % 2 ^ 57 < t.va + t.size)))
  { s with
    cores := s.cores.map fun p => (p.1, { p.2 with tlb := p.2.tlb.filter fun t => !hit t })
    l2tlb := s.l2tlb.filter fun p => match p.2 with
      | .leaf t => !hit t
      | .table h' _ _ _ => h' != h
    walks := s.walks.filter fun w => w.hedge != h }

/-- An operation on a counter that is reached without a translation: any but a class 3 counter of this package (R199). -/
def Op.unmapped (o : Op) : Bool :=
  match o.ctrRef with
  | some (.here (.c3 _)) | none => false
  | some (.here _) | some (.peer _) => true

/-- No access of the hedge that used a translation is still to be performed, an add to a class 3 counter among them (R338; log
25, DEDUCED). -/
def State.quiet (s : State) (h : Nat) : Bool :=
  (s.groups.all fun g => g.hedge != h ||
    (g.pend.all fun o => o.noAccess || o.unmapped) && g.openBatch.mmas.isEmpty && g.batches.all fun b => b.mmas.isEmpty) &&
    s.adds.all fun a => a.hedge != h || match a.target with
      | .here (.c3 _) => false
      | .here _ | .peer _ => true

/-- Weak stores of a hedge still in an L1 are performed at their homes (R313, R338). -/
def State.flushAll (s : State) (h : Nat) : State :=
  (((s.hedge h).map Hedge.physical).getD []).foldl (fun t c => t.flushHedge c h) s

/-- TRANSLATION_INVALIDATE: what used a translation is performed at its home, weak stores too, and the cached entries go
(R338). -/
def execTranslationInvalidate (hedge va len : Nat) (s : State) : Host.Outcome State Fault Refusal :=
  if s.quiet hedge then .next ((s.flushAll hedge).dropTlb hedge va len) else .next s

/-! ## Caches (R307, R313, R322) -/

/-- WRITE_BACK: an L1 writes a dirty line back, a die L2 gives a superblock up to the home, or a home slice gives one up,
for which its tagged core writes back and the die L2s give up their copies (R307, R313, R322). -/
def execWriteBack (level : CacheLevel) (line : Nat) (s : State) : Host.Outcome State Fault Refusal :=
  match level with
  | .l1 core =>
    let ls := (s.core core).l1.filter fun l => l.num == line
    let pas := (ls.flatMap Line.dirtyBytes).map (·.1)
    if s.placesRoom true (pas.map Place.home) then .next (s.flush core fun l => l.num == line)
    else .next (s.askRoom (pas.map Place.home))
  | .l2 die =>
    .next ((s.l2.filter fun b => b.cache == die && b.num == line / 4).foldl State.evictL2 s)
  | .home k =>
    .next ((s.slices.filter fun b => b.cache == k && b.num == line / 4).foldl State.evictSlice
      (s.promote (line * 128) fun _ => true))

/-- QUARTER_BUFFER_EXPIRY: a line leaves a quarter buffer (R307). -/
def execQuarterBufferExpiry (core quarter line : Nat) (s : State) : Host.Outcome State Fault Refusal :=
  .next (s.mapCore core fun k =>
    { k with quarters := k.quarters.filter fun q => !(q.quarter == quarter && q.line.num == line) })

end Sys2Proof.Machine
end

