-- ==== Sys2Proof/Machine/Groups.lean ====
section
/-! DEFINITION. Groups and workgroups come and go: retirement, ending, context images, saves and restores, dispatch,
admission and completion of launches, and resuming after a fault (spec 06 R152 to R155, R163, R168; spec 10 R249 to R251;
spec 16 R339 to R350; spec 19 R388 to R391; spec 20 R419). -/

namespace Sys2Proof.Machine

/-! ## Frames (R357, R361, R363) -/

/-- First frame of a tier, and the first frame beyond it: 768 GiB, 1 TiB, and up to 16 TiB of the pool (R361; log 15, DESIGN
CHOICE). -/
def tierFrames : Tier → Nat × Nat
  | .hbm => (0, 12582912)
  | .lpddr => (12582912, 29360128)
  | .pool => (29360128, 297795584)

/-- The first frame beyond those of a tier that the package has: of the pool, as its extents stand (R361, R362). -/
def State.tierEnd (s : State) : Tier → Nat
  | .hbm => (tierFrames .hbm).2
  | .lpddr => (tierFrames .lpddr).2
  | .pool => min (tierFrames .pool).2 ((tierFrames .pool).1 + s.poolFrames)

/-- The key slot of a hedge, and that of its pool key, among the hub's 128 (R364; log 84, DESIGN CHOICE). -/
def keySlot (hedge : Nat) (pool : Bool) : Nat := 2 * hedge + (if pool then 1 else 0)

/-- A key slot loaded by the service kernel (R364). -/
def State.loadKey (s : State) (hedge : Nat) (pool : Bool) (k : BitVec 512) : State :=
  { s with keys := put1 s.keys (keySlot hedge pool) k }

/-- The key slots of a hedge erased (R364, R383). -/
def State.eraseKeys (s : State) (hedge : Nat) : State :=
  { s with keys := del1 (del1 s.keys (keySlot hedge false)) (keySlot hedge true) }

/-- A line of a hedge's frame as its tier stores it: one data unit, under the hedge's key or, in the pool, its pool key, the
tweak being the line's physical address in its tier. The home agents alone encrypt and decrypt, so memory holds plaintext
(R358, R364). -/
def State.sealedLine (s : State) (n : Nat) : Option (List Byte) :=
  let a := s.redirect (n * 128)
  let tier := tierOfFrame (frameOf a)
  ((s.frame (frameOf (n * 128))).owner.bind fun h => find1 s.keys (keySlot h (tier == .pool))).map fun k =>
    xtsSeal k (a - 65536 * (tierFrames tier).1) (s.homeReadN (n * 128) 128)

/-- The frames that belong to a hedge, cannot be given to one, or hold a byte: neither FREE nor waiting for their scrub (R363). -/
def State.usedFrames (s : State) : List Nat :=
  (s.frames.filter fun p => p.2.owner.isSome || p.2.retired || p.2.mig.isSome ||
    ((p.2.pool.map fun x => !x.owned).getD false)).map (·.1) ++ s.mem.map fun c => frameOf c.1

/-- The lowest frame of a tier that can be given to a hedge. -/
def State.freeFrame (s : State) (t : Tier) : Option Nat :=
  let used := s.usedFrames
  (List.range (used.length + 1)).findSome? fun i =>
    let f := (tierFrames t).1 + i
    if f < s.tierEnd t && !used.contains f then some f else none

/-- A frame is given to a hedge, with its home slice, before or after its scrub: what it held can no longer come back (R357,
R363, R406). -/
def State.giveFrame (s : State) (f h : Nat) (slice : Option Nat) : State :=
  { s.mapFrame f fun x => { Frame.free x.tier with
      owner := some h, slice := slice, scrub := x.scrub, pool := if x.tier == .pool then some Pool.own else none } with
    hedges := s.hedges.map fun y => { y with freed := y.freed.map fun x => { x with frames := x.frames.filter fun p => p.1 != f } } }

/-- A frame leaves its hedge for PENDING-SCRUB: nothing of it stays anywhere, and whoever gets it reads zeros from then on, before
the scrub reaches a line and after a write has zeroed the rest of it (R363; log 34, DESIGN CHOICE). -/
def State.scrubFrame (s : State) (f : Nat) : State :=
  let inF (pa : Nat) : Bool := frameOf pa == f
  let x := s.frame f
  { s with
    mem := s.mem.filter fun c => !inF c.1
    codes := s.codes.filter fun p => !inF (p.1 * 32)
    bad := s.bad.filter fun l => !inF (l * 128)
    tags := s.tags.filter fun p => !inF (p.1 * 512)
    l2 := s.l2.filter fun b => !inF (b.num * 512)
    slices := s.slices.filter fun b => !inF (b.num * 512)
    seen := s.seen.filter fun p => !inF p.1
    shadows := s.shadows.filter fun y => !inF (y.page * 4096)
    ctrs := s.ctrs.filter fun p => match p.1 with
      | .c3 a => !inF a
      | .c0 _ _ | .c1 _ _ _ | .c2 _ _ _ => true
    places := s.places.filter fun p => p.frame != f
    cores := s.cores.map fun p => (p.1, { p.2 with
      l1 := p.2.l1.filter fun l => !inF (l.num * 128)
      quarters := p.2.quarters.filter fun q => !inF (q.line.num * 128) })
    hedges := s.hedges.map fun y => { y with log := y.log.filter fun x => !inF (x.line * 128) }
    frames := put1 s.frames f { Frame.free x.tier with scrub := true, retired := x.retired } }

/-- A frame is released, with the frame that a migration of it fills or has filled (R363, R374). -/
def State.releaseFrame (s : State) (f : Nat) : State :=
  match (s.frame f).mig with
  | some (.copy n _ _) | some (.forward n) => (s.scrubFrame n).scrubFrame f
  | none => s.scrubFrame f

/-! ## Leaving -/

/-- A group leaves the machine; another one comes into focus when it was there. -/
def State.dropGroup (s : State) (g : Nat) : State :=
  if s.focus.id = g then
    match s.others with
    | x :: xs => { s with focus := x, others := xs }
    | [] => { s with focus := { Group.start s.nextId 0 0 0 with frontier := [] }, nextId := s.nextId + 1 }
  else { s with others := s.others.filter fun x => x.id ≠ g }

/-- Groups leave with their class 0 counters (R219), and their slots forget them (R159). -/
def State.dropGroups (s : State) (ids : List Nat) : State :=
  let t := ids.foldl (fun (u : State) i => (((u.group i).map u.leaveSlot).getD u).dropGroup i) s
  { t with
    ctrs := t.ctrs.filter fun p => match p.1 with
      | .c0 g _ => !ids.contains g
      | .c1 _ _ _ | .c2 _ _ _ | .c3 _ => true
    grants := t.grants.map fun gs => gs.filter fun g => !ids.contains g
    mgmt := t.mgmt.map fun (m : Mgmt) => { m with
      queue := m.queue.filter fun x => !ids.contains x.2
      requests := m.requests.filter fun r => !ids.any fun g => r.what == .saveGroup g } }

/-- A completion add is still owed to a class 0 counter of the group (R168). -/
def State.owesClass0 (s : State) (g : Nat) : Bool :=
  (s.adds.any fun a => match a.target with
    | .here (.c0 x _) => x == g
    | .here _ | .peer _ => false) ||
  s.copies.any fun c => !c.abandoned && (List.range c.slices.length).any fun i =>
    match c.slices[i]? with
    | some y =>
      y.group == g && (y.handle.map handleClass) == some 0 && !y.isEmpty &&
        (!c.started || (s.chunks c i).any fun k => !y.added.contains k)
    | none => false

/-- The conditions of R168. -/
def State.retirable (s : State) (g : Group) : Bool :=
  (s.wgOf g.wg).isSome && g.frontier.isEmpty && g.clause.isNone && g.stop.isNone && g.lateFault.isNone &&
    g.pend.isEmpty && g.svcReplies.isEmpty && g.svcWait.isNone && g.cwaits.isEmpty && g.waitUntil.isNone &&
    g.openBatch.count == 0 && g.batches.isEmpty && g.emu == .none && g.pairFault.isNone && !s.owesClass0 g.id

/-- A trailing group, which acts with its leading group. -/
def Group.trails (g : Group) : Bool :=
  match g.role with
  | .trailing _ => true
  | .single | .leading _ => false

/-- A copy still has a byte to land in the workgroup's scratch (R251). -/
def State.owesWg (s : State) (w : Nat) : Bool :=
  s.copies.any fun c => !c.abandoned && (List.range c.slices.length).any fun i =>
    match c.slices[i]? with
    | some x => (s.owedPieces c i).any fun p => (s.linesOf c.hedge x.dst p.dst p.len).any fun l => l.1 == w
    | none => false

/-- The logical core in whose launch region an offset of a side lies, of a launch (R249, R250, R254). -/
def State.sideCore (s : State) (h : Hedge) (l : Launch) (d : Side2) (off : Int) : Option Nat :=
  match d with
  | .own w => ((s.wgOf w).filter fun x => x.hedge == h.p.id && x.lseq == l.seq).map (·.lcore)
  | .region die q => if q == l.seq then h.windowCore l die (off.toNat / 2 ^ 22) else none
  | .buf _ => none

/-- A copy still has a byte to land in a launch's region on a logical core (R249). -/
def State.owesRegion (s : State) (h : Hedge) (l : Launch) (lcore : Nat) : Bool :=
  s.copies.any fun c => c.hedge == h.p.id && !c.abandoned && c.slices.zipIdx.any fun x => (s.owedPieces c x.2).any fun p =>
    s.sideCore h l x.1.dst p.dst == some lcore || s.sideCore h l x.1.dst (p.dst + p.len - 1) == some lcore

/-- A launch still holds its region on a logical core where it has held it: a workgroup of its stands there, or a copy has a
byte to land (R249). -/
def State.regionHeld (s : State) (h : Hedge) (l : Launch) (lcore : Nat) : Bool :=
  (s.wgs.any fun w => w.hedge == h.p.id && w.lseq == l.seq && w.lcore == lcore && w.core.isSome) || s.owesRegion h l lcore

/-- Regions that are held no longer are given back (R249). -/
def State.freeRegions (s : State) : State :=
  { s with hedges := s.hedges.map fun h => { h with launches := h.launches.map fun l =>
    { l with held := l.held.filter fun i => s.regionHeld h l i } } }

/-- A launch holds its region on a logical core (R249). -/
def State.holdRegion (s : State) (h q lcore : Nat) : State :=
  s.mapLaunch h q fun l => { l with held := if l.held.contains lcore then l.held else l.held ++ [lcore] }

/-- A copy still has to do with the workgroup. -/
def State.usesWg (s : State) (w : Nat) : Bool :=
  s.owesWg w || s.copies.any fun c => !c.abandoned && (c.wg == some w || c.slices.any fun x => x.wg == w)

/-- The number of groups of a launch's workgroups. -/
def State.groupsOf (s : State) (h q : Nat) : Nat := ((s.launch h q).map (·.groups)).getD 0

/-- Every group of the workgroup has retired. -/
def State.wgDone (s : State) (w : Workgroup) : Bool := decide (s.groupsOf w.hedge w.lseq ≤ w.retired.length)

/-- Bytes of a workgroup's image (R348). -/
def State.wgImageSize (s : State) (w : Workgroup) : Nat :=
  match s.hedge w.hedge, s.launch w.hedge w.lseq with
  | some h, some l => 0x2000 + w.size + l.groups * groupImageSize l.v l.acc h.p.checked
  | _, _ => 0x2000 + w.size

/-- The frames of a workgroup's image with the counter of its request behind it (R303, R348; log 81, DESIGN CHOICE). -/
def State.imageFrames (s : State) (w : Workgroup) : List Nat :=
  match w.image with
  | some base => (List.range ((s.wgImageSize w + 8 + 65535) / 65536)).map fun i => frameOf base + i
  | none => []

/-- The frame belongs to the context area of a hedge: the request area, or space for an image (R348, R392). -/
def State.inContext (s : State) (h : Hedge) (f : Nat) : Bool :=
  (decide (frameOf h.p.contextBase ≤ f) && decide (f * 65536 < h.slotAt h.p.nslot)) ||
    s.wgs.any fun w => w.hedge == h.p.id && (s.imageFrames w).contains f

/-- The space of workgroups' images goes back to be scrubbed (R363). -/
def State.freeImages (s : State) (ws : List Workgroup) : State := (ws.flatMap s.imageFrames).foldl State.releaseFrame s

/-- Workgroups whose groups have all retired give their position and region back once nothing more lands there, and go
once no copy needs them (R249, R251). -/
def State.freeWgs (s : State) : State :=
  let leave (w : Workgroup) : Bool := s.wgDone w && !s.usesWg w.id
  State.freeRegions { s.freeImages (s.wgs.filter leave) with
    wgs := (s.wgs.filter fun w => !leave w).map fun w =>
      if s.wgDone w && !s.owesWg w.id then { w with core := none } else w
    copies := s.copies.filter fun c => !(c.abandoned && s.wgs.any fun w => leave w && c.wg == some w.id) }

/-- Requests leave. -/
def State.dropRequests (s : State) (pick : Service → Bool) : State :=
  { s with mgmt := s.mgmt.map fun (m : Mgmt) => { m with requests := m.requests.filter fun r => !pick r.what } }

/-- The workgroup has another retired group; its last one finishes it for the launch, and no image of it is asked for any more
(R168, R303, R391). -/
def State.noteRetired (s : State) (w number : Nat) : State :=
  let t := s.mapWg w fun x => { x with retired := x.retired ++ [number] }
  match t.wgOf w with
  | some x =>
    if t.wgDone x then
      (t.dropRequests fun y => y.names w).mapLaunch x.hedge x.lseq fun l => { l with finished := l.finished + 1 }
    else t
  | none => t

/-- GROUP_RETIRE (R168). -/
def execGroupRetire (g : Nat) (s : State) : Host.Outcome State Fault Refusal :=
  match s.group g with
  | none => .next s
  | some gr =>
    let ms := s.members gr
    if !gr.trails && ms.all s.retirable then
      .next ((s.dropGroups (ms.map (·.id))).noteRetired gr.wg gr.number).freeWgs
    else .next s

/-! ## Drains (R346, R347) -/

/-- The group stands at a boundary at which it takes an answered reply before anything else (R418, R424). -/
def State.replyDue (s : State) (g : Group) : Bool :=
  g.seat.isSome && g.clause.isNone && g.replyFirst && ((s.hedge g.hedge).map fun h => s.logRoom h.freeAt).getD false

/-- The group may be saved now, operations that a test leaves out aside: no clause in progress, or stopped, or parked for
presence; an answered reply is taken first (R163, R346, R418). -/
def State.savable (s : State) (but : Op → Bool) (g : Group) : Bool :=
  s.drainedBut but g && (g.clause.isNone || g.stop.isSome || g.presence) && !s.replyDue g

/-- A group with its partner may be saved: both at one boundary, or parked for presence at one instruction (R163, R172).
`but`: operations that a snapshot does not wait for. -/
def State.pairSavable (s : State) (g : Group) (but : Op → Bool := fun _ => false) : Bool :=
  (s.members g).all fun x =>
    s.savable but x && x.issued == g.issued && x.presence == g.presence &&
      (x.clause.map fun c => (c.off, c.idx, c.passes)) == g.clause.map fun c => (c.off, c.idx, c.passes)

/-! ## Ending a group (R341) -/

/-- The group executes nothing more: its lanes leave the frontier. -/
def Group.ended (g : Group) : Group :=
  { g with
    frontier := [], exited := BitVec.allOnes 32, clause := none, selected := none, replay := none, reached := none
    moves := none
    holds := [], stop := none, presence := false, lateFault := none }.commit

/-- Copies that wait for a slice of an ended group are abandoned (R257). -/
def State.abandonLacking (s : State) : State :=
  s.copies.foldl (fun t c => if !c.started && t.lacksEnded c && !c.slices.isEmpty then t.abandon c.id else t) s

/-- GROUP_END: the service kernel ends a group that a fault has stopped; of a fault that may resume, its resolver has
declined, but never of one stopped on MIGR, which the hub resumes (R341, R343, R372). No rotation that it has not joined
starts any more (R257, R265). -/
def execGroupEnd (g : Nat) (s : State) : Host.Outcome State Fault Refusal :=
  match s.group g with
  | none => .next s
  | some gr =>
    match gr.stop with
    | none => .next s
    | some x =>
      let ms := s.members gr
      if gr.trails || x.ready || x.code == .uncorr || x.code == .sdc || x.code == .migr || !ms.all s.drained then .next s
      else
        let t := ms.foldl (fun u m => u.mapGroup m.id Group.ended) s
        let t := t.mapLaunch gr.hedge gr.lseq fun l => { l with rotLost := some (min gr.rrots (l.rotLost.getD gr.rrots)) }
        .next ((t.mapWg gr.wg fun w => { w with ended := w.ended ++ [gr.number] }).abandonLacking)

/-! ## Resuming (R343, R346, R349, R372) -/

/-- STATE of the RESUME word (R349). -/
def Group.resumeState (g : Group) : Nat :=
  if g.presence then 4
  else
    match g.stop with
    | some x => if x.ready then 3 else if x.resumable then 1 else 2
    | none => 0

/-- The clause at which the group resumes: the one in progress, or the one that comes next. -/
def Group.resumeOff (g : Group) : Nat := ((g.clause.map (·.off)).or (g.nextEntry.map (·.off))).getD 0

/-- The RESUME word. -/
def Group.resumeWord (g : Group) : Word64 :=
  if g.resumeState = 0 then 0
  else BitVec.ofNat 32 (g.resumeOff / 8) ++ BitVec.ofNat 24 g.position.1 ++ BitVec.ofNat 8 g.resumeState

/-- Groups that a resolver has made ready while they are off their core: their images say so (R345, R349). -/
def State.saveReady (s : State) (gs : List Group) : State :=
  gs.foldl (fun t x => match t.group x.id with
    | some y => t.imageWord y.id 8 y.resumeWord
    | none => t) s

/-- A stopped group is ready at its resume point when the token is its own; a token is used once (R343). -/
def State.resumeToken (s : State) (h token : Nat) : Option State :=
  let fits (g : Group) : Bool :=
    g.hedge == h && match g.stop with
      | some x => x.resumable && !x.ready && x.token == token
      | none => false
  let traps (g : Group) : Bool := g.hedge == h && g.holds.contains (.trap token)
  if token = 0 then none
  else if s.groups.any fun g => fits g || traps g then
    let f (g : Group) : Group :=
      if fits g then g.ready_ else if traps g then { g with holds := g.holds.erase (.trap token) } else g
    some ({ s with focus := f s.focus, others := s.others.map f }.saveReady (s.groups.filter fits))
  else none

/-- GROUP_RESUME: the service kernel resumes the group whose fault it has mended (R343). -/
def execGroupResume (g : Nat) (token : Word32) (s : State) : Host.Outcome State Fault Refusal :=
  match s.group g with
  | none => .next s
  | some gr =>
    match gr.stop with
    | none => .next s
    | some x =>
      if x.resumable && x.token == token.toNat then .next ((s.resumeToken gr.hedge x.token).getD s) else .next s

/-- MIGR_RESUME: the frame has reached a state that accepts the accesses that stopped on it (R372). -/
def execMigrResume (frame : Nat) (s : State) : Host.Outcome State Fault Refusal :=
  let hit (g : Group) : Bool :=
    match g.stop, s.hedge g.hedge with
    | some x, some h =>
      x.code == .migr && !x.ready &&
        match s.walk none h x.va with
        | .ok (t, _) =>
          frameOf (t.addr x.va) == frame && s.poolOk (frameOf (s.redirect (t.addr x.va))) &&
            s.windowRoom (s.redirect (t.addr x.va))
        | .error _ => false
    | _, _ => false
  let f (g : Group) : Group := if hit g then g.ready_ else g
  .next ({ s with focus := f s.focus, others := s.others.map f }.saveReady (s.groups.filter hit))

/-- BREAKPOINT_RELEASE (R195). -/
def execBreakpointRelease (g : Nat) (s : State) : Host.Outcome State Fault Refusal :=
  match s.group g with
  | none => .next s
  | some gr =>
    .next ((s.members gr).foldl (fun t m => t.mapGroup m.id fun x => { x with holds := x.holds.filter fun y => y != Hold.bkpt }) s)

/-! ## Context images (R348, R349) -/

/-- A word of an image. -/
def Memory.word (m : Memory) (off : Nat) (x : Word64) : Memory := m.writeLE off 8 x.toNat

/-- Words of an image. -/
def Memory.words (m : Memory) (off : Nat) (xs : List Word64) : Memory :=
  xs.zipIdx.foldl (fun t p => t.word (off + 8 * p.2) p.1) m

/-- WC of a limb binding (R184). -/
def limbCode : LimbW → Nat
  | .w2 => 1
  | .w4 => 2
  | .w8 => 3
  | .w16 => 4
  | .w32 => 5

/-- Tags packed 16 to a word (R349). -/
def tagWords (ts : List Tag) : List Word64 :=
  (List.range ((ts.length + 15) / 16)).map fun i =>
    ((ts.drop (16 * i)).take 16).zipIdx.foldl (fun (w : Word64) p => w ||| ((p.1.code.setWidth 64 : Word64) <<< (4 * p.2))) 0

/-- The image of a group at an offset of its workgroup's image (R349). -/
def State.groupImage (s : State) (g : Group) (chk : Bool) (base : Nat) (m : Memory) : Memory :=
  let v := g.vregs.length
  let acc := g.tiles.length
  let cl := g.clause.or g.replay
  let passes := (cl.map (·.passes)).getD 1
  let rows := g.tiles.zipIdx.flatMap fun p => p.1.rows.toList.zipIdx.map fun r => (4096 * p.2 + 128 * r.2, r.1)
  let joined := s.copies.flatMap fun c => if c.started then [] else c.slices.filter fun x => x.group == g.id
  let m := m.words base
    [ BitVec.ofNat 64 (v / 8 * 2 ^ 48 + g.sregs.length / 8 * 2 ^ 40 + acc * 2 ^ 32 + g.number),
      g.resumeWord,
      BitVec.ofBool ((cl.map fun c => c.head.rep).getD false) ++ 0#15 ++ g.xi ++ BitVec.ofNat 32 passes,
      g.exited ++ 0#13 ++ BitVec.ofNat 3 ((g.limb.map limbCode).getD 0) ++ 0#11 ++ g.flags,
      ((g.waitUntil.getD 0).setWidth 32 : Word32) ++ 0#11 ++ BitVec.ofNat 5 g.cwaits.length ++ 0#4 ++
        BitVec.ofNat 4 ((g.mwait.map (· + 1)).getD 0) ++ 0#7 ++ BitVec.ofBool g.yielded,
      (List.range 64).foldl (fun w t => if g.restored.contains t then w ||| (1#64 <<< t) else w) 0,
      BitVec.ofNat 32 g.rrots ++ BitVec.ofNat 32 g.cpys ]
  let m := m.words (base + 0x40)
    (g.frontier.map fun e => BitVec.ofNat 8 e.prio ++ BitVec.ofNat 24 (e.off / 8) ++ e.mask)
  let m := m.words (base + 0x140) ((List.range 8).map fun i => s.ctrValue (.c0 g.id i))
  let m := g.preds.toList.zipIdx.foldl (fun t p => t.writeLE (base + 0x180 + 4 * p.2) 4 p.1.toNat) m
  let m := m.words (base + 0x1A0) (tagWords (g.vregs.map (·.tag)))
  let m := m.words (base + 0x220) (tagWords (g.tiles.map (·.tag)))
  let m := (joined.take 4).zipIdx.foldl (fun t p =>
    t.words (base + 0x400 + 128 * p.2) (p.1.word :: p.1.handle.getD 0 :: p.1.regs)) m
  let m := m.words (base + 0x800) g.sregs
  let m := g.vregs.zipIdx.foldl (fun t p => p.1.lanes.toList.zipIdx.foldl (fun u q =>
    u.writeLE (base + 0xC00 + 128 * p.2 + 4 * q.2) 4 q.1.toNat) t) m
  let m := rows.foldl (fun t p => p.2.toList.zipIdx.foldl (fun u q =>
    u.writeLE (base + 0xC00 + 128 * v + p.1 + 4 * q.2) 4 q.1.toNat) t) m
  if !chk then m
  else
    g.lvq.zipIdx.foldl (fun t p =>
      let at_ := base + groupImageSize v acc true - 0x8000 + 512 * p.2
      let u := t.words at_
        [BitVec.ofNat 32 (p.1.off / 8) ++ BitVec.ofNat 24 p.1.idx ++ 1#8, 0#32 ++ p.1.emask]
      p.1.values.foldl (fun w q => w.writeN (at_ + 16 + 8 * q.1) q.2) u) m

/-- The image of a workgroup with those of some of its groups (R348). -/
def State.wgImage (s : State) (w : Workgroup) (gs : List Group) : Memory :=
  match s.hedge w.hedge, s.launch w.hedge w.lseq with
  | some h, some l =>
    let chk := h.p.checked
    let g := groupImageSize l.v l.acc chk
    let m : Memory := Memory.words [] 0
      [ BitVec.ofNat 64 (2 ^ 56 + l.groups * 2 ^ 48 + w.pos * 2 ^ 40 + if chk then 1 else 0), BitVec.ofNat 64 w.lseq,
        BitVec.ofNat 64 w.index, BitVec.ofNat 32 w.rots ++ BitVec.ofNat 32 w.copies, BitVec.ofNat 64 g,
        BitVec.ofNat 64 w.size ]
    let m := (List.range (w.size / 128)).foldl (fun t i =>
      if w.absent.contains i then t else t.write (0x1000 + i / 8) (t.read (0x1000 + i / 8) ||| (1#8 <<< (i % 8)))) m
    let m := w.scratch.foldl (fun t c => t.write (0x2000 + c.1) c.2) m
    gs.foldl (fun t x => s.groupImage x chk (0x2000 + w.size + x.number * g) t) m
  | _, _ => []

/-! ## Saving (R163, R242, R346 to R349, R419) -/

/-- What a save or a snapshot leaves of a group's MMAs, which are all performed: the tiles that its open batch targets, and
no latches (R237, R242). -/
def Group.snapped (g : Group) : Group :=
  { g with restored := g.restored ++ g.openBatch.tiles, openBatch := Batch.empty, latch := none, reached := none }

/-- The parking state and the tiles as an image holds them: cycles still to wait, the tiles of the open batch, no
latches (R242, R347). A group parked for presence issues the parked instruction when it is picked again (R159, R163). -/
def Group.packed (g : Group) (cycle : Word64) : Group :=
  { g.snapped.zeroCounts with
    waitUntil := g.waitUntil.bind fun d => if (cycle - d).toNat < 2 ^ 63 then none else some (d - cycle)
    stop := match g.stop with
      | some x => some x
      | none => if g.presence then some ⟨.acchaz, true, true, 0, false, 0⟩ else none
    holds := g.holds.filter fun x => x != .save }

/-- Groups leave their seats with their images made; what they have issued goes on (R347). -/
def State.unseat (s : State) (gs : List Group) : State :=
  gs.foldl (fun t g =>
    let c := (t.core (t.coreOf g)).cycle
    (t.leaveSlot g).mapGroup g.id fun x => { x.packed c with seat := none }) s

/-- The lowest run of n frames of a tier that can be given to a hedge. -/
def State.freeRun (s : State) (t : Tier) (n : Nat) : Option Nat :=
  let used := s.usedFrames
  let fits (c : Nat) : Bool := decide ((tierFrames t).1 ≤ c) && decide (c + n ≤ s.tierEnd t) &&
    used.all fun u => decide (u < c) || decide (c + n ≤ u)
  match ((tierFrames t).1 :: used.map (· + 1)).filter fits with
  | [] => none
  | c :: cs => some (cs.foldl min c)

/-- Host frames for an image and the counter of its request, in the hedge's context area: the lowest run of the first tier in
which the hedge has quota for them (R348, R361; log 81, DESIGN CHOICE). -/
def State.imageRun (s : State) (h n : Nat) : Option Nat :=
  [Tier.hbm, .lpddr, .pool].findSome? fun t => if s.quotaRoom h t n then s.freeRun t n else none

/-- The workgroup has space for its image, which stays its own; none where the hedge's quotas leave none (R303, R348, R361). -/
def State.imageSpace (s : State) (w : Workgroup) : State :=
  match w.image, s.imageRun w.hedge ((s.wgImageSize w + 8 + 65535) / 65536) with
  | none, some first =>
    let t := s.mapWg w.id fun x => { x with image := some (first * 65536) }
    (t.imageFrames { w with image := some (first * 65536) }).foldl (fun u f => u.giveFrame f w.hedge (some (contextSlice w.hedge))) t
  | _, _ => s

/-- Bytes [lo, lo + len) of an image land in memory at their place in it (R303, R348). -/
def State.putImage (s : State) (base lo len : Nat) (m : Memory) : State :=
  let t := (s.mem.filter fun c => decide (base + lo ≤ c.1) && decide (c.1 < base + lo + len)).foldl
    (fun u c => u.homeSet c.1 0) s
  (m.filter fun c => decide (lo ≤ c.1) && decide (c.1 < lo + len)).foldl (fun u c => u.homeSet (base + c.1) c.2) t

/-- The image of a workgroup is written whole. -/
def State.writeImage (s : State) (w : Nat) : State :=
  match s.wgOf w with
  | none => s
  | some x =>
    match x.image with
    | none => s
    | some base =>
      s.putImage base 0 (s.wgImageSize x) (s.wgImage x (s.groups.filter fun g => g.wg == w && !g.trails))

/-- The image of one group is written at its own place in its workgroup's (R419). -/
def State.writeGroupImage (s : State) (g : Group) : State :=
  match s.wgOf g.wg, s.hedge g.hedge with
  | some w, some h =>
    match w.image with
    | some base =>
      let n := groupImageSize g.vregs.length g.tiles.length h.p.checked
      let lo := 0x2000 + w.size + g.number * n
      s.putImage base lo n (s.groupImage g h.p.checked lo [])
    | none => s
  | _, _ => s

/-- A fenced core leaves the slot map of a hedge once no group of the hedge is seated there (R173). -/
def State.vacate (s : State) (core : Nat) : State :=
  let stays (h : Nat) : Bool := s.groups.any fun g => g.hedge == h && (g.seat.map (·.core)) == some core
  if (s.core core).fenced then s.mapCore core fun k => { k with slots := k.slots.map fun x => x.filter stays } else s

/-- The first request for a service (R303). -/
def State.request (s : State) (x : Service) : Option MgmtReq := (s.mgmt.flatMap (·.requests)).find? fun r => r.what == x

/-- A system turn has taken up a request for a service (R303). -/
def State.taken (s : State) (x : Service) : Bool := ((s.request x).map (·.taken)).getD false

/-- The service kernel asks the management core of a die for a service (R303). -/
def State.askMgmt (s : State) (die : Nat) (x : Service) (base : Nat) (counter : Option CtrKey) : State :=
  if (s.request x).isSome then s
  else s.mapMgmt die fun m => { m with requests := m.requests ++ [⟨x, base, counter, false⟩] }

/-- A request is done: it leaves, and the release add at PKG is made on the counter that it names (R303). -/
def State.served (s : State) (x : Service) : State :=
  let t := s.dropRequests fun y => y == x
  match (s.request x).bind (·.counter) with
  | some k => t.addCtr k 1
  | none => t

/-- Where the two groups of a pair have left something different in their open batches, which a save or snapshot performs and which
nothing compares after it: the leading group, and the words that differ (R170, R242, R243). -/
def State.openDiff (s : State) (gs : List Group) : Option (Group × Word64 × Word64) :=
  gs.findSome? fun g => match g.role with
    | .single | .trailing _ => none
    | .leading p => if g.stop.any fun x => x.code == .sdc then none else (s.group p).bind fun q => (firstDiff g.openBatch.compared q.openBatch.compared).map fun d => (g, d)

/-- Groups are saved once the open batches of their pairs agree; otherwise the pair has disagreed (R172, R243). -/
def State.openCompared (s : State) (gs : List Group) (save : State → State) : State :=
  match s.openDiff gs with
  | some (g, x, y) => ((s.focusOn g.id).mismatch g.active x y).focusOn s.focus.id
  | none => save s

/-- The workgroup is saved whole, as a request asks: dirty lines written back, its groups off the core, its image in
memory, and then the release add at PKG on the request's counter (R303, R310). -/
def State.saveWg (s : State) (w : Workgroup) : State :=
  let t := match w.core with
    | some c => s.flushHedge c w.hedge
    | none => s
  let t := t.unseat (t.seated w.id)
  let t := (w.core.map t.vacate).getD t
  ((t.mapWg w.id fun x => { x with core := none }).writeImage w.id).served (.save w.id)

/-- A group alone is saved off-core while an SVC reply of its is pending; its workgroup stays (R303, R419). -/
def State.saveAlone (s : State) (g : Group) : State :=
  let ms := s.members g
  let t := (s.flushHedge (s.coreOf g) g.hedge).unseat ms
  let t := match t.group g.id with
    | some x => t.writeGroupImage x
    | none => t
  t.served (.saveGroup g.id)

/-- A save of the workgroup has been asked for, and is not yet made. -/
def State.saving (s : State) (w : Nat) : Bool := (s.request (.save w)).isSome

/-- The service kernel asks the management core of its die for a service that reads or writes a workgroup's image: in its space
in the context area, with the counter that stands behind the image there (R163, R303; log 81, DESIGN CHOICE). Where there is no
space for the image, nothing is asked for. -/
def State.askImage (s : State) (w : Workgroup) (core : Nat) (x : Service) : State :=
  if (s.request x).isSome then s
  else
    let t := s.imageSpace w
    match (t.wgOf w.id).bind (·.image) with
    | some base => t.askMgmt (dieOf core) x base (some (.c3 (base + s.wgImageSize w)))
    | none => s

/-- A save of a workgroup is asked for (R163, R303). -/
def State.askSave (s : State) (w : Nat) : State :=
  match s.wgOf w with
  | none => s
  | some x => s.askImage x (x.core.getD 0) (.save w)

/-- A restore of a saved workgroup, or of a group whose workgroup is resident, is asked for (R303, R350, R419). -/
def State.askRestore (s : State) (h : Hedge) (w : Workgroup) : State :=
  s.askMgmt (dieOf (h.map.getD w.lcore 0)) (.restore w.id) (w.image.getD 0) (w.image.map fun b => .c3 (b + s.wgImageSize w))

/-- A group whose frontier is empty while a reply is pending, and no SVC of its own waits on-core for FREE (R393, R419). -/
def Group.awaitsReply (g : Group) : Bool :=
  g.frontier.isEmpty && g.clause.isNone && !g.svcReplies.isEmpty && g.svcWait.isNone

/-- GROUP_SAVE: a save that was asked for is made once a system turn has taken the request up and every group of the workgroup is
held and can be saved; a group that only waits for a reply is saved alone; otherwise the save is asked for (R163, R303, R346,
R347, R419) (log 58, DEDUCED). -/
def execGroupSave (g : Nat) (s : State) : Host.Outcome State Fault Refusal :=
  match s.group g with
  | none => .next s
  | some gr =>
    match s.wgOf gr.wg with
    | none => .next s
    | some w =>
      if w.core.isNone then .next s
      else
        if s.saving w.id then
          if s.taken (.save w.id) && (s.seated w.id).all fun x => x.holds.contains .save && s.pairSavable x then
            .next (s.openCompared (s.seated w.id) fun t => t.saveWg w)
          else .next s
        else if gr.seat.isNone then .next s
        else if gr.awaitsReply && !gr.trails then
          if !s.taken (.saveGroup g) then .next (s.askImage w (w.core.getD 0) (.saveGroup g))
          else if s.pairSavable gr && gr.svcReplies.all (fun r => !r.ready) then
            .next (s.openCompared [gr] fun t => t.saveAlone gr)
          else .next s
        else .next (s.askSave w.id)

/-! ## What fits on a core (R154, R155, R249, R250) -/

/-- The slot numbers of a hedge on a core (R153). -/
def State.ownSlots (s : State) (h core : Nat) : List Nat :=
  (List.range 16).filter fun i => (s.core core).slots.getD i none == some h

/-- The groups of a hedge resident on a core. -/
def State.residents (s : State) (h core : Nat) : List Group :=
  s.groups.filter fun g => g.hedge == h && (g.seat.map (·.core)) == some core

/-- The launch regions that a hedge holds on a core: launch and logical core (R249). -/
def State.regionsOn (s : State) (h core : Nat) : List (Nat × Nat) :=
  match s.hedge h with
  | some x => x.launches.flatMap fun l =>
    (l.held.filter fun i => x.map[i]? == some core && s.regionHeld x l i).map fun i => (l.seq, i)
  | none => []

/-- Bytes of a launch's region. -/
def State.regionSize (s : State) (h q : Nat) : Nat := ((s.launch h q).map fun l => l.p * l.scr).getD 0

/-- The position is free (R250). -/
def State.posFree (s : State) (h q lcore pos : Nat) : Bool := s.wgAt h q lcore pos == 0

/-- A hedge's slot numbers on a core hold n more groups with the allotments of a launch (R154). -/
def State.holdsMore (s : State) (h : Hedge) (l : Launch) (n core : Nat) : Bool :=
  let rs := s.residents h.p.id core
  h.slotsHold (s.ownSlots h.p.id core) (rs.length + n) ((rs.map fun g => g.vregs.length).sum + n * l.v)
    ((rs.map fun g => g.tiles.length).sum + n * l.acc)

/-- The hedge's share of the core that runs a logical core holds n more groups of a launch, at a free position (R389). -/
def State.fitsAt (s : State) (h : Hedge) (l : Launch) (n lcore pos : Nat) : Bool :=
  let core := h.map.getD lcore 0
  let regions := ((l.seq, lcore) :: s.regionsOn h.p.id core).eraseDups
  !(s.core core).fenced && !(s.ownSlots h.p.id core).isEmpty && s.posFree h.p.id l.seq lcore pos &&
    decide ((regions.map fun r => s.regionSize h.p.id r.1).sum ≤ h.scratchPages * 65536) && s.holdsMore h l n core

/-- The (quarter, slot) of the hedge that holds the fewest groups, the lower quarter and slot first; in checked mode a
leading group's slot is below 8 (R155, R169). -/
def State.slotFor (s : State) (h : Hedge) (core : Nat) : Option (Nat × Nat × Nat) :=
  let own := (s.ownSlots h.p.id core).filter fun i => !h.p.checked || i < 8
  ((List.range 4).flatMap fun q => own.map fun i => (q, i)).foldl (fun b x =>
    let n := (s.slotGroups core x.1 x.2).length
    match b with
    | some y => if n < y.2.2 then some (x.1, x.2, n) else b
    | none => some (x.1, x.2, n)) none

/-- The lowest free residency position of a slot (R155). -/
def State.freePos (s : State) (core q slot : Nat) : Nat :=
  ((List.range 4).find? fun p => !(s.slotGroups core q slot).any fun g => (g.seat.map (·.pos)) == some p).getD 0

/-- A group takes its seat, its partner the slot 8 higher (R155, R169). -/
def State.seatGroup (s : State) (h : Hedge) (core : Nat) (g : Nat) : State :=
  match s.slotFor h core with
  | none => s
  | some (q, i, _) =>
    let p := s.freePos core q i
    let cycle := (s.core core).cycle
    let sit (slot : Nat) (x : Group) : Group :=
      { x with seat := some ⟨core, q, slot, p⟩, waitUntil := x.waitUntil.map fun d => cycle + d }
    let t := s.mapGroup g (sit i)
    match (s.group g).bind Group.partner with
    | some y => t.mapGroup y (sit (i + 8))
    | none => t

/-- The lowest WGID that is free on a core (R197) (log 35, DEDUCED). -/
def State.freeWgid (s : State) (core : Nat) : Nat :=
  ((List.range 64).find? fun i => !s.wgs.any fun w => w.core == some core && w.wgid == i).getD 0

/-! ## Dispatch order (R389, R390) -/

/-- A workgroup that waits to be placed: its key, and its identity when it has been saved. -/
structure Cand where
  lseq : Nat
  cls : Nat
  index : Nat
  wg : Option Nat
  deriving DecidableEq, Repr

/-- Dispatch order: class descending, sequence number and index ascending (R389). -/
def Cand.ahead (a b : Cand) : Bool :=
  decide (b.cls < a.cls) || (a.cls == b.cls &&
    (decide (a.lseq < b.lseq) || (a.lseq == b.lseq && decide (a.index < b.index))))

/-- The first in dispatch order. -/
def firstCand : List Cand → Option Cand
  | [] => none
  | c :: cs =>
    match firstCand cs with
    | none => some c
    | some x => if x.ahead c then some x else some c

/-- The last in dispatch order. -/
def lastCand : List Cand → Option Cand
  | [] => none
  | c :: cs =>
    match lastCand cs with
    | none => some c
    | some x => if x.ahead c then some c else some x

/-- The key of a workgroup. -/
def State.candOf (s : State) (w : Workgroup) : Cand :=
  ⟨w.lseq, ((s.launch w.hedge w.lseq).map (·.cls)).getD 0, w.index, some w.id⟩

/-- The groups of a saved workgroup that a restore seats: all but those that wait for a reply alone (R419). -/
def State.returning (s : State) (w : Nat) : List Group :=
  s.groups.filter fun g =>
    g.wg == w && g.seat.isNone && !g.trails && !(g.awaitsReply && g.svcReplies.all fun r => !r.ready)

/-- A swapped-out workgroup may be placed again (R390). -/
def State.swapOver (s : State) (w : Workgroup) : Bool :=
  match w.swapped with
  | none => true
  | some q =>
    match s.launch w.hedge q with
    | some l => decide (l.wgcount ≤ l.placed)
    | none => true

/-- What may be placed: saved workgroups, and the next new workgroup of each admitted launch. -/
def State.cands (s : State) (h : Hedge) : List Cand :=
  ((s.wgs.filter fun w => w.hedge == h.p.id && w.core.isNone && !s.wgDone w && s.swapOver w &&
      !(s.returning w.id).isEmpty).map s.candOf) ++
  (h.launches.filter fun l => l.admitted && !l.complete && decide (l.placed < l.wgcount)).map fun l =>
    ⟨l.seq, l.cls, l.placed, none⟩

/-- The logical cores of a launch's rectangle, in ascending order (R381, R389). -/
def Hedge.lcoresOf (h : Hedge) (l : Launch) : List Nat :=
  (List.range h.cores).filter fun i => (rectCores l.rect).contains (h.logical i)

/-- The logical cores on which a candidate may stand: a saved one's own (R350). -/
def State.candCores (s : State) (h : Hedge) (c : Cand) : List Nat :=
  match c.wg.bind s.wgOf with
  | some w => [w.lcore]
  | none => ((s.launch h.p.id c.lseq).map h.lcoresOf).getD []

/-- The logical core on which a candidate is placed now. -/
def State.candPlace (s : State) (h : Hedge) (c : Cand) : Option Nat :=
  match s.launch h.p.id c.lseq with
  | none => none
  | some l =>
    let n := match c.wg with
      | some w => h.twice (s.returning w).length
      | none => h.twice l.groups
    (s.candCores h c).find? fun i => s.fitsAt h l n i (c.index % max 1 l.p)

/-- The launch of the progress workgroup (R390). -/
def Hedge.progressLaunch (h : Hedge) : Option Launch :=
  h.launches.find? fun l => l.admitted && decide (l.finished < l.wgcount)

/-- The progress workgroup: launch and index (R390). -/
def State.progress (s : State) (h : Hedge) : Option (Nat × Nat) :=
  h.progressLaunch.map fun l =>
    let open_ := (s.wgs.filter fun w => w.hedge == h.p.id && w.lseq == l.seq && !s.wgDone w).map (·.index)
    (l.seq, open_.foldl min l.placed)

/-- A group that is parked on a counter, a presence bit, an SVC or a WAIT, stopped at a fault, or waiting to retire
(R168, R390). -/
def Group.parked (g : Group) : Bool :=
  g.seat.isNone || (g.stop.map fun x => !x.ready).getD false || (g.clause.isNone && g.frontier.isEmpty) || g.presence ||
    g.waitUntil.isSome || !g.cwaits.isEmpty || g.svcWait.isSome

/-- The resident workgroups on the cores where a candidate may stand, that a test picks. -/
def State.victims (s : State) (h : Hedge) (c : Cand) (pick : Workgroup → Bool) : List Cand :=
  let cores := (s.candCores h c).map fun i => h.map.getD i 0
  ((s.wgs.filter fun w => w.hedge == h.p.id && (w.core.map cores.contains).getD false && !s.wgDone w && pick w).map
    s.candOf)

/-- What the hub does next for a hedge: place a workgroup on a logical core, or have one saved. -/
inductive Dispatch where
  | place (c : Cand) (lcore : Nat)
  | evict (w : Nat) (swap : Option Nat)
  deriving DecidableEq, Repr

/-- The next in order that is not the progress workgroup: placed where it fits in the room of `t`, or room made by class
(R389). -/
def State.orderly (s t : State) (h : Hedge) (cs : List Cand) : Option Dispatch :=
  match firstCand cs with
  | none => none
  | some c =>
    match t.candPlace h c with
    | some i => some (.place c i)
    | none =>
      let keep := s.progress h
      let vs := s.victims h c fun w => decide ((s.candOf w).cls < c.cls) && keep != some (w.lseq, w.index)
      if vs.any fun v => (v.wg.map s.saving).getD false then none
      else (lastCand vs).bind fun v => v.wg.map fun w => .evict w none

/-- The machine as its room stands without the swap-outs for a launch: the workgroups swapped out for it hold their allotments
(R390). -/
def State.beforeSwaps (s : State) (h : Hedge) (q : Nat) : State :=
  let ws := s.wgs.filter fun w => w.hedge == h.p.id && w.core.isNone && w.swapped == some q
  ws.foldl (fun t w =>
    let core := h.map.getD w.lcore 0
    let sit (g : Group) : Group := if g.wg == w.id && g.seat.isNone then { g with seat := some ⟨core, 0, 0, 0⟩ } else g
    { (t.mapWg w.id fun x => { x with core := some core }).holdRegion h.p.id w.lseq w.lcore with
      focus := sit t.focus, others := t.others.map sit }) s

/-- The hub's next act under R389 and R390: the progress workgroup first, with room made for it by swap-outs; while it
waits, only workgroups ahead of it, and none in room that a swap-out for it freed. -/
def State.nextDispatch (s : State) (h : Hedge) : Option Dispatch :=
  let cs := s.cands h
  match (s.progress h).bind fun p => cs.find? fun c => (c.lseq, c.index) == p with
  | none => s.orderly s h cs
  | some c =>
    match s.candPlace h c with
    | some i => some (.place c i)
    | none =>
      let vs := s.victims h c fun w => (s.seated w.id).all Group.parked
      let ahead := s.orderly (s.beforeSwaps h c.lseq) h (cs.filter fun x => x.ahead c)
      if vs.any fun v => (v.wg.map s.saving).getD false then ahead
      else
        match lastCand vs with
        | some v => v.wg.map fun w => .evict w (some c.lseq)
        | none => ahead

/-! ## Placing (R155, R250, R251, R386) -/

/-- The lines of a workgroup in which issued slices have yet to land: not those of a slice that is held in a checked pair,
nor of one that a rollback brought back, whose lines are present (R170, R250, R270). -/
def State.owedLines (s : State) (w : Nat) : List Nat :=
  ((s.copies.filter fun c => !c.abandoned).flatMap fun c =>
    (c.slices.zipIdx.filter fun x => !s.sliceHeld x.1 && !x.1.rolled).flatMap fun x =>
      ((s.owedBy c x.2).filter fun l => l.1 == w).map (·.2)).eraseDups

/-- One group of a new workgroup, with its partner in checked mode, as R386 starts it. -/
def State.addGroup (s : State) (h : Hedge) (l : Launch) (w core number : Nat) : State :=
  let a := s.nextId
  let base : Group :=
    { Group.start a l.v l.s l.acc with
      hedge := h.p.id, lseq := l.seq, wg := w, number := number, code := l.code
      sregs := l.binds.foldl (fun ss b => ss.set b.1 b.2) (List.replicate l.s 0)
      role := if h.p.checked then .leading (a + 1) else .single }
  let (p, t) := s.prioAt base l.entry
  let lead := { base with frontier := [⟨p, l.entry, BitVec.allOnes 32⟩] }
  let t := { t with nextId := a + 2, others := t.others ++
    (if h.p.checked then [lead, { lead with id := a + 1, role := .trailing a }] else [lead]) }
  t.seatGroup h core a

/-- A new workgroup is placed on a logical core (R250, R251, R386). -/
def State.placeNew (s : State) (h : Hedge) (l : Launch) (lcore : Nat) : State :=
  let core := h.map.getD lcore 0
  let w := s.nextId
  let wg : Workgroup :=
    { id := w, hedge := h.p.id, lseq := l.seq, index := l.placed, lcore := lcore, pos := l.placed % max 1 l.p
      core := some core, wgid := s.freeWgid core, size := l.scr, scratch := [], absent := [], copies := 0, rots := 0
      retired := [], ended := [], swapped := none, image := none }
  let t := { s with nextId := w + 1, wgs := s.wgs ++ [wg] }
  let t := t.mapWg w fun x => { x with absent := t.owedLines w }
  let t := ((t.mapLaunch h.p.id l.seq fun x => { x with placed := x.placed + 1 }).holdRegion h.p.id l.seq lcore).dropClean
    core h.p.id
  (List.range l.groups).foldl (fun u n => u.addGroup h l w core n) t

/-- Groups in ascending order of their numbers (R155). -/
def byNumber (gs : List Group) : List Group :=
  gs.foldr (fun g out => out.takeWhile (fun x => decide (x.number < g.number)) ++ g ::
    out.dropWhile fun x => decide (x.number < g.number)) []

/-! ## Replies (R393, R418) -/

/-- The reply registers of a group take CODE and RVAL in the lanes of EMASK (R393). -/
def Group.takeReply (g : Group) (e : Mask) (d : Nat) (code rval : Nat → Word64) : Group :=
  ((g.setV e d .n32 fun l => (code l).extractLsb' 0 32).setV e (d + 1) .raw fun l => (rval l).extractLsb' 0 32).setV e
    (d + 2) .raw fun l => (rval l).extractLsb' 32 32

/-- An entry joins the frontier of a group that stands at a boundary, which then selects anew (R165, R166, R418; log 47,
DEDUCED). -/
def Group.rejoin (g : Group) (e : Entry) : Group :=
  let fs := joinEntry g.frontier e
  { g with
    frontier := fs
    selected := if g.clause.isNone && g.replay.isNone then bestEntry fs else g.selected }

/-- A group that was to be saved alone has its reply and stays: the request is withdrawn, and the group goes on unless its workgroup
is being saved (R303, R418, R424; log 58, DEDUCED). -/
def State.keep (s : State) (gr : Group) : State :=
  let t := s.dropRequests fun y => y == .saveGroup gr.id
  if s.saving gr.wg then t
  else (s.members gr).foldl (fun u m => u.mapGroup m.id fun x => { x with holds := x.holds.filter fun y => y != .save }) t

/-- A group takes the reply in a slot: the reply registers, the lanes back in the frontier at F, and then the add to FREE;
of a group that has been ended nothing returns (R341, R393, R418). -/
def State.takeReply (s : State) (h : Hedge) (gr : Group) (slot : Nat) : State :=
  let word (o : Nat) : Word64 := s.homeWord (h.slotAt slot + o)
  let emask : Mask := (word 0x18).extractLsb' 32 32
  let amask : Mask := (word 0x18).extractLsb' 0 32
  let d := bits (word 0x28) 8 8
  let next := s.replyNext gr slot
  let gone := ((s.wgOf gr.wg).map fun w => w.ended.contains gr.number).getD false
  let t := (s.promoteCtr (.c3 (h.resumeAt slot)) (promotedAt .sys)).acquire gr .sys
  let (p, t) := t.prioAt gr next
  let code (l : Nat) : Word64 := s.homeWord (h.blockAt slot l + 40)
  let rval (l : Nat) : Word64 := s.homeWord (h.blockAt slot l + 48)
  let f (x : Group) : Group :=
    let y := { x with svcReplies := x.svcReplies.filter fun r => r.slot != slot }
    if gone then y else (y.takeReply emask d code rval).rejoin ⟨p, next, amask⟩
  (((s.members gr).foldl (fun u m => u.mapGroup m.id f) t).keep gr).addCtr (.c3 h.freeAt) 1

/-- A group that has been restored takes every reply that was answered while it was off its core, before it starts any clause
(R418). -/
def State.takeReplies (s : State) (h : Hedge) (g : Nat) : State :=
  match s.group g with
  | none => s
  | some gr => (gr.svcReplies.filter (·.ready)).foldl (fun t r => ((t.group g).map fun x => t.takeReply h x r.slot).getD t) s

/-- A saved workgroup returns to the physical core that runs its logical core, its groups placed in ascending order. The lines
in which issued slices, or results of an MVB, have yet to land are absent, and no others: what a slice had cleared through
window 0xFFE is present again once that slice has landed elsewhere or its copy is abandoned (R155, R246, R250, R251, R261,
R269, R350). -/
def State.placeSaved (s : State) (h : Hedge) (w : Workgroup) : State :=
  let core := h.map.getD w.lcore 0
  let t := s.mapWg w.id fun x => { x with core := some core, wgid := s.freeWgid core, swapped := none }
  let t := t.mapWg w.id fun x =>
    { x with absent := (t.owedLines w.id ++ x.absent.filter fun l => t.mvbOwes (w.id, l)).eraseDups }
  let t := (t.holdRegion h.p.id w.lseq w.lcore).dropClean core h.p.id
  (byNumber (s.returning w.id)).foldl (fun u g => (u.seatGroup h core g.id).takeReplies h g.id) t

/-- VERSION of a saved workgroup's image is one that the part supports (R348, R350). -/
def State.imageVersionOk (s : State) (w : Workgroup) : Bool :=
  match w.image with
  | some base => s.homeRead (base + 7) == 1
  | none => true

/-- The allotments of a saved workgroup exceed the hedge's share of an empty core (R350). -/
def Hedge.oversized (h : Hedge) (l : Launch) : Bool :=
  let n := h.twice l.groups
  !h.slotsHold h.slots n (n * l.v) (n * l.acc) || decide (h.scratchPages * 65536 < l.p * l.scr)

/-- A launch is ended: its groups and workgroups go, with a record (R350) (log 50, DEDUCED). -/
def State.endLaunch (s : State) (h q w : Nat) : State :=
  let t := (s.logEvent (.image h w)).reportKind h 40
    [BitVec.ofNat 64 q, BitVec.ofNat 64 (((s.wgOf w).map (·.index)).getD 0), 0]
  let t := (t.copies.filter fun c => c.hedge == h && c.lseq == q).foldl (fun u c => u.abandon c.id) t
  let t := t.dropGroups ((t.groups.filter fun g => g.hedge == h && g.lseq == q && (t.wgOf g.wg).isSome).map (·.id))
  let gone := t.wgs.filter fun x => x.hedge == h && x.lseq == q
  let t := t.freeImages gone
  let t := t.dropRequests fun x => gone.any fun w => x.names w.id
  { t with wgs := t.wgs.filter fun x => !(x.hedge == h && x.lseq == q) }.mapLaunch h q fun l =>
    { l with placed := l.wgcount, finished := l.wgcount }

/-- GROUP_RESTORE: a saved workgroup that is next in order is placed again; in a resident workgroup, a group whose reply
is answered returns; each once a system turn has taken the request for it up, and with the add on the request's counter (R303,
R350, R390, R419). An image of another VERSION, or whose allotments exceed the share, is refused, and its launch ended. -/
def execGroupRestore (w : Nat) (s : State) : Host.Outcome State Fault Refusal :=
  match s.wgOf w with
  | none => .next s
  | some x =>
    match s.hedge x.hedge, s.launch x.hedge x.lseq with
    | some h, some l =>
      let due := (s.returning w).any fun g => g.svcReplies.any (·.ready)
      if s.wgDone x || h.wantSnap || h.resize.isSome || (due && !s.logRoom h.freeAt) then .next s
      else
        match x.core with
        | none =>
          if h.oversized l || !s.imageVersionOk x then .next (s.endLaunch h.p.id l.seq w)
          else
            match s.nextDispatch h with
            | some (.place c _) =>
              if c.wg != some w then .next s
              else if s.taken (.restore w) then .next ((s.placeSaved h x).served (.restore w))
              else .next (s.askRestore h x)
            | some (.evict _ _) | none => .next s
        | some core =>
          match (byNumber (s.returning w)).head? with
          | none => .next s
          | some g =>
            if !s.holdsMore h l (h.twice 1) core then .next s
            else if s.taken (.restore w) then
              .next ((((s.dropClean core h.p.id).seatGroup h core g.id).takeReplies h g.id).served (.restore w))
            else .next (s.askRestore h x)
    | _, _ => .next s

/-! ## Launches (R388, R391) -/

/-- LAUNCH_ADMIT: every dependence is satisfied; admission acquires the adds that satisfied them (R320, R388). -/
def execLaunchAdmit (hedge seq : Nat) (s : State) : Host.Outcome State Fault Refusal :=
  match s.launch hedge seq with
  | none => .next s
  | some l =>
    if l.admitted || !l.deps.all (·.met) then .next s
    else
      let t := l.deps.foldl (fun u d => u.promoteCtr d.key fun r => r.narrower .sys) s
      .next (t.mapLaunch hedge seq fun x => { x with admitted := true })

/-- Every copy that holds a slice of the launch has landed or been abandoned (R391). -/
def State.copiesSettled (s : State) (h q : Nat) : Bool := !s.copies.any fun c => c.hedge == h && c.lseq == q && !c.abandoned

/-- LAUNCH_COMPLETE: the DONE add is made as a release at SYS and the queue entry is freed, once its speculation is
resolved (R391, R402). -/
def execLaunchComplete (hedge seq : Nat) (s : State) : Host.Outcome State Fault Refusal :=
  match s.hedge hedge, s.launch hedge seq with
  | some h, some l =>
    if l.complete || !l.admitted || l.finished < l.wgcount || !s.copiesSettled hedge seq then .next s
    else
      let t := (h.map.eraseDups).foldl (fun u c => u.flushHedge c hedge) s
      let t := match l.done with
        | some k => { t with adds := t.adds ++ [AddReq.mk (.here k) hedge none 1 none (some none) false] }
        | none => t
      let t := { t with copies := t.copies.filter fun c => !(c.hedge == hedge && c.lseq == seq) }.freeWgs
      if (l.spec.map fun x => !x.resolved).getD false then
        .next (t.mapLaunch hedge seq fun x => { x with complete := true })
      else .next (t.mapHedge hedge fun x => { x with launches := x.launches.filter fun y => y.seq != seq })
  | _, _ => .next s

end Sys2Proof.Machine
end

