-- ==== Sys2Proof/Machine/Service.lean ====
section
/-! DEFINITION. The calls that the service kernel serves, and the replies that groups take (spec 19 R392 to R396, R411;
spec 16 R343, R338, R448; spec 20 R417 to R420). -/

namespace Sys2Proof.Machine

/-! ## Serving a slot (R394) -/

/-- The calls of the table *Service calls*. -/
def assigned (c : Nat) : Bool := decide (1 ≤ c) && decide (c ≤ 7)

/-- A lane's CODE and RVAL are written; after the last lane, RESUME[i] is added to as a release (R394, R417). -/
def State.replyLane (s : State) (h : Hedge) (slot lane : Nat) (code rval : Word64) : State :=
  let t := s.homeWords (h.blockAt slot lane + 40) [code, rval]
  let left := ((find1 h.calls slot).getD []).filter fun l => l != lane
  if left.isEmpty then
    (t.mapHedge h.p.id fun x => { x with calls := del1 x.calls slot }).addCtr (.c3 (h.resumeAt slot)) 1
  else t.mapHedge h.p.id fun x => { x with calls := put1 x.calls slot left }

/-- The next lane of a slot to be served, with its CALL and arguments (R394). -/
def State.nextLane (s : State) (h : Hedge) (slot : Nat) : Option (Nat × Nat × List Word64) :=
  ((find1 h.calls slot).bind List.head?).map fun l =>
    (l, bits (s.homeWord (h.blockAt slot l)) 0 12, (List.range 4).map fun k => s.homeWord (h.blockAt slot l + 8 + 8 * k))

/-- What a call answers: the state, CODE and RVAL; nothing while it has to wait. -/
abbrev Call := State → Hedge → List Word64 → Option (State × Nat × Word64)

/-- What a call has done, unless an interval log would hold more than its share for it: then a snapshot is taken first (R405; log
46, DEDUCED). -/
def State.orSnap (s : State) (h : Hedge) (t : State) : State :=
  let full := ((t.hedge h.p.id).map fun x => x.log.any fun l =>
    decide (x.p.logLines < t.logUsed x (t.frame (l.line / 512)).slice)).getD false
  if full && !h.log.isEmpty then s.wantSnap h.p.id else t

/-- The service kernel serves a call, from the next lane of a slot or through the SBI extension; an unassigned call
below 0x800 replies EINVAL (R394). -/
def State.serve (s : State) (src : CallSrc) (call : Nat) (f : Call) : Host.Outcome State Fault Refusal :=
  match src with
  | .sbi hedge w0 w1 w2 w3 =>
    match s.hedge hedge with
    | none => .next s
    | some h =>
      match f s h [w0, w1, w2, w3] with
      | none => .next s
      | some (t, c, r) => .next (s.orSnap h (t.send (.sbi hedge (BitVec.ofNat 64 c) r)))
  | .slot hedge slot =>
    match s.hedge hedge with
    | none => .next s
    | some h =>
      match s.nextLane h slot with
      | none => .next s
      | some (l, n, ws) =>
        if !(s.logRoom (h.blockAt slot l) && s.logRoom (h.resumeAt slot)) then .next (s.wantSnap hedge)
        else if n == call then
          match f s h ws with
          | none => .next s
          | some (t, c, r) => .next (s.orSnap h (t.replyLane ((t.hedge hedge).getD h) slot l (BitVec.ofNat 64 c) r))
        else if n < 0x800 && !assigned n then .next (s.replyLane h slot l (BitVec.ofNat 64 einval) 0)
        else .next s

/-- A refusal (R394). -/
def refused (s : State) (c : Nat) : Option (State × Nat × Word64) := some (s, c, 0)

/-! ## Pointer arguments (R395) -/

/-- A byte of a range of guest virtual addresses lies in the context area (R348, R395): its frames are whole, so that a page
does or does not. -/
def State.vaInContext (s : State) (h : Hedge) (va len : Nat) : Bool :=
  (pagesOf 0 [((va : Int), len)]).any fun p =>
    ((s.hubTranslate h ((4096 * p) % 2 ^ 64) needNone).map fun x => s.inContext h (frameOf x.1)).getD false

/-- Item 1 of R395 for a buffer argument: a window index, or a range that reaches the context area. -/
def State.windowArg (s : State) (h : Hedge) (idx : Word64) (off len : Nat) : Bool :=
  (decide (0xFF0 ≤ idx.toNat) && decide (idx.toNat ≤ 0xFFF)) ||
    match (if 0x1000 ≤ idx.toNat then none else h.entry idx.toNat) with
    | some e => s.vaInContext h ((e.vbase + off) % 2 ^ 64) len
    | none => false

/-- A buffer argument: a window index or a byte in the context area replies EWINDOW; an invalid or foreign buffer, a range outside
LEN, a missing right, or an unmapped byte replies EADDR (R395). -/
def State.bufArg (s : State) (h : Hedge) (idx : Word64) (off len : Nat) (r w : Bool) : Except Nat BufEntry :=
  if s.windowArg h idx off len then .error ewindow
  else
    match (if 0x1000 ≤ idx.toNat then none else h.entry idx.toNat) with
    | none => .error eaddr
    | some e =>
      if e.owner == h.p.id && decide (off + len ≤ e.len) && (!r || e.r) && (!w || e.w) &&
          ((pagesOf 0 [(((e.vbase + off) % 2 ^ 64 : Nat), len)]).all fun p =>
            (s.hubTranslate h ((4096 * p) % 2 ^ 64) needNone).isSome) then .ok e
      else .error eaddr

/-- An address argument: every page of the range is mapped, none of it in the context area (R395). -/
def State.vaArg (s : State) (h : Hedge) (va len : Nat) : Except Nat Unit :=
  if s.vaInContext h va len then .error ewindow
  else if (pagesOf 0 [((va : Int), len)]).all fun p => (s.hubTranslate h ((4096 * p) % 2 ^ 64) needNone).isSome then .ok ()
  else .error eaddr

/-! ## Frames (R357, R359, R361) -/

/-- A frame laid out in its tier as an interleave entry of its hedge stands: the mask, zero standing for the whole channel
set, and GRAN; the pool device lays its own frames out (R359, R361). -/
def Frame.laidOut (x : Frame) (h : Hedge) (iclass : Nat) : Frame :=
  let ws := (find1 h.interleave iclass).getD [0, 0]
  let w0 := ws.getD 0 0
  let all (m set : BitVec 48) : BitVec 48 := if m == 0 then set else m
  match x.tier with
  | .hbm => { x with iclass := iclass, mask := all (w0.extractLsb' 0 48) h.p.cmask, gran := (w0.extractLsb' 56 4).toNat }
  | .lpddr =>
    { x with iclass := iclass, gran := (w0.extractLsb' 56 4).toNat
             mask := all (((ws.getD 1 0).extractLsb' 0 16).setWidth 48) (h.p.lmask.setWidth 48) }
  | .pool => { x with iclass := iclass, mask := 0, gran := 0 }

/-- The channel that holds a byte of a frame: granule g lies in the (g mod m)-th set bit of the mask (R359). -/
def Frame.channel (x : Frame) (off : Nat) : Option Nat :=
  let bits := (List.range 48).filter fun i => x.mask.getLsbD i
  bits[off / (256 * 2 ^ x.gran) % max 1 bits.length]?

/-- A frame for a hedge in a tier of an affinity: the first tier that has a frame and quota (R361, R394) (log 51, DEDUCED).
A frame that no guest virtual address reaches, for tables, is homed at a slice by its number (R357; log 73, DESIGN CHOICE). -/
def State.newFrame (s : State) (h : Nat) (slice : Option Nat) (aff : BitVec 3) (iclass : Nat := 0) : Except Nat (Nat × State) :=
  let ts := [Tier.hbm, .lpddr, .pool].filterMap fun t =>
    if tierAllowed aff t then (s.freeFrame t).map fun f => (t, f) else none
  if ts.isEmpty then .error enomem
  else
    match ts.find? fun p => s.quotaRoom h p.1 1 with
    | none => .error equota
    | some (_, f) =>
      let lay (x : Frame) : Frame := ((s.hedge h).map fun y => x.laidOut y iclass).getD x
      .ok (f, (s.giveFrame f h (slice.or (some ((f + h) % 16)))).mapFrame f lay)

/-! ## Page tables (R332, R448) -/

/-- The place of the level 0 entry of an address in tables that are there. -/
def ptePlace (read : Nat → Option Word64) (tr : Nat → Option Nat) (root va : Nat) : (k : Nat) → (table : Nat) → Option Nat
  | k, table =>
    let a := table + 8 * (va / 2 ^ (12 + 9 * k) % (if k = 4 then root else 512))
    match k with
    | 0 => tr a
    | k' + 1 =>
      match read a with
      | some p => if p.getLsbD 0 && !pteLeaf p then ptePlace read tr root va k' (ptePpn p * 4096) else none
      | none => none

/-- The 512 leaves of level k that a leaf of level k + 1 is split into, with its flags (R366). -/
def splitLeaf (p : Word64) (k : Nat) : List Word64 :=
  (List.range 512).map fun i => (p &&& 0x60000000000003FF#64) ||| BitVec.ofNat 64 ((ptePpn p + i * 2 ^ (9 * k)) * 1024)

/-- An entry written at level 0, with the tables on its way made where there are none; a larger leaf on its way is
split. The service kernel's own G-stage tables are written as the hub writes, which no interval log keeps. -/
def State.setPte (wr : State → Nat → Word64 → State) (tr : State → Nat → Option Nat) (alloc : State → Except Nat (Nat × State)) (root va : Nat)
    (leaf : Word64) : (k : Nat) → (table : Nat) → State → Except Nat State
  | k, table, s =>
    match tr s (table + 8 * (va / 2 ^ (12 + 9 * k) % (if k = 4 then root else 512))) with
    | none => .error enomem
    | some pa =>
      match k with
      | 0 => .ok (wr s pa leaf)
      | k' + 1 =>
        let p := s.homeWord pa
        if p.getLsbD 0 && !pteLeaf p then setPte wr tr alloc root va leaf k' (ptePpn p * 4096) s
        else
          match alloc s with
          | .error c => .error c
          | .ok (a, t) =>
            let t := if !p.getLsbD 0 then t else
              ((splitLeaf p k').zipIdx).foldl (fun u x => match tr u (a + 8 * x.2) with
                | some b => wr u b x.1
                | none => u) t
            setPte wr tr alloc root va leaf k' a (wr t pa (BitVec.ofNat 64 (a / 4096 * 1024 + 1)))

/-- The root of a hedge's G-stage tables (R332). -/
def Hedge.groot (h : Hedge) : Nat := (h.hgatp.extractLsb' 0 44).toNat * 4096

/-- The root of its VS-stage tables, guest physical. -/
def Hedge.vroot (h : Hedge) : Nat := (h.vsatp.extractLsb' 0 44).toNat * 4096

/-- A leaf of the service kernel's: V, R, W, X, U, A, D. -/
def gLeaf (pa : Nat) : Word64 := BitVec.ofNat 64 (pa / 4096 * 1024 + 0xDF)

/-- A guest physical granule of 64 KiB mapped to a frame in the G stage. -/
def State.mapG (s : State) (h : Hedge) (gpa f : Nat) : Except Nat State :=
  (List.range 16).foldlM (fun t i =>
    State.setPte State.hubWriteWord (fun _ a => some a)
      (fun u => (u.newFrame h.p.id none 0).map fun p => (p.1 * 65536, p.2)) 2048 (gpa + 4096 * i)
      (gLeaf (f * 65536 + 4096 * i)) 4 h.groot t) s

/-- A new guest granule with a new frame behind it (R448). -/
def State.newGuest (s : State) (h : Nat) (slice : Option Nat) (aff : BitVec 3) (iclass : Nat := 0) : Except Nat (Nat × State) := do
  match s.hedge h with
  | none => .error enomem
  | some x =>
    if x.nextGpa < 65536 then .error enomem
    else
      let gpa := (x.nextGpa / 65536 - 1) * 65536
      let (f, t) ← s.newFrame h slice aff iclass
      let t := t.mapHedge h fun y => { y with nextGpa := gpa }
      let t ← t.mapG x gpa f
      .ok (gpa, t)

/-- The physical address of a guest physical one. -/
def State.guestPa (s : State) (h : Hedge) (gpa : Nat) : Option Nat :=
  match s.gStage none h gpa with
  | .ok (l, _) => some (l.addr gpa)
  | .error _ => none

/-- The VS-stage leaf bits of an entry's rights: U, A and D set; an entry that grants any right can be read, and one
that grants a write of any kind can be written (R448, R334). -/
def BufEntry.leafBits (e : BufEntry) : Nat :=
  let w := e.w || e.atom || e.cadd
  0xD1 + (if e.r || w || !e.x then 2 else 0) + (if w then 4 else 0) + (if e.x then 8 else 0)

/-- The pages of a new buffer mapped in both stages, on new frames (R394, R448). -/
def State.mapBuffer (s : State) (h : Hedge) (e : BufEntry) : Except Nat State :=
  (List.range ((e.len + 65535) / 65536)).foldlM (fun t j => do
    let va := e.vbase + 65536 * j
    let (gpa, t) ← t.newGuest h.p.id (some (sliceOf h.p.id va)) e.tier e.iclass
    (List.range (min 16 ((e.len - 65536 * j) / 4096))).foldlM (fun u i =>
      State.setPte State.homeWriteWord (fun v a => v.guestPa h a) (fun v => v.newGuest h.p.id none 0) 512 ((va + 4096 * i) % 2 ^ 57)
        (BitVec.ofNat 64 ((gpa / 4096 + i) * 1024 + e.leafBits)) 4 h.vroot u) t) s

/-- The mapped pages of a buffer that BUFALLOC made: the places of their entries in the VS stage and in the G stage. -/
def State.bufferPages (s : State) (h : Hedge) (e : BufEntry) : List (Nat × Option Nat) :=
  (List.range (e.len / 4096)).filterMap fun j =>
    (ptePlace (fun a => (s.guestPa h a).map s.homeWord) (s.guestPa h) 512 ((e.vbase + 4096 * j) % 2 ^ 57) 4 h.vroot).bind fun v =>
      if (s.homeWord v).getLsbD 0 then
        some (v, ptePlace (fun a => some (s.homeWord a)) some 2048 (ptePpn (s.homeWord v) * 4096) 4 h.groot)
      else none

/-- The frames behind pages of a buffer. -/
def State.bufferFrames (s : State) (ps : List (Nat × Option Nat)) : List Nat :=
  (ps.filterMap fun p => p.2.map fun g => ptePpn (s.homeWord g) / 16).eraseDups

/-- The pages of a buffer that BUFALLOC made are unmapped in both stages, and its frames released (R448, R363). -/
def State.unmapBuffer (s : State) (h : Hedge) (e : BufEntry) : State :=
  let ps := s.bufferPages h e
  let t := ps.foldl (fun t p =>
    let u := t.homeWriteWord p.1 0
    (p.2.map fun g => u.hubWriteWord g 0).getD u) s
  (s.bufferFrames ps).foldl State.releaseFrame t

/-- A buffer as it stands before it is freed (R406). -/
def State.freedOf (s : State) (h : Hedge) (i : Nat) (e : BufEntry) : Freed :=
  let ps := s.bufferPages h e
  let fs := s.bufferFrames ps
  let inFs (pa : Nat) : Bool := fs.contains (frameOf pa)
  { index := i
    words := (find1 h.bufs i).getD []
    maps := ps.filterMap fun p => p.2.map fun g => (g, s.homeWord g)
    frames := fs.map fun f => (f, s.frame f)
    cells := s.mem.filter fun c => inFs c.1
    codes := s.codes.filter fun c => inFs (c.1 * 32)
    bad := s.bad.filter fun l => inFs (l * 128)
    log := h.log.filter fun x => inFs (x.line * 128) }

/-! ## The calls (R394, R395, R420, R448) -/

/-- The lowest free buffer index. -/
def Hedge.freeIndex (h : Hedge) : Option Nat :=
  (List.range 0xFF0).find? fun i => !((((find1 h.bufs i).bind fun e => e[2]?).getD 0).getLsbD 0)

/-- VBASE of the buffer that BUFALLOC makes with an index (R448). -/
def regionBase (i : Nat) : Nat := 0xFFF0000000000000 + i * 2 ^ 40

/-- The bits of W1 that BUFALLOC takes into the entry. -/
def allocBits : Word64 := 0x1F0F07007E

/-- Word 2 of an entry: V, OWNER and the bits given. -/
def Hedge.entryWord (h : Hedge) (w1 : Word64) : Word64 := w1 ||| 1#64 ||| BitVec.ofNat 64 (h.p.id % 64 * 256)

/-- An entry is installed. -/
def State.setEntry (s : State) (h i : Nat) (ws : List Word64) : State :=
  s.mapHedge h fun x => { x with bufs := put1 x.bufs i ws }

/-- BUFALLOC's own checks and effect (R394, R420, R448). -/
def State.allocate (s : State) (h : Hedge) (w0 w1 w2 : Word64) (w3 : Word64) : Except Nat (State × Word64) := do
  let init := w2.getLsbD 63
  let src ←
    if init then (s.bufArg h (w2 &&& 0xFFF) w3.toNat w0.toNat true false).map some else .ok none
  let len := (w0.toNat + 4095) / 4096 * 4096
  if w0 == 0 || decide (2 ^ 40 < w0.toNat) || w1 &&& ~~~allocBits != 0 || w1.getLsbD 35 || w1.getLsbD 36 ||
      (w2 &&& ~~~0x8000000000000FFF#64) != 0 || (!init && (w2 != 0 || w3 != 0)) then .error einval
  else
    match h.freeIndex with
    | none => .error equota
    | some i =>
      let ws : List Word64 := [BitVec.ofNat 64 (regionBase i), BitVec.ofNat 64 len, h.entryWord w1, 0]
      match decodeEntry h.features ws with
      | none => .error einval
      | some e =>
        let t ← s.mapBuffer h e
        let t := t.setEntry h.p.id i ws
        let t := match src with
          | none => t
          | some b => (List.range w0.toNat).foldl (fun u k =>
              match u.hubTranslate h ((b.vbase + w3.toNat + k) % 2 ^ 64) needNone,
                u.hubTranslate h ((e.vbase + k) % 2 ^ 64) needNone with
              | some (x, _), some (y, _) => u.homeWrite y (u.homeRead x)
              | _, _ => u) t
        .ok (t, BitVec.ofNat 64 i)

/-- A call that succeeds with a value, or is refused without any effect. -/
def answer (s : State) : Except Nat (State × Word64) → Option (State × Nat × Word64)
  | .ok (t, r) => some (t, 0, r)
  | .error c => refused s c

/-- BUFALLOC (R394). -/
def callAlloc : Call := fun s h ws => answer s (s.allocate h (ws.getD 0 0) (ws.getD 1 0) (ws.getD 2 0) (ws.getD 3 0))

/-- BUFALLOC: a service core serves the call (R394, R420, R448). -/
def execBufalloc (src : CallSrc) (s : State) : Host.Outcome State Fault Refusal := s.serve src 1 callAlloc

/-- BUFFREE (R394, R448): the reply waits for the invalidation (R338). -/
def callFree : Call := fun s h ws =>
  let i := (ws.getD 0 0).toNat
  match (if 0xFF0 ≤ i then none else h.entry i) with
  | none => refused s einval
  | some e =>
    if e.owner != h.p.id then refused s einval
    else if !s.quiet h.p.id then none
    else
      let t := s.flushAll h.p.id
      let own := e.vbase == regionBase i
      let freed := if own then [t.freedOf ((t.hedge h.p.id).getD h) i e] else []
      let t := t.mapHedge h.p.id fun x => { x with bufs := del1 x.bufs i, freed := x.freed ++ freed }
      let t := if own then t.unmapBuffer h e else t
      some (if e.len = 0 then t else t.dropTlb h.p.id e.vbase e.len, 0, 0)

/-- BUFFREE: a service core serves the call. -/
def execBuffree (src : CallSrc) (s : State) : Host.Outcome State Fault Refusal := s.serve src 2 callFree

/-- BUFMAP (R394, R395). -/
def callMap : Call := fun s h ws =>
  let w0 := ws.getD 0 0
  let w1 := ws.getD 1 0
  let w2 := ws.getD 2 0
  let w3 := ws.getD 3 0
  match s.vaArg h w0.toNat w1.toNat with
  | .error c => refused s c
  | .ok () =>
    let es : List Word64 := [w0, w1, h.entryWord w2, w3]
    if w2 &&& ~~~allocBits != 0 || (decodeEntry h.features es).isNone then refused s einval
    else
      match h.freeIndex with
      | none => refused s equota
      | some i => some (s.setEntry h.p.id i es, 0, BitVec.ofNat 64 i)

/-- BUFMAP: a service core serves the call. -/
def execBufmap (src : CallSrc) (s : State) : Host.Outcome State Fault Refusal := s.serve src 3 callMap

/-- RESUME (R343, R394, R397). -/
def callResume : Call := fun s h ws =>
  match s.resumeToken h.p.id (ws.getD 0 0).toNat with
  | some t => some (t, 0, 0)
  | none => refused s einval

/-- RESUME: a service core serves the call. -/
def execResume (src : CallSrc) (s : State) : Host.Outcome State Fault Refusal := s.serve src 4 callResume

/-- MODE of a vsatp value: Sv57 (R332). -/
def vsatpOk (x : Word64) : Bool := x.extractLsb' 60 4 == 10#4

/-- SETVSATP (R394, R448): the sixteen root entries of the device buffer region are copied into the new root; the reply
waits for the invalidation. -/
def callVsatp : Call := fun s h ws =>
  let x := ws.getD 0 0
  let root := (x.extractLsb' 0 44).toNat * 4096
  let at_ (r i : Nat) : Option Nat := s.guestPa h (r + 8 * (0x1F0 + i))
  if !vsatpOk x || (List.range 16).any (fun i => (at_ root i).isNone) then refused s einval
  else if !s.quiet h.p.id then none
  else
    let t := (List.range 16).foldl (fun u i =>
      match at_ h.vroot i, at_ root i with
      | some a, some b => u.homeWriteWord b (u.homeWord a)
      | _, _ => u) (s.flushAll h.p.id)
    some ((t.mapHedge h.p.id fun y => { y with vsatp := x }).dropTlb h.p.id 0 0, 0, 0)

/-- SETVSATP: a service core serves the call. -/
def execSetvsatp (src : CallSrc) (s : State) : Host.Outcome State Fault Refusal := s.serve src 5 callVsatp

/-- INVAL (R338, R394). -/
def callInval : Call := fun s h ws =>
  let len := (ws.getD 1 0).toNat
  if !s.quiet h.p.id then none
  else some (if len = 0 then s else (s.flushAll h.p.id).dropTlb h.p.id (ws.getD 0 0).toNat len, 0, 0)

/-- INVAL: a service core serves the call. -/
def execInval (src : CallSrc) (s : State) : Host.Outcome State Fault Refusal := s.serve src 6 callInval

/-- EQCONFIG (R394, R395, R411, R413): the ring with TAIL and HEAD behind it, and the counter block. -/
def callEq : Call := fun s h ws =>
  let w0 := ws.getD 0 0
  let n := (ws.getD 1 0).toNat
  let w2 := ws.getD 2 0
  let ok := decide (4 ≤ n) && decide (n ≤ 16)
  let ring := if ok then 64 * 2 ^ n + 16 else 0
  if s.windowArg h w0 0 ring || s.windowArg h w2 0 64 then refused s ewindow
  else match s.bufArg h w0 0 ring true true, s.bufArg h w2 0 64 true false with
  | .error c, _ => refused s c
  | .ok _, .error c => refused s c
  | .ok _, .ok b =>
    if !ok || !b.counter then refused s einval
    else some (s.mapHedge h.p.id fun x => { x with errq := some ⟨w0.toNat, n, w2.toNat, 0⟩ }, 0, 0)

/-- EQCONFIG: a service core serves the call. -/
def execEqconfig (src : CallSrc) (s : State) : Host.Outcome State Fault Refusal := s.serve src 7 callEq

/-- GUEST_CALL: a call from 0x800 is passed to the guest kernel, which answers it (R394). -/
def execGuestCall (hedge slot : Nat) (code rval : Word64) (s : State) : Host.Outcome State Fault Refusal :=
  match s.hedge hedge with
  | none => .next s
  | some h =>
    match s.nextLane h slot with
    | none => .next s
    | some (l, n, ws) =>
      if n < 0x800 || !(s.logRoom (h.blockAt slot l) && s.logRoom (h.resumeAt slot)) then .next s
      else .next ((s.send (.guestCall hedge slot l n ws)).replyLane h slot l code rval)

/-! ## Replies (R393, R418) -/

/-- SVC_REPLY_TAKE: at a clause or pass boundary the group takes an answered reply (R393, R418). -/
def execSvcReplyTake (g slot : Nat) (s : State) : Host.Outcome State Fault Refusal :=
  match s.group g with
  | none => .next s
  | some gr =>
    match s.hedge gr.hedge, gr.svcReplies.find? fun r => r.slot == slot && r.ready with
    | some h, some _ =>
      if gr.trails || !((s.members gr).all fun x => x.clause.isNone && x.seat.isSome && x.issued == gr.issued) ||
          !s.logRoom h.freeAt then .next s
      else .next (s.takeReply h gr slot)
    | _, _ => .next s

/-- SVC_FREE_UNPARK: FREE allows the ticket, and the request goes to its slot; an SVC that found no room in an interval log
goes on (R393, R405). -/
def execSvcFreeUnpark (g : Nat) (s : State) : Host.Outcome State Fault Refusal :=
  match s.group g with
  | none => .next s
  | some gr =>
    match s.hedge gr.hedge, gr.svcWait with
    | some h, some w => if gr.seat.isSome && !gr.trails then .next (s.svcGo gr h w) else .next s
    | _, _ => .next s

end Sys2Proof.Machine
end

