-- ==== Sys2Proof/Machine/Migration.lean ====
section
/-! DEFINITION. Frames move between tiers and packages: migration, pool ownership, access counts, scrub (spec 18 R363 to
R374, R377). -/

namespace Sys2Proof.Machine

/-! ## A frame under a new address

From SWITCH on, everything that names a byte of the old frame names the same byte of the new one (R369). -/

/-- A key of a counter. -/
def keyPa (f : Nat → Nat) : CtrKey → CtrKey
  | .c3 a => .c3 (f a)
  | .c0 g i => .c0 g i
  | .c1 h c i => .c1 h c i
  | .c2 h c i => .c2 h c i

/-- A counter as an operation names it. -/
def CtrRef.mapPa (f : Nat → Nat) : CtrRef → CtrRef
  | .here k => .here (keyPa f k)
  | .peer x => .peer x

/-- An operation on a counter. -/
def CtrAct.mapPa (f : Nat → Nat) : CtrAct → CtrAct
  | .link p e => .link (keyPa f p) e
  | .watch t k a c ar hs => .watch t (k.mapPa f) a c ar hs
  | a => a

/-- A place. -/
def Place.mapPa (f : Nat → Nat) : Place → Place
  | .mem a => .mem (f a)
  | .home a => .home (f a)
  | .pub a => .pub (f a)
  | .spec q a => .spec q (f a)
  | .ctr k b => .ctr (keyPa f k) b
  | p => p

/-- What an outstanding operation does. -/
def OpKind.mapPa (f : Nat → Nat) : OpKind → OpKind
  | .ctr k a => .ctr (k.mapPa f) (a.mapPa f)
  | .mcrd a => .mcrd (f a)
  | .mvb fa fb rows v kb cols r todo =>
    .mvb fa fb (rows.map fun x => x.map (Place.mapPa f)) (v.map (Place.mapPa f)) kb cols (r.map (Place.mapPa f)) todo
  | k => k

/-- An outstanding operation. -/
def Op.mapPa (f : Nat → Nat) (o : Op) : Op :=
  { o with
    kind := o.kind.mapPa f
    accs := o.accs.map fun x => { x with places := x.places.map (Place.mapPa f) }
    wrote := o.wrote.map fun k => match k with
      | (none, n) => (none, f (n * 32) / 32)
      | (some w, n) => (some w, n) }

/-- An MMA. -/
def MmaOp.mapPa (f : Nat → Nat) (m : MmaOp) : MmaOp :=
  { m with
    aRows := m.aRows.map fun x => x.map (Place.mapPa f)
    bRows := m.bRows.map fun x => x.map (Place.mapPa f) }

/-- A batch. -/
def Batch.mapPa (f : Nat → Nat) (b : Batch) : Batch := { b with mmas := b.mmas.map (MmaOp.mapPa f) }

/-- A group. -/
def Group.mapPa (f : Nat → Nat) (g : Group) : Group :=
  { g with
    pend := g.pend.map (Op.mapPa f)
    openBatch := g.openBatch.mapPa f
    batches := g.batches.map (Batch.mapPa f)
    cwaits := g.cwaits.map fun c => { c with key := keyPa f c.key }
    metTags := g.metTags.map fun p => (f (p.1 * 512) / 512, p.2)
    metCtrs := g.metCtrs.map fun p => (keyPa f p.1, p.2) }

/-- A waiter. -/
def Waiter.mapPa (f : Nat → Nat) (w : Waiter) : Waiter :=
  { w with who := match w.who with
    | .watch h k a c o hs => .watch h (k.mapPa f) a c o hs
    | x => x }

/-- A counter. -/
def Ctr.mapPa (f : Nat → Nat) (c : Ctr) : Ctr :=
  { c with
    waiters := c.waiters.map (Waiter.mapPa f)
    link := c.link.map fun l => (keyPa f l.1, l.2)
    regs := c.regs.map fun r => (keyPa f r.1, r.2)
    proxies := c.proxies.map fun p => (keyPa f p.1, p.2.mapPa f) }

/-- Counters by key. -/
def ctrsMapPa (f : Nat → Nat) (cs : List (CtrKey × Ctr)) : List (CtrKey × Ctr) :=
  cs.map fun p => (keyPa f p.1, p.2.mapPa f)

/-- A launch. -/
def Launch.mapPa (f : Nat → Nat) (l : Launch) : Launch :=
  { l with
    deps := l.deps.map fun d => { d with key := keyPa f d.key }
    done := l.done.map (keyPa f) }

/-- A page's address divided by 4096. -/
def pageMapPa (f : Nat → Nat) (x : Shadow) : Shadow := { x with page := f (x.page * 4096) / 4096 }

/-- A hart of the G-die. -/
def Hart.mapPa (f : Nat → Nat) (k : Hart) : Hart :=
  { k with
    reserved := k.reserved.map fun r => (f r.1, r.2)
    metTags := k.metTags.map fun p => (f (p.1 * 512) / 512, p.2)
    metCtrs := k.metCtrs.map fun p => (keyPa f p.1, p.2) }

/-- A snapshot. -/
def Snapshot.mapPa (f : Nat → Nat) (x : Snapshot) : Snapshot :=
  { x with
    groups := x.groups.map (Group.mapPa f)
    ctrs := ctrsMapPa f x.ctrs
    launches := x.launches.map (Launch.mapPa f)
    shadows := x.shadows.map (pageMapPa f)
    harts := x.harts.map fun p => (p.1, p.2.mapPa f)
    counts := x.counts.map fun c => (frameOf (f (c.1 * 65536)), c.2) }

/-- A hedge. -/
def Hedge.mapPa (f : Nat → Nat) (h : Hedge) : Hedge :=
  { h with
    launches := h.launches.map (Launch.mapPa f)
    log := h.log.map fun x => { x with line := f (x.line * 128) / 128, codes := x.codes.map fun c => (f (c.1 * 32) / 32, c.2) }
    snap := h.snap.map (Snapshot.mapPa f) }

/-- A cached line. -/
def Line.mapPa (f : Nat → Nat) (l : Line) : Line := { l with num := f (l.num * 128) / 128 }

/-- Everything but memory and the frames themselves. -/
def State.mapPa (s : State) (f : Nat → Nat) : State :=
  { s with
    focus := s.focus.mapPa f
    others := s.others.map (Group.mapPa f)
    codes := s.codes.map fun p => (f (p.1 * 32) / 32, p.2)
    bad := s.bad.map fun l => f (l * 128) / 128
    tags := s.tags.map fun p => (f (p.1 * 512) / 512, p.2)
    l2 := s.l2.map fun b => { b with num := f (b.num * 512) / 512 }
    slices := s.slices.map fun b => { b with num := f (b.num * 512) / 512 }
    seen := s.seen.map fun p => (f p.1, p.2)
    shadows := s.shadows.map (pageMapPa f)
    cores := s.cores.map fun p => (p.1, { p.2 with
      l1 := p.2.l1.map (Line.mapPa f)
      quarters := p.2.quarters.map fun q => { q with line := q.line.mapPa f } })
    hedges := s.hedges.map (Hedge.mapPa f)
    ctrs := ctrsMapPa f s.ctrs
    adds := s.adds.map fun a => { a with target := a.target.mapPa f }
    crossings := s.crossings.map fun c => Crossing.mk (keyPa f c.child) (keyPa f c.parent) c.amount
    harts := s.harts.map fun p => (p.1, p.2.mapPa f)
    flips := s.flips.map fun x => Flip.mk (keyPa f x.relay) (keyPa f x.parent) x.value
      (x.hits.map fun y => (keyPa f y.1, y.2.mapPa f)) }

/-! ## Starting (R366, R370) -/

/-- The entries of a hedge with a page in a frame. -/
def State.buffersOf (s : State) (h : Hedge) (f : Nat) : List (Nat × BufEntry) :=
  (h.bufs.filterMap fun p => (h.entry p.1).map fun e => (p.1, e)).filter fun x =>
    (pagesOf 0 [((x.2.vbase : Int), x.2.len)]).any fun p =>
      ((s.hubTranslate h ((4096 * p) % 2 ^ 64) needNone).map fun y => frameOf y.1) == some f

/-- The frames of a slice in COPY (R366). -/
def State.copying (s : State) (slice : Option Nat) : Nat :=
  (s.frames.filter fun p => p.2.slice == slice && match p.2.mig with
    | some (.copy _ _ _) => true
    | some (.forward _) | none => false).length

/-- Another frame's migration fills the frame, which is not RESIDENT before that has ended (R367). -/
def State.isTarget (s : State) (f : Nat) : Bool := s.frames.any fun p => match p.2.mig with
  | some (.copy n _ _) | some (.forward n) => n == f
  | none => false

/-- The writes to the frame that have passed their check already find entries in the hedge's share of the stalled-write
window (R368; log 86, DEDUCED). -/
def State.windowFits (s : State) (h f : Nat) : Bool :=
  decide ((s.windowUsed h (s.frame f).slice ++ (s.owedWrites fun g => g == f)).eraseDups.length ≤ s.windowShare h)

/-- A frame may enter COPY for a tier (R366, R367, R370). -/
def State.mayCopy (s : State) (h : Hedge) (f : Nat) (t : Tier) (allowed : BitVec 3) : Bool :=
  let x := s.frame f
  let es := s.buffersOf h f
  s.mayMove h.p.id f t allowed && x.mig.isNone && !s.isTarget f && s.windowFits h.p.id f && x.tier != t && !s.inContext h f &&
    decide (s.copying x.slice < 16) &&
    es.all (fun e => !e.2.bankmv && tierAllowed e.2.tier t) &&
    !(s.shadows.any fun y => y.hedge == h.p.id && y.page / 16 == f) &&
    !(h.launches.any fun l => (l.spec.map fun sp => !sp.resolved && es.any fun e => sp.wset.contains e.1).getD false)

/-- Every leaf of tables below a level: base address, physical base, size, entry. -/
def tableLeaves (read : Nat → Word64) (root : Nat) : (k : Nat) → (table base : Nat) → List (Nat × Nat × Nat × Word64)
  | k, table, base =>
    (List.range (if k = 4 then root else 512)).flatMap fun i =>
      let p := read (table + 8 * i)
      let at_ := base + i * 2 ^ (12 + 9 * k)
      if !p.getLsbD 0 then []
      else if pteLeaf p then
        if k = 0 && p.getLsbD 63 then [(at_, (ptePpn p / 16 * 16 + at_ / 4096 % 16) * 4096, 4096, p)]
        else [(at_, ptePpn p * 4096, 2 ^ (12 + 9 * k), p)]
      else
        match k with
        | 0 => []
        | k' + 1 => tableLeaves read root k' (ptePpn p * 4096) at_

/-- The guest pages that the G stage maps to a frame: address, physical address, size of the leaf, entry. -/
def State.guestPages (s : State) (h : Hedge) (f : Nat) : List (Nat × Nat × Nat × Word64) :=
  (tableLeaves s.homeWord 2048 4 h.groot 0).flatMap fun l =>
    (List.range 16).filterMap fun i =>
      let pa := f * 65536 + 4096 * i
      if l.2.1 ≤ pa && pa < l.2.1 + l.2.2.1 then some (l.1 + (pa - l.2.1), pa, l.2.2.1, l.2.2.2) else none

/-- The G-stage leaves of pages of a frame point to a frame (R369). -/
def State.remapPages (s : State) (h : Hedge) (n : Nat) (ps : List (Nat × Nat × Nat × Word64)) : Except Nat State :=
  ps.foldlM (fun t p =>
    State.setPte State.hubWriteWord (fun _ a => some a) (fun u => (u.newFrame h.p.id none 0).map fun q => (q.1 * 65536, q.2)) 2048 p.1
      ((p.2.2.2 &&& 0x60000000000003FF#64) ||| BitVec.ofNat 64 ((n * 16 + p.2.1 / 4096 % 16) * 1024)) 4 h.groot t) s

/-- The G-stage leaves of a frame point to another one (R369). -/
def State.remapG (s : State) (h : Hedge) (f n : Nat) : Except Nat State := s.remapPages h n (s.guestPages h f)

/-- The G-stage leaves of a frame that are larger than 64 KiB are split, before a piece of theirs moves (R366). -/
def State.splitG (s : State) (h : Hedge) (f : Nat) : Except Nat State :=
  s.remapPages h f ((s.guestPages h f).filter fun p => decide (65536 < p.2.2.1))

/-- A frame enters COPY, with the frame that it is copied into, laid out as the table now stands (R359, R367). -/
def State.startCopy (s : State) (h f n : Nat) (t : Tier) : State :=
  let x := s.frame f
  let lay (y : Frame) : Frame := ((s.hedge h).map fun z => y.laidOut z x.iclass).getD y
  ((s.mapFrame f fun y => { y with mig := some (.copy n t []) }).giveFrame n h x.slice).mapFrame n lay

/-- MIGRATION_START: the engine starts to copy a frame into one of a tier that can be given to the hedge, once a larger G-stage
leaf over it is split (R366, R367). -/
def execMigrationStart (frame newFrame : Nat) (tier : Tier) (s : State) : Host.Outcome State Fault Refusal :=
  match (s.frame frame).owner.bind s.hedge with
  | none => .next s
  | some h =>
    if !s.mayCopy h frame tier 0 then .next s
    else
      match s.splitG h frame with
      | .error _ => .next s
      | .ok t =>
        if tierOfFrame newFrame == tier && !t.usedFrames.contains newFrame && decide (newFrame < t.tierEnd tier) then
          .next (t.startCopy h.p.id frame newFrame tier)
        else .next s

/-- A request that a home has accepted has nothing more to move: the frame lies in the tier, or is on its way (R374, R377). -/
def State.placeOver (s : State) (p : PlaceReq) : Bool :=
  (s.frame p.frame).tier == p.tier || (s.frame p.frame).mig.isSome || (s.frame p.frame).owner != some p.hedge

/-- PLACE_REQUEST: the engine takes up a request that a home has accepted; while R366 or R370 does not let the frame move, or no
frame can be given, it waits (R377; log 92, DEDUCED). -/
def execPlaceRequest (i : Nat) (s : State) : Host.Outcome State Fault Refusal :=
  match s.places[i]? with
  | none => .next s
  | some p =>
    let done (t : State) : State := { t with places := t.places.eraseIdx i }
    if s.placeOver p then .next (done s)
    else
      match s.hedge p.hedge with
      | none => .next (done s)
      | some h =>
        if !s.mayCopy h p.frame p.tier p.allowed then .next s
        else
          match s.splitG h p.frame with
          | .error _ => .next s
          | .ok t =>
            match t.freeFrame p.tier with
            | some n => .next ((done t).startCopy h.p.id p.frame n p.tier)
            | none => .next s

/-! ## Switching and ending (R367 to R371) -/

/-- The bytes of a window applied to their frame (R369, R371). -/
def State.applyWindow (s : State) (w : List (Nat × Byte)) : State :=
  { s with
    mem := w.foldl (fun m p => m.write p.1 p.2) s.mem
    codes := s.codes.filter fun c => !w.any fun p => p.1 / 32 == c.1 }

/-- The bytes of a frame copied to another one. -/
def State.copyFrame (s : State) (f n : Nat) : State :=
  let keep := s.mem.filter fun c => frameOf c.1 != n
  let from_ := s.mem.filter fun c => frameOf c.1 == f
  { s with mem := from_.foldl (fun m c => m.write (n * 65536 + c.1 % 65536) c.2) keep }

/-- Unconsumed events of a hedge: an entry of the physical log for each, and its own count (R344, R370). -/
def State.unconsumed (s : State) (h n : Nat) : State :=
  if n = 0 then s
  else
    let t := (List.range n).foldl (fun u _ => u.logEvent (.unconsumed h)) s
    (t.mapHedge h fun y => { y with unconsumed := y.unconsumed + n }).countEvent h .unconsumed n

/-- The lines of a frame that cannot be read without error, as the copy meets them: poisoned ones, and of a frame behind a lost
port all those that the window does not hold whole (R340, R362, R371). -/
def State.poisoned (s : State) (f : Nat) (w : List (Nat × Byte)) : List Nat :=
  ((List.range 512).map fun i => f * 512 + i).filter fun l =>
    s.isBad (l * 128) && (s.bad.contains l || !((List.range 128).all fun k => w.any fun p => p.1 == l * 128 + k))

/-- MIGRATION_SWITCH: every line is copied and the window applied, and the new frame becomes authoritative, all in one
step; poisoned lines travel and are logged (R369 to R371). -/
def execMigrationSwitch (frame : Nat) (s : State) : Host.Outcome State Fault Refusal :=
  let x := s.frame frame
  match x.mig, x.owner with
  | some (.copy n _ w), some h =>
    let lost := s.poisoned frame w
    let t := (({ s with bad := (s.bad ++ lost).eraseDups }.applyWindow w).copyFrame frame n).unconsumed h lost.length
    let f (pa : Nat) : Nat := if frameOf pa = frame then n * 65536 + pa % 65536 else pa
    let t := t.mapPa f
    let t := t.mapFrame n fun (y : Frame) =>
      { y with pin := x.pin, pinref := x.pinref, rd := x.rd, wr := x.wr, migs := min 255 (x.migs + 1) }
    .next (t.mapFrame frame fun y => { y with mig := some (.forward n), pin := false, pinref := false })
  | _, _ => .next s

/-- The G-stage leaf of a frame is updated and invalidated, and the old frame goes to PENDING-SCRUB; it stays where the leaf cannot be
written (R369). -/
def State.forwardEnd (s : State) (h : Hedge) (f n : Nat) : State :=
  match s.remapG h f n with
  | .ok t => (t.dropTlb h.p.id 0 0).scrubFrame f
  | .error _ => s

/-- FORWARD_END: the G-stage leaf is updated and invalidated, and the old frame goes to PENDING-SCRUB (R369). -/
def execForwardEnd (frame : Nat) (s : State) : Host.Outcome State Fault Refusal :=
  let x := s.frame frame
  match x.mig, x.owner.bind s.hedge with
  | some (.forward n), some h =>
    if s.quiet h.p.id then .next (s.forwardEnd h frame n) else .next s
  | _, _ => .next s

/-- A migration given up: the window goes to the old frame, which is RESIDENT again (R371, R374). -/
def State.abandonCopy (s : State) (f : Nat) : State :=
  match (s.frame f).mig with
  | some (.copy n _ w) =>
    ((s.applyWindow w).scrubFrame n).mapFrame f fun y => { y with mig := none }
  | some (.forward _) | none => s

/-- MIGRATION_ABANDON: a write failure in the target frame, which is retired (R371). -/
def execMigrationAbandon (frame : Nat) (s : State) : Host.Outcome State Fault Refusal :=
  match (s.frame frame).mig with
  | some (.copy n _ _) =>
    .next (((s.abandonCopy frame).mapFrame n fun y => { y with retired := true, scrub := false }).logEvent (.targetFrame n))
  | some (.forward _) | none => .next s

/-! ## Pool ownership (R373) -/

/-- A change of a frame's pool side. -/
def State.mapPool (s : State) (f : Nat) (u : Pool → Pool) : State := s.mapFrame f fun x => { x with pool := x.pool.map u }

/-- OWNERSHIP_REQUEST: a package asks this one for a pool frame that it owns; requests are served in order. A package that asks
maps the frame (R373; log 93, DEDUCED). -/
def execOwnershipRequest (frame : Nat) (faddr : BitVec 48) (s : State) : Host.Outcome State Fault Refusal :=
  match (s.frame frame).pool with
  | some p =>
    if p.owned then
      .next (s.mapPool frame fun x => { x with
        requests := x.requests ++ [faddr], sharers := if x.sharers.contains faddr then x.sharers else x.sharers ++ [faddr] })
    else .next s
  | none => .next s

/-- Accesses of the package are in flight on a frame: of a group or a matrix engine, or an add to a counter there (R373). -/
def State.frameBusy (s : State) (f : Nat) : Bool :=
  let inF (p : Place) : Bool := (placePa p).map frameOf == some f
  (s.groups.any fun g => (g.pend.any fun o => o.memory.any fun pa => frameOf pa == f) ||
    (g.openBatch :: g.batches).any fun b => b.mmas.any fun m => (m.aRows ++ m.bRows).any fun r => r.any inF) ||
    s.adds.any fun a => match a.target with
      | .here (.c3 pa) => frameOf pa == f
      | .here _ | .peer _ => false

/-- The lines of a frame leave every core, the die L2s and the home slice, written back (R373). -/
def State.dropFrameLines (s : State) (f : Nat) : State :=
  let inF (b : SBlock) : Bool := frameOf (b.num * 512) == f
  let t := (s.cores.map (·.1)).foldl (fun t c => t.dropLines c fun l => frameOf (l.num * 128) == f) s
  let t := (t.l2.filter inF).foldl State.evictL2 t
  (t.slices.filter inF).foldl State.evictSlice t

/-- The frame has been written in the current interval (R403). -/
def Hedge.loggedFrame (h : Hedge) (f : Nat) : Bool := h.log.any fun x => frameOf (x.line * 128) == f

/-- OWNERSHIP_GRANT. The owner hands a frame to the oldest request, once accesses in flight are complete, its dirty
lines are written back, and a snapshot follows what the interval wrote there; a package that does not own the frame asks
for it, and takes it when the grant arrives; the requests still queued go on to the new owner (R373, R374, R403; log 93,
DEDUCED). -/
def execOwnershipGrant (frame : Nat) (s : State) : Host.Outcome State Fault Refusal :=
  let x := s.frame frame
  match x.pool with
  | none => .next s
  | some p =>
    if !p.owned then
      if p.asked then
        .next ((s.dropFrameLines frame).mapPool frame fun y => { y with
          owner := none, asked := false
          sharers := y.sharers ++ (y.owner.toList.filter fun a => !y.sharers.contains a) })
      else .next (s.askOwner frame)
    else
      match p.requests with
      | [] => .next s
      | a :: rest =>
        if s.inCopy (frame * 65536) || s.frameBusy frame then .next s
        else if ((x.owner.bind s.hedge).map fun h => h.loggedFrame frame).getD false then
          .next (match x.owner with
            | some h => s.mapHedge h fun y => { y with wantSnap := true }
            | none => s)
        else
          let t := ((s.dropFrameLines frame).mapPool frame fun y => { y with owner := some a, requests := [] }).send
            (.ownerGrant frame a)
          .next (rest.foldl (fun u b => u.send (.ownerForward frame a b)) t)

/-! ## Counts and scrub (R363, R365) -/

/-- EPOCH_BOUNDARY: every access count is halved (R365). -/
def execEpochBoundary (s : State) : Host.Outcome State Fault Refusal :=
  .next { s with frames := s.frames.map fun p => (p.1, { p.2 with rd := p.2.rd / 2, wr := p.2.wr / 2 }) }

/-- SCRUB_COMPLETE: a scrubbed frame is FREE, or OWNED where it has been given out before; a rollback no longer brings back what it
held (R363, R406). -/
def execScrubComplete (frame : Nat) (s : State) : Host.Outcome State Fault Refusal :=
  let t := { s with hedges := s.hedges.map fun (y : Hedge) =>
    { y with freed := y.freed.map fun (x : Freed) => { x with frames := x.frames.filter fun p => p.1 != frame } } }
  if !(s.frame frame).scrub then .next s
  else if (s.frame frame).retired || (s.frame frame).owner.isSome then .next (t.mapFrame frame fun x => { x with scrub := false })
  else .next { t with frames := del1 t.frames frame }

end Sys2Proof.Machine
end

