-- ==== Sys2Proof/Machine/Hedges.lean ====
section
/-! DEFINITION. Hedges: creation, snapshots and rollback, reset and destruction, resizes and fences, live migration
(spec 06 R153, R169, R173; spec 14 R287, R293, R301; spec 19 R380 to R383, R403 to R407, R414). -/

namespace Sys2Proof.Machine

/-! ## Shares (R380) -/

/-- A core that nothing runs on: fenced, or of a die whose management firmware did not come up (R173, R443). -/
def State.coreDown (s : State) (c : Nat) : Bool := (s.core c).fenced || s.deadDies.contains (dieOf c)

/-- The core map of a rectangle: logical core c on core c mod n', the logical cores of a fenced core, or of a die that is not up, on
the remaining cores in ascending order; none where no core is left (R173, R382, R443). -/
def State.newMap (s : State) (h : Hedge) (r : Rect) : Option (List Nat) :=
  let cores := rectCores r
  let good := cores.filter fun c => !s.coreDown c
  if good.isEmpty then none
  else
    let base := (List.range h.map.length).map fun i => cores.getD (i % cores.length) 0
    some ((base.foldl (fun (x : List Nat × Nat) c =>
      if s.coreDown c then (x.1 ++ [good.getD (x.2 % good.length) 0], x.2 + 1) else (x.1 ++ [c], x.2))
      ([], 0)).1)

/-- A hedge as a resize leaves it (R382). -/
def Hedge.resized (h : Hedge) (map : List Nat) (r : Rect) (ss : List Nat) : Hedge :=
  { h with rect := r, slots := ss, map := map, resize := none }

/-- The forms of a hedge that hold shares: as it stands, and as a resize that waits for saves will leave it, whose room is kept
(R287, R380, R382). -/
def State.claims (s : State) (h : Hedge) : List Hedge :=
  h :: match h.resize with
    | some (r, ss) => ((s.newMap h r).map fun m => h.resized m r ss).toList
    | none => []

/-- The hedges as they would stand with one of them as given, each by its forms. -/
def State.hedgesWith (s : State) (x : Hedge) : List (List Hedge) :=
  [x] :: (s.hedges.filter fun h => h.p.id != x.p.id).map s.claims

/-- The sum of a share over hedges, of each the most that one of its forms takes. -/
def sumOver (hs : List (List Hedge)) (f : Hedge → Nat) : Nat := (hs.map fun x => (x.map f).foldl max 0).sum


/-- The physical cores of a hedge on a die. -/
def Hedge.coresOn (h : Hedge) (die : Nat) : Nat := (h.physical.filter fun c => dieOf c == die).length

/-- The dies on which a hedge has cores. -/
def Hedge.dies (h : Hedge) : List Nat := [0, 1].filter fun d => h.coresOn d != 0

/-- Counters of a core file that the blocks of a hedge take (R200). -/
def Hedge.blocksOn (h : Hedge) (core : Nat) : Nat := (h.map.filter fun c => c == core).length * (32 * h.slots.length)

/-- R291 for the rectangle of a hedge: sides from 2 to 16, aligned, on the mesh (R380). -/
def hedgeRectOk (r : Rect) : Bool :=
  decide (1 ≤ r.lw) && decide (r.lw ≤ 4) && decide (1 ≤ r.lh) && decide (r.lh ≤ 4) && r.dies != 0 && decide (r.dies ≤ 3) &&
    r.x0 % 2 ^ r.lw == 0 && r.y0 % 2 ^ r.lh == 0 && decide (r.x0 + 2 ^ r.lw ≤ 16) && decide (r.y0 + 2 ^ r.lh ≤ 16)

/-- Slot numbers that a hedge may own: 1 to 16 of them, paired in checked mode (R154, R169). -/
def slotsOk (checked : Bool) (ss : List Nat) : Bool :=
  !ss.isEmpty && decide ss.Nodup && ss.all (fun i => decide (i < 16)) &&
    (!checked || ss.all fun i => decide (8 ≤ i) || ss.contains (i + 8))

/-- The feature word that the package offers (R446). -/
def offered : BitVec 256 := 0x1FFF

/-- Each of the slots is free, or the hedge's own, on a core that is up, and no resize of another hedge that waits for saves takes
it (R153, R173, R382). -/
def State.slotsFree (s : State) (h : Nat) (core : Nat) (ss : List Nat) : Bool :=
  !s.coreDown core && (ss.all fun i =>
    match (s.core core).slots.getD i none with
    | none => true
    | some x => x == h) &&
    s.hedges.all fun y => y.p.id == h || y.resize.isNone ||
      (s.claims y).all fun z => !(z.map.contains core && ss.any z.slots.contains)

/-- A hedge as it would start with its parameters (R381, R403, R433, R448). -/
def Hedge.start (p : HedgeParams) : Hedge where
  p := p
  rect := p.rect
  slots := p.slots
  map := rectCores p.rect
  vsatp := p.vsatp
  hgatp := p.hgatp
  bufs := []
  interleave := [(0, [BitVec.ofNat 64 (4 * 2 ^ 56) ||| p.cmask.setWidth 64, p.lmask.setWidth 64])]
  banks := []
  routes := []
  windows := []
  accs := []
  farWatches := []
  epoch := 1
  launches := []
  nextSeq := 1
  errq := none
  interval := 0
  log := []
  freed := []
  snap := none
  rolled := []
  sentAdds := 0
  sentBytes := 0
  key := 1
  nextToken := 1
  nextGpa := p.guestSize
  calls := []
  unconsumed := 0
  wantSnap := false
  resize := none
  moving := none

/-- The logical clusters whose counters lie in a die's cluster file (R199, R219). -/
def Hedge.clustersOn (h : Hedge) (die : Nat) : Nat :=
  ((List.range (diesOf h.p.rect.dies).length).filter fun i => h.clusterDie i == die).length

/-- A physical core has room for a hedge as it would stand: its slot numbers, and its blocks among the 512 class 1 counters
(R153, R199, R382). Shares of its waiters and L1 ways follow the slot numbers (R154, R218). -/
def State.coreFits (s : State) (x : Hedge) (core : Nat) : Bool :=
  s.slotsFree x.p.id core x.slots && decide (sumOver (s.hedgesWith x) (fun h => h.blocksOn core) ≤ 512)

/-- A die has room for a hedge as it would stand: scratch pages that are not retired, cluster counters, their waiters, the
L2 TLB, the superblocks of its L2 (R287, R293, R305, R307, R309, R336). -/
def State.dieFits (s : State) (x : Hedge) (d : Nat) : Bool :=
  let hs := s.hedgesWith x
  decide (sumOver hs (fun h => h.coresOn d * h.scratchPages) + s.poolRetired.getD d 0 ≤ 12288) &&
    decide (sumOver hs (fun h => h.clustersOn d * h.p.clusterCounters) ≤ 8192) &&
    decide (sumOver hs (fun h => 32 * h.coresOn d) ≤ 8192) &&
    decide (sumOver hs (fun h => if h.coresOn d = 0 then 0 else h.p.l2tlb) ≤ 32768) &&
    decide (sumOver hs (fun h => if h.coresOn d = 0 then 0 else h.p.l2blocks) ≤ 16 * l2Sets)

/-- Cores and dies have room for a hedge as it would stand (R380, R382). -/
def State.placeFits (s : State) (x : Hedge) : Bool := x.physical.all (s.coreFits x) && [0, 1].all (s.dieFits x)

/-- No share of a core, die, slice or tier exceeds the whole of it; the rates are those of R361, the pool's that of its eight
ports (R199, R287, R293, R307, R309, R336, R360, R361, R368, R380; log 90, DESIGN CHOICE). -/
def State.sharesOk (s : State) (p : HedgeParams) : Bool :=
  let x := Hedge.start p
  let within (f : HedgeParams → Nat) (n : Nat) : Bool := decide (sumOver (s.hedgesWith x) (fun h => f h.p) ≤ n)
  s.placeFits x && within (·.waiterSlice) 65536 && within (·.stalledShare) 256 && within (·.walkers) 64 &&
    within (·.turns) 64 && within (·.quotaHbm) 12582912 && within (·.quotaLpddr) 16777216 && within (·.quotaPool) s.poolFrames &&
    within (·.sliceBlocks) (16 * sliceSets) && within (·.tokenHbm) 36900 && within (·.tokenLpddr) 1500 && within (·.tokenPool) 1024

/-- The frames of a context area's request area (R348, R392) (log 55, DESIGN CHOICE). -/
def Hedge.contextFrames (h : Hedge) : List Nat :=
  let a := frameOf h.p.contextBase
  (List.range (frameOf (h.slotAt h.p.nslot - 1) + 1 - a)).map fun i => a + i

/-- The frames of a hedge's request area can be given to it: they lie in a tier as it stands, and the hedge's quotas hold them
(R361, R392). -/
def State.contextOk (s : State) (h : Hedge) : Bool :=
  let fs := h.contextFrames
  (fs.all fun f => !s.usedFrames.contains f && decide (f < s.tierEnd (tierOfFrame f))) &&
    [Tier.hbm, .lpddr, .pool].all fun t => decide ((fs.filter fun f => tierOfFrame f == t).length ≤ h.quota t)

/-- The creation is not refused; a G-die core runs one hedge's guest kernel (R380, R443, R447). -/
def State.createOk (s : State) (p : HedgeParams) : Bool :=
  s.stage == .up && (!s.noGDie || p.gCores.isEmpty) && (rectCores p.rect).all (fun c => !s.deadDies.contains (dieOf c)) &&
    decide (p.id < 64) && (s.hedge p.id).isNone && decide (s.hedges.length < 64) && hedgeRectOk p.rect &&
    slotsOk p.checked p.slots && (!p.checked || p.features.getLsbD 7) && decide (p.watchQuota ≤ 256) &&
    decide (256 ≤ p.l2tlb) && decide (1 ≤ p.walkers) && p.gCores.all (fun c => decide (c < 64)) && decide p.gCores.Nodup &&
    s.hedges.all (fun h => h.p.gCores.all fun c => !p.gCores.contains c) &&
    (List.range 9).any (fun i => p.nslot == 16 * 2 ^ i) && p.contextBase % 64 == 0 && s.sharesOk p &&
    s.contextOk (Hedge.start p)

/-! ## Slot maps and turns (R153, R301) -/

/-- The hedge's slots written on its cores, and nowhere else (R153). -/
def State.writeSlots (s : State) (h : Nat) (cores ss : List Nat) : State :=
  let t := { s with cores := s.cores.map fun p =>
    (p.1, { p.2 with slots := p.2.slots.map fun x => if x == some h then none else x }) }
  cores.foldl (fun u c => u.mapCore c fun k =>
    { k with slots := k.slots.zipIdx.map fun x => if ss.contains x.2 then some h else x.1 }) t

/-- n turns from turn i on: system turns at 8m + 7, the others given out in the order of the hedges' list, as R301 gives only how many
each gets (log 99, DESIGN CHOICE). -/
def fillTurns : Nat → Nat → List (Option Nat) → List (Option Nat)
  | 0, _, _ => []
  | n + 1, i, ws =>
    if i % 8 = 7 then none :: fillTurns n (i + 1) ws
    else
      match ws with
      | [] => none :: fillTurns n (i + 1) []
      | w :: rest => w :: fillTurns n (i + 1) rest

/-- The rotation tables made anew (R301). -/
def State.writeTurns (s : State) : State :=
  { s with mgmt := s.mgmt.zipIdx.map fun p =>
    let wants := s.hedges.flatMap fun h =>
      let c := h.coresOn p.2
      if c = 0 then [] else List.replicate (max 1 ((h.slots.length * c + 63) / 64)) (some h.p.id)
    { p.1 with table := fillTurns 256 0 wants } }

/-! ## Snapshots (R403 to R405) -/

/-- The hedge of a counter. -/
def State.keyHedge (s : State) : CtrKey → Option Nat
  | .c0 g _ => (s.group g).map (·.hedge)
  | .c1 h _ _ | .c2 h _ _ => some h
  | .c3 a => (s.frame (frameOf a)).owner

/-- The groups of a hedge that a workgroup holds. -/
def State.hedgeGroups (s : State) (h : Nat) : List Group := s.groups.filter fun g => g.hedge == h && (s.wgOf g.wg).isSome

/-- A write of an operation waits at its home for the snapshot that a full log has asked for (R403, R405; log 46, DEDUCED). -/
def State.waitsForLog (s : State) (g : Group) (o : Op) : Bool :=
  match s.hedge g.hedge, o.kind with
  | some h, .publ lo len =>
    ((s.pagesAt h g.lseq (s.publPages h g o lo len)).map (s.logShort h)).getD false && !s.publWaits g o lo len
  | some h, .resolve q commit _ (x :: _) =>
    commit && !s.commitRoom h q x && !((s.specPage h x.1 x.2).map fun p => s.inCopy (p.1 * 4096)).getD false
  | some _, _ => s.logBlocked o
  | none, _ => false

/-- The group waits for the rollback that an error which it has consumed, or a disagreement of its pair, calls for (R172, R406). -/
def Group.doomed (g : Group) : Bool := (g.stop.map fun x => x.code == .uncorr || x.code == .sdc).getD false

/-- Every group is held at a boundary and drained, and none waits for a rollback; every started copy, MVB result and publish has landed or is
performed, but for writes that wait at their homes for the snapshot itself; no add of the hedge is on its way (R403, R405). -/
def State.snapReady (s : State) (h : Nat) : Bool :=
  (s.hedgeGroups h).all (fun g => !g.doomed && s.pairSavable g (s.waitsForLog g) && g.pend.all fun o => match o.kind with
    | .publ _ _ => s.waitsForLog g o
    | _ => true) &&
  (s.copies.all fun c => c.hedge != h || !c.started || c.abandoned || ((s.hedge h).map fun x => s.copyHeld x c).getD false) &&
  (s.adds.all fun a => a.hedge != h || a.sent || match a.target with
    | .here (.c3 p) => !s.logRoom p
    | .here _ | .peer _ => false) &&
  (s.crossings.all fun c => s.keyHedge c.child != some h) && s.flips.all fun f => s.keyHedge f.relay != some h

/-- A group as a snapshot's image holds it. -/
def State.imageOf (s : State) (g : Group) : Group :=
  match g.seat with
  | some x => { g.packed (s.core x.core).cycle with seat := none }
  | none => g

/-- A group that CHKPT holds gets the number of the interval that begins (R404). -/
def Group.chkptTaken (g : Group) (n : Nat) : Group :=
  g.holds.foldl (fun x y => match y with
    | .chkpt d => { x.setS d (BitVec.ofNat 64 n) with holds := x.holds.erase y }
    | _ => x) g

/-- What a snapshot of the hedge holds as things stand (R403, R406). -/
def State.capture (s : State) (h : Hedge) (n : Nat) : Snapshot where
  interval := n
  groups := (s.hedgeGroups h.p.id).map s.imageOf
  wgs := (s.wgs.filter fun w => w.hedge == h.p.id).map fun w => { w with core := none, image := none }
  ctrs := s.ctrs.filter fun p => s.keyHedge p.1 == some h.p.id
  launches := h.launches
  nextSeq := h.nextSeq
  shadows := s.shadows.filter fun x => x.hedge == h.p.id
  copies := s.copies.filter fun c => c.hedge == h.p.id
  counts := (s.frames.filter fun p => p.2.owner == some h.p.id).map fun p => (p.1, p.2.rd, p.2.wr)
  bufs := h.bufs
  vsatp := h.vsatp
  calls := h.calls
  accs := h.accs
  harts := s.harts.filter fun p => h.p.gCores.contains p.1

/-- A snapshot is taken: a new interval begins with empty logs, and everything resumes, with no latches and the open
batches performed (R237, R242, R403 to R405). -/
def State.takeSnapshot (s : State) (h : Hedge) : State :=
  let n := h.interval + 1
  let t := h.physical.foldl (fun u c => u.flushHedge c h.p.id) s
  let t := (t.hedgeGroups h.p.id).foldl (fun u g => u.mapGroup g.id fun x => x.chkptTaken n) t
  let snap := t.capture ((t.hedge h.p.id).getD h) n
  let t := (t.hedgeGroups h.p.id).foldl (fun u g => u.mapGroup g.id Group.snapped) t
  t.mapHedge h.p.id fun x =>
    { x with interval := n, log := [], freed := [], rolled := [], sentAdds := 0, sentBytes := 0, wantSnap := false, snap := some snap }

/-! ## Taking work away -/

/-- Everything of a hedge that runs or is in flight goes; cached lines go as they are (R383, R406). -/
def State.dropWork (s : State) (h : Nat) : State :=
  let ws := s.wgs.filter fun w => w.hedge == h
  let t := (s.dropGroups ((s.hedgeGroups h).map (·.id))).freeImages ws
  { t with
    mgmt := t.mgmt.map fun (m : Mgmt) => { m with
      requests := m.requests.filter fun r => !(ws.any fun w => r.what.names w.id) && match r.what with
        | .snapshot x _ => x != h
        | .save _ | .saveGroup _ | .restore _ => true
      events := m.events.filter fun e => match e with
        | .mismatch x => x.hedge != h
        | .failure _ _ _ => true }
    l2 := t.l2.filter fun b => b.hedge != h
    slices := t.slices.filter fun b => b.hedge != h
    wgs := t.wgs.filter fun w => w.hedge != h
    ctrs := t.ctrs.filter fun p => t.keyHedge p.1 != some h
    adds := t.adds.filter fun a => a.hedge != h || a.sent
    crossings := t.crossings.filter fun c => t.keyHedge c.child != some h
    flips := t.flips.filter fun f => t.keyHedge f.relay != some h
    copies := t.copies.filter fun c => c.hedge != h
    shadows := t.shadows.filter fun x => x.hedge != h
    places := t.places.filter fun p => p.hedge != h
    tags := t.tags.filter fun p => p.2.hedge != h
    cores := t.cores.map fun (p : Nat × Core) => (p.1, { p.2 with
      l1 := p.2.l1.filter fun l => l.hedge != h
      quarters := p.2.quarters.filter fun q => q.line.hedge != h }) }.dropTlb h 0 0

/-- The frames of a hedge. -/
def State.framesOf (s : State) (h : Nat) : List Nat := (s.frames.filter fun p => p.2.owner == some h).map (·.1)

/-! ## Reset and destruction (R383) -/

/-- The G-die threads of a hedge start anew. -/
def State.resetHarts (s : State) (h : Hedge) : State :=
  { s with harts := s.harts.filter fun p => !h.p.gCores.contains p.1 }

/-- Every group, launch, counter, pin and frame of a hedge goes (R383). -/
def State.clearHedge (s : State) (h : Hedge) : State :=
  let t := h.physical.foldl (fun u c => u.flushHedge c h.p.id) s
  let t := (t.dropWork h.p.id).resetHarts h
  let t := { t with
    jobs := t.jobs.filter fun j => j.req.hedge != h.p.id
    adds := t.adds.filter fun a => a.hedge != h.p.id }
  (t.framesOf h.p.id).foldl State.releaseFrame t

/-- The context area belongs to a hedge, zero throughout, and its key slots are loaded (R348, R363, R364, R383, R392; log 84,
DESIGN CHOICE). -/
def State.giveContext (s : State) (h : Hedge) : State :=
  let t := h.contextFrames.foldl (fun t f => t.giveFrame f h.p.id (some (contextSlice h.p.id))) s
  let t := t.loadKey h.p.id false (Config.frameKey h.p.id h.key false)
  if (find1 t.keys (keySlot h.p.id true)).isSome then t else t.loadKey h.p.id true (Config.frameKey h.p.id h.key true)

/-- A hedge after a reset: its parameters, rectangle, map and tables, a new key and epoch, and a new first interval
(R383, R404, R433) (log 54, DEDUCED). -/
def Hedge.afterReset (h : Hedge) : Hedge :=
  { Hedge.start h.p with
    rect := h.rect, slots := h.slots, map := h.map, interleave := h.interleave, banks := h.banks, routes := h.routes
    windows := h.windows, epoch := h.epoch + 1, key := h.key + 1 }

/-- The first snapshot of a new or reset hedge begins interval 1 (R404). -/
def State.firstSnapshot (s : State) (h : Nat) : State :=
  match s.hedge h with
  | some x => s.takeSnapshot x
  | none => s

/-- A hedge is reset (R383). -/
def State.resetHedge (s : State) (h : Hedge) : State :=
  (((s.clearHedge h).mapHedge h.p.id fun x => x.afterReset).giveContext h.afterReset).firstSnapshot h.p.id

/-- HEDGE_RESET (R383). -/
def execHedgeReset (hedge : Nat) (s : State) : Host.Outcome State Fault Refusal :=
  match s.hedge hedge with
  | none => .next s
  | some h => .next (s.resetHedge h)

/-- The hedge is no more, and its key slots are erased (R383). -/
def State.removeHedge (s : State) (h : Hedge) : State :=
  let t := (s.clearHedge h).eraseKeys h.p.id
  ({ t with hedges := t.hedges.filter fun x => x.p.id != h.p.id }.writeSlots h.p.id [] []).writeTurns

/-- HEDGE_DESTROY (R383). -/
def execHedgeDestroy (hedge : Nat) (s : State) : Host.Outcome State Fault Refusal :=
  match s.hedge hedge with
  | none => .next s
  | some h => .next (s.removeHedge h)

/-- HEDGE_CREATE: refused, or the hedge with its slot maps, turns, request area and first snapshot (R380, R381, R392,
R404). -/
def execHedgeCreate (p : HedgeParams) (s : State) : Host.Outcome State Fault Refusal :=
  if !s.createOk p then .next s
  else
    let h := Hedge.start p
    let t := { s with hedges := s.hedges ++ [h] }
    .next ((((t.writeSlots p.id h.map p.slots).writeTurns).giveContext h).firstSnapshot p.id)

/-! ## Rollback (R406, R407) -/

/-- The virtual error queue and the error counters of a hedge, as runs of physical addresses: what a rollback does not bring
back (R405, R406). -/
def State.hubRuns (s : State) (h : Hedge) : List (Nat × Nat) :=
  match h.errq with
  | none => []
  | some q =>
    let run (va len : Nat) : List (Nat × Nat) := (pagesOf 0 [((va : Int), len)]).filterMap fun j =>
      let lo := max va (4096 * j)
      (s.hubTranslate h (lo % 2 ^ 64) needNone).map fun p => (p.1, min (va + len) (4096 * j + 4096) - lo)
    run (h.vbase q.buf) (64 * 2 ^ q.log2 + 16) ++ run (h.vbase q.block) 64

/-- The old bytes of a logged line of memory, written back with their check codes; words of the error queue and the error
counters stay (R405, R406). The shadow frames come back with the snapshot. -/
def State.replayLine (s : State) (hub : List (Nat × Nat)) (x : LogLine) : State :=
  if x.shadow.isSome then s
  else
    let keep (a : Nat) : Bool := hub.any fun r => decide (r.1 ≤ a) && decide (a < r.1 + r.2)
    let bytes := (x.data.zipIdx.map fun p => (x.line * 128 + p.2, p.1)).filter fun p => !keep p.1
    { s with
      mem := bytes.foldl (fun m p => m.write p.1 p.2) s.mem
      codes := (s.codes.filter fun c => c.1 / 4 != x.line || keep (c.1 * 32)) ++ x.codes.filter fun c => !keep (c.1 * 32)
      bad := s.bad.filter fun l => l != x.line }

/-- A frame that held a failed line is retired to a spare of its tier, with what the replay has made of it; a line whose old
contents no log holds stays in error there (R406; log 52, DEDUCED). A frame without a spare keeps its place. -/
def State.retireFrame (s : State) (h : Hedge) (f : Nat) : State :=
  match s.freeFrame (s.frame f).tier with
  | none => s
  | some n =>
    match (s.mapFrame n fun _ => { s.frame f with mig := none }).remapG h f n with
    | .error _ => s
    | .ok t =>
      let move (pa : Nat) : Nat := if frameOf pa = f then n * 65536 + pa % 65536 else pa
      let t := ((t.copyFrame f n).mapPa move).dropTlb h.p.id 0 0
      (t.scrubFrame f).mapFrame f fun x => { x with retired := true, scrub := false }

/-- The interval log replayed in reverse, and the frames that held a failed line retired to spares (R405, R406). -/
def State.replayLog (s : State) (h : Hedge) : State :=
  let hub := s.hubRuns h
  let failed := (s.bad.map fun l => frameOf (l * 128)).eraseDups.filter fun f =>
    (s.frame f).owner == some h.p.id && !s.inContext h f && (s.frame f).mig.isNone
  failed.foldl (fun t f => t.retireFrame ((t.hedge h.p.id).getD h) f) (h.log.reverse.foldl (fun t x => t.replayLine hub x) s)

/-- A guest virtual address by which a buffer of the hedge reaches a byte at its home, for a record; 0 where none does
(R412; log 82, DESIGN CHOICE). -/
def State.guestAddress (s : State) (h : Hedge) (pa : Nat) : Nat :=
  ((h.bufs.filterMap fun b => h.entry b.1).findSome? fun e =>
    (pagesOf 0 [((e.vbase : Int), e.len)]).findSome? fun p =>
      match s.hubTranslate h ((4096 * p) % 2 ^ 64) needNone with
      | some (a, _) => if a / 4096 == pa / 4096 then some ((4096 * p + pa % 4096) % 2 ^ 64) else none
      | none => none).getD 0

/-- The guest address of the sector that a rollback's record shows (R412). -/
def State.sectorAddress (s : State) (h : Hedge) : RollAt → Nat
  | .va a => a / 32 * 32
  | .home pa => s.guestAddress h pa / 32 * 32

/-- The cause code of a rollback record (log 53, DEDUCED). -/
def causeCode : RollCause → Nat
  | .uncorr => 16
  | .sdc => 17
  | .shadow => 17
  | .service => 0

/-- A pending fault and its token are dropped: the group meets the fault again when it runs (R345). -/
def Group.dropToken (g : Group) : Group := if (g.stop.map (·.resumable)).getD false then g.ready_ else g

/-- Buffers freed in the interval come back as far as their frames have not been scrubbed or given out anew: the frames with what
they held, their G-stage entries, and the lines of theirs in the interval log (R363, R406; log 52, DEDUCED). -/
def State.unfree (s : State) (h : Hedge) : State :=
  h.freed.foldl (fun t x =>
    let fs := x.frames.filter fun p => (t.frame p.1).scrub && (t.frame p.1).owner.isNone && !(t.frame p.1).retired
    let mine (pa : Nat) : Bool := fs.any fun p => p.1 == frameOf pa
    let u := fs.foldl (fun (v : State) (p : Nat × Frame) => v.mapFrame p.1 fun _ => { p.2 with mig := none, scrub := false }) t
    let u : State := { u with
      mem := (x.cells.filter fun (c : Nat × Byte) => mine c.1).foldl (fun (m : Memory) c => m.write c.1 c.2) u.mem
      codes := u.codes ++ x.codes.filter fun (c : Nat × BitVec 16) => mine (c.1 * 32)
      bad := u.bad ++ x.bad.filter fun l => mine (l * 128) }
    ((x.maps.filter fun (m : Nat × Word64) => mine (ptePpn m.2 * 4096)).foldl (fun (v : State) m => v.hubWriteWord m.1 m.2)
      u).mapHedge h.p.id fun y => { y with log := y.log ++ x.log.filter fun (l : LogLine) => mine (l.line * 128) }) s

/-- What a snapshot holds put in place: its groups come back as saved ones (R403, R406). `back`: by a rollback, after which the
lines that its copies have yet to land in are present (R270). -/
def State.install (s : State) (h : Hedge) (x : Snapshot) (back : Bool) : State :=
  let s := x.counts.foldl (fun u c => u.mapFrame c.1 fun f =>
    if f.owner == some h.p.id then { f with rd := c.2.1, wr := c.2.2 } else f) s
  let t := { s with
    others := s.others ++ x.groups.map Group.dropToken
    wgs := s.wgs ++ x.wgs.map fun (w : Workgroup) => if back then { w with absent := [], bad := [] } else w
    harts := (s.harts.filter fun (p : Nat × Hart) => !h.p.gCores.contains p.1) ++ x.harts
    ctrs := s.ctrs ++ x.ctrs.filter fun (c : CtrKey × Ctr) => match c.1 with
      | .c3 a => (s.frame (frameOf a)).owner == some h.p.id
      | .c0 _ _ | .c1 _ _ _ | .c2 _ _ _ => true
    shadows := s.shadows ++ x.shadows
    copies := s.copies ++ x.copies.map fun (c : Copy) =>
      { c with slices := c.slices.map fun (y : Slice) => { y with rolled := y.rolled || back } } }
  let t := t.mapHedge h.p.id fun y =>
    { y with
      launches := x.launches, nextSeq := x.nextSeq, bufs := x.bufs, vsatp := x.vsatp, calls := x.calls, accs := x.accs
      interval := x.interval, log := [], freed := [], wantSnap := false }
  (x.wgs.filter fun w => !t.wgDone w).foldl (fun u w => (u.imageSpace w).writeImage w.id) t

/-- The snapshot restored after the log has been replayed (R403, R406, R270) (log 52, DEDUCED) (log 62, DEDUCED) (log 66,
DEDUCED). -/
def State.restoreSnapshot (s : State) (h : Hedge) (x : Snapshot) : State :=
  let lost := h.bufs.filter fun b => find1 x.bufs b.1 != some b.2 || h.freed.any fun y => y.index == b.1
  let t := lost.foldl (fun u b => match h.entry b.1 with
    | some e => if e.vbase == regionBase b.1 then u.unmapBuffer h e else u
    | none => u) s
  let t := (s.framesOf h.p.id).foldl State.abandonCopy t
  let t := (t.dropWork h.p.id).unfree h
  let t := t.replayLog ((t.hedge h.p.id).getD h)
  let x := ((t.hedge h.p.id).bind (·.snap)).getD x
  let t := t.install h x true
  { t with jobs := t.jobs.map fun (j : PeerJob) => if j.req.hedge == h.p.id then { j with done := [] } else j }

/-- Words 1 to 5 of a rollback record (R412). -/
def State.rollWords (s : State) (h : Hedge) (cause : RollCause) (at_ : RollAt) : List Word64 :=
  [BitVec.ofNat 64 h.interval, BitVec.ofNat 64 (causeCode cause), BitVec.ofNat 64 (s.sectorAddress h at_),
    BitVec.ofNat 64 h.sentAdds, BitVec.ofNat 64 h.sentBytes]

/-- A rollback that cannot be made resets the hedge, with its record in the physical log and the queue first (R407), where it has
the kind of a rollback's record, as R412 lists none for a reset (log 100, DESIGN CHOICE). -/
def State.rollReset (s : State) (h : Hedge) (cause : RollCause) (at_ : RollAt) : State :=
  let t := (s.logEvent (.reset h.p.id)).reportKind h.p.id 33 (s.rollWords h cause at_)
  t.resetHedge ((t.hedge h.p.id).getD h)

/-- The hedge returns to its snapshot with a record; a second rollback of the same cause in one interval resets it (R406,
R407, R412). -/
def State.rollBack (s : State) (hedge : Nat) (cause : RollCause) (at_ : RollAt) : State :=
  match s.hedge hedge with
  | none => s
  | some h =>
    match h.snap with
    | none => s.rollReset h cause at_
    | some x =>
      if h.rolled.any fun r => r.1 == cause then s.rollReset h cause at_
      else
        let t := s.restoreSnapshot h x
        let t := t.mapHedge hedge fun y => { y with rolled := y.rolled ++ [(cause, h.interval)] }
        (t.reportKind hedge 33 (s.rollWords h cause at_)).countEvent hedge .rollbacks

/-- An error that no instruction of a group has met, in a line written back, merged, transmitted or read by an engine, is in the
physical log and is counted for the hedge that owns the line (R173, R413); a fault has been counted as it was taken. -/
def State.countError (s : State) (hedge : Nat) (cause : RollCause) (at_ : RollAt) : State :=
  match at_, cause with
  | .home _, .uncorr => (s.logEvent (.error hedge false)).countEvent hedge .uncorr
  | .home _, .sdc => (s.logEvent (.error hedge false)).countEvent hedge .sdc
  | _, _ => s

/-- ROLLBACK (R406, R407). -/
def execRollback (hedge : Nat) (cause : RollCause) (at_ : RollAt) (s : State) : Host.Outcome State Fault Refusal :=
  .next ((s.countError hedge cause at_).rollBack hedge cause at_)

/-! ## Resizes and fences (R173, R382) -/

/-- The workgroups of a hedge on a core. -/
def State.wgsOn (s : State) (h core : Nat) : List Workgroup := s.wgs.filter fun w => w.hedge == h && w.core == some core

/-- A class 1 counter that k' slot numbers would drop is in use (R382). -/
def State.ctrInUse (s : State) (h k : Nat) : Bool :=
  s.ctrs.any fun p => match p.1 with
    | .c1 x _ j =>
      x == h && decide (32 * k ≤ j) &&
        !(p.2.value == 0 && p.2.waiters.isEmpty && p.2.link.isNone && p.2.regs.isEmpty && p.2.proxies.isEmpty &&
          p.2.pending.isEmpty)
    | .c0 _ _ | .c2 _ _ _ | .c3 _ => false

/-- The counters and shares of a hedge as it would stand after a resize can move: each new home holds its blocks, and the
waiters that move with them stay within the shares there (R200, R218, R219, R287, R293, R305, R382). -/
def State.moveFits (s : State) (x : Hedge) : Bool :=
  let t := s.mapHedge x.p.id fun _ => x
  let held (i : HomeId) : Bool := ((x.waiterShare i).map fun n => decide (t.waitersAt x.p.id i ≤ n)).getD true
  s.placeFits x && x.physical.all (fun c => held (.core c)) && [0, 1].all fun d => held (.cluster d)

/-- What stands on the logical cores of a physical core after a resize fits its share: launch regions and register
allotments (R154, R249, R382). -/
def State.residentsFit (s : State) (x : Hedge) (core : Nat) : Bool :=
  let ws := s.wgs.filter fun w => w.hedge == x.p.id && w.core.isSome && x.map.getD w.lcore 0 == core
  let gs := s.groups.filter fun g => g.seat.isSome && ws.any fun w => w.id == g.wg
  decide ((((ws.map fun w => (w.lseq, w.lcore)).eraseDups).map fun r => s.regionSize x.p.id r.1).sum ≤
      x.scratchPages * 65536) &&
    x.slotsHold x.slots gs.length (gs.map fun g => g.vregs.length).sum (gs.map fun g => g.tiles.length).sum

/-- A resize whose saves are made can still be made: what has run since may have used a counter that it drops (R219, R382). -/
def State.resizeHolds (s : State) (h : Hedge) (r : Rect) (ss : List Nat) : Bool :=
  !s.ctrInUse h.p.id ss.length && ((s.newMap h r).map fun m => s.moveFits (h.resized m r ss)).getD false

/-- A resize is not refused (R382). -/
def State.resizeOk (s : State) (h : Hedge) (r : Rect) (ss : List Nat) : Bool :=
  hedgeRectOk r && slotsOk h.p.checked ss && !s.ctrInUse h.p.id ss.length &&
    match s.newMap h r with
    | some m => let x := h.resized m r ss; s.moveFits x && x.physical.all (s.residentsFit x)
    | none => false

/-- The resident workgroups that a resize pre-empts: on a core whose mapping changes or whose slots are withdrawn
(R382). -/
def State.displaced (s : State) (h : Hedge) (map ss : List Nat) : List Workgroup :=
  s.wgs.filter fun w => w.hedge == h.p.id && w.core.isSome && !(s.seated w.id).isEmpty &&
    (w.core != some (map.getD w.lcore 0) || !h.slots.all ss.contains)

/-- A rectangle as a record of a resize shows it, laid out as in a launch record (R385, R412). -/
def rectWord (r : Rect) : Word64 :=
  BitVec.ofNat 64 (r.x0 * 2 ^ 60 + r.y0 * 2 ^ 56 + r.lw * 2 ^ 53 + r.lh * 2 ^ 50 + r.dies * 2 ^ 48)

/-- The record of a completed resize (R382, R412). -/
def State.resizeRecord (s : State) (h : Hedge) (r : Rect) (ss : List Nat) : State :=
  s.reportKind h.p.id 34 [rectWord h.rect, rectWord r, BitVec.ofNat 64 h.slots.length, BitVec.ofNat 64 ss.length]

/-- The resize made: dirty lines written back where the hedge leaves, slot maps and turns written, counters that are
dropped gone, and a record (R200, R301, R382). -/
def State.doResize (s : State) (h : Hedge) (map : List Nat) (r : Rect) (ss : List Nat) : State :=
  let t := h.physical.foldl (fun u c => if map.contains c then u else u.dropLines c fun l => l.hedge == h.p.id) s
  let t := { t with
    wgs := t.wgs.map fun (w : Workgroup) => if w.hedge == h.p.id && (t.seated w.id).isEmpty then
      { w with core := w.core.map fun _ => map.getD w.lcore 0 } else w
    ctrs := t.ctrs.filter fun p => match p.1 with
      | .c1 x _ j => x != h.p.id || decide (j < 32 * ss.length)
      | .c0 _ _ | .c2 _ _ _ | .c3 _ => true }
  let t := t.mapHedge h.p.id fun x => x.resized map r ss
  ((t.writeSlots h.p.id map.eraseDups ss).writeTurns).resizeRecord h r ss

/-- A resize goes on: what it displaces is saved first (R382). -/
def State.goResize (s : State) (h : Hedge) (r : Rect) (ss : List Nat) : State :=
  match s.newMap h r with
  | none => s.mapHedge h.p.id fun x => { x with resize := none }
  | some m =>
    let ds := s.displaced h m ss
    if ds.isEmpty then s.doResize h m r ss
    else
      let t := s.mapHedge h.p.id fun x => { x with resize := some (r, ss) }
      ds.foldl (fun u w => u.askSave w.id) t

/-- HEDGE_RESIZE (R382). -/
def execHedgeResize (hedge : Nat) (rect : Rect) (slots : List Nat) (s : State) : Host.Outcome State Fault Refusal :=
  match s.hedge hedge with
  | none => .next s
  | some h => if h.resize.isNone && s.resizeOk h rect slots then .next (s.goResize h rect slots) else .next s

/-- A hedge with fenced cores goes on as after a resize that keeps its rectangle. One that has no core left, or whose
counters cannot move, keeps its map: its groups there are saved, the physical log tells of it, and it runs again once a core
is cleared (R173, R200, R382; log 82, DESIGN CHOICE). -/
def State.refit (s : State) (hedge : Nat) : State :=
  match s.hedge hedge with
  | none => s
  | some h =>
    let (r, ss) := h.resize.getD (h.rect, h.slots)
    match (s.newMap h r).filter fun m => s.moveFits (h.resized m r ss) with
    | some _ => s.goResize h r ss
    | none =>
      let lost := h.physical.filter fun c => (s.core c).fenced
      let t := (lost.flatMap (s.wgsOn hedge)).foldl (fun u w => u.askSave w.id) (s.logEvent (.homeless hedge))
      lost.foldl State.vacate t

/-- Cores are fenced: they leave every slot map, and each hedge on them goes on elsewhere (R173, R382). -/
def State.fenceCores (s : State) (cores : List Nat) : State :=
  let t := cores.foldl (fun u c => u.mapCore c fun k => { k with fenced := true }) s
  ((s.hedges.filter fun h => cores.any h.map.contains).map fun h => h.p.id).foldl State.refit t

/-- CORE_FENCE (R173, R382). -/
def execCoreFence (core : Nat) (s : State) : Host.Outcome State Fault Refusal :=
  .next ((s.logEvent (.fenced core)).fenceCores [core])

/-- FENCED_CORE_CLEAR: the hedges that the fence has left without it have their slots there again (R173). -/
def execFencedCoreClear (core : Nat) (s : State) : Host.Outcome State Fault Refusal :=
  let t := s.mapCore core fun k => { k with fenced := false }
  .next (((s.hedges.filter fun h => h.map.contains core).map fun h => h.p.id).foldl State.refit t)

/-! ## Errors as they are detected (R173, R305, R344) -/

/-- An error in a group's state: UNCORR at the instruction at issue, whose word has G and GN where every format has them, or at the
clause boundary, by the entry that comes next (R29, R173, R449). -/
def State.stateError (s : State) : State :=
  let g := s.focus
  if g.stop.isSome || g.seat.isNone then s
  else
    match g.clause, g.nextEntry with
    | none, some e =>
      s.raise e.mask { code := .uncorr, lane := some (lowest e.mask), mask := some e.mask,
                       place := some (31, e.off, (s.peekWord g e.off).getD 0) }
    | _, _ => s.raise (g.eff (RawR.ofWord g.position.2).guard) { code := .uncorr }

/-- A line of a core's L1 is in error: a dirty one shows when it is consumed or written back, a clean one is read again
(R173). -/
def State.l1Error (s : State) (core hedge line : Nat) : State :=
  s.mapCore core fun k => { k with
    l1 := (k.l1.filter fun l => !(l.hedge == hedge && l.num == line && l.dirty == 0)).map fun l =>
      if l.hedge == hedge && l.num == line then { l with bad := true } else l }

/-- An event of a cluster waits for a system turn of its management core (R304). -/
def State.clusterEvent (s : State) (die : Nat) (e : ClusterEvent) : State :=
  s.mapMgmt die fun m => { m with events := m.events ++ [e] }

/-- A page of a scratch share is corrected: the sixteenth time within one scrub cycle it is to be retired (R305). -/
def State.fixPage (s : State) (h core page : Nat) : State :=
  let n := (find1 s.fixes (h, core, page)).getD 0 + 1
  let t := { s with fixes := put1 s.fixes (h, core, page) n }
  if n = 16 then t.clusterEvent (dieOf core) (.failure (dieOf core) (.page (some (h, core))) page) else t

/-- A failure of a cluster as its management core deals with it: the physical log, through the service core of the slice that owns
the context of the hedge that it is attributed to, what that hedge sees, and the rollbacks and fences that it asks for (R304,
R305). -/
def State.clusterFailure (s : State) (n : Nat) (e : ErrEvent) : State :=
  let log (u : State) (h : Nat) : State := u.logEvent (.cluster (contextSlice h) h e)
  match e with
  | .page moved =>
    let t := { s with poolRetired := s.poolRetired.set n (s.poolRetired.getD n 0 + 1) }.logEvent (.retired n)
    match moved.bind fun m => s.hedge m.1 with
    | some h => (log t h.p.id).resizeRecord h h.rect h.slots
    | none => t
  | .counter _ => ((log s n).countEvent n .uncorr).askRollback n .uncorr (.va 0)
  | .die =>
    let hs := (s.hedges.filter fun h => h.coresOn n != 0).map fun h => h.p.id
    let t := hs.foldl (fun u h => (log u h).rollBack h .uncorr (.va 0)) (s.logEvent (.die n))
    t.fenceCores ((List.range 256).map fun k => 256 * n + k)
  | .corrected | .pageFix _ | .scrubCycle | .state | .fetchAhead | .l1Line _ | .scratch | .replay => s

/-- A comparison that failed in a checked pair, as the management core deals with it: a record to the physical log through
the service core of the slice that owns the hedge's context, with the values that differ, and to the hedge's virtual error
queue, and a rollback of the hedge asked for (R172, R304). -/
def State.gather (s : State) (e : ClusterEvent) : State :=
  match e with
  | .failure n e _ => s.clusterFailure n e
  | .mismatch m =>
    let sl := contextSlice m.hedge
    let t := (s.logEvent (.record sl m.hedge m.record)).logEvent (.mismatch sl m.hedge m.word m.mask m.a m.b)
    let t := (t.report m.hedge m.record).countEvent m.hedge .sdc
    t.askRollback m.hedge .shadow (.va 0)

/-- The groups that a request has held at their next boundary (R163, R303): of a saved workgroup, or one group with its
partner. -/
def State.toHold (s : State) (x : Service) : List Group :=
  match x with
  | .save w => s.seated w
  | .saveGroup g => ((s.group g).map s.members).getD []
  | .restore _ | .snapshot _ _ => []

/-- A turn of the system: the events gathered, and the first request that is not taken up, or whose groups are not yet held,
taken up, its groups held at their next boundary (R163, R301, R303, R304). -/
def State.systemTurn (s : State) (die : Nat) (m : Mgmt) : State :=
  let t := m.events.foldl State.gather (s.mapMgmt die fun x => { x with events := [] })
  match m.requests.find? fun r => !r.taken || (t.toHold r.what).any fun g => !g.holds.contains .save with
  | none => t
  | some r =>
    let u := t.mapMgmt die fun x => { x with requests := x.requests.map fun y => if y.what == r.what then { y with taken := true } else y }
    (t.toHold r.what).foldl (fun (u : State) (g : Group) => u.mapGroup g.id fun x =>
      if x.holds.contains .save then x else { x with holds := x.holds ++ [Hold.save] }) u

/-- MGMT_TURN: the turn's hedge has the first trap of its queue served, or the system its work done, and the turn passes
on (R301 to R304). A turn of a hedge serves one trap (log 94, DESIGN CHOICE). The served instruction then takes its effect when
its group issues it again (log 23, DEDUCED). -/
def execMgmtTurn (die : Nat) (s : State) : Host.Outcome State Fault Refusal :=
  match s.mgmt[die]? with
  | none => .next s
  | some m =>
    let t := s.mapMgmt die fun x => { x with turn := (x.turn + 1) % 256 }
    match if m.turn % 8 = 7 then none else m.table.getD m.turn none with
    | none => .next (t.systemTurn die m)
    | some h =>
      match m.queue.find? fun x => x.1 == h with
      | none => .next t
      | some (h, g) =>
        .next ((t.mapMgmt die fun x => { x with queue := x.queue.filter fun y => y != (h, g) }).mapGroup g fun x =>
          if x.emu == .queued then { x with emu := .done } else x)

/-- FAULT: an error as it is detected outside the instructions that meet one (R173, R305, R344, R407). -/
def execFault (n : Nat) (e : ErrEvent) (i : Nat) (s : State) : Host.Outcome State Fault Refusal :=
  match e with
  | .corrected => .next ((s.logEvent (.error n true)).countEvent n .corrected)
  | .state => s.onGroup n fun t => .next (t.stateError)
  | .fetchAhead => .next (s.unconsumed n 1)
  | .l1Line core => .next (s.l1Error core n i)
  | .scratch => .next (s.mapWg n fun x => { x with bad := (i :: x.bad).eraseDups })
  | .pageFix core => .next ((((s.logEvent (.error n true)).countEvent n .corrected).fixPage n core i))
  | .scrubCycle => .next { s with fixes := s.fixes.filter fun p => dieOf p.1.2.1 != n }
  | .page _ | .die => .next (s.clusterEvent n (.failure n e i))
  | .counter cluster => .next (s.clusterEvent (((s.hedge n).map fun h => h.clusterDie cluster).getD 0) (.failure n e i))
  | .replay =>
    match s.hedge n with
    | some x => .next (s.rollReset x .uncorr (.va 0))
    | none => .next s

/-- DISPATCH: the hub places the next new workgroup, or has a workgroup saved to make room; a resize under way comes to its end
first (R382, R389, R390). -/
def execDispatch (hedge : Nat) (s : State) : Host.Outcome State Fault Refusal :=
  let s := s.freeWgs
  match s.hedge hedge with
  | none => .next s
  | some h =>
    if h.wantSnap then .next s
    else
      match h.resize with
      | some (r, ss) => .next (if s.resizeHolds h r ss then s.goResize h r ss else s.mapHedge hedge fun x => { x with resize := none })
      | none =>
        match s.nextDispatch h with
        | some (.place c i) =>
          match c.wg, s.launch hedge c.lseq with
          | none, some l => .next (s.placeNew h l i)
          | some w, _ => .next (((s.wgOf w).map (s.askRestore h)).getD s)
          | _, _ => .next s
        | some (.evict w q) =>
          let t := s.askSave w
          .next (if t.saving w then t.mapWg w fun x => { x with swapped := q } else t)
        | none => .next s

end Sys2Proof.Machine
end

