-- ==== Sys2Proof/Machine/Move.lean ====
section
/-! DEFINITION. Snapshots as they are taken, and live migration: a hedge leaves for another package, and one arrives (spec 19 R403,
R414, R415; spec 22 R442). -/

namespace Sys2Proof.Machine

/-! ## A hedge leaves (R414, R415, R442) -/

/-- No frame of the hedge is in COPY (R374). -/
def State.noCopy (s : State) (h : Nat) : Bool :=
  s.frames.all fun p => p.2.owner != some h || match p.2.mig with
    | some (.copy _ _ _) => false
    | some (.forward _) | none => true

/-- The frames in FORWARD end it now: nothing of the hedge is under way (R369, R374). -/
def State.endForwards (s : State) (h : Hedge) : State :=
  (s.framesOf h.p.id).foldl (fun t f => match (t.frame f).mig with
    | some (.forward n) => t.forwardEnd h f n
    | some (.copy _ _ _) | none => t) s

/-- The frames that move: all of the hedge's but those of context images, which the target makes anew (R348, R414). -/
def State.movingFrames (s : State) (h : Nat) : List (Nat × Frame) :=
  s.frames.filter fun p => p.2.owner == some h && !s.wgs.any fun w => w.hedge == h && (s.imageFrames w).contains p.1

/-- Everything of a stopped hedge that moves (R414, R415). -/
def State.moved (s : State) (h : Hedge) (x : Snapshot) : Moved :=
  let fs := s.movingFrames h.p.id
  let mine (pa : Nat) : Bool := fs.any fun p => p.1 == frameOf pa
  { hedge := { h with moving := none, snap := none }
    snap := x
    frames := fs
    cells := s.mem.filter fun c => mine c.1
    codes := s.codes.filter fun c => mine (c.1 * 32)
    bad := s.bad.filter fun l => mine (l * 128)
    adds := s.adds.filter fun a => a.hedge == h.p.id
    places := s.places.filter fun p => p.hedge == h.p.id
    jobs := s.jobs.filter fun j => j.req.hedge == h.p.id
    source := Config.package }

/-- The peers with a route to or from a hedge: fabric address and peer hedge (R433). -/
def Hedge.peers (h : Hedge) : List (BitVec 48 × Nat) :=
  (h.routes.filterMap fun p => if 1 ≤ p.1 && routeOk p.2 then
    some ((p.2.getD 0 0).extractLsb' 0 48, ((p.2.getD 1 0).extractLsb' 58 6).toNat) else none).eraseDups

/-- The pool frames of a hedge belong to another package: they keep their contents and go to no scrub here (R373, R414). -/
def State.passPool (s : State) (fs : List (Nat × Frame)) (faddr : BitVec 48) : State :=
  (fs.filter fun p => p.2.tier == .pool).foldl (fun t p =>
    t.mapFrame p.1 fun x => { x with scrub := false, pool := some ⟨some faddr, [], [], false⟩ }) s

/-- The hedge goes to another package: its migrated record, with this package's fabric address as its number, then everything of
it moves, each peer with a route gets the new address, and what is left here goes (R412, R414, R442; log 57, DESIGN CHOICE). -/
def State.migrateAway (s : State) (h : Hedge) (faddr : BitVec 48) : State :=
  let t := s.endForwards h
  let t := t.reportKind h.p.id 41 [Config.package.setWidth 64, faddr.setWidth 64, BitVec.ofNat 64 h.interval]
  let h := (t.hedge h.p.id).getD h
  match h.snap with
  | none => s
  | some x =>
    let m := t.moved h x
    let u := h.peers.foldl (fun u p => u.send (.switch p.1 p.2 h.p.id faddr)) (t.send (.migrate faddr m))
    let u := (u.removeHedge h).passPool m.frames faddr
    { u with movedAway := (h.p.id, faddr, h.peers) :: u.movedAway.filter fun y => y.1 != h.p.id }

/-! ## Snapshots (R303, R403) -/

/-- The snapshot that a hedge waits for is taken; a hedge that is moving then leaves (R403, R414). -/
def State.snapshotNow (s : State) (h : Hedge) : State :=
  let t := h.dies.foldl (fun u d => u.served (.snapshot h.p.id d)) (s.takeSnapshot h)
  match h.moving with
  | some f => t.migrateAway ((t.hedge h.p.id).getD h) f
  | none => t

/-- A snapshot of a hedge is asked for: the hedge stops for it, and the management cores of its dies are to assist (R300, R303,
R403). -/
def State.askSnapshot (s : State) (h : Hedge) : State :=
  h.dies.foldl (fun t d => t.askMgmt d (.snapshot h.p.id d) 0 none) (s.wantSnap h.p.id)

/-- The management cores have taken the request for a snapshot up (R303). -/
def State.assisted (s : State) (h : Hedge) : Bool := h.dies.all fun d => s.taken (.snapshot h.p.id d)

/-- SNAPSHOT: taken once the management cores assist, every group is held and drained; until then the hedge is stopped for it
(R303, R403). A hedge that is moving also waits for its frames in COPY (R374). -/
def execSnapshot (hedge : Nat) (s : State) : Host.Outcome State Fault Refusal :=
  match s.hedge hedge with
  | none => .next s
  | some h =>
    if s.assisted h && s.snapReady hedge && (h.moving.isNone || s.noCopy hedge) then
      .next (s.openCompared (s.hedgeGroups hedge) fun t => t.snapshotNow h)
    else .next (s.askSnapshot h)

/-! ## A hedge arrives (R414, R415, R442) -/

/-- An address in a frame of the arriving hedge, in the frame that it has here. -/
def Arrival.move (a : Arrival) (pa : Nat) : Nat :=
  match find1 a.place (frameOf pa) with
  | some n => n * 65536 + pa % 65536
  | none => pa

/-- The valid entries of tables below a level, each with its address and level; `move` says where a table lies now. -/
def tableEntries (read : Nat → Word64) (move : Nat → Nat) (root : Nat) : (k : Nat) → (table : Nat) → List (Nat × Nat × Word64)
  | k, table =>
    (List.range (if k = 4 then root else 512)).flatMap fun i =>
      let a := table + 8 * i
      let p := read a
      if !p.getLsbD 0 then []
      else if pteLeaf p then [(a, k, p)]
      else
        (a, k, p) :: match k with
          | 0 => []
          | k' + 1 => tableEntries read move root k' (move (ptePpn p * 4096))

/-- A table entry whose page or table has moved. -/
def movedPte (move : Nat → Nat) (p : Word64) : Word64 :=
  (p &&& 0xFFC00000000003FF#64) ||| BitVec.ofNat 64 (move (ptePpn p * 4096) / 4096 * 1024)

/-- The frames of a G-stage leaf stay together, as one leaf names them all. -/
def Arrival.together (a : Arrival) (e : Nat × Nat × Word64) : Bool :=
  !pteLeaf e.2.2 || (List.range (2 ^ (12 + 9 * e.2.1) / 65536)).all fun i =>
    a.move (ptePpn e.2.2 * 4096 + i * 65536) == a.move (ptePpn e.2.2 * 4096) + i * 65536

/-- The parameters with which the arriving hedge is created: the rectangle, slot numbers and physical bases that it has here,
and every other one as it had it (R414). -/
def Arrival.params (a : Arrival) : HedgeParams :=
  let p := a.moved.hedge.p
  { p with
    rect := a.rect, slots := a.slots, contextBase := a.move p.contextBase
    hgatp := (p.hgatp &&& 0xFFFFF00000000000#64) ||| BitVec.ofNat 64 (a.move ((p.hgatp.extractLsb' 0 44).toNat * 4096) / 4096) }

/-- The model's own names of groups, workgroups and copies that arrive. -/
def Arrival.names (a : Arrival) : List Nat :=
  let x := a.moved.snap
  x.groups.map (·.id) ++ x.wgs.map (·.id) ++ x.copies.map (·.id)

/-- Frames of this package can be given for those that arrive: each one another, free, in its tier as it stands, those of a leaf
and of the request area side by side; a pool frame keeps its number (R361, R373, R414). -/
def State.placesOk (s : State) (a : Arrival) : Bool :=
  let m := a.moved
  let used := s.usedFrames
  (m.frames.all fun p => match find1 a.place p.1 with
    | none => false
    | some n => tierOfFrame n == p.2.tier && decide (n < s.tierEnd p.2.tier) && !used.contains n && (p.2.tier != .pool || n == p.1)) &&
    decide (a.place.map (·.2)).Nodup &&
    m.hedge.contextFrames.all (fun f => a.move (f * 65536) ==
      a.move (frameOf m.hedge.p.contextBase * 65536) + (f - frameOf m.hedge.p.contextBase) * 65536) &&
    (tableEntries (fun pa => BitVec.ofNat 64 (m.cells.readLE pa 8)) id 2048 4 m.hedge.groot).all a.together

/-- The hedge can be created here: its features are offered and its check codes hold, the rectangle has its shape, its shares and
frames are there, and nothing here has its names (R380, R409, R414, R442, R446; log 95, DESIGN CHOICE). -/
def State.arrivalOk (s : State) (a : Arrival) : Bool :=
  let m := a.moved
  m.hedge.features &&& ~~~offered == 0 && m.codes.isEmpty && s.createOk a.params && s.placesOk a &&
    a.rect.lw == m.hedge.p.rect.lw && a.rect.lh == m.hedge.p.rect.lh &&
    (diesOf a.rect.dies).length == (diesOf m.hedge.p.rect.dies).length && a.slots.length == m.hedge.slots.length &&
    a.names.all fun i => decide (s.nextId ≤ i)

/-- The hedge as it stands here: its core map of R381, its epoch, tables, queues and tokens as they were (R415, R442). -/
def Arrival.hedge (a : Arrival) : Hedge :=
  let h := a.moved.hedge.mapPa a.move
  { h with
    p := a.params, rect := a.rect, slots := a.slots, map := rectCores a.rect, resize := none, moving := none
    hgatp := (h.hgatp &&& 0xFFFFF00000000000#64) ||| BitVec.ofNat 64 (a.move ((h.hgatp.extractLsb' 0 44).toNat * 4096) / 4096)
    snap := some (a.moved.snap.mapPa a.move) }

/-- The frames of an arriving hedge with what they hold; lines in error stay so (R357, R371, R414). -/
def State.landFrames (s : State) (a : Arrival) : State :=
  let m := a.moved
  let t := m.frames.foldl (fun (t : State) (p : Nat × Frame) =>
    let n := frameOf (a.move (p.1 * 65536))
    (t.giveFrame n m.hedge.p.id p.2.slice).mapFrame n fun x => { x with
      pin := p.2.pin, pinref := p.2.pinref, migs := p.2.migs, rd := p.2.rd, wr := p.2.wr
      iclass := p.2.iclass, mask := p.2.mask, gran := p.2.gran }) s
  { t with
    mem := m.cells.foldl (fun u c => u.write (a.move c.1) c.2) t.mem
    bad := t.bad ++ m.bad.map fun l => a.move (l * 128) / 128 }

/-- The G-stage tables of an arriving hedge name its frames here (R335, R414). -/
def State.retable (s : State) (a : Arrival) : State :=
  (tableEntries s.homeWord a.move 2048 4 a.hedge.groot).foldl (fun t e => t.hubWriteWord e.1 (movedPte a.move e.2.2)) s

/-- Steps 4 and 6 of R414 at the target: everything of the hedge is here under its own key, a snapshot is taken, and it
resumes (R364, R414, R415, R442). -/
def State.arrive (s : State) (a : Arrival) : State :=
  let h := a.hedge
  let t := ((s.landFrames a).retable a).loadKey h.p.id false (Config.frameKey h.p.id h.key false)
  let t := t.loadKey h.p.id true (Config.frameKey h.p.id h.key true)
  let t := { t with hedges := t.hedges ++ [h], nextId := (a.names.map (· + 1)).foldl max t.nextId }
  let t := (((t.writeSlots h.p.id h.map h.slots).writeTurns).install h (a.moved.snap.mapPa a.move) false)
  let t := { t with
    adds := t.adds ++ a.moved.adds.map fun (x : AddReq) => { x with target := x.target.mapPa a.move }
    places := t.places ++ a.moved.places.map fun (p : PlaceReq) => { p with frame := frameOf (a.move (p.frame * 65536)) }
    jobs := t.jobs ++ a.moved.jobs }
  t.firstSnapshot h.p.id

/-- A live migration fails before step 5 of R414: the hedge goes on here (R415). -/
def State.migrationFails (s : State) (hedge : Nat) : State := s.mapHedge hedge fun x => { x with moving := none }

/-- LIVE_MIGRATION. Of a hedge of this package: a target that lacks a feature of the hedge refuses it, or ends a migration
under way, and nothing else changes; otherwise the hedge is stopped as for a snapshot and moves. Of a hedge that arrives: it is
created here with all that came with it, or refused (R414, R415, R442; log 57, DESIGN CHOICE; log 95, DESIGN CHOICE). -/
def execLiveMigration (hedge : Nat) (faddr : BitVec 48) (target : BitVec 256) (s : State) :
    Host.Outcome State Fault Refusal :=
  match s.hedge hedge with
  | none =>
    match s.arrivals.find? fun a => a.moved.hedge.p.id == hedge with
    | none => .next s
    | some a =>
      let t := { s with arrivals := s.arrivals.erase a }
      .next (if s.arrivalOk a then t.arrive a else t)
  | some h =>
    if h.features &&& ~~~target != 0 then .next (s.migrationFails hedge)
    else .next ((s.mapHedge hedge fun x => { x with moving := some faddr }).askSnapshot h)

end Sys2Proof.Machine
end

