-- ==== Sys2Proof/Machine/Fabric.lean ====
section
/-! DEFINITION. The fabric, bring-up, the G-die and the package's own events (spec 22 R433 to R445; spec 15 R328; spec 14
R305; spec 16 R352; spec 18 R359, R362; spec 09 R244). -/

namespace Sys2Proof.Machine

/-! ## Checks of a peer's request (R435) -/

/-- The request is a memory request or a contribution, which asks for MEM. -/
def asksMem (r : PeerReq) : Bool :=
  match r.op with
  | .cadd _ _ | .cnext _ _ | .cinit _ _ | .watch _ _ _ _ _ | .moved _ | .switched => false
  | .rmaWrite _ _ _ _ | .rmaAtomic _ _ _ _ _ | .rmaRead _ _ _ | .contribute _ _ _ _ => true

/-- A route entry names the source of the request (R433, R435). -/
def onRoute (r : PeerReq) (e : List Word64) : Bool :=
  routeOk e && (e.getD 0 0).extractLsb' 0 48 == r.faddr && ((e.getD 1 0).extractLsb' 58 6).toNat == r.phedge &&
    (e.getD 1 0).extractLsb' 0 32 == r.epoch && (!asksMem r || (e.getD 0 0).getLsbD 60)

/-- The route by which the target hedge accepts the request, with its entry. -/
def Hedge.routeOf (h : Hedge) (r : PeerReq) : Option (Nat × List Word64) :=
  h.routes.find? fun p => 1 ≤ p.1 && p.1 < 4096 && onRoute r p.2

/-- Items 2 and 3 of R435 for a range of a buffer (log 61, DEDUCED). -/
def Hedge.peerBuf (h : Hedge) (idx off len align : Nat) (right : BufEntry → Bool) : Option Nat :=
  if 0xFF0 ≤ idx && idx ≤ 0xFFF then some ewindow
  else
    match (if 0x1000 ≤ idx then none else h.entry idx) with
    | none => some eaddr
    | some e =>
      if e.owner == h.p.id && e.remote && right e && decide (off + len ≤ e.len) && off % align == 0 then none
      else some eaddr

/-- Items 2 and 3 of R435 for a counter handle (R201). -/
def Hedge.peerCtr (h : Hedge) (x : Word64) (right : BufEntry → Bool) : Option Nat :=
  if handleClass x != 3 then some eaddr
  else h.peerBuf (handleIndex x / 65536) (8 * handleWord x) 8 1 fun e => e.counter && right e

/-- The watches that a route's peer holds armed in the hedge (R433, R436) (log 60, DEDUCED). -/
def State.peerWatches (s : State) (h route : Nat) : Nat :=
  let mine (w : Waiter) : Bool := match w.who with
    | .watch h' (.peer x) _ _ _ _ => h' == h && handlePeer x == route
    | _ => false
  (s.ctrs.map fun p => (p.2.waiters.filter mine).length + (p.2.proxies.filter fun x => mine x.2).length).sum

/-- A watch of the peer that is accepted and not armed yet. -/
def PeerJob.watches (j : PeerJob) : Bool :=
  match j.req.op with
  | .watch _ _ _ _ _ => true
  | _ => false

/-- The bytes of an atomic's operand in a window, by its type (R439). -/
def Hedge.windowAccepts (h : Hedge) (ty : AtomTy) (e : BufEntry) : Bool :=
  e.fabred && !e.refuses (.red true (windowType ty)) &&
    ((h.window e.aux).map fun w => w.route == 0 && w.ty == windowType ty).getD false

/-- A load of the buffer by a peer is not refused: a window's words are read at their home only (R438, R439). -/
def Hedge.peerReads (h : Hedge) (e : BufEntry) : Bool :=
  !e.refuses .load && (!e.fabred || ((h.window e.aux).map fun w => w.route == 0).getD false)

/-- The watch at the route's peer whose add a request brings back to a counter file (R436). -/
def Hedge.farWatch (h : Hedge) (route : Nat) (x : Word64) : Option FarWatch :=
  h.farWatches.find? fun w => w.route == route && w.target.extractLsb' 0 48 == x.extractLsb' 0 48

/-- Items 2 to 4 of R435: the reply code of the first failure. -/
def State.peerRefuses (s : State) (h : Hedge) (route : Nat) (entry : List Word64) (r : PeerReq) : Option Nat :=
  match r.op with
  | .cadd x _ => if (h.farWatch route x).isSome then none else h.peerCtr x (·.cadd)
  | .cnext x _ | .cinit x _ => h.peerCtr x (·.cadd)
  | .watch x _ _ _ _ =>
    (h.peerCtr x (·.r)).or
      (if s.peerWatches h.p.id route + (s.jobs.filter fun j => j.watches && j.req.faddr == r.faddr && j.req.phedge == r.phedge &&
          j.req.hedge == h.p.id).length < ((entry.getD 2 0).extractLsb' 0 16).toNat then none else some equota)
  | .rmaWrite buf off data notify =>
    (h.peerBuf buf off data.length 1 fun e => e.w && !e.counter && !e.fabred && !e.bankmv).or
      (notify.bind fun x => h.peerCtr x (·.cadd))
  | .rmaAtomic buf off _ ty _ => h.peerBuf buf off (atomBytes ty) (atomBytes ty) fun e => !e.refuses .atomic && !e.fabred
  | .rmaRead buf off len => h.peerBuf buf off len 1 h.peerReads
  | .contribute buf off ty _ => h.peerBuf buf off (atomBytes ty) (atomBytes ty) (h.windowAccepts ty)
  | .moved _ | .switched => none

/-- A request is refused: the reply, and the target's physical log (R435). -/
def State.refusePeer (s : State) (r : PeerReq) (code : Nat) : State :=
  (s.send (.reply r.faddr code [] [])).logEvent (.refused r.faddr code)

/-- Where the hedge went that a request names, whose peer has not acknowledged the switch yet (R414, R442). -/
def State.movedTo (s : State) (r : PeerReq) : Option (BitVec 48) :=
  (s.movedAway.find? fun x => x.1 == r.hedge && x.2.2.contains (r.faddr, r.phedge)).map fun x => x.2.1

/-- A route of the hedge whose peer has moved names the package that it moved to (R442). -/
def Hedge.reroute (h : Hedge) (r : PeerReq) (f : BitVec 48) : Hedge :=
  { h with routes := h.routes.map fun p =>
    if onRoute { r with op := .switched } p.2 then
      (p.1, ((p.2.getD 0 0).extractLsb' 48 16 ++ f) :: p.2.drop 1) else p }

/-- What the service kernels of two packages tell each other of a hedge that has moved: a route here switches and the old package
gets the acknowledgement, or a peer has switched (R414, R442). -/
def State.switchRoute (s : State) (r : PeerReq) : State :=
  match r.op with
  | .moved f => (s.mapHedge r.hedge fun h => h.reroute r f).send (.switched r.faddr r.phedge r.hedge)
  | .switched => { s with movedAway := s.movedAway.map fun (x : Nat × BitVec 48 × List (BitVec 48 × Nat)) =>
      if x.1 == r.hedge then (x.1, x.2.1, x.2.2.erase (r.faddr, r.phedge)) else x }
  | _ => s

/-- The request is of the service kernels' own traffic about a hedge that has moved. -/
def opSwitches : PeerOp → Bool
  | .moved _ | .switched => true
  | _ => false

/-- The amount that an operation of a peer adds is below 2^63, as R203 asks of every add (log 83, DESIGN CHOICE). -/
def peerAmountOk : PeerOp → Bool
  | .cadd _ n | .cnext _ n | .watch _ _ _ n _ => !n.msb
  | .cinit _ _ | .rmaWrite _ _ _ _ | .rmaAtomic _ _ _ _ _ | .rmaRead _ _ _ | .contribute _ _ _ _ | .moved _ | .switched => true

/-- PEER_REQUEST: forwarded after a hedge that has moved while its peer has not switched, refused, or accepted (R414, R435,
R442). Nothing is answered before the package is up (R443). -/
def execPeerRequest (r : PeerReq) (s : State) : Host.Outcome State Fault Refusal :=
  if s.stage != .up then .next s
  else if opSwitches r.op then .next (s.switchRoute r)
  else
    match (s.hedge r.hedge).bind fun h => (h.routeOf r).map fun x => (h, x) with
    | none =>
      match s.movedTo r with
      | some f => .next (s.send (.forward f r))
      | none => .next (s.refusePeer r einval)
    | some (h, route, entry) =>
        match (s.peerRefuses h route entry r).or (if peerAmountOk r.op then none else some einval) with
        | some code => .next (s.refusePeer r code)
        | none => .next { s with jobs := s.jobs ++ [⟨r, []⟩] }

/-! ## What a peer has been granted is performed (R436 to R441) -/

/-- The guest virtual address of the class 3 counter that a handle names. -/
def Hedge.ctrVa (h : Hedge) (x : Word64) : Nat := (h.vbase (handleIndex x / 65536) + 8 * handleWord x) % 2 ^ 64

/-- The class 3 counter that a peer's handle names. -/
def State.findCtr (s : State) (h : Hedge) (x : Word64) (n : Need) : Found := s.find h (h.ctrVa x) n

/-- A job is done: its reply leaves (R436, R437). -/
def State.endJob (s : State) (i : Nat) (r : PeerReq) (code : Nat) (data : List Byte) (codes : List (BitVec 16)) : State :=
  { s with jobs := s.jobs.eraseIdx i }.send (.reply r.faddr code data codes)

/-- A job whose buffer is gone since it was accepted is refused. -/
def State.failJob (s : State) (i : Nat) (r : PeerReq) : State := { s with jobs := s.jobs.eraseIdx i }.refusePeer r eaddr

/-- The counter that a peer's operation names. -/
def peerHandle : PeerOp → Option Word64
  | .cadd x _ | .cnext x _ | .cinit x _ | .watch x _ _ _ _ => some x
  | .rmaWrite _ _ _ _ | .rmaAtomic _ _ _ _ _ | .rmaRead _ _ _ | .contribute _ _ _ _ | .moved _ | .switched => none

/-- An earlier operation of the same source on the same counter stands before this one (R216, R436). -/
def State.jobBehind (s : State) (i : Nat) (r : PeerReq) : Bool :=
  (s.jobs.take i).any fun j =>
    j.req.faddr == r.faddr && j.req.phedge == r.phedge && j.req.hedge == r.hedge && peerHandle j.req.op == peerHandle r.op

/-- A handle with its PEER field set: a watch of a peer adds through the reverse route (R436). -/
def reverseHandle (x : Word64) (route : Nat) : Word64 := BitVec.ofNat 16 route ++ x.extractLsb' 0 48

/-- An operation of a peer on a counter at its home, at scope SYS (R209, R210, R213, R215, R436). -/
def State.peerCtrOp (s : State) (i : Nat) (h : Hedge) (r : PeerReq) (k : CtrKey) : State :=
  match r.op with
  | .cadd _ n => ((s.tagCtr k none .sys 0 h.p.id).addCtr k n.toNat).endJob i r 0 [] []
  | .cnext _ n =>
    let t := (s.promoteCtr k fun _ => true).tagCtr k none .sys 0 h.p.id
    (t.addCtr k n.toNat).endJob i r 0 (leBytes 8 (t.ctrValue k).toNat) []
  | .cinit _ x => (if s.ctrBusy k then s else (s.tagCtr k none .sys 0 h.p.id).setCtr k x).endJob i r 0 [] []
  | .watch x t target n ar =>
    let route := ((h.routeOf r).map (·.1)).getD 0
    let order : WatchOrder := ⟨if ar then some .sys else none, some none⟩
    (s.arm none k ⟨.watch h.p.id (.peer (reverseHandle target route)) n.toNat none order (x, target), h.p.id, t⟩).endJob
      i r 0 [] []
  | _ => s

/-- A watch at a peer adds to its target in a counter file here, once (R215, R436). -/
def State.watchBack (s : State) (i : Nat) (h : Hedge) (r : PeerReq) (w : FarWatch) : State :=
  let n := match r.op with
    | .cadd _ n => n.toNat
    | _ => 0
  { s with adds := s.adds ++ [AddReq.mk (.here w.key) h.p.id none n (some (w.source, w.target)) (some none) false] }.mapHedge h.p.id
    (fun x => { x with farWatches := x.farWatches.erase w }) |>.endJob i r 0 [] []

/-- The watch whose add a job brings back. -/
def Hedge.jobWatch (h : Hedge) (r : PeerReq) : Option FarWatch :=
  match r.op, h.routeOf r with
  | .cadd x _, some (route, _) => h.farWatch route x
  | _, _ => none

/-- REMOTE_COUNTER_OP: it waits while a snapshot is taken, and for room in the interval log (R403, R405, R436). -/
def execRemoteCounterOp (i : Nat) (s : State) : Host.Outcome State Fault Refusal :=
  match s.jobs[i]? with
  | none => .next s
  | some j =>
    match peerHandle j.req.op, s.hedge j.req.hedge with
    | some x, some h =>
      if h.wantSnap || s.jobBehind i j.req then .next s
      else
        match h.jobWatch j.req, s.findCtr h x (if j.watches then needR else needCtr) with
        | some w, _ => .next (s.watchBack i h j.req w)
        | none, .missing => .next (s.failJob i j.req)
        | none, .later f => .next (s.askOwner f)
        | none, .at_ pa _ =>
          if !j.watches && !s.logRoom pa then .next (s.askRoom [.home pa])
          else .next ((s.hubReach h (h.ctrVa x)).peerCtrOp i h j.req (.c3 pa))
    | _, _ => .next s

/-- A guest virtual address lies in an unresolved write set of the hedge (R151, R401, R438). -/
def Hedge.specCovers (h : Hedge) (va : Nat) : Bool := h.otherSpec 0 va

/-- A byte of a buffer lies in an unresolved write set of the hedge (R401, R438). -/
def Hedge.inWriteSet (h : Hedge) (buf off : Nat) : Bool :=
  ((h.entry buf).map fun e => h.specCovers ((e.vbase + off) % 2 ^ 64)).getD false

/-- An agent without a core accesses bytes of memory at their homes, line by line (R307, R318, R365). -/
def State.atHomes (s : State) (h : Hedge) (pas : List Nat) (rd wr : Bool) : State :=
  ((pas.map fun pa => pa / 128).eraseDups.foldl (fun t n => t.homeAccess h.p.id (n * 128) rd wr) s).see offDie pas

/-- What a run of bytes of one sector at their home is given: bytes stored by a peer (R266, R314, R438). -/
def State.peerStore (s : State) (h : Hedge) (pub : Bool) (pa : Nat) (bs : List Byte) : State :=
  if pub then bs.zipIdx.foldl (fun t p => t.shadowWrite h.p.id none (pa + p.2) p.1) s
  else
    ((s.atHomes h ((List.range bs.length).map fun i => pa + i) false true).homeWriteN pa bs).tagStore pa none .sys 0 h.p.id

/-- A store of a run at its home waits for room in the log, the window and the shadow quota (R266, R368, R405). -/
def State.peerRoom (s : State) (h : Hedge) (pub : Bool) (pa : Nat) : Bool :=
  if pub then
    ((s.shadow h.p.id none (pa / 4096)).isSome || decide (s.shadowsOf h.p.id < h.p.shadowQuota)) && s.logFits [(some none, pa)]
  else s.logRoom pa && s.windowRoom pa

/-- The runs of a range of bytes within sectors: sector number, first offset, length. -/
def sectorRuns (off len : Nat) : List (Nat × Nat × Nat) :=
  if len = 0 then []
  else (List.range ((off + len - 1) / 32 + 1 - off / 32)).map fun i =>
    let k := off / 32 + i
    let lo := max off (32 * k)
    (k, lo, min (off + len) (32 * k + 32) - lo)

/-- A message all of whose bytes are performed: the counter that it names is added to, as a release at SYS, and it is answered; it
waits while the counter's page meets MIGR, and is refused where the page is gone (R438). -/
def State.endMessage (s : State) (i : Nat) (r : PeerReq) (h : Hedge) (note : Option Word64) : State :=
  match note with
  | none => s.endJob i r 0 [] []
  | some x =>
    match s.findCtr h x needCtr with
    | .at_ pa _ =>
      { s with adds := s.adds ++ [AddReq.mk (.here (.c3 pa)) h.p.id none 1 none (some none) false] }.endJob i r 0 [] []
    | .later f => s.askOwner f
    | .missing => s.failJob i r

/-- One run of a message is performed; the last one ends the job (R438). -/
def State.writeRun (s : State) (i : Nat) (j : PeerJob) (h : Hedge) (buf off : Nat) (data : List Byte)
    (note : Option Word64) (run : Nat × Nat × Nat) : State :=
  let e := h.entry buf
  let pub := (e.map (·.pub)).getD false
  let va := ((e.map (·.vbase)).getD 0 + run.2.1) % 2 ^ 64
  match s.find h va needW with
  | .missing => s.failJob i j.req
  | .later f => s.askOwner f
  | .at_ pa _ =>
    let key : Option (Option Nat) := if pub then some none else none
    if !s.peerRoom h pub pa then (if s.logFits [(key, pa)] then s else s.wantSnap h.p.id)
    else
      match (if pub then none else s.mergeError ((List.range run.2.2).map fun i => pa + i)) with
      | some (o, a) => s.askRollback o .sdc (.home a)
      | none =>
        let t := (s.hubReach h va).peerStore h pub pa ((data.drop (run.2.1 - off)).take run.2.2)
        let done := run.1 :: j.done
        let t := { t with jobs := t.jobs.set i { j with done := done } }
        if (sectorRuns off data.length).all fun x => done.contains x.1 then t.endMessage i j.req h note else t

/-- An atomic of a peer, performed in one step (R144, R438). -/
def State.peerAtomic (s : State) (i : Nat) (r : PeerReq) (h : Hedge) (buf off : Nat) (op : AtomOp) (ty : AtomTy)
    (x : Word64) : State :=
  let e := h.entry buf
  let va := ((e.map (·.vbase)).getD 0 + off) % 2 ^ 64
  match s.find h va needRW with
  | .missing => s.failJob i r
  | .later f => s.askOwner f
  | .at_ pa _ =>
    if !s.peerRoom h false pa then s.askRoom [.home pa]
    else if (List.range (atomBytes ty)).any fun i => s.isBad (pa + i) then s.askRollback h.p.id .uncorr (.home pa)
    else
      match s.mergeError ((List.range (atomBytes ty)).map fun i => pa + i) with
      | some (o, a) => s.askRollback o .sdc (.home a)
      | none =>
        let n := atomBytes ty
        let old := s.homeReadN pa n
        ((s.hubReach h va).peerStore h false pa (leBytes n (atomNew op ty (leNat old) (x.toNat % 2 ^ (8 * n))))).endJob i r 0 old []

/-- RMA_WRITE: a sector of an RMA write, or an atomic (R438). -/
def execRmaWrite (i sector : Nat) (s : State) : Host.Outcome State Fault Refusal :=
  match s.jobs[i]? with
  | none => .next s
  | some j =>
    match s.hedge j.req.hedge with
    | none => .next s
    | some h =>
      if h.wantSnap then .next s
      else
        match j.req.op with
        | .rmaWrite buf off data note =>
          if (sectorRuns off data.length).all fun x => j.done.contains x.1 then .next (s.endMessage i j.req h note)
          else
            match (sectorRuns off data.length).find? fun x => x.1 == sector with
            | none => .next s
            | some run =>
              if j.done.contains sector || h.inWriteSet buf run.2.1 then .next s
              else .next (s.writeRun i j h buf off data note run)
        | .rmaAtomic buf off op ty x =>
          if sector != off / 32 || h.inWriteSet buf off then .next s
          else .next (s.peerAtomic i j.req h buf off op ty x)
        | _ => .next s

/-- The code stored with a sector (R409). -/
def State.storedCode (s : State) (pa : Nat) : BitVec 16 :=
  let a := s.redirect pa / 32
  (find1 s.codes a).getD (checkCode (s.homeReadN (pa / 32 * 32) 32))

/-- RMA_READ: the bytes, with the check codes of their sectors (R409, R438). -/
def execRmaRead (i : Nat) (s : State) : Host.Outcome State Fault Refusal :=
  match s.jobs[i]? with
  | none => .next s
  | some j =>
    match j.req.op, s.hedge j.req.hedge with
    | .rmaRead buf off len, some h =>
      match h.entry buf with
      | none => .next (s.failJob i j.req)
      | some e =>
        let runs := sectorRuns off len
        let found := runs.map fun x => (x, s.find h ((e.vbase + x.2.1) % 2 ^ 64) needR)
        let later := found.filterMap fun x => match x.2 with
          | .later f => some f
          | .missing | .at_ _ _ => none
        if found.any fun x => x.2 == .missing then .next (s.failJob i j.req)
        else if !later.isEmpty then .next (later.foldl State.askOwner s)
        else if runs.any fun x => h.inWriteSet buf x.2.1 then .next s
        else
          let pas := found.filterMap fun x => match x.2 with
            | .at_ pa _ => some (x.1, pa)
            | .missing | .later _ => none
          match pas.find? fun x => (s.consumeFault [.home x.2]).isSome with
          | some x =>
            .next (s.askRollback h.p.id (if s.consumeFault [.home x.2] == some .sdc then .sdc else .uncorr) (.home x.2))
          | none =>
            let t := (runs.foldl (fun (u : State) x => u.hubReach h ((e.vbase + x.2.1) % 2 ^ 64)) s).atHomes h (pas.map (·.2)) true false
            let byte (o pa : Nat) : Byte :=
              if e.fabred then s.placeByte (engineVia h.p.id) s.focus (.red e.aux o) else s.homeRead pa
            let data := pas.flatMap fun x => (List.range x.1.2.2).map fun k => byte (x.1.2.1 + k) (x.2 + k)
            let code (x : (Nat × Nat × Nat) × Nat) : BitVec 16 :=
              if e.fabred then checkCode ((List.range 32).map fun k => byte (32 * x.1.1 + k) 0) else s.storedCode x.2
            .next (t.endJob i j.req 0 data (pas.map code))
    | _, _ => .next s

/-- REDUCTION_MERGE: a contribution of a peer, performed once at its home (R440, R441). -/
def execReductionMerge (i : Nat) (s : State) : Host.Outcome State Fault Refusal :=
  match s.jobs[i]? with
  | none => .next s
  | some j =>
    match j.req.op, s.hedge j.req.hedge with
    | .contribute buf off ty c, some h =>
      if h.wantSnap then .next s
      else
        match h.entry buf with
        | none => .next (s.failJob i j.req)
        | some e => .next ((s.mergeAt h.p.id e.aux (off / atomBytes ty) c).endJob i j.req 0 [] [])
    | _, _ => .next s

/-! ## Refusals and losses on our own requests (R435 to R437) -/

/-- Route and handle of an operation that has been sent to a peer. -/
def Hedge.sentTo (h : Hedge) (o : Op) : Option (Nat × Word64) :=
  if !o.sent then none
  else
    match o.kind with
    | .ctr (.peer x) _ => some (handlePeer x, x)
    | .atom _ _ => if o.accs.isEmpty then ((h.entry o.buf).bind fun e => h.window e.aux).map fun w => (w.route, 0) else none
    | _ => none

/-- A refused or lost operation is no longer outstanding; a CNEXT lands with S[D] unchanged; a peer-refusal record tells
of it (R412, R435 to R437). -/
def State.loseOp (s : State) (gr : Group) (o : Op) (route : Nat) (handle : Word64) (code : Nat) : State :=
  let t := match o.dst with
    | .s64 d => s.landOp gr.id o (wordValue (gr.s d))
    | _ => s.mapGroup gr.id fun x => x.dropOp o.id
  let t := match o.kind with
    | .ctr _ a => t.mapHedge gr.hedge fun h => { h with farWatches := a.farWatch.toList.foldl List.erase h.farWatches }
    | _ => t
  t.reportKind gr.hedge 38 [BitVec.ofNat 64 route, handle, BitVec.ofNat 64 code]

/-- The handle of an add that has been sent to a peer. -/
def AddReq.sentTo (a : AddReq) : Option Word64 :=
  match a.target with
  | .peer x => if a.sent then some x else none
  | .here _ => none

/-- An add of a copy or watch that a peer has refused, or that is lost with its route, is not due any more; a record tells of it
(R412, R435, R437). -/
def State.loseAdd (s : State) (a : AddReq) (x : Word64) (code : Nat) : State :=
  { s with adds := s.adds.erase a }.reportKind a.hedge 38 [BitVec.ofNat 64 (handlePeer x), x, BitVec.ofNat 64 code]

/-- PEER_REFUSAL: a peer has refused operation p of a group, or without a group add p of those that are on their way (R435,
R436). -/
def execPeerRefusal (g : Option Nat) (p code : Nat) (s : State) : Host.Outcome State Fault Refusal :=
  match g with
  | none => .next (((s.adds[p]?).bind fun a => a.sentTo.map fun x => s.loseAdd a x code).getD s)
  | some g =>
  match s.group g with
  | none => .next s
  | some gr =>
    match gr.pend.find? (fun o => o.id == p), s.hedge gr.hedge with
    | some o, some h =>
      match h.sentTo o with
      | some (route, x) => .next (s.loseOp gr o route x code)
      | none => .next s
    | _, _ => .next s

/-- ROUTE_TIMEOUT: the operations on a route that are not acknowledged are dropped (R437). -/
def execRouteTimeout (hedge route : Nat) (s : State) : Host.Outcome State Fault Refusal :=
  match s.hedge hedge with
  | none => .next s
  | some h =>
    let t := (s.groups.filter fun g => g.hedge == hedge).foldl (fun t g =>
      g.pend.foldl (fun u o => match h.sentTo o with
        | some (r, x) => if r == route then u.loseOp g o r x eaddr else u
        | none => u) t) s
    .next ((s.adds.filter fun a => a.hedge == hedge).foldl (fun u a => match a.sentTo with
      | some x => if handlePeer x == route then u.loseAdd a x eaddr else u
      | none => u) t)

/-! ## Bring-up (R443 to R445) -/

/-- An image passes: its signature holds, and its security version is not below the fused minimum of its stage. -/
def imageOk (stage : Nat) (image : List Byte) : Bool :=
  Config.imageSigned image && decide ((Config.minVersion stage).toNat ≤ (Config.imageVersion image).toNat)

/-- A stage's measurement register is extended, M := SHAKE256(M ∥ SHAKE256(image)), before the image runs (R444). -/
def State.measure (s : State) (stage : Fin 4) (image : List Byte) : State :=
  { s with
    meas := s.meas.set stage (shakeWord (leBytes 32 s.meas[stage].toNat ++ shake256 image))
    versions := s.versions.set stage (Config.imageVersion image) }

/-- An image is loaded by the stage that runs: measured and run, or refused (R443). -/
def State.load (s : State) (stage : Fin 4) (image : List Byte) (good : Stage) (bad : State) : State :=
  if imageOk stage image then { s.measure stage image with stage := good } else bad

/-- Management core firmware is loaded into the SRAM of a die's management core (R300, R443). -/
def State.loadMgmt (s : State) (die : Nat) (image : List Byte) (next : Stage) : State :=
  { s.mapMgmt die (fun m => { m with sram := image.take 262144 }) with stage := next }

/-- The management firmware is one stage: what the second core loads is the image that the first one has loaded, and which has been
measured (R443, R444; log 59, DEDUCED). -/
def State.sameMgmt (s : State) (image : List Byte) : Bool :=
  s.deadDies.contains 0 || (s.mgmt[0]?).all fun m => m.sram == image.take 262144

/-- BOOT: the next image of the boot sequence; in recovery a signed image starts it over (R443) (log 59, DEDUCED). -/
def execBoot (image : List Byte) (s : State) : Host.Outcome State Fault Refusal :=
  let fenced (d : Nat) (next : Stage) : State :=
    { s with stage := next, deadDies := s.deadDies ++ [d] }.logEvent .bootFailure
  let recovery : State := { s with stage := .recovery }.logEvent .bootFailure
  match s.stage with
  | .rom => .next (s.load 0 image .loader { s with stage := .romB })
  | .romB => .next (s.load 0 image .loader recovery)
  | .loader => .next (s.load 1 image .kernel { s with stage := .loaderB })
  | .loaderB => .next (s.load 1 image .kernel recovery)
  | .kernel => .next (if imageOk 2 image then (s.measure 2 image).loadMgmt 0 image .mgmt else fenced 0 .mgmt)
  | .mgmt =>
    let t := if s.deadDies.contains 0 then s.measure 2 image else s
    .next (if imageOk 2 image && s.sameMgmt image then t.loadMgmt 1 image .gdie else fenced 1 .gdie)
  | .gdie => .next (s.load 3 image .up ({ s with stage := .up, noGDie := true }.logEvent .bootFailure))
  | .up => .next s
  | .recovery => .next ({ s with meas := Vector.replicate 4 0, versions := Vector.replicate 4 0 }.load 0 image .loader s)

/-- The part number, ASCII, padded with zeros to 16 bytes (R445). -/
def partNumber : List Byte := [0x45, 0x42, 0x39, 0x2D, 0x32, 0x4D, 0x31, 0x48, 0, 0, 0, 0, 0, 0, 0, 0]

/-- Bytes 0x000 to 0x1FF of the report (R445). -/
def State.reportBody (s : State) (h : Hedge) (nonce : BitVec 256) : List Byte :=
  leBytes 8 (2 ^ 56 + h.p.id) ++ partNumber ++ leBytes 32 Config.deviceId.toNat ++ leBytes 32 Config.rootKeyId.toNat ++
    (s.meas.toList.flatMap fun m => leBytes 32 m.toNat) ++ (s.versions.toList.flatMap fun v => leBytes 8 v.toNat) ++
    leBytes 32 offered.toNat ++ leBytes 32 h.features.toNat ++ shake256 (Config.paramBytes h.p) ++ leBytes 32 nonce.toNat ++
    List.replicate 136 0

/-- ATTESTATION_REPORT: signed with the attestation key, by a signature of 29,792 bytes, and handed to the guest kernel (R445). -/
def execAttestationReport (hedge : Nat) (nonce : BitVec 256) (s : State) : Host.Outcome State Fault Refusal :=
  match s.hedge hedge with
  | none => .next s
  | some h =>
    let body := s.reportBody h nonce
    .next (s.send (.report hedge (body ++ (Config.signature 1 body ++ List.replicate 29792 0).take 29792)))

/-! ## Clocks, the management core and the CXL ports (R305, R352, R362) -/

/-- The hedges with work on an island: a core's, or from 512 on a G-die core's, which belongs to the hedges that own it. -/
def State.hedgesOn (s : State) (core : Nat) : List Nat :=
  if core < 512 then ((s.wgs.filter fun w => w.core == some core).map (·.hedge)).eraseDups
  else (s.hedges.filter fun h => h.p.gCores.contains (core - 512)).map fun h => h.p.id

/-- A clock that the service kernel can set: 400 to 1600 MHz in steps of 100 (R351). -/
def clockOk (mhz : Nat) : Bool := decide (400 ≤ mhz) && decide (mhz ≤ 1600) && mhz % 100 == 0

/-- The clock of an island. -/
def State.clock (s : State) (core : Nat) : Nat :=
  if core < 512 then (s.core core).mhz else (find1 s.gclocks (core - 512)).getD 1600

/-- An island's clock set; a crossbar port's island runs at the clock of its core's (R351). -/
def State.setClock (s : State) (core mhz : Nat) : State :=
  if core < 512 then s.mapCore core fun k => { k with mhz := mhz }
  else { s with gclocks := put1 s.gclocks (core - 512) mhz }

/-- CLOCK_CHANGE: the clock of the island of a core, or from 512 on of a G-die core; a change forced by power or temperature
is logged and told of (R351, R352, R412, R413) (log 64, DEDUCED). -/
def execClockChange (core mhz : Nat) (forced : Bool) (s : State) : Host.Outcome State Fault Refusal :=
  let old := s.clock core
  let t := s.setClock core mhz
  if !clockOk mhz || 576 ≤ core then .next s
  else if !forced then .next t
  else
    .next ((s.hedgesOn core).foldl (fun u h =>
      (u.reportKind h 35 [BitVec.ofNat 64 core, BitVec.ofNat 64 old, BitVec.ofNat 64 mhz]).countEvent h .clocks)
      (t.logEvent (.clock core old mhz)))

/-- MGMT_CORE_RESET: its queues are lost, the waiting traps are presented again, and requests that are not complete are repeated from
their first step (R305). -/
def execMgmtCoreReset (die : Nat) (s : State) : Host.Outcome State Fault Refusal :=
  match s.mgmt[die]? with
  | none => .next s
  | some m =>
    .next ((m.queue.foldl (fun t x => t.mapGroup x.2 fun g =>
      if g.emu == .queued then { g with emu := .trapped } else g)
      (s.mapMgmt die fun x => { x with queue := [], requests := x.requests.map fun r => { r with taken := false } })).logEvent
      (.mgmt die))

/-- CXL_LINK_LOSS: the frames behind the port are unreachable (R362). -/
def execCxlLinkLoss (port : Nat) (s : State) : Host.Outcome State Fault Refusal :=
  if 8 ≤ port || s.cxlDown.contains port then .next s
  else .next ({ s with cxlDown := s.cxlDown ++ [port] }.logEvent (.link port))

/-! ## The service kernel's tables (R244, R359, R433, R439, R440, R447) -/

/-- An interleave entry is not refused (R359). -/
def Hedge.interleaveOk (h : Hedge) (w0 w1 : Word64) : Bool :=
  w0.extractLsb' 60 4 == 0 && w0.extractLsb' 48 8 == 0 && w1.extractLsb' 16 48 == 0 &&
    decide ((w0.extractLsb' 56 4).toNat ≤ 8) && w0.extractLsb' 0 48 &&& ~~~h.p.cmask == 0 &&
    w1.extractLsb' 0 16 &&& ~~~h.p.lmask == 0

/-- The service kernel's CINIT, which has the effect and the refusal of R213 (R353). -/
def State.presetCtr (s : State) (h : Hedge) (handle value : Word64) : State :=
  if handleClass handle == 0 || handlePeer handle != 0 || !h.handleOk useAdd handle then s
  else
    match s.handleAt h 0 handle with
    | some (.here k) => if s.ctrBusy k then s else (s.tagCtr k none .sys 0 h.p.id).setCtr k value
    | some (.peer _) | none => s

/-- SERVICE_TABLE_WRITE: an entry of a table of the hedge; accumulators are zero when their window is installed and when
they are cleared; the pool's extents, which shrink over frames that nothing uses and the hedges' quotas leave; and a hedge's pool
key (R244, R359, R361, R362, R364, R433, R439, R440, R447). -/
def execServiceTableWrite (w : TableWrite) (s : State) : Host.Outcome State Fault Refusal :=
  let on (hedge : Nat) (ok : Hedge → Bool) (f : Hedge → Hedge) : Host.Outcome State Fault Refusal :=
    match s.hedge hedge with
    | none => .next s
    | some h => if ok h then .next (s.mapHedge hedge f) else .next s
  match w with
  | .interleave hedge i w0 w1 =>
    on hedge (fun h => 1 ≤ i && i < 16 && h.interleaveOk w0 w1) fun h =>
      { h with interleave := put1 h.interleave i [w0, w1] }
  | .route hedge i w0 w1 w2 w3 =>
    on hedge (fun _ => 1 ≤ i && i < 4096) fun h => { h with routes := put1 h.routes i [w0, w1, w2, w3] }
  | .bank hedge i w0 w1 w2 w3 =>
    on hedge (fun h => i < 1024 && h.features.getLsbD 5) fun h => { h with banks := put1 h.banks i [w0, w1, w2, w3] }
  | .window hedge i w0 w1 w2 w3 =>
    on hedge (fun h => i < 1024 && h.features.getLsbD 6) fun h =>
      { h with windows := put1 h.windows i [w0, w1, w2, w3], accs := h.accs.filter fun p => p.1.1 != i }
  | .cinit hedge handle value =>
    match s.hedge hedge with
    | none => .next s
    | some h => .next (s.presetCtr h handle value)
  | .clearAcc hedge i word => on hedge (fun _ => true) fun h => { h with accs := del1 h.accs (i, word) }
  | .extents n =>
    let base := (tierFrames .pool).1
    if decide (base + n ≤ (tierFrames .pool).2) && s.usedFrames.all (fun f => decide (f < base + n) || decide ((tierFrames .pool).2 ≤ f)) &&
        decide ((s.hedges.map fun h => h.p.quotaPool).sum ≤ n) then
      .next { s with poolFrames := n }
    else .next s
  | .poolKey hedge k => if (s.hedge hedge).isSome then .next (s.loadKey hedge true k) else .next s

/-! ## The G-die (R328) -/

/-- A G-die core's thread; one that has done nothing yet holds nothing (log 11, DESIGN CHOICE). -/
def State.hart (s : State) (i : Nat) : Hart := (find1 s.harts i).getD ⟨none, 0, false, none, [], []⟩

/-- The state with a thread changed. -/
def State.setHart (s : State) (i : Nat) (f : Hart → Hart) : State := { s with harts := put1 s.harts i (f (s.hart i)) }

/-- Bytes of an access, its needs, and whether it is LR, SC or an AMO (R328). -/
def gBytes : GOp → Nat
  | .load n | .store n _ | .lr n _ _ | .sc n _ _ _ | .amo n _ _ _ _ => n
  | .fence _ _ | .send _ _ | .ctr _ _ => 0

/-- The needs of an access. -/
def gNeed : GOp → Need
  | .load _ | .lr _ _ _ | .fence _ _ | .send _ _ | .ctr _ _ => needR
  | .store _ _ | .sc _ _ _ _ => needW
  | .amo _ _ _ _ _ => needRW

/-- LR, SC and AMOs, which are never misaligned, are of 4 or 8 bytes. -/
def gReserves : GOp → Bool
  | .lr _ _ _ | .sc _ _ _ _ | .amo _ _ _ _ _ => true
  | .load _ | .store _ _ | .fence _ _ | .send _ _ | .ctr _ _ => false

/-- The acquire bit. -/
def gAq : GOp → Bool
  | .lr _ a _ | .sc _ a _ _ | .amo _ _ a _ _ | .ctr _ a => a
  | .load _ | .store _ _ | .fence _ _ | .send _ _ => false

/-- A width that the access may have. -/
def gWidthOk (o : GOp) : Bool := if (gReserves o) then (gBytes o) == 4 || (gBytes o) == 8 else [1, 2, 4, 8].contains (gBytes o)

/-- The new memory value of an AMO. -/
def amoNew (op : AmoOp) (w m v : Nat) : Nat :=
  let sg (x : Nat) : Int := (BitVec.ofNat w x).toInt
  match op with
  | .swap => v
  | .add => (m + v) % 2 ^ w
  | .and => m &&& v
  | .or => m ||| v
  | .xor => m ^^^ v
  | .min => if sg v < sg m then v else m
  | .max => if sg m < sg v then v else m
  | .minu => if v < m then v else m
  | .maxu => if m < v then v else m

/-- The guest virtual address is a word of a COUNTER buffer of the hedge. -/
def Hedge.counterAt (h : Hedge) (va : Nat) : Bool :=
  h.bufs.any fun b =>
    match h.entry b.1 with
    | some e => e.counter && decide (e.vbase ≤ va) && decide (va + 8 ≤ e.vbase + e.len) && va % 8 == 0
    | none => false

/-- The guest virtual address lies in a COUNTER buffer of the hedge. -/
def Hedge.inCounter (h : Hedge) (va : Nat) : Bool :=
  h.bufs.any fun b =>
    match h.entry b.1 with
    | some e => e.counter && decide (e.vbase ≤ va) && decide (va < e.vbase + e.len)
    | none => false

/-- The access is CADD of a counter: AMOADD.D on a word of a COUNTER buffer (R328). -/
def Hedge.addsCounter (h : Hedge) (va : Nat) (op : GOp) : Bool :=
  match op with
  | .amo 8 .add _ _ _ => h.counterAt va
  | _ => false

/-- A thread may make the access: only CINIT and adds change a counter, and an add is below 2^63 (R203, R328; log 83, DESIGN
CHOICE). -/
def Hedge.gAllows (h : Hedge) (va : Nat) (op : GOp) : Bool :=
  !(gNeed op).wr || !((List.range (gBytes op)).any fun i => h.inCounter ((va + i) % 2 ^ 64)) ||
    (h.addsCounter va op && match op with
      | .amo _ _ _ _ d => !d.msb
      | _ => false)

/-- Bytes at addresses stored at their homes, each a strong store at SYS (R328). -/
def State.gStore (s : State) (h : Hedge) (pas : List Nat) (bs : List Byte) : State :=
  (pas.zip bs).foldl (fun t x => (t.homeWrite x.1 x.2).tagStore x.1 none .sys 0 h.p.id) s

/-- A read of a thread meets the release tags of what it reads: an acquire promotes them, any other read leaves them for a
later FENCE r,rw (R321, R322, R328). -/
def State.gMeet (s : State) (hart : Nat) (acq ctr : Bool) (pas : List Nat) : State :=
  let all (_ : RelTag) : Bool := true
  let key : CtrKey := .c3 (pas.headD 0)
  if acq then
    let t := pas.foldl (fun u a => u.promote a all) s
    if ctr then t.promoteCtr key all else t
  else
    s.setHart hart fun k =>
      { k with
        metTags := (k.metTags ++ pas.filterMap fun a => (s.tagOf a).map fun x => (a / 512, x)).eraseDups
        metCtrs := (k.metCtrs ++ if ctr then (s.ctr key).tag.toList.map fun x => (key, x) else []).eraseDups }

/-- FENCE r,rw of a thread: the releases that its loads have met are promoted (R320, R321, R328). Its own stores are at their
homes as they are performed, so that the release part of a fence has nothing to do. -/
def State.gFence (s : State) (hart : Nat) : State :=
  let k := s.hart hart
  let t := k.metTags.foldl (fun u p => if u.tagOf (p.1 * 512) == some p.2 then u.promote (p.1 * 512) fun _ => true else u) s
  let t := k.metCtrs.foldl (fun u p => if (u.ctr p.1).tag == some p.2 then u.promoteCtr p.1 fun _ => true else u) t
  t.setHart hart fun x => { x with metTags := [], metCtrs := [] }

/-- The value that an access returns to its thread. -/
def State.gReturn (s : State) (hart x : Nat) : State :=
  s.setHart hart fun k => { k with value := BitVec.ofNat 64 x, raised := false, todo := none }

/-- An access of a thread that may be performed: the addresses of its bytes; otherwise what comes of it: an exception, a wait,
a snapshot or a rollback that it asks for (R139, R328, R401, R405, R406, R410). -/
def State.gReach (s : State) (hart : Nat) (h : Hedge) (vas : List Nat) (n : Need) : Except State (List Nat) :=
  let found := vas.map fun a => s.find h a n
  let pas := found.filterMap fun x => match x with
    | .at_ pa _ => some pa
    | .missing | .later _ => none
  let later := found.filterMap fun x => match x with
    | .later f => some f
    | .missing | .at_ _ _ => none
  let ps := pas.map Place.home
  if found.contains .missing then .error (s.setHart hart fun k => { k with raised := true, todo := none })
  else if !later.isEmpty then .error (later.foldl State.askOwner s)
  else if vas.any h.specCovers then .error s
  else if n.wr && !s.placesRoom true ps then .error (s.askRoom ps)
  else
    match (if n.rd then s.consumeFault ps else none), (if n.wr then s.mergeError pas else none) with
    | some c, _ => .error (s.askRollback h.p.id (if c == .sdc then .sdc else .uncorr) (.home (pas.headD 0)))
    | none, some (o, a) => .error (s.askRollback o .sdc (.home a))
    | none, none => .ok pas

/-- An aligned access performed at its home as a strong access at SYS (R322, R328). -/
def State.gPerform (s : State) (hart : Nat) (h : Hedge) (va : Nat) (pas : List Nat) (op : GOp) : State :=
  let n := gBytes op
  let pa := pas.headD 0
  let need := gNeed op
  let s := (s.hubReach h va).atHomes h pas need.rd need.wr
  let s := if need.rd then s.gMeet hart (gAq op) (n == 8 && h.counterAt va) pas else s
  let old := leNat (pas.map s.homeRead)
  match op with
  | .load _ => s.gReturn hart old
  | .lr _ _ _ => (s.gReturn hart old).setHart hart fun k => { k with reserved := some (pa, n) }
  | .store _ d => (s.gStore h pas (leBytes n d.toNat)).setHart hart fun k => { k with raised := false, todo := none }
  | .sc _ _ _ d =>
    let ok := (s.hart hart).reserved == some (pa, n)
    let t := if ok then s.gStore h pas (leBytes n d.toNat) else s
    (t.gReturn hart (if ok then 0 else 1)).setHart hart fun k => { k with reserved := none }
  | .amo _ o _ _ d =>
    if h.addsCounter va op then ((s.tagCtr (.c3 pa) none .sys 0 h.p.id).addCtr (.c3 pa) d.toNat).gReturn hart old
    else (s.gStore h pas (leBytes n (amoNew o (8 * n) old (d.toNat % 2 ^ (8 * n))))).gReturn hart old
  | .fence _ _ | .send _ _ | .ctr _ _ => s

/-- The next byte of a misaligned load or store, which is performed byte by byte, the lowest first (R138, R328; log 63,
PRESUMED). -/
def State.gByte (s : State) (hart : Nat) (h : Hedge) (va : Nat) (op : GOp) : State :=
  let done := match (s.hart hart).todo with
    | some (a, bs) => if a == va then bs else []
    | none => []
  let need := gNeed op
  match s.gReach hart h [(va + done.length) % 2 ^ 64] need with
  | .error t => t
  | .ok pas =>
    let t := (s.hubReach h ((va + done.length) % 2 ^ 64)).atHomes h pas need.rd need.wr
    let (t, b) : State × Byte := match op with
      | .store n d => let b := (leBytes n d.toNat).getD done.length 0; (t.gStore h pas [b], b)
      | _ => (t.gMeet hart false false pas, t.homeRead (pas.headD 0))
    let bs := done ++ [b]
    if bs.length < gBytes op then t.setHart hart fun k => { k with raised := false, todo := some (va, bs) }
    else if need.rd then t.gReturn hart (leNat bs)
    else t.setHart hart fun k => { k with raised := false, todo := none }

/-- A thread reads a counter of the hedge by its handle, as CRD at SYS with the read's order; a handle that names none raises an
exception (R202, R217, R321, R328, R429; log 63, PRESUMED). -/
def State.gCtr (s : State) (hart : Nat) (h : Hedge) (x : Word64) (acq : Bool) : State :=
  let fails : State := s.setHart hart fun k => { k with raised := true, todo := none }
  if handleClass x == 0 || !h.handleOk useRead x then fails
  else
    match s.handleAt h 0 x needR with
    | some (.here k) =>
      let t := if acq then s.promoteCtr k fun _ => true
        else s.setHart hart fun y => { y with metCtrs := (y.metCtrs ++ (s.ctr k).tag.toList.map fun r => (k, r)).eraseDups }
      t.gReturn hart (t.ctrView k h.p.id 0).toNat
    | some (.peer _) | none => fails

/-- Software of the hedge's threads sends bytes to another package (R432); they count for a rollback's record (R406). -/
def State.transfer (s : State) (hedge : Nat) (f : BitVec 48) (data : List Byte) : State :=
  (s.send (.transfer f hedge data)).mapHedge hedge fun h => { h with sentBytes := h.sentBytes + data.length }

/-- G_DIE_ACCESS: a G-die core that the hedge owns makes an access or a fence, or sends bytes (R432); a misaligned LR, SC or AMO, and a page that
does not allow it, raise an exception on the hart and perform nothing (R328). An access that has to wait, and one with bytes
still to do, is made again until it is performed; it is paused while a snapshot is taken (R403) (log 63, PRESUMED). -/
def execGDieAccess (hart hedge : Nat) (va : Word64) (op : GOp) (s : State) : Host.Outcome State Fault Refusal :=
  match s.hedge hedge with
  | none => .next s
  | some h =>
    if !h.p.gCores.contains hart || h.wantSnap then .next s
    else
      match op with
      | .fence acq _ => .next (if acq then s.gFence hart else s)
      | .send f data => .next (s.transfer hedge f data)
      | .ctr x acq => .next (s.gCtr hart h x acq)
      | _ =>
        let mis := va.toNat % gBytes op != 0
        if !gWidthOk op then .next s
        else if (gReserves op && mis) || !h.gAllows va.toNat op then
          .next (s.setHart hart fun k => { k with raised := true, todo := none })
        else if mis then .next (s.gByte hart h va.toNat op)
        else
          let n := gNeed op
          match s.gReach hart h ((List.range (gBytes op)).map fun i => (va.toNat + i) % 2 ^ 64)
            { n with ctr := h.addsCounter va.toNat op } with
          | .error t => .next t
          | .ok pas => .next (s.gPerform hart h va.toNat pas op)

end Sys2Proof.Machine
end

