-- ==== Sys2Proof/Machine/Dispatch.lean ====
section
/-! DEFINITION. Dispatch: one arm for every constructor of `Instr`, each a direct call of its meaning. -/

namespace Sys2Proof.Machine

def exec (i : Instr) (s : State) : Host.Outcome State Fault Refusal :=
  match i with
  | .smov g d a => Sys2Proof.Machine.execSmov g d a s
  | .sli g d imm => Sys2Proof.Machine.execSli g d imm s
  | .slih g d imm => Sys2Proof.Machine.execSlih g d imm s
  | .sadd g m d a b => Sys2Proof.Machine.execSadd g m d a b s
  | .saddImm g d a imm => Sys2Proof.Machine.execSaddImm g d a imm s
  | .ssub g m d a b => Sys2Proof.Machine.execSsub g m d a b s
  | .ssubImm g d a imm => Sys2Proof.Machine.execSsubImm g d a imm s
  | .smul g m d a b => Sys2Proof.Machine.execSmul g m d a b s
  | .smulImm g d a imm => Sys2Proof.Machine.execSmulImm g d a imm s
  | .smulh g n d a b => Sys2Proof.Machine.execSmulh g n d a b s
  | .smulhImm g d a imm => Sys2Proof.Machine.execSmulhImm g d a imm s
  | .sand g d a b => Sys2Proof.Machine.execSand g d a b s
  | .sandImm g d a imm => Sys2Proof.Machine.execSandImm g d a imm s
  | .sor g d a b => Sys2Proof.Machine.execSor g d a b s
  | .sorImm g d a imm => Sys2Proof.Machine.execSorImm g d a imm s
  | .sxor g d a b => Sys2Proof.Machine.execSxor g d a b s
  | .sxorImm g d a imm => Sys2Proof.Machine.execSxorImm g d a imm s
  | .sshl g d a b => Sys2Proof.Machine.execSshl g d a b s
  | .sshlImm g d a imm => Sys2Proof.Machine.execSshlImm g d a imm s
  | .sshr g d a b => Sys2Proof.Machine.execSshr g d a b s
  | .sshrImm g d a imm => Sys2Proof.Machine.execSshrImm g d a imm s
  | .ssra g d a b => Sys2Proof.Machine.execSsra g d a b s
  | .ssraImm g d a imm => Sys2Proof.Machine.execSsraImm g d a imm s
  | .smin g n d a b => Sys2Proof.Machine.execSmin g n d a b s
  | .sminImm g d a imm => Sys2Proof.Machine.execSminImm g d a imm s
  | .smax g n d a b => Sys2Proof.Machine.execSmax g n d a b s
  | .smaxImm g d a imm => Sys2Proof.Machine.execSmaxImm g d a imm s
  | .sclz g d a => Sys2Proof.Machine.execSclz g d a s
  | .spop g d a => Sys2Proof.Machine.execSpop g d a s
  | .sbfe g ir d a b => Sys2Proof.Machine.execSbfe g ir d a b s
  | .sbfi g d a b c => Sys2Proof.Machine.execSbfi g d a b c s
  | .scmp g d a b => Sys2Proof.Machine.execScmp g d a b s
  | .scmpImm g d a imm => Sys2Proof.Machine.execScmpImm g d a imm s
  | .ssel g mask d a b c => Sys2Proof.Machine.execSsel g mask d a b c s
  | .sld g f m d => Sys2Proof.Machine.execSld g f m d s
  | .sst g f m d => Sys2Proof.Machine.execSst g f m d s
  | .sldk g d a imm => Sys2Proof.Machine.execSldk g d a imm s
  | .vmovsVs g tag hi d a => Sys2Proof.Machine.execVmovsVs g tag hi d a s
  | .vmovsSv g d a b => Sys2Proof.Machine.execVmovsSv g d a b s
  | .vmovsPs g d a => Sys2Proof.Machine.execVmovsPs g d a s
  | .vmovsSp g d a => Sys2Proof.Machine.execVmovsSp g d a s
  | .vmovsDs g d a => Sys2Proof.Machine.execVmovsDs g d a s
  | .vadd g m d a b => Sys2Proof.Machine.execVadd g m d a b s
  | .vsub g m d a b => Sys2Proof.Machine.execVsub g m d a b s
  | .vmul g m d a b => Sys2Proof.Machine.execVmul g m d a b s
  | .vmulh g n d a b => Sys2Proof.Machine.execVmulh g n d a b s
  | .vmad g m d a b c => Sys2Proof.Machine.execVmad g m d a b c s
  | .vmadw g m d a b c => Sys2Proof.Machine.execVmadw g m d a b c s
  | .vabs g sat d a => Sys2Proof.Machine.execVabs g sat d a s
  | .vmin g n d a b => Sys2Proof.Machine.execVmin g n d a b s
  | .vmax g n d a b => Sys2Proof.Machine.execVmax g n d a b s
  | .vcmp g cc n d a b => Sys2Proof.Machine.execVcmp g cc n d a b s
  | .vsel g d a b c => Sys2Proof.Machine.execVsel g d a b c s
  | .vmov g d a => Sys2Proof.Machine.execVmov g d a s
  | .vli g tag d imm => Sys2Proof.Machine.execVli g tag d imm s
  | .vand g d a b => Sys2Proof.Machine.execVand g d a b s
  | .vor g d a b => Sys2Proof.Machine.execVor g d a b s
  | .vxor g d a b => Sys2Proof.Machine.execVxor g d a b s
  | .vnot g d a => Sys2Proof.Machine.execVnot g d a s
  | .vshl g d a b => Sys2Proof.Machine.execVshl g d a b s
  | .vshr g d a b => Sys2Proof.Machine.execVshr g d a b s
  | .vsra g d a b => Sys2Proof.Machine.execVsra g d a b s
  | .vrot g d a b => Sys2Proof.Machine.execVrot g d a b s
  | .vclz g d a => Sys2Proof.Machine.execVclz g d a s
  | .vpop g d a => Sys2Proof.Machine.execVpop g d a s
  | .vbfe g ir lenM1 pos d a => Sys2Proof.Machine.execVbfe g ir lenM1 pos d a s
  | .vbfi g lenM1 pos d a b => Sys2Proof.Machine.execVbfi g lenM1 pos d a b s
  | .vbrev g d a => Sys2Proof.Machine.execVbrev g d a s
  | .vpermb g d a b c => Sys2Proof.Machine.execVpermb g d a b c s
  | .fadd g nb rnd d a b => Sys2Proof.Machine.execFadd g nb rnd d a b s
  | .fsub g nb rnd d a b => Sys2Proof.Machine.execFsub g nb rnd d a b s
  | .fmul g nb rnd d a b => Sys2Proof.Machine.execFmul g nb rnd d a b s
  | .ffma g nc nb rnd d a b c => Sys2Proof.Machine.execFfma g nc nb rnd d a b c s
  | .fmin g d a b => Sys2Proof.Machine.execFmin g d a b s
  | .fmax g d a b => Sys2Proof.Machine.execFmax g d a b s
  | .fcmp g cc d a b => Sys2Proof.Machine.execFcmp g cc d a b s
  | .fclass g dbl d a => Sys2Proof.Machine.execFclass g dbl d a s
  | .frnd g dbl rnd d a => Sys2Proof.Machine.execFrnd g dbl rnd d a s
  | .hadd2 g bf nb rnd d a b => Sys2Proof.Machine.execHadd2 g bf nb rnd d a b s
  | .hmul2 g bf nb rnd d a b => Sys2Proof.Machine.execHmul2 g bf nb rnd d a b s
  | .hfma2 g bf nc nb rnd d a b c => Sys2Proof.Machine.execHfma2 g bf nc nb rnd d a b c s
  | .hmin2 g bf d a b => Sys2Proof.Machine.execHmin2 g bf d a b s
  | .hmax2 g bf d a b => Sys2Proof.Machine.execHmax2 g bf d a b s
  | .dadd g nb rnd d a b => Sys2Proof.Machine.execDadd g nb rnd d a b s
  | .dmul g nb rnd d a b => Sys2Proof.Machine.execDmul g nb rnd d a b s
  | .dfma g nc nb rnd d a b c => Sys2Proof.Machine.execDfma g nc nb rnd d a b c s
  | .dcmp g cc d a b => Sys2Proof.Machine.execDcmp g cc d a b s
  | .dmin g d a b => Sys2Proof.Machine.execDmin g d a b s
  | .dmax g d a b => Sys2Proof.Machine.execDmax g d a b s
  | .fdiv g rnd d a b => Sys2Proof.Machine.execFdiv g rnd d a b s
  | .fsqrt g rnd d a => Sys2Proof.Machine.execFsqrt g rnd d a s
  | .frcp g rnd d a => Sys2Proof.Machine.execFrcp g rnd d a s
  | .frsq g rnd d a => Sys2Proof.Machine.execFrsq g rnd d a s
  | .fexp2 g rnd d a => Sys2Proof.Machine.execFexp2 g rnd d a s
  | .flog2 g rnd d a => Sys2Proof.Machine.execFlog2 g rnd d a s
  | .fsin g rnd d a => Sys2Proof.Machine.execFsin g rnd d a s
  | .fcos g rnd d a => Sys2Proof.Machine.execFcos g rnd d a s
  | .cvt g dst src sat rnd d a => Sys2Proof.Machine.execCvt g dst src sat rnd d a s
  | .tags g tag d a => Sys2Proof.Machine.execTags g tag d a s
  | .tagrd g tile d a => Sys2Proof.Machine.execTagrd g tile d a s
  | .dot4 g m d a b c => Sys2Proof.Machine.execDot4 g m d a b c s
  | .dot8 g m d a b c => Sys2Proof.Machine.execDot8 g m d a b c s
  | .pack g f sat rnd d a => Sys2Proof.Machine.execPack g f sat rnd d a s
  | .unpk g f d a => Sys2Proof.Machine.execUnpk g f d a s
  | .shfl g seg m d a b => Sys2Proof.Machine.execShfl g seg m d a b s
  | .vote g d a mm => Sys2Proof.Machine.execVote g d a mm s
  | .redx g k d a mm => Sys2Proof.Machine.execRedx g k d a mm s
  | .scanx g k ex d a mm => Sys2Proof.Machine.execScanx g k ex d a mm s
  | .bcast g src d a => Sys2Proof.Machine.execBcast g src d a s
  | .matchx g d a mm => Sys2Proof.Machine.execMatchx g d a mm s
  | .lbind g w => Sys2Proof.Machine.execLbind g w s
  | .lfree g => Sys2Proof.Machine.execLfree g s
  | .ladd g trap k d a b => Sys2Proof.Machine.execLadd g trap k d a b s
  | .lsub g trap k d a b => Sys2Proof.Machine.execLsub g trap k d a b s
  | .lshl g trap k d a b => Sys2Proof.Machine.execLshl g trap k d a b s
  | .lshr g trap ar k d a b => Sys2Proof.Machine.execLshr g trap ar k d a b s
  | .lmuls g trap k d a b c => Sys2Proof.Machine.execLmuls g trap k d a b c s
  | .lcmp g cc ar d a b => Sys2Proof.Machine.execLcmp g cc ar d a b s
  | .lneg g k d a => Sys2Proof.Machine.execLneg g k d a s
  | .lclz g d a => Sys2Proof.Machine.execLclz g d a s
  | .ld g f m d => Sys2Proof.Machine.execLd g f m d s
  | .st g f m d => Sys2Proof.Machine.execSt g f m d s
  | .ldx g f m d => Sys2Proof.Machine.execLdx g f m d s
  | .stx g f m d => Sys2Proof.Machine.execStx g f m d s
  | .ldsp g f m d => Sys2Proof.Machine.execLdsp g f m d s
  | .stsp g f m d => Sys2Proof.Machine.execStsp g f m d s
  | .pfx g f sr off a => Sys2Proof.Machine.execPfx g f sr off a s
  | .cfl g f scope sr off a => Sys2Proof.Machine.execCfl g f scope sr off a s
  | .cinv g f scope sr off a => Sys2Proof.Machine.execCinv g f scope sr off a s
  | .atom g op ty m d => Sys2Proof.Machine.execAtom g op ty m d s
  | .atomc g ty m d => Sys2Proof.Machine.execAtomc g ty m d s
  | .red g op ty m d => Sys2Proof.Machine.execRed g op ty m d s
  | .fence g k scope => Sys2Proof.Machine.execFence g k scope s
  | .fencee g => Sys2Proof.Machine.execFencee g s
  | .place g tier buf off a => Sys2Proof.Machine.execPlace g tier buf off a s
  | .pin g buf off a => Sys2Proof.Machine.execPin g buf off a s
  | .unpin g buf off a => Sys2Proof.Machine.execUnpin g buf off a s
  | .mcrdPage g d a b => Sys2Proof.Machine.execMcrdPage g d a b s
  | .mcrdQuota g d => Sys2Proof.Machine.execMcrdQuota g d s
  | .cadd g m a b => Sys2Proof.Machine.execCadd g m a b s
  | .caddImm g ord scope a imm => Sys2Proof.Machine.execCaddImm g ord scope a imm s
  | .cnext g m d a b => Sys2Proof.Machine.execCnext g m d a b s
  | .cwait g m a b => Sys2Proof.Machine.execCwait g m a b s
  | .ctest g m d a b => Sys2Proof.Machine.execCtest g m d a b s
  | .crd g m d a => Sys2Proof.Machine.execCrd g m d a s
  | .cinit g m a b => Sys2Proof.Machine.execCinit g m a b s
  | .clink g e a b => Sys2Proof.Machine.execClink g e a b s
  | .clinkU g a => Sys2Proof.Machine.execClinkU g a s
  | .cwatch g m a b c d => Sys2Proof.Machine.execCwatch g m a b c d s
  | .cpy g p scope a b => Sys2Proof.Machine.execCpy g p scope a b s
  | .cpyg g sc p scope a b c => Sys2Proof.Machine.execCpyg g sc p scope a b c s
  | .cpys g p scope a b c => Sys2Proof.Machine.execCpys g p scope a b c s
  | .rrot g scope a b c => Sys2Proof.Machine.execRrot g scope a b c s
  | .publ g scope a b c => Sys2Proof.Machine.execPubl g scope a b c s
  | .mma g m => Sys2Proof.Machine.execMma g m s
  | .mzero g f d => Sys2Proof.Machine.execMzero g f d s
  | .mld g f m d => Sys2Proof.Machine.execMld g f m d s
  | .mst g f m d => Sys2Proof.Machine.execMst g f m d s
  | .mrd g nM1 col d a => Sys2Proof.Machine.execMrd g nM1 col d a s
  | .mwr g nM1 col d a => Sys2Proof.Machine.execMwr g nM1 col d a s
  | .mcommit g => Sys2Proof.Machine.execMcommit g s
  | .mwait g n => Sys2Proof.Machine.execMwait g n s
  | .mvb g fb fa n1 sb sa t => Sys2Proof.Machine.execMvb g fb fa n1 sb sa t s
  | .bra g off => Sys2Proof.Machine.execBra g off s
  | .brc g c off => Sys2Proof.Machine.execBrc g c off s
  | .bru g imm c off => Sys2Proof.Machine.execBru g imm c off s
  | .call g link off => Sys2Proof.Machine.execCall g link off s
  | .ret g a => Sys2Proof.Machine.execRet g a s
  | .jmpi g a => Sys2Proof.Machine.execJmpi g a s
  | .exit g => Sys2Proof.Machine.execExit g s
  | .nop g => Sys2Proof.Machine.execNop g s
  | .wait g n => Sys2Proof.Machine.execWait g n s
  | .yield g => Sys2Proof.Machine.execYield g s
  | .rdsr g sel d => Sys2Proof.Machine.execRdsr g sel d s
  | .bkpt g code => Sys2Proof.Machine.execBkpt g code s
  | .setxi g imm => Sys2Proof.Machine.execSetxi g imm s
  | .setxiS g a imm => Sys2Proof.Machine.execSetxiS g a imm s
  | .setxiAdd g imm => Sys2Proof.Machine.execSetxiAdd g imm s
  | .svc g call d a => Sys2Proof.Machine.execSvc g call d a s
  | .trap g code => Sys2Proof.Machine.execTrap g code s
  | .lnch g d a b => Sys2Proof.Machine.execLnch g d a b s
  | .chkpt g d => Sys2Proof.Machine.execChkpt g d s
  | .spcmt g final a b c => Sys2Proof.Machine.execSpcmt g final a b c s
  | .spdsc g final a b c => Sys2Proof.Machine.execSpdsc g final a b c s
  | .issueCycle core => Sys2Proof.Machine.execIssueCycle core s
  | .clauseStart g => Sys2Proof.Machine.execClauseStart g s
  | .clauseBoundary g => Sys2Proof.Machine.execClauseBoundary g s
  | .loadLands g p => Sys2Proof.Machine.execLoadLands g p s
  | .storePerformed g p => Sys2Proof.Machine.execStorePerformed g p s
  | .presenceUnpark g => Sys2Proof.Machine.execPresenceUnpark g s
  | .waitExpire g => Sys2Proof.Machine.execWaitExpire g s
  | .fmtemuTrap g => Sys2Proof.Machine.execFmtemuTrap g s
  | .mgmtTurn die => Sys2Proof.Machine.execMgmtTurn die s
  | .fmtemuQueueFree die hedge => Sys2Proof.Machine.execFmtemuQueueFree die hedge s
  | .homeAdd src => Sys2Proof.Machine.execHomeAdd src s
  | .crossingAdd ir => Sys2Proof.Machine.execCrossingAdd ir s
  | .cwaitAnswer g ir => Sys2Proof.Machine.execCwaitAnswer g ir s
  | .cwaitPoll g ir => Sys2Proof.Machine.execCwaitPoll g ir s
  | .downFlip ir => Sys2Proof.Machine.execDownFlip ir s
  | .copyStart c => Sys2Proof.Machine.execCopyStart c s
  | .rrotStart c => Sys2Proof.Machine.execRrotStart c s
  | .engineRead c slice sector => Sys2Proof.Machine.execEngineRead c slice sector s
  | .chunkLand c slice sector => Sys2Proof.Machine.execChunkLand c slice sector s
  | .copyPublish c => Sys2Proof.Machine.execCopyPublish c s
  | .copyAbandon c => Sys2Proof.Machine.execCopyAbandon c s
  | .publPerform g p => Sys2Proof.Machine.execPublPerform g p s
  | .mmaPerform g => Sys2Proof.Machine.execMmaPerform g s
  | .batchRetire g => Sys2Proof.Machine.execBatchRetire g s
  | .mvbResultLand g p line => Sys2Proof.Machine.execMvbResultLand g p line s
  | .tileOpDone g p => Sys2Proof.Machine.execTileOpDone g p s
  | .groupRetire g => Sys2Proof.Machine.execGroupRetire g s
  | .groupRestore w => Sys2Proof.Machine.execGroupRestore w s
  | .groupResume g token => Sys2Proof.Machine.execGroupResume g token s
  | .migrResume frame => Sys2Proof.Machine.execMigrResume frame s
  | .groupEnd g => Sys2Proof.Machine.execGroupEnd g s
  | .breakpointRelease g => Sys2Proof.Machine.execBreakpointRelease g s
  | .walkComplete ir => Sys2Proof.Machine.execWalkComplete ir s
  | .dispatch hedge => Sys2Proof.Machine.execDispatch hedge s
  | .launchAdmit hedge seq => Sys2Proof.Machine.execLaunchAdmit hedge seq s
  | .launchComplete hedge seq => Sys2Proof.Machine.execLaunchComplete hedge seq s
  | .bufalloc src => Sys2Proof.Machine.execBufalloc src s
  | .buffree src => Sys2Proof.Machine.execBuffree src s
  | .bufmap src => Sys2Proof.Machine.execBufmap src s
  | .resume src => Sys2Proof.Machine.execResume src s
  | .setvsatp src => Sys2Proof.Machine.execSetvsatp src s
  | .inval src => Sys2Proof.Machine.execInval src s
  | .eqconfig src => Sys2Proof.Machine.execEqconfig src s
  | .svcReplyTake g slot => Sys2Proof.Machine.execSvcReplyTake g slot s
  | .svcFreeUnpark g => Sys2Proof.Machine.execSvcFreeUnpark g s
  | .stalledWriteAccept g p => Sys2Proof.Machine.execStalledWriteAccept g p s
  | .migrationSwitch frame => Sys2Proof.Machine.execMigrationSwitch frame s
  | .forwardEnd frame => Sys2Proof.Machine.execForwardEnd frame s
  | .placeRequest ir => Sys2Proof.Machine.execPlaceRequest ir s
  | .ownershipGrant frame => Sys2Proof.Machine.execOwnershipGrant frame s
  | .epochBoundary => Sys2Proof.Machine.execEpochBoundary s
  | .scrubComplete frame => Sys2Proof.Machine.execScrubComplete frame s
  | .snapshot hedge => Sys2Proof.Machine.execSnapshot hedge s
  | .rollback hedge cause at_ => Sys2Proof.Machine.execRollback hedge cause at_ s
  | .remoteCounterOp ir => Sys2Proof.Machine.execRemoteCounterOp ir s
  | .rmaWrite ir sector => Sys2Proof.Machine.execRmaWrite ir sector s
  | .rmaRead ir => Sys2Proof.Machine.execRmaRead ir s
  | .reductionMerge ir => Sys2Proof.Machine.execReductionMerge ir s
  | .writeBack level line => Sys2Proof.Machine.execWriteBack level line s
  | .groupSave g => Sys2Proof.Machine.execGroupSave g s
  | .fault n e ir => Sys2Proof.Machine.execFault n e ir s
  | .translationInvalidate hedge va len => Sys2Proof.Machine.execTranslationInvalidate hedge va len s
  | .sbiLaunch hedge buf off => Sys2Proof.Machine.execSbiLaunch hedge buf off s
  | .guestCall hedge slot code rval => Sys2Proof.Machine.execGuestCall hedge slot code rval s
  | .migrationStart frame newFrame tier => Sys2Proof.Machine.execMigrationStart frame newFrame tier s
  | .migrationAbandon frame => Sys2Proof.Machine.execMigrationAbandon frame s
  | .ownershipRequest frame faddr => Sys2Proof.Machine.execOwnershipRequest frame faddr s
  | .hedgeCreate p => Sys2Proof.Machine.execHedgeCreate p s
  | .hedgeResize hedge rect slots => Sys2Proof.Machine.execHedgeResize hedge rect slots s
  | .coreFence core => Sys2Proof.Machine.execCoreFence core s
  | .hedgeReset hedge => Sys2Proof.Machine.execHedgeReset hedge s
  | .hedgeDestroy hedge => Sys2Proof.Machine.execHedgeDestroy hedge s
  | .liveMigration hedge faddr target => Sys2Proof.Machine.execLiveMigration hedge faddr target s
  | .peerRequest r => Sys2Proof.Machine.execPeerRequest r s
  | .routeTimeout hedge route => Sys2Proof.Machine.execRouteTimeout hedge route s
  | .boot image => Sys2Proof.Machine.execBoot image s
  | .attestationReport hedge nonce => Sys2Proof.Machine.execAttestationReport hedge nonce s
  | .clockChange core mhz forced => Sys2Proof.Machine.execClockChange core mhz forced s
  | .mgmtCoreReset die => Sys2Proof.Machine.execMgmtCoreReset die s
  | .gDieAccess hart hedge va op => Sys2Proof.Machine.execGDieAccess hart hedge va op s
  | .quarterBufferExpiry core quarter line => Sys2Proof.Machine.execQuarterBufferExpiry core quarter line s
  | .cxlLinkLoss port => Sys2Proof.Machine.execCxlLinkLoss port s
  | .peerRefusal g p code => Sys2Proof.Machine.execPeerRefusal g p code s
  | .fencedCoreClear core => Sys2Proof.Machine.execFencedCoreClear core s
  | .serviceTableWrite w => Sys2Proof.Machine.execServiceTableWrite w s

end Sys2Proof.Machine
end

