-- ==== Sys2Proof/Machine/Issue.lean ====
section
/-! DEFINITION. Issue: which of the groups that a quarter may issue from does, and what it does (spec 06 R156 to R161). -/

namespace Sys2Proof.Machine

/-- Where a group stands: what changes when it issues, starts a clause, parks or stops. -/
structure Standing where
  issued : Nat
  stop : Option Stopped
  presence : Bool
  emu : Emu
  pairFault : Option FaultCode
  clause : Option (Nat × Nat × Nat)
  replay : Option Nat
  frontier : List Entry
  deriving DecidableEq, Repr

/-- Where a group stands. -/
def Group.standing (g : Group) : Standing :=
  ⟨g.issued, g.stop, g.presence, g.emu, g.pairFault, g.clause.map fun c => (c.off, c.idx, c.passes),
    g.replay.map (·.passes), g.frontier⟩

/-- The group in focus has issued, parked, stopped or gone since a state in which it was in focus. -/
def State.movedSince (u s : State) : Bool := u.focus.id != s.focus.id || decide (u.focus.standing ≠ s.focus.standing)

/-- The next instruction of the group in focus, whose clause is in progress: a latched word that is no instruction, which no
clause start lets pass, is ILLOP (R38). -/
def State.issueNext (s : State) : Host.Outcome State Fault Refusal :=
  match s.focus.clause.bind fun c => c.words[c.idx]? with
  | none => .next s
  | some w =>
    match decodeWord w with
    | .ok i => exec i s
    | .error _ => .next (s.raisePlain s.focus.active .illop)

/-- A state in which a group has been looked at and could not issue: it has at most begun walks, and has its next clause
latched and checked (R161). -/
def State.lookedAt (s : State) (g : Nat) (u : State) : State :=
  { s with walks := u.walks }.mapGroup g fun x =>
    if x.clause.isNone && x.replay.isNone then { x with reached := u.focus.clause.or u.focus.reached } else x

/-- The group in focus starts a clause, or runs on at a resume point, where the first instruction there can issue in the
same cycle; where it cannot, no more has happened than that walks have begun and the clause is latched (R157, R159,
R161). -/
def State.issueStart (s : State) : Host.Outcome State Fault Refusal :=
  match exec (.clauseStart s.focus.id) s with
  | .fault x => .fault x
  | .refused x => .refused x
  | .next t =>
    if !t.focus.runnable then .next t
    else
      match t.issueNext with
      | .fault x => .fault x
      | .refused x => .refused x
      | .next u => .next (if u.movedSince t then u else s.lookedAt s.focus.id u)

/-- What the group in focus does when it is looked at. -/
def State.issueFocus (s : State) : Host.Outcome State Fault Refusal :=
  if s.focus.runnable then s.issueNext else s.issueStart

/-- The first of some groups that can issue does; the others are looked at no further, and those before it have at most
begun walks and had their next clause checked (R156, R157, R159, R161). -/
def State.issueFrom (s : State) : List Nat → Host.Outcome State Fault Refusal
  | [] => .next s
  | g :: gs =>
    match s.group g with
    | none => s.issueFrom gs
    | some _ =>
      if gs.isEmpty then (s.focusOn g).issueFocus
      else
        match (s.focusOn g).issueFocus with
        | .fault x => .fault x
        | .refused x => .refused x
        | .next u => if u.movedSince (s.focusOn g) then .next u else (s.lookedAt g u).issueFrom gs

end Sys2Proof.Machine
end

