-- ==== Sys2Proof/Machine/Step.lean ====
section
/-! DEFINITION. One step of the machine: what happens next, and its effect (spec 95). What only an outside agent brings
about, and any order of happenings that is asked for, stands in the agenda; otherwise a quarter issues from the groups it
may, and otherwise the pending happenings take turns (log 1, DESIGN CHOICE). -/

namespace Sys2Proof.Machine

/-! ## The happenings that are pending -/

/-- The n-th of a list, counting round. -/
def turnOf {α : Type} (xs : List α) (n : Nat) : List α := (xs[n % max 1 xs.length]?).toList

/-- The performing and landing of an outstanding operation (R137, R162, R205). An acknowledgement by a peer comes from
outside. -/
def opEvents (g : Nat) (o : Op) : List Instr :=
  let land : List Instr := [.loadLands g o.id]
  let store : List Instr := [.storePerformed g o.id]
  match o.dst with
  | .tile _ _ => [.tileOpDone g o.id]
  | _ =>
    match o.kind with
    | .load | .mcrd _ | .quota | .lnch _ => land
    | .cas _ => land ++ [.stalledWriteAccept g o.id]
    | .store => store ++ [.stalledWriteAccept g o.id]
    | .atom _ _ => if o.accs.isEmpty && o.sent then [] else land ++ store ++ [.stalledWriteAccept g o.id]
    | .maint _ | .place _ | .pin | .unpin => store
    | .ctr (.peer _) _ => if o.sent then [] else land ++ store
    | .ctr (.here _) (.add _) => [.homeAdd (.group g o.id)]
    | .ctr (.here _) (.next _) => [.homeAdd (.group g o.id)] ++ land
    | .ctr (.here _) (.test _) | .ctr (.here _) .read => land
    | .ctr (.here _) (.init _) | .ctr (.here _) (.link _ _) | .ctr (.here _) .unlink
    | .ctr (.here _) (.watch _ _ _ _ _ _) => store
    | .mzero _ => [.tileOpDone g o.id]
    | .mvb _ _ _ _ _ _ _ todo => todo.take 1 |>.map fun l => .mvbResultLand g o.id l
    | .slice _ | .sys _ => []
    | .publ _ _ | .resolve _ _ _ _ => [.publPerform g o.id]

/-- What may happen to a group beside its issue; the service kernel ends a group that a fault has stopped for good
(R341). -/
def groupEvents (s : State) (g : Group) : List Instr :=
  let on (b : Bool) (i : Instr) : List Instr := if b then [i] else []
  (g.pend.flatMap fun o => opEvents g.id o) ++
    on (!g.openBatch.mmas.isEmpty || g.batches.any fun b => !b.mmas.isEmpty) (.mmaPerform g.id) ++
    on (!g.batches.isEmpty) (.batchRetire g.id) ++
    (g.cwaits.flatMap fun c => on (c.at_ == .answered) (.cwaitAnswer g.id c.id) ++ on (c.at_ == .polled) (.cwaitPoll g.id c.id)) ++
    on g.waitUntil.isSome (.waitExpire g.id) ++ on (g.emu == .trapped) (.fmtemuTrap g.id) ++
    on (g.presence && g.stop.isNone) (.presenceUnpark g.id) ++
    on ((g.clause.map fun c => decide (c.words.length ≤ c.idx)).getD false && g.stop.isNone) (.clauseBoundary g.id) ++
    on (g.frontier.isEmpty && g.clause.isNone) (.groupRetire g.id) ++
    on (g.seat.isSome && g.lateFault.isSome) (.clauseStart g.id) ++
    on (s.saving g.wg || (g.seat.isSome && g.awaitsReply)) (.groupSave g.id) ++
    (g.svcReplies.flatMap fun r => on r.ready (.svcReplyTake g.id r.slot)) ++
    on ((g.svcWait.map (·.ready)).getD false) (.svcFreeUnpark g.id) ++
    on ((g.stop.map fun x => !x.resumable && !x.ready && x.code != .migr && x.code != .uncorr && x.code != .sdc).getD false) (.groupEnd g.id) ++
    (match g.stop, s.hedge g.hedge with
      | some x, some h =>
        if x.code == .migr && !x.ready then
          match s.walk none h x.va with
          | .ok (t, _) =>
            let f := frameOf (t.addr x.va)
            on (((s.frame f).pool.map fun p => !p.owned && !p.asked).getD false) (.ownershipGrant f) ++ [.migrResume f]
          | .error _ => []
        else []
      | _, _ => [])

/-- What may happen to a copy: it starts, reads a sector, lands one, is published (R257 to R267). -/
def copyEvents (s : State) (n : Nat) (c : Copy) : List Instr :=
  if c.abandoned then []
  else if !c.started then [if c.rot then .rrotStart c.id else .copyStart c.id]
  else
    ((List.range c.slices.length).flatMap fun i =>
      match c.slices[i]? with
      | some y =>
        (turnOf (y.sectors.filter fun k => (find1 y.got k).isNone) n).map (fun k => Instr.engineRead c.id i k) ++
          (turnOf ((((s.incoming c i).1.map (·.sector)).eraseDups).filter fun k => !y.put.contains k) n).map fun k =>
            Instr.chunkLand c.id i k
      | none => []) ++ (if !c.published && c.slices.any (·.pub) then [.copyPublish c.id] else [])

/-- The service of the next lane of a slot (R394); a guest kernel's answer comes from outside. -/
def callEvent (s : State) (h : Hedge) (slot : Nat) : List Instr :=
  let src : CallSrc := .slot h.p.id slot
  match (s.nextLane h slot).map fun x => x.2.1 with
  | none => []
  | some 2 => [.buffree src]
  | some 3 => [.bufmap src]
  | some 4 => [.resume src]
  | some 5 => [.setvsatp src]
  | some 6 => [.inval src]
  | some 7 => [.eqconfig src]
  | some n => if n < 0x800 then [.bufalloc src] else []

/-- What may happen to a hedge: launches, dispatch, a snapshot that was asked for, its calls. -/
def hedgeEvents (s : State) (h : Hedge) : List Instr :=
  (h.launches.flatMap fun l =>
    (if l.admitted then [] else [.launchAdmit h.p.id l.seq]) ++ [.launchComplete h.p.id l.seq]) ++
    (if h.wantSnap || s.logFull h then [.snapshot h.p.id] else [.dispatch h.p.id]) ++ h.calls.flatMap fun c => callEvent s h c.1

/-- The dirty lines of a core's L1, each of which is written back within a finite time (R313). -/
def coreEvents (p : Nat × Core) : List Instr :=
  (p.2.l1.filter fun l => l.dirty != 0).map fun l => .writeBack (.l1 p.1) l.num

/-- What may happen to a frame: a migration goes on, a scrub ends, a pool frame is handed over (R363, R369, R373). -/
def frameEvents (p : Nat × Frame) : List Instr :=
  (match p.2.mig with
    | some (.copy _ _ _) => [.migrationSwitch p.1]
    | some (.forward _) => [.forwardEnd p.1]
    | none => []) ++ (if p.2.scrub then [.scrubComplete p.1] else []) ++
    (if (p.2.pool.map fun x => x.owned && !x.requests.isEmpty).getD false then [.ownershipGrant p.1] else [])

/-- What a peer has been granted goes on (R436 to R440). -/
def jobEvents (i : Nat) (j : PeerJob) : List Instr :=
  match j.req.op with
  | .cadd _ _ | .cnext _ _ | .cinit _ _ | .watch _ _ _ _ _ => [.remoteCounterOp i]
  | .rmaWrite _ off data _ =>
    [.rmaWrite i ((((sectorRuns off data.length).find? fun r => !j.done.contains r.1).map (·.1)).getD 0)]
  | .rmaAtomic _ off _ _ _ => [.rmaWrite i (off / 32)]
  | .rmaRead _ _ _ => [.rmaRead i]
  | .contribute _ _ _ _ => [.reductionMerge i]
  | .moved _ | .switched => []

/-- The cores that a hedge runs on; any core where there is none. -/
def State.busyCores (s : State) : List Nat :=
  let cs := (s.hedges.flatMap Hedge.physical).eraseDups
  if cs.isEmpty then [s.turnCore % 512] else cs

/-- Every happening that is pending inside the package, beside the issue cycles (log 31, DESIGN CHOICE). -/
def State.pending (s : State) : List Instr :=
  (s.groups.flatMap fun g => groupEvents s g) ++
    (s.walks.zipIdx.flatMap fun p => if p.1.answer.isSome then [] else [.walkComplete p.2]) ++
    (((s.adds.zipIdx.filter fun p => !p.1.sent).take 1).map fun p => Instr.homeAdd (.queue p.2)) ++ (s.crossings.take 1).map (fun _ => Instr.crossingAdd 0) ++
    (s.flips.take 1).map (fun _ => Instr.downFlip 0) ++ (s.copies.flatMap fun c => copyEvents s s.turnCore c) ++
    ((s.wgs.filter fun w => !s.wgDone w && !(s.returning w.id).isEmpty).map fun w => Instr.groupRestore w.id) ++
    (s.hedges.flatMap fun h => hedgeEvents s h) ++ (s.cores.flatMap coreEvents) ++ (s.frames.flatMap frameEvents) ++
    (s.places.zipIdx.map fun p => Instr.placeRequest p.2) ++
    (s.mgmt.zipIdx.flatMap fun p => if p.1.queue.isEmpty && p.1.events.isEmpty && p.1.requests.isEmpty then [] else [Instr.mgmtTurn p.2]) ++
    s.jobs.zipIdx.flatMap fun p => jobEvents p.2 p.1

/-- With nothing asked for and no quarter at issue, the issue cycles of the cores and the pending happenings take turns. -/
def State.idle (s : State) : Instr :=
  let all := s.busyCores.map Instr.issueCycle ++ s.pending
  (all[s.turnCore % max 1 all.length]?).getD (.issueCycle 0)

/-! ## The step -/

/-- One step: the head of the agenda, the issue of the next quarter of a cycle, or a pending happening. -/
def step (s : State) : Host.Outcome State Fault Refusal :=
  match s.agenda with
  | i :: rest => exec i { s with agenda := rest }
  | [] =>
    match s.grants with
    | gs :: rest => { s with grants := rest }.issueFrom gs
    | [] => exec s.idle { s with turnCore := s.turnCore + 1 }

/-- The state in which the group in focus is at issue on one instruction word: a clause of that word alone is in
progress, latched as CLAUSE_START latches it, in a text section of 4096 bytes, and the group has been picked (log 30, DESIGN CHOICE). -/
def State.withFetchWord (s : State) (_nbits w : Nat) : State :=
  { s with
    agenda := []
    grants := [[s.focus.id]]
    focus := { s.focus with
      clause := some ⟨0, 0xA000000007FFFFE1, ⟨0, 0, 0, false, 15, 15, 15, 15, 0x3F, 1⟩, [BitVec.ofNat 64 w], 0, BitVec.allOnes 32, 1⟩
      code := { s.focus.code with tlen := 4096 }
      stop := none, presence := false, emu := .none, pairFault := none } }

end Sys2Proof.Machine
end

