-- ==== Sys2Proof/Safety.lean ====
section
/-! DEFINITION. The terms in which the claims speak: when the group in focus completes the instruction at issue, which
registers an instruction may use without a fault, the canonical form of memory, and what a run may never do. -/

namespace Sys2Proof.Machine

/-! ## Runs -/

/-- The outcome is not a stop of the machine. -/
def goesOn (o : Host.Outcome State Fault Refusal) : Prop := ∃ t, o = .next t

/-- No L1 holds a dirty byte, so that the homes hold the value of every byte of memory (R306). -/
def State.l1Clean (s : State) : Prop := ∀ p ∈ s.cores, ∀ l ∈ p.2.l1, l.dirty = 0

/-- The canonical form of the machine's memory. -/
def State.memWf (s : State) : Prop := s.mem.wf = true

/-! ## A group at issue -/

/-- No partner of a checked pair has raised a fault at the instruction that the group in focus has reached (R172). -/
def State.unfaulted (s : State) : Prop := ∀ p, s.focus.partner.bind s.group = some p → p.pairFault = none

/-- The group in focus runs an instruction with this guard: the guard is not awaited, E has a lane, and no partner has
faulted there. -/
def State.runs (s : State) (gd : Guard) : Prop :=
  s.focus.awaitsP gd.p = false ∧ s.focus.eff gd ≠ 0 ∧ s.unfaulted

/-- The group in focus belongs to no checked pair (R169). -/
def State.single (s : State) : Prop := s.focus.role = .single

/-- The group in focus has become `g` and goes past the instruction at issue; all else is as before. -/
def State.past (s : State) (g : Group) : State := { s with focus := g.advance }

/-- The effect of an instruction that only changes its group. -/
abbrev State.gives (s : State) (g : Group) : Host.Outcome State Fault Refusal := .next (s.past g)

/-! ## Operands that raise nothing -/

/-- S registers from the field are within the allotment and none is awaited (R32, R140). -/
def Group.hasS (g : Group) (r : Reg) (span : Nat := 1) : Prop :=
  g.regIndex r + span ≤ g.sregs.length ∧ ∀ k, k < span → g.awaitsS (g.regIndex r + k) = false

/-- V registers from the field are within the allotment and none is awaited (R32, R53, R140). -/
def Group.hasV (g : Group) (r : Reg) (span : Nat := 1) : Prop :=
  g.regIndex r + span ≤ g.vregs.length ∧ ∀ k, k < span → g.awaitsV (g.regIndex r + k) = false

/-- A V source within the allotment, not awaited, with an accepted tag, and not of an emulated format unless the
emulation is done (R32, R55, R71, R140). -/
def Group.source (g : Group) (r : Reg) (e : Expect) : Prop :=
  g.hasV r ∧ e.accepts (g.tag (g.regIndex r)) = true ∧ (isF6 (g.tag (g.regIndex r)) = false ∨ g.emu = .done)

/-- An FP64 pair as a source (R53, R55). -/
def Group.pairSource (g : Group) (r : Reg) : Prop :=
  g.hasV r 2 ∧ g.tag (g.regIndex r) = .dLo ∧ g.tag (g.regIndex r + 1) = .dHi

/-- A B operand as a source of 32-bit lanes (R93). -/
def Group.bSource (g : Group) (b : BSrc) (e : Expect) : Prop :=
  match b with
  | .v r _ => g.source r e
  | .s r => g.hasS r

/-- A B operand as a source of 64-bit values (R102). -/
def Group.bPairSource (g : Group) (b : BSrc) : Prop :=
  match b with
  | .v r _ => g.pairSource r
  | .s r => g.hasS r

/-- S[r]. -/
def Group.sOf (g : Group) (r : Reg) : Word64 := g.s (g.regIndex r)

/-- V[r][l]. -/
def Group.vOf (g : Group) (r : Reg) (l : Nat) : Word32 := g.lane (g.regIndex r) l

/-- The pair V[r+1]:V[r] in lane l. -/
def Group.pairOf (g : Group) (r : Reg) (l : Nat) : Word64 := g.pair (g.regIndex r) l

/-- B in lane l: the lane, or the low half of the S register (R93). -/
def Group.bOf (g : Group) (b : BSrc) (l : Nat) : Word32 :=
  match b with
  | .v r _ => g.vOf r l
  | .s r => (g.sOf r).extractLsb' 0 32

/-- B in lane l as 64 bits: the pair, or the S register (R102). -/
def Group.bPairOf (g : Group) (b : BSrc) (l : Nat) : Word64 :=
  match b with
  | .v r _ => g.pairOf r l
  | .s r => g.sOf r

/-! ## Results -/

/-- The instruction completes, and all that it does is to write S[D]. -/
def State.setsS (s : State) (i : Instr) (d : Reg) (x : Word64) : Prop :=
  exec i s = s.gives (s.focus.setS (s.focus.regIndex d) x)

/-- The instruction completes, and all that it does is to write the lanes of E of V[D], and its tag (R16, R17). -/
def State.setsV (s : State) (i : Instr) (gd : Guard) (d : Reg) (t : Tag) (f : Nat → Word32) : Prop :=
  exec i s = s.gives (s.focus.setV (s.focus.eff gd) (s.focus.regIndex d) t f)

/-- The instruction completes, and all that it does is to write the lanes of E of a pair at V[D] (R53). -/
def State.setsPair (s : State) (i : Instr) (gd : Guard) (d : Reg) (lo hi : Tag) (f : Nat → Word64) : Prop :=
  exec i s = s.gives (s.focus.setPair (s.focus.eff gd) (s.focus.regIndex d) lo hi f)

/-- The instruction completes, and all that it does is to write the lanes of E of P[D], nothing for P7 (R14). -/
def State.setsP (s : State) (i : Instr) (gd : Guard) (d : BitVec 3) (m : Nat → Bool) : Prop :=
  exec i s = s.gives (s.focus.setP (s.focus.eff gd) d (maskOf m))

/-- A number brought into the signed range of w bits (R59). -/
def satSigned (w : Nat) (r : Int) : Int := max (-2 ^ (w - 1)) (min r (2 ^ (w - 1) - 1))

/-- A number brought into the unsigned range of w bits (R59). -/
def satUnsigned (w : Nat) (r : Int) : Int := max 0 (min r (2 ^ w - 1))

/-! ## Floating-point results -/

/-- The instruction completes, and all that it does is to write the codes of results to the lanes of E of V[D], with its
tag, and to raise the flags of the results of those lanes (R62). -/
def State.setsF (s : State) (i : Instr) (gd : Guard) (d : Reg) (t : Tag) (f : Nat → FRes) : Prop :=
  exec i s = s.gives (s.focus.setVF (s.focus.eff gd) (s.focus.regIndex d) t f)

/-- The same for an FP64 pair. -/
def State.setsD (s : State) (i : Instr) (gd : Guard) (d : Reg) (f : Nat → FRes) : Prop :=
  exec i s = s.gives (s.focus.setDF (s.focus.eff gd) (s.focus.regIndex d) f)

/-- The instruction completes, and all that it does is to write a comparison to the lanes of E of P[D], and to raise its
flags. -/
def State.setsCmp (s : State) (i : Instr) (gd : Guard) (d : BitVec 3) (f : Nat → Bool × FpFlags) : Prop :=
  exec i s = s.gives (s.focus.setCmp (s.focus.eff gd) d f)

/-- The number that a finite value stands for. -/
def FVal.rat : FVal → ℚ
  | .fin neg m e => (if neg then -1 else 1) * m * 2 ^ e
  | .nan _ | .inf _ => 0

/-- A finite value. -/
def FVal.isFin : FVal → Bool
  | .fin _ _ _ => true
  | .nan _ | .inf _ => false

/-- A number is the value of a finite code of the format (R46). -/
def FpFmt.represents (f : FpFmt) (x : ℚ) : Prop :=
  ∃ c, c < 2 ^ f.width ∧ (f.value c).isFin = true ∧ (f.value c).rat = x

/-- The format's sum, product and fused sum of finite operands are the exact number rounded once, and a zero one has the sign
of R61 and raises no flag (R57, R61, R105). -/
def FpFmt.exactResults (f : FpFmt) : Prop :=
  ∀ (rnd : Round) (x y z : FVal), x.isFin = true → y.isFin = true → z.isFin = true →
    let zero (neg : Prop) [Decidable neg] : FRes := ⟨if neg then f.signBit else 0, 0⟩
    (∀ (neg : Bool) (mag : Nat) (exp : Int), mag ≠ 0 → let v := (FVal.fin neg mag exp).rat
      (v = x.rat + y.rat → f.add rnd x y = f.round rnd false neg mag exp) ∧
      (v = x.rat * y.rat → f.mul rnd x y = f.round rnd false neg mag exp) ∧
      (v = x.rat * y.rat + z.rat → f.fma rnd x y z = f.round rnd false neg mag exp)) ∧
    (x.rat + y.rat = 0 → f.add rnd x y =
      zero (rnd = .rm ∨ (x.isZero = true ∧ x.neg = true ∧ y.isZero = true ∧ y.neg = true))) ∧
    (x.rat * y.rat = 0 → f.mul rnd x y = zero (x.neg ≠ y.neg)) ∧
    (x.rat * y.rat + z.rat = 0 → f.fma rnd x y z =
      zero (rnd = .rm ∨ (x.rat * y.rat = 0 ∧ x.neg ≠ y.neg ∧ z.isZero = true ∧ z.neg = true)))

/-- chunk_sum of finite terms (R67, R68): zeros give +0, or −0 where every term is −0. Otherwise, with 2^top the greatest power
of two in a term, each term is cut to a multiple of 2^(top − W + 1), and the exact sum of these is rounded to the nearest code,
where a sum halfway between two codes goes away from zero if a term has lost a bit. -/
def FpFmt.chunkSums (f : FpFmt) (window : Nat) : Prop :=
  ∀ (acc : FVal) (ps : List FVal), let ts := acc :: ps
    (∀ t ∈ ts, t.isFin = true) → let code := chunkSum f window acc (ps.map some)
    ((∀ t ∈ ts, t.rat = 0) → code = if ∀ t ∈ ts, t.neg = true then f.signBit else 0) ∧
    ∀ top : Int, (∃ t ∈ ts, (2 : ℚ) ^ top ≤ |t.rat|) → (∀ t ∈ ts, |t.rat| < (2 : ℚ) ^ (top + 1)) →
      let low : Int := top - window + 1
      let kept (t : FVal) : Int := ⌊|t.rat| / (2 : ℚ) ^ low⌋
      let total : Int := (ts.map fun t => if t.rat < 0 then -kept t else kept t).sum
      let lost : Prop := ∃ t ∈ ts, |t.rat| ≠ kept t * (2 : ℚ) ^ low
      let neg : Bool := decide (total < 0)
      let gap : Int := max (low + Nat.log2 total.natAbs - f.frac) f.emin
      let halfway : Prop := low < gap ∧ total.natAbs % 2 ^ (gap - low).toNat = 2 ^ ((gap - low).toNat - 1)
      (total = 0 → code = 0) ∧
      (total ≠ 0 → ¬(lost ∧ halfway) → code = (f.round .rn false neg total.natAbs low).code) ∧
      (lost → halfway → code = (f.round .rn false neg (2 * total.natAbs + 1) (low - 1)).code)

/-! ## Member sets and limb sets -/

/-- The register of .MM, where there is one, may be read. -/
def Group.hasMM (g : Group) : Option Reg → Prop
  | none => True
  | some r => g.hasS r

/-- The member set of an instruction whose effective mask is `e` (R177). -/
def Group.membersOf (g : Group) (e : Mask) : Option Reg → Mask
  | none => e
  | some r => (g.sOf r).extractLsb' 0 32

/-- The group is bound at width w and the mask is a union of whole sets (R184, R187). -/
def Group.boundAt (g : Group) (e : Mask) (w : Nat) : Prop :=
  (∃ b, g.limb = some b ∧ w = limbWidth b) ∧ ∀ l, l < 32 → e.getLsbD l = e.getLsbD (l / w * w)

/-- num(n, J) of the set at lane `base`, w limbs (R187). -/
def Group.limbNumber (g : Group) (w : Nat) (r : Reg) (base : Nat) : Nat :=
  ((List.range w).map fun i => (g.vOf r (base + i)).toNat * 2 ^ (32 * i)).sum

/-- A set inside the mask has a property. -/
def someSet (e : Mask) (w : Nat) (co : Nat → Prop) : Prop := ∃ l, l < 32 ∧ e.getLsbD l = true ∧ co (l / w * w)

/-- The limb of lane l of the numbers x by set (R187). -/
def limbAt (w : Nat) (x : Nat → Int) (l : Nat) : Word32 := BitVec.ofInt 32 (x (l / w * w) / 2 ^ (32 * (l % w)))

/-- The group with the carry of each set in the lanes of E of P[k]; k none writes nothing (R189). -/
def Group.withCarry (g : Group) (e : Mask) (k : Option (BitVec 3)) (w : Nat) (co : Nat → Bool) : Group :=
  match k with
  | none => g
  | some p => g.setP e p (maskOf fun l => co (l / w * w))

/-! ## Clause-ending instructions -/

/-- The group in focus issues an instruction that acts for an empty E too (R192). -/
def State.acts (s : State) (gd : Guard) : Prop := s.focus.awaitsP gd.p = false ∧ s.unfaulted

/-- The mask is a union of whole sets where the group is bound (R186). -/
def Group.wholeMask (g : Group) (m : Mask) : Prop :=
  ∀ b, g.limb = some b → ∀ l, l < 32 → m.getLsbD l = m.getLsbD (l / limbWidth b * limbWidth b)

/-- Where moves send a lane. -/
def sentTo (ms : List (Nat × Mask)) (l : Nat) : Option Nat := (ms.find? fun p => p.2.getLsbD l).map (·.1)

/-- Destinations of the active lanes that raise nothing: within the text section, and the same for a whole set (R186,
R193). -/
def Group.mayGo (g : Group) (dest : Nat → Int) : Prop :=
  (∀ l, l < 32 → g.active.getLsbD l = true → 0 ≤ dest l ∧ dest l < g.code.tlen) ∧
    ∀ b, g.limb = some b → ∀ l, l < 32 → dest l = dest (l / limbWidth b * limbWidth b)

/-- A clause-ending instruction completes and sends each active lane to its destination; `u` is what else it changes in
the group. -/
def State.goes (s : State) (i : Instr) (dest : Nat → Int) (u : Group → Group) : Prop :=
  ∃ ms, exec i s = s.gives (u { s.focus with moves := some ms }) ∧
    ∀ l, l < 32 → sentTo ms l = if s.focus.active.getLsbD l then some (dest l).toNat else none

/-! ## Memory instructions -/

/-- The buffer operand may be read: an S register of the allotment that nothing awaits, or a window (R125, R127). -/
def Group.hasBuf (g : Group) : BufSel → Prop
  | .reg n _ => n.toNat < g.sregs.length ∧ g.awaitsS n.toNat = false
  | .window _ => True

/-- The index word of a buffer operand: S[S], or the number of the window; a form whose nibble names no window holds the
number that the nibble stands for, which faults BUFIDX (R125, R128). -/
def Group.bufOf (g : Group) : BufSel → Word64
  | .reg n _ => g.s n.toNat
  | .window k => BitVec.ofNat 64 (0xFF0 + k.toNat)

/-- The V registers of a list carry tags that the instruction takes, and none asks for an emulation that is not done
(R55, R71). -/
def Group.takes (g : Group) (srcs : Sources) : Prop :=
  ∀ p ∈ srcs, p.2.accepts (g.tag p.1) = true ∧ (isF6 (g.tag p.1) = false ∨ g.emu = .done)

/-- The guest address of a lane's access through a buffer; 0 through a window. -/
def MemReq.va (r : MemReq) (s : State) (l : Nat) : Nat :=
  if r.iw.toNat < 0xFF0 then s.bufVa s.focus.hedge r.iw.toNat (r.off l) else 0

/-- The operation that a request leaves outstanding once its lanes have passed their checks; it is
strong by its order, of a COUNTER word, and through window 0xFFC, and acquires nothing in the last two (R126, R323). -/
def MemReq.op (r : MemReq) (s : State) (e : Mask) (chk : List (Nat × List Place)) : Op :=
  { s.newOp r.cls r.kind e with
    dst := r.dst, reads := r.reads, writes := r.writes, strong := r.strong s s.focus
    acq := isAcq r.ord && !s.strongLoad s.focus r.iw, rel := isRel r.ord, scope := r.scopeOf (chk.flatMap (·.2))
    accs := chk.flatMap fun p => laneAccs r (r.va s p.1) p.1 p.2, buf := r.iw.toNat % 4096 }

/-- Every lane of the request passes its checks, at the places `chk`; no touched tile is a hazard, every touched scratch
line is present, the core has room for a request, and the fences before it let it pass, leaving `t`. -/
def State.lets (s : State) (r : MemReq) (chk : List (Nat × List Place)) (t : State) : Prop :=
  r.check s s.focus = .ok chk ∧
    s.focus.tileHazard (chk.flatMap (·.2)) = .ok () ∧ s.present (chk.flatMap (·.2)) = .ok () ∧
    s.requestRoom = true ∧ s.passFences r.writes false = .ok t

/-- The group with one more operation outstanding. -/
def Group.leaving (g : Group) (o : Op) : Group := { g with pend := g.pend ++ [o], nextOp := g.nextOp + 1 }

/-- Where the request passes, the instruction completes and leaves the request's operation outstanding. -/
def State.asks (s : State) (i : Instr) (e : Mask) (r : MemReq) : Prop :=
  ∀ chk t, s.lets r chk t → exec i s = t.gives (t.focus.leaving (r.op s e chk))

/-- The instruction completes and leaves an operation outstanding that no fence orders. -/
def State.leaves (s : State) (i : Instr) (o : Op) : Prop := exec i s = s.gives (s.focus.leaving o)

/-! ## Counter instructions -/

/-- Where the core has room for a request and the fences before it let it pass, the instruction completes and leaves an
operation on a counter outstanding (R205, R206). -/
def State.asksCtr (s : State) (i : Instr) (e : Mask) (cls : OpClass) (k : CtrRef) (a : CtrAct) (dst : Dst) (ord : CtrOrd)
    (sc : CtrScope) (writes : Bool) (words : List Word64) : Prop :=
  ∀ t, s.requestRoom = true → s.passFences writes false = .ok t →
    exec i s = t.gives (t.focus.leaving { s.newOp cls (.ctr k a) e with
      dst := dst, reads := cls == .load, writes := writes, strong := true, acq := ord == .acq || ord == .ar,
      rel := ord == .rel || ord == .ar, scope := sc, words := words })

/-! ## Copies -/

/-- The group may issue a copy now: it has fewer than 16 under way, no fence stands before it, no group of a workgroup
has been ended, no rotation has lost one, and the identities of the copies are below the next one (R257, R258, R265). -/
def State.copyRoom (s : State) : Prop :=
  s.focus.copiesOut < 16 ∧ s.focus.fences = [] ∧ (∀ w ∈ s.wgs, w.ended = []) ∧
    (∀ h ∈ s.hedges, ∀ l ∈ h.launches, l.rotLost = none) ∧ ∀ c ∈ s.copies, c.id < s.nextId

/-- The group with a slice of a copy outstanding until its last source byte is read (R258, R262). -/
def State.reading (s : State) (copy : Nat) (x : Slice) : Group :=
  { s.focus with
    nextOp := s.focus.nextOp + 1
    pend := if x.readDone then s.focus.pend
      else s.focus.pend ++ [{ s.newOp .copy (.slice copy) x.mask with clears := s.sliceLines s.focus.hedge x }] }

/-- The state after an instruction of row 11, but for the group: the copies, and the lines that a slice has made absent,
among the scratch and the image of its workgroup (R251, R261). -/
def State.copied (s t : State) (copies : List Copy) (lines : List (Nat × Nat)) : Prop :=
  t.copies = copies ∧ t.wgs = (s.absent1 lines).wgs ∧ t.mem = (s.absent1 lines).mem ∧ t.others = s.others ∧
    t.adds = s.adds

/-- The instruction completes and its slice joins the copy of this execution of its group, the n-th of the workgroup or
of the launch, which is made where there is none; the lines that the slice writes become absent, and the group counts
the execution. Of a copy that is abandoned no more than the execution is kept (R257, R258, R261, R265). -/
def State.supplies (s : State) (i : Instr) (rot : Bool) (x : Slice) : Prop :=
  let g := s.focus
  let wg := if rot then none else some g.wg
  let n := if rot then g.rrots else g.cpys
  let mine (c : Copy) : Bool :=
    c.hedge == g.hedge && c.lseq == g.lseq && c.wg == wg && c.rot == rot && c.n == n && !c.started
  let count (g : Group) : Group :=
    if rot then { g with rrots := (g.rrots + 1) % 2 ^ 32 } else { g with cpys := (g.cpys + 1) % 2 ^ 32 }
  let done (id : Nat) (copies : List Copy) : Prop :=
    ∃ t, exec i s = .next t ∧ s.copied t copies (s.sliceLines g.hedge x) ∧ t.focus = (count (s.reading id x)).advance
  (s.copies.find? mine = none → s.joined g.wg < 4 →
    done s.nextId (s.copies ++ [⟨s.nextId, g.hedge, g.lseq, wg, n, rot, [x], false, false, false, []⟩])) ∧
  (∀ c, s.copies.find? mine = some c → c.abandoned = false → (∃ y ∈ c.slices, y.wg = g.wg) ∨ s.joined g.wg < 4 →
    done c.id (s.copies.map fun y => if y.id == c.id then { c with slices := c.slices ++ [x] } else y)) ∧
  (∀ c, s.copies.find? mine = some c → c.abandoned = true →
    ∃ t, exec i s = .next t ∧ ((∀ w, x.handle = some w → w ∈ c.told) →
      t.wgs = s.wgs ∧ t.mem = s.mem ∧ t.others = s.others ∧ t.adds = s.adds ∧
        t.focus = (count { g with nextOp := g.nextOp + 1 }).advance))

/-- The instruction completes and starts a copy of one slice, of which nothing is kept where it moves nothing (R257, R263,
R264). -/
def State.starts (s : State) (i : Instr) (x : Slice) : Prop :=
  let g := s.focus
  ∃ t, exec i s = .next t ∧ t.focus = (s.reading s.nextId x).advance ∧
    s.copied t (if x.isEmpty then s.copies
      else s.copies ++ [⟨s.nextId, g.hedge, g.lseq, some g.wg, 0, false, [x], true, false, false, []⟩]) (s.sliceLines g.hedge x)

/-! ## Tiles -/

/-- The tile is within the allotment (R32, R223). -/
def Group.hasTile (g : Group) (r : Reg) : Prop := g.regIndex r < g.tiles.length

/-! ## Events -/

/-- The event happens, and all that it changes is one group: `g` is now `x`. -/
def State.becomes (s : State) (i : Instr) (g : Nat) (x : Group) : Prop :=
  ∃ t, exec i s = .next t ∧ t.group g = some x ∧ (∀ k, k ≠ g → t.group k = s.group k) ∧
    t = { s with focus := t.focus, others := t.others }

end Sys2Proof.Machine
end

