-- ==== Sys2Proof/Laws/State.lean ====
section
/-! SUPPORT. What each update of the state leaves as it was: one lemma for each field and update. -/

namespace Sys2Proof.Machine

/-! ## `mapHedge` -/

@[simp] theorem State.mapHedge_focus (s : State) (h : Nat) (f : Hedge → Hedge) : (s.mapHedge h f).focus = s.focus := rfl
@[simp] theorem State.mapHedge_others (s : State) (h : Nat) (f : Hedge → Hedge) : (s.mapHedge h f).others = s.others := rfl
@[simp] theorem State.mapHedge_agenda (s : State) (h : Nat) (f : Hedge → Hedge) : (s.mapHedge h f).agenda = s.agenda := rfl
@[simp] theorem State.mapHedge_grants (s : State) (h : Nat) (f : Hedge → Hedge) : (s.mapHedge h f).grants = s.grants := rfl
@[simp] theorem State.mapHedge_nextId (s : State) (h : Nat) (f : Hedge → Hedge) : (s.mapHedge h f).nextId = s.nextId := rfl
@[simp] theorem State.mapHedge_freeCtr (s : State) (h : Nat) (f : Hedge → Hedge) : (s.mapHedge h f).freeCtr = s.freeCtr := rfl
@[simp] theorem State.mapHedge_turnCore (s : State) (h : Nat) (f : Hedge → Hedge) : (s.mapHedge h f).turnCore = s.turnCore := rfl
@[simp] theorem State.mapHedge_mem (s : State) (h : Nat) (f : Hedge → Hedge) : (s.mapHedge h f).mem = s.mem := rfl
@[simp] theorem State.mapHedge_codes (s : State) (h : Nat) (f : Hedge → Hedge) : (s.mapHedge h f).codes = s.codes := rfl
@[simp] theorem State.mapHedge_bad (s : State) (h : Nat) (f : Hedge → Hedge) : (s.mapHedge h f).bad = s.bad := rfl
@[simp] theorem State.mapHedge_frames (s : State) (h : Nat) (f : Hedge → Hedge) : (s.mapHedge h f).frames = s.frames := rfl
@[simp] theorem State.mapHedge_tags (s : State) (h : Nat) (f : Hedge → Hedge) : (s.mapHedge h f).tags = s.tags := rfl
@[simp] theorem State.mapHedge_shadows (s : State) (h : Nat) (f : Hedge → Hedge) : (s.mapHedge h f).shadows = s.shadows := rfl
@[simp] theorem State.mapHedge_cores (s : State) (h : Nat) (f : Hedge → Hedge) : (s.mapHedge h f).cores = s.cores := rfl
@[simp] theorem State.mapHedge_l2tlb (s : State) (h : Nat) (f : Hedge → Hedge) : (s.mapHedge h f).l2tlb = s.l2tlb := rfl
@[simp] theorem State.mapHedge_walks (s : State) (h : Nat) (f : Hedge → Hedge) : (s.mapHedge h f).walks = s.walks := rfl
@[simp] theorem State.mapHedge_wgs (s : State) (h : Nat) (f : Hedge → Hedge) : (s.mapHedge h f).wgs = s.wgs := rfl
@[simp] theorem State.mapHedge_ctrs (s : State) (h : Nat) (f : Hedge → Hedge) : (s.mapHedge h f).ctrs = s.ctrs := rfl
@[simp] theorem State.mapHedge_adds (s : State) (h : Nat) (f : Hedge → Hedge) : (s.mapHedge h f).adds = s.adds := rfl
@[simp] theorem State.mapHedge_crossings (s : State) (h : Nat) (f : Hedge → Hedge) : (s.mapHedge h f).crossings = s.crossings := rfl
@[simp] theorem State.mapHedge_flips (s : State) (h : Nat) (f : Hedge → Hedge) : (s.mapHedge h f).flips = s.flips := rfl
@[simp] theorem State.mapHedge_copies (s : State) (h : Nat) (f : Hedge → Hedge) : (s.mapHedge h f).copies = s.copies := rfl
@[simp] theorem State.mapHedge_places (s : State) (h : Nat) (f : Hedge → Hedge) : (s.mapHedge h f).places = s.places := rfl
@[simp] theorem State.mapHedge_mgmt (s : State) (h : Nat) (f : Hedge → Hedge) : (s.mapHedge h f).mgmt = s.mgmt := rfl
@[simp] theorem State.mapHedge_poolRetired (s : State) (h : Nat) (f : Hedge → Hedge) : (s.mapHedge h f).poolRetired = s.poolRetired := rfl
@[simp] theorem State.mapHedge_harts (s : State) (h : Nat) (f : Hedge → Hedge) : (s.mapHedge h f).harts = s.harts := rfl
@[simp] theorem State.mapHedge_cxlDown (s : State) (h : Nat) (f : Hedge → Hedge) : (s.mapHedge h f).cxlDown = s.cxlDown := rfl
@[simp] theorem State.mapHedge_jobs (s : State) (h : Nat) (f : Hedge → Hedge) : (s.mapHedge h f).jobs = s.jobs := rfl
@[simp] theorem State.mapHedge_outbox (s : State) (h : Nat) (f : Hedge → Hedge) : (s.mapHedge h f).outbox = s.outbox := rfl
@[simp] theorem State.mapHedge_physLog (s : State) (h : Nat) (f : Hedge → Hedge) : (s.mapHedge h f).physLog = s.physLog := rfl
@[simp] theorem State.mapHedge_stage (s : State) (h : Nat) (f : Hedge → Hedge) : (s.mapHedge h f).stage = s.stage := rfl
@[simp] theorem State.mapHedge_meas (s : State) (h : Nat) (f : Hedge → Hedge) : (s.mapHedge h f).meas = s.meas := rfl
@[simp] theorem State.mapHedge_versions (s : State) (h : Nat) (f : Hedge → Hedge) : (s.mapHedge h f).versions = s.versions := rfl
@[simp] theorem State.mapHedge_deadDies (s : State) (h : Nat) (f : Hedge → Hedge) : (s.mapHedge h f).deadDies = s.deadDies := rfl
@[simp] theorem State.mapHedge_noGDie (s : State) (h : Nat) (f : Hedge → Hedge) : (s.mapHedge h f).noGDie = s.noGDie := rfl
@[simp] theorem State.mapHedge_l2 (s : State) (h : Nat) (f : Hedge → Hedge) : (s.mapHedge h f).l2 = s.l2 := rfl
@[simp] theorem State.mapHedge_slices (s : State) (h : Nat) (f : Hedge → Hedge) : (s.mapHedge h f).slices = s.slices := rfl
@[simp] theorem State.mapHedge_seen (s : State) (h : Nat) (f : Hedge → Hedge) : (s.mapHedge h f).seen = s.seen := rfl
@[simp] theorem State.mapHedge_gclocks (s : State) (h : Nat) (f : Hedge → Hedge) : (s.mapHedge h f).gclocks = s.gclocks := rfl
@[simp] theorem State.mapHedge_fixes (s : State) (h : Nat) (f : Hedge → Hedge) : (s.mapHedge h f).fixes = s.fixes := rfl
@[simp] theorem State.mapHedge_poolFrames (s : State) (h : Nat) (f : Hedge → Hedge) : (s.mapHedge h f).poolFrames = s.poolFrames := rfl
@[simp] theorem State.mapHedge_keys (s : State) (h : Nat) (f : Hedge → Hedge) : (s.mapHedge h f).keys = s.keys := rfl
@[simp] theorem State.mapHedge_arrivals (s : State) (h : Nat) (f : Hedge → Hedge) : (s.mapHedge h f).arrivals = s.arrivals := rfl
@[simp] theorem State.mapHedge_movedAway (s : State) (h : Nat) (f : Hedge → Hedge) : (s.mapHedge h f).movedAway = s.movedAway := rfl

/-! ## `mapLaunch` -/

@[simp] theorem State.mapLaunch_focus (s : State) (h q : Nat) (f : Launch → Launch) : (s.mapLaunch h q f).focus = s.focus := rfl
@[simp] theorem State.mapLaunch_others (s : State) (h q : Nat) (f : Launch → Launch) : (s.mapLaunch h q f).others = s.others := rfl
@[simp] theorem State.mapLaunch_agenda (s : State) (h q : Nat) (f : Launch → Launch) : (s.mapLaunch h q f).agenda = s.agenda := rfl
@[simp] theorem State.mapLaunch_grants (s : State) (h q : Nat) (f : Launch → Launch) : (s.mapLaunch h q f).grants = s.grants := rfl
@[simp] theorem State.mapLaunch_nextId (s : State) (h q : Nat) (f : Launch → Launch) : (s.mapLaunch h q f).nextId = s.nextId := rfl
@[simp] theorem State.mapLaunch_freeCtr (s : State) (h q : Nat) (f : Launch → Launch) : (s.mapLaunch h q f).freeCtr = s.freeCtr := rfl
@[simp] theorem State.mapLaunch_turnCore (s : State) (h q : Nat) (f : Launch → Launch) : (s.mapLaunch h q f).turnCore = s.turnCore := rfl
@[simp] theorem State.mapLaunch_mem (s : State) (h q : Nat) (f : Launch → Launch) : (s.mapLaunch h q f).mem = s.mem := rfl
@[simp] theorem State.mapLaunch_codes (s : State) (h q : Nat) (f : Launch → Launch) : (s.mapLaunch h q f).codes = s.codes := rfl
@[simp] theorem State.mapLaunch_bad (s : State) (h q : Nat) (f : Launch → Launch) : (s.mapLaunch h q f).bad = s.bad := rfl
@[simp] theorem State.mapLaunch_frames (s : State) (h q : Nat) (f : Launch → Launch) : (s.mapLaunch h q f).frames = s.frames := rfl
@[simp] theorem State.mapLaunch_tags (s : State) (h q : Nat) (f : Launch → Launch) : (s.mapLaunch h q f).tags = s.tags := rfl
@[simp] theorem State.mapLaunch_shadows (s : State) (h q : Nat) (f : Launch → Launch) : (s.mapLaunch h q f).shadows = s.shadows := rfl
@[simp] theorem State.mapLaunch_cores (s : State) (h q : Nat) (f : Launch → Launch) : (s.mapLaunch h q f).cores = s.cores := rfl
@[simp] theorem State.mapLaunch_l2tlb (s : State) (h q : Nat) (f : Launch → Launch) : (s.mapLaunch h q f).l2tlb = s.l2tlb := rfl
@[simp] theorem State.mapLaunch_walks (s : State) (h q : Nat) (f : Launch → Launch) : (s.mapLaunch h q f).walks = s.walks := rfl
@[simp] theorem State.mapLaunch_wgs (s : State) (h q : Nat) (f : Launch → Launch) : (s.mapLaunch h q f).wgs = s.wgs := rfl
@[simp] theorem State.mapLaunch_ctrs (s : State) (h q : Nat) (f : Launch → Launch) : (s.mapLaunch h q f).ctrs = s.ctrs := rfl
@[simp] theorem State.mapLaunch_adds (s : State) (h q : Nat) (f : Launch → Launch) : (s.mapLaunch h q f).adds = s.adds := rfl
@[simp] theorem State.mapLaunch_crossings (s : State) (h q : Nat) (f : Launch → Launch) : (s.mapLaunch h q f).crossings = s.crossings := rfl
@[simp] theorem State.mapLaunch_flips (s : State) (h q : Nat) (f : Launch → Launch) : (s.mapLaunch h q f).flips = s.flips := rfl
@[simp] theorem State.mapLaunch_copies (s : State) (h q : Nat) (f : Launch → Launch) : (s.mapLaunch h q f).copies = s.copies := rfl
@[simp] theorem State.mapLaunch_places (s : State) (h q : Nat) (f : Launch → Launch) : (s.mapLaunch h q f).places = s.places := rfl
@[simp] theorem State.mapLaunch_mgmt (s : State) (h q : Nat) (f : Launch → Launch) : (s.mapLaunch h q f).mgmt = s.mgmt := rfl
@[simp] theorem State.mapLaunch_poolRetired (s : State) (h q : Nat) (f : Launch → Launch) : (s.mapLaunch h q f).poolRetired = s.poolRetired := rfl
@[simp] theorem State.mapLaunch_harts (s : State) (h q : Nat) (f : Launch → Launch) : (s.mapLaunch h q f).harts = s.harts := rfl
@[simp] theorem State.mapLaunch_cxlDown (s : State) (h q : Nat) (f : Launch → Launch) : (s.mapLaunch h q f).cxlDown = s.cxlDown := rfl
@[simp] theorem State.mapLaunch_jobs (s : State) (h q : Nat) (f : Launch → Launch) : (s.mapLaunch h q f).jobs = s.jobs := rfl
@[simp] theorem State.mapLaunch_outbox (s : State) (h q : Nat) (f : Launch → Launch) : (s.mapLaunch h q f).outbox = s.outbox := rfl
@[simp] theorem State.mapLaunch_physLog (s : State) (h q : Nat) (f : Launch → Launch) : (s.mapLaunch h q f).physLog = s.physLog := rfl
@[simp] theorem State.mapLaunch_stage (s : State) (h q : Nat) (f : Launch → Launch) : (s.mapLaunch h q f).stage = s.stage := rfl
@[simp] theorem State.mapLaunch_meas (s : State) (h q : Nat) (f : Launch → Launch) : (s.mapLaunch h q f).meas = s.meas := rfl
@[simp] theorem State.mapLaunch_versions (s : State) (h q : Nat) (f : Launch → Launch) : (s.mapLaunch h q f).versions = s.versions := rfl
@[simp] theorem State.mapLaunch_deadDies (s : State) (h q : Nat) (f : Launch → Launch) : (s.mapLaunch h q f).deadDies = s.deadDies := rfl
@[simp] theorem State.mapLaunch_noGDie (s : State) (h q : Nat) (f : Launch → Launch) : (s.mapLaunch h q f).noGDie = s.noGDie := rfl
@[simp] theorem State.mapLaunch_l2 (s : State) (h q : Nat) (f : Launch → Launch) : (s.mapLaunch h q f).l2 = s.l2 := rfl
@[simp] theorem State.mapLaunch_slices (s : State) (h q : Nat) (f : Launch → Launch) : (s.mapLaunch h q f).slices = s.slices := rfl
@[simp] theorem State.mapLaunch_seen (s : State) (h q : Nat) (f : Launch → Launch) : (s.mapLaunch h q f).seen = s.seen := rfl
@[simp] theorem State.mapLaunch_gclocks (s : State) (h q : Nat) (f : Launch → Launch) : (s.mapLaunch h q f).gclocks = s.gclocks := rfl
@[simp] theorem State.mapLaunch_fixes (s : State) (h q : Nat) (f : Launch → Launch) : (s.mapLaunch h q f).fixes = s.fixes := rfl
@[simp] theorem State.mapLaunch_poolFrames (s : State) (h q : Nat) (f : Launch → Launch) : (s.mapLaunch h q f).poolFrames = s.poolFrames := rfl
@[simp] theorem State.mapLaunch_keys (s : State) (h q : Nat) (f : Launch → Launch) : (s.mapLaunch h q f).keys = s.keys := rfl
@[simp] theorem State.mapLaunch_arrivals (s : State) (h q : Nat) (f : Launch → Launch) : (s.mapLaunch h q f).arrivals = s.arrivals := rfl
@[simp] theorem State.mapLaunch_movedAway (s : State) (h q : Nat) (f : Launch → Launch) : (s.mapLaunch h q f).movedAway = s.movedAway := rfl

/-! ## `mapCore` -/

@[simp] theorem State.mapCore_focus (s : State) (c : Nat) (f : Core → Core) : (s.mapCore c f).focus = s.focus := rfl
@[simp] theorem State.mapCore_others (s : State) (c : Nat) (f : Core → Core) : (s.mapCore c f).others = s.others := rfl
@[simp] theorem State.mapCore_agenda (s : State) (c : Nat) (f : Core → Core) : (s.mapCore c f).agenda = s.agenda := rfl
@[simp] theorem State.mapCore_grants (s : State) (c : Nat) (f : Core → Core) : (s.mapCore c f).grants = s.grants := rfl
@[simp] theorem State.mapCore_nextId (s : State) (c : Nat) (f : Core → Core) : (s.mapCore c f).nextId = s.nextId := rfl
@[simp] theorem State.mapCore_freeCtr (s : State) (c : Nat) (f : Core → Core) : (s.mapCore c f).freeCtr = s.freeCtr := rfl
@[simp] theorem State.mapCore_turnCore (s : State) (c : Nat) (f : Core → Core) : (s.mapCore c f).turnCore = s.turnCore := rfl
@[simp] theorem State.mapCore_mem (s : State) (c : Nat) (f : Core → Core) : (s.mapCore c f).mem = s.mem := rfl
@[simp] theorem State.mapCore_codes (s : State) (c : Nat) (f : Core → Core) : (s.mapCore c f).codes = s.codes := rfl
@[simp] theorem State.mapCore_bad (s : State) (c : Nat) (f : Core → Core) : (s.mapCore c f).bad = s.bad := rfl
@[simp] theorem State.mapCore_frames (s : State) (c : Nat) (f : Core → Core) : (s.mapCore c f).frames = s.frames := rfl
@[simp] theorem State.mapCore_tags (s : State) (c : Nat) (f : Core → Core) : (s.mapCore c f).tags = s.tags := rfl
@[simp] theorem State.mapCore_shadows (s : State) (c : Nat) (f : Core → Core) : (s.mapCore c f).shadows = s.shadows := rfl
@[simp] theorem State.mapCore_l2tlb (s : State) (c : Nat) (f : Core → Core) : (s.mapCore c f).l2tlb = s.l2tlb := rfl
@[simp] theorem State.mapCore_walks (s : State) (c : Nat) (f : Core → Core) : (s.mapCore c f).walks = s.walks := rfl
@[simp] theorem State.mapCore_wgs (s : State) (c : Nat) (f : Core → Core) : (s.mapCore c f).wgs = s.wgs := rfl
@[simp] theorem State.mapCore_hedges (s : State) (c : Nat) (f : Core → Core) : (s.mapCore c f).hedges = s.hedges := rfl
@[simp] theorem State.mapCore_ctrs (s : State) (c : Nat) (f : Core → Core) : (s.mapCore c f).ctrs = s.ctrs := rfl
@[simp] theorem State.mapCore_adds (s : State) (c : Nat) (f : Core → Core) : (s.mapCore c f).adds = s.adds := rfl
@[simp] theorem State.mapCore_crossings (s : State) (c : Nat) (f : Core → Core) : (s.mapCore c f).crossings = s.crossings := rfl
@[simp] theorem State.mapCore_flips (s : State) (c : Nat) (f : Core → Core) : (s.mapCore c f).flips = s.flips := rfl
@[simp] theorem State.mapCore_copies (s : State) (c : Nat) (f : Core → Core) : (s.mapCore c f).copies = s.copies := rfl
@[simp] theorem State.mapCore_places (s : State) (c : Nat) (f : Core → Core) : (s.mapCore c f).places = s.places := rfl
@[simp] theorem State.mapCore_mgmt (s : State) (c : Nat) (f : Core → Core) : (s.mapCore c f).mgmt = s.mgmt := rfl
@[simp] theorem State.mapCore_poolRetired (s : State) (c : Nat) (f : Core → Core) : (s.mapCore c f).poolRetired = s.poolRetired := rfl
@[simp] theorem State.mapCore_harts (s : State) (c : Nat) (f : Core → Core) : (s.mapCore c f).harts = s.harts := rfl
@[simp] theorem State.mapCore_cxlDown (s : State) (c : Nat) (f : Core → Core) : (s.mapCore c f).cxlDown = s.cxlDown := rfl
@[simp] theorem State.mapCore_jobs (s : State) (c : Nat) (f : Core → Core) : (s.mapCore c f).jobs = s.jobs := rfl
@[simp] theorem State.mapCore_outbox (s : State) (c : Nat) (f : Core → Core) : (s.mapCore c f).outbox = s.outbox := rfl
@[simp] theorem State.mapCore_physLog (s : State) (c : Nat) (f : Core → Core) : (s.mapCore c f).physLog = s.physLog := rfl
@[simp] theorem State.mapCore_stage (s : State) (c : Nat) (f : Core → Core) : (s.mapCore c f).stage = s.stage := rfl
@[simp] theorem State.mapCore_meas (s : State) (c : Nat) (f : Core → Core) : (s.mapCore c f).meas = s.meas := rfl
@[simp] theorem State.mapCore_versions (s : State) (c : Nat) (f : Core → Core) : (s.mapCore c f).versions = s.versions := rfl
@[simp] theorem State.mapCore_deadDies (s : State) (c : Nat) (f : Core → Core) : (s.mapCore c f).deadDies = s.deadDies := rfl
@[simp] theorem State.mapCore_noGDie (s : State) (c : Nat) (f : Core → Core) : (s.mapCore c f).noGDie = s.noGDie := rfl
@[simp] theorem State.mapCore_l2 (s : State) (c : Nat) (f : Core → Core) : (s.mapCore c f).l2 = s.l2 := rfl
@[simp] theorem State.mapCore_slices (s : State) (c : Nat) (f : Core → Core) : (s.mapCore c f).slices = s.slices := rfl
@[simp] theorem State.mapCore_seen (s : State) (c : Nat) (f : Core → Core) : (s.mapCore c f).seen = s.seen := rfl
@[simp] theorem State.mapCore_gclocks (s : State) (c : Nat) (f : Core → Core) : (s.mapCore c f).gclocks = s.gclocks := rfl
@[simp] theorem State.mapCore_fixes (s : State) (c : Nat) (f : Core → Core) : (s.mapCore c f).fixes = s.fixes := rfl
@[simp] theorem State.mapCore_poolFrames (s : State) (c : Nat) (f : Core → Core) : (s.mapCore c f).poolFrames = s.poolFrames := rfl
@[simp] theorem State.mapCore_keys (s : State) (c : Nat) (f : Core → Core) : (s.mapCore c f).keys = s.keys := rfl
@[simp] theorem State.mapCore_arrivals (s : State) (c : Nat) (f : Core → Core) : (s.mapCore c f).arrivals = s.arrivals := rfl
@[simp] theorem State.mapCore_movedAway (s : State) (c : Nat) (f : Core → Core) : (s.mapCore c f).movedAway = s.movedAway := rfl

/-! ## `mapWg` -/

@[simp] theorem State.mapWg_focus (s : State) (w : Nat) (f : Workgroup → Workgroup) : (s.mapWg w f).focus = s.focus := rfl
@[simp] theorem State.mapWg_others (s : State) (w : Nat) (f : Workgroup → Workgroup) : (s.mapWg w f).others = s.others := rfl
@[simp] theorem State.mapWg_agenda (s : State) (w : Nat) (f : Workgroup → Workgroup) : (s.mapWg w f).agenda = s.agenda := rfl
@[simp] theorem State.mapWg_grants (s : State) (w : Nat) (f : Workgroup → Workgroup) : (s.mapWg w f).grants = s.grants := rfl
@[simp] theorem State.mapWg_nextId (s : State) (w : Nat) (f : Workgroup → Workgroup) : (s.mapWg w f).nextId = s.nextId := rfl
@[simp] theorem State.mapWg_freeCtr (s : State) (w : Nat) (f : Workgroup → Workgroup) : (s.mapWg w f).freeCtr = s.freeCtr := rfl
@[simp] theorem State.mapWg_turnCore (s : State) (w : Nat) (f : Workgroup → Workgroup) : (s.mapWg w f).turnCore = s.turnCore := rfl
@[simp] theorem State.mapWg_mem (s : State) (w : Nat) (f : Workgroup → Workgroup) : (s.mapWg w f).mem = s.mem := rfl
@[simp] theorem State.mapWg_codes (s : State) (w : Nat) (f : Workgroup → Workgroup) : (s.mapWg w f).codes = s.codes := rfl
@[simp] theorem State.mapWg_bad (s : State) (w : Nat) (f : Workgroup → Workgroup) : (s.mapWg w f).bad = s.bad := rfl
@[simp] theorem State.mapWg_frames (s : State) (w : Nat) (f : Workgroup → Workgroup) : (s.mapWg w f).frames = s.frames := rfl
@[simp] theorem State.mapWg_tags (s : State) (w : Nat) (f : Workgroup → Workgroup) : (s.mapWg w f).tags = s.tags := rfl
@[simp] theorem State.mapWg_shadows (s : State) (w : Nat) (f : Workgroup → Workgroup) : (s.mapWg w f).shadows = s.shadows := rfl
@[simp] theorem State.mapWg_cores (s : State) (w : Nat) (f : Workgroup → Workgroup) : (s.mapWg w f).cores = s.cores := rfl
@[simp] theorem State.mapWg_l2tlb (s : State) (w : Nat) (f : Workgroup → Workgroup) : (s.mapWg w f).l2tlb = s.l2tlb := rfl
@[simp] theorem State.mapWg_walks (s : State) (w : Nat) (f : Workgroup → Workgroup) : (s.mapWg w f).walks = s.walks := rfl
@[simp] theorem State.mapWg_hedges (s : State) (w : Nat) (f : Workgroup → Workgroup) : (s.mapWg w f).hedges = s.hedges := rfl
@[simp] theorem State.mapWg_ctrs (s : State) (w : Nat) (f : Workgroup → Workgroup) : (s.mapWg w f).ctrs = s.ctrs := rfl
@[simp] theorem State.mapWg_adds (s : State) (w : Nat) (f : Workgroup → Workgroup) : (s.mapWg w f).adds = s.adds := rfl
@[simp] theorem State.mapWg_crossings (s : State) (w : Nat) (f : Workgroup → Workgroup) : (s.mapWg w f).crossings = s.crossings := rfl
@[simp] theorem State.mapWg_flips (s : State) (w : Nat) (f : Workgroup → Workgroup) : (s.mapWg w f).flips = s.flips := rfl
@[simp] theorem State.mapWg_copies (s : State) (w : Nat) (f : Workgroup → Workgroup) : (s.mapWg w f).copies = s.copies := rfl
@[simp] theorem State.mapWg_places (s : State) (w : Nat) (f : Workgroup → Workgroup) : (s.mapWg w f).places = s.places := rfl
@[simp] theorem State.mapWg_mgmt (s : State) (w : Nat) (f : Workgroup → Workgroup) : (s.mapWg w f).mgmt = s.mgmt := rfl
@[simp] theorem State.mapWg_poolRetired (s : State) (w : Nat) (f : Workgroup → Workgroup) : (s.mapWg w f).poolRetired = s.poolRetired := rfl
@[simp] theorem State.mapWg_harts (s : State) (w : Nat) (f : Workgroup → Workgroup) : (s.mapWg w f).harts = s.harts := rfl
@[simp] theorem State.mapWg_cxlDown (s : State) (w : Nat) (f : Workgroup → Workgroup) : (s.mapWg w f).cxlDown = s.cxlDown := rfl
@[simp] theorem State.mapWg_jobs (s : State) (w : Nat) (f : Workgroup → Workgroup) : (s.mapWg w f).jobs = s.jobs := rfl
@[simp] theorem State.mapWg_outbox (s : State) (w : Nat) (f : Workgroup → Workgroup) : (s.mapWg w f).outbox = s.outbox := rfl
@[simp] theorem State.mapWg_physLog (s : State) (w : Nat) (f : Workgroup → Workgroup) : (s.mapWg w f).physLog = s.physLog := rfl
@[simp] theorem State.mapWg_stage (s : State) (w : Nat) (f : Workgroup → Workgroup) : (s.mapWg w f).stage = s.stage := rfl
@[simp] theorem State.mapWg_meas (s : State) (w : Nat) (f : Workgroup → Workgroup) : (s.mapWg w f).meas = s.meas := rfl
@[simp] theorem State.mapWg_versions (s : State) (w : Nat) (f : Workgroup → Workgroup) : (s.mapWg w f).versions = s.versions := rfl
@[simp] theorem State.mapWg_deadDies (s : State) (w : Nat) (f : Workgroup → Workgroup) : (s.mapWg w f).deadDies = s.deadDies := rfl
@[simp] theorem State.mapWg_noGDie (s : State) (w : Nat) (f : Workgroup → Workgroup) : (s.mapWg w f).noGDie = s.noGDie := rfl
@[simp] theorem State.mapWg_l2 (s : State) (w : Nat) (f : Workgroup → Workgroup) : (s.mapWg w f).l2 = s.l2 := rfl
@[simp] theorem State.mapWg_slices (s : State) (w : Nat) (f : Workgroup → Workgroup) : (s.mapWg w f).slices = s.slices := rfl
@[simp] theorem State.mapWg_seen (s : State) (w : Nat) (f : Workgroup → Workgroup) : (s.mapWg w f).seen = s.seen := rfl
@[simp] theorem State.mapWg_gclocks (s : State) (w : Nat) (f : Workgroup → Workgroup) : (s.mapWg w f).gclocks = s.gclocks := rfl
@[simp] theorem State.mapWg_fixes (s : State) (w : Nat) (f : Workgroup → Workgroup) : (s.mapWg w f).fixes = s.fixes := rfl
@[simp] theorem State.mapWg_poolFrames (s : State) (w : Nat) (f : Workgroup → Workgroup) : (s.mapWg w f).poolFrames = s.poolFrames := rfl
@[simp] theorem State.mapWg_keys (s : State) (w : Nat) (f : Workgroup → Workgroup) : (s.mapWg w f).keys = s.keys := rfl
@[simp] theorem State.mapWg_arrivals (s : State) (w : Nat) (f : Workgroup → Workgroup) : (s.mapWg w f).arrivals = s.arrivals := rfl
@[simp] theorem State.mapWg_movedAway (s : State) (w : Nat) (f : Workgroup → Workgroup) : (s.mapWg w f).movedAway = s.movedAway := rfl

/-! ## `mapGroup` -/

@[simp] theorem State.mapGroup_agenda (s : State) (g : Nat) (f : Group → Group) : (s.mapGroup g f).agenda = s.agenda := rfl
@[simp] theorem State.mapGroup_grants (s : State) (g : Nat) (f : Group → Group) : (s.mapGroup g f).grants = s.grants := rfl
@[simp] theorem State.mapGroup_nextId (s : State) (g : Nat) (f : Group → Group) : (s.mapGroup g f).nextId = s.nextId := rfl
@[simp] theorem State.mapGroup_freeCtr (s : State) (g : Nat) (f : Group → Group) : (s.mapGroup g f).freeCtr = s.freeCtr := rfl
@[simp] theorem State.mapGroup_turnCore (s : State) (g : Nat) (f : Group → Group) : (s.mapGroup g f).turnCore = s.turnCore := rfl
@[simp] theorem State.mapGroup_mem (s : State) (g : Nat) (f : Group → Group) : (s.mapGroup g f).mem = s.mem := rfl
@[simp] theorem State.mapGroup_codes (s : State) (g : Nat) (f : Group → Group) : (s.mapGroup g f).codes = s.codes := rfl
@[simp] theorem State.mapGroup_bad (s : State) (g : Nat) (f : Group → Group) : (s.mapGroup g f).bad = s.bad := rfl
@[simp] theorem State.mapGroup_frames (s : State) (g : Nat) (f : Group → Group) : (s.mapGroup g f).frames = s.frames := rfl
@[simp] theorem State.mapGroup_tags (s : State) (g : Nat) (f : Group → Group) : (s.mapGroup g f).tags = s.tags := rfl
@[simp] theorem State.mapGroup_shadows (s : State) (g : Nat) (f : Group → Group) : (s.mapGroup g f).shadows = s.shadows := rfl
@[simp] theorem State.mapGroup_cores (s : State) (g : Nat) (f : Group → Group) : (s.mapGroup g f).cores = s.cores := rfl
@[simp] theorem State.mapGroup_l2tlb (s : State) (g : Nat) (f : Group → Group) : (s.mapGroup g f).l2tlb = s.l2tlb := rfl
@[simp] theorem State.mapGroup_walks (s : State) (g : Nat) (f : Group → Group) : (s.mapGroup g f).walks = s.walks := rfl
@[simp] theorem State.mapGroup_wgs (s : State) (g : Nat) (f : Group → Group) : (s.mapGroup g f).wgs = s.wgs := rfl
@[simp] theorem State.mapGroup_hedges (s : State) (g : Nat) (f : Group → Group) : (s.mapGroup g f).hedges = s.hedges := rfl
@[simp] theorem State.mapGroup_ctrs (s : State) (g : Nat) (f : Group → Group) : (s.mapGroup g f).ctrs = s.ctrs := rfl
@[simp] theorem State.mapGroup_adds (s : State) (g : Nat) (f : Group → Group) : (s.mapGroup g f).adds = s.adds := rfl
@[simp] theorem State.mapGroup_crossings (s : State) (g : Nat) (f : Group → Group) : (s.mapGroup g f).crossings = s.crossings := rfl
@[simp] theorem State.mapGroup_flips (s : State) (g : Nat) (f : Group → Group) : (s.mapGroup g f).flips = s.flips := rfl
@[simp] theorem State.mapGroup_copies (s : State) (g : Nat) (f : Group → Group) : (s.mapGroup g f).copies = s.copies := rfl
@[simp] theorem State.mapGroup_places (s : State) (g : Nat) (f : Group → Group) : (s.mapGroup g f).places = s.places := rfl
@[simp] theorem State.mapGroup_mgmt (s : State) (g : Nat) (f : Group → Group) : (s.mapGroup g f).mgmt = s.mgmt := rfl
@[simp] theorem State.mapGroup_poolRetired (s : State) (g : Nat) (f : Group → Group) : (s.mapGroup g f).poolRetired = s.poolRetired := rfl
@[simp] theorem State.mapGroup_harts (s : State) (g : Nat) (f : Group → Group) : (s.mapGroup g f).harts = s.harts := rfl
@[simp] theorem State.mapGroup_cxlDown (s : State) (g : Nat) (f : Group → Group) : (s.mapGroup g f).cxlDown = s.cxlDown := rfl
@[simp] theorem State.mapGroup_jobs (s : State) (g : Nat) (f : Group → Group) : (s.mapGroup g f).jobs = s.jobs := rfl
@[simp] theorem State.mapGroup_outbox (s : State) (g : Nat) (f : Group → Group) : (s.mapGroup g f).outbox = s.outbox := rfl
@[simp] theorem State.mapGroup_physLog (s : State) (g : Nat) (f : Group → Group) : (s.mapGroup g f).physLog = s.physLog := rfl
@[simp] theorem State.mapGroup_stage (s : State) (g : Nat) (f : Group → Group) : (s.mapGroup g f).stage = s.stage := rfl
@[simp] theorem State.mapGroup_meas (s : State) (g : Nat) (f : Group → Group) : (s.mapGroup g f).meas = s.meas := rfl
@[simp] theorem State.mapGroup_versions (s : State) (g : Nat) (f : Group → Group) : (s.mapGroup g f).versions = s.versions := rfl
@[simp] theorem State.mapGroup_deadDies (s : State) (g : Nat) (f : Group → Group) : (s.mapGroup g f).deadDies = s.deadDies := rfl
@[simp] theorem State.mapGroup_noGDie (s : State) (g : Nat) (f : Group → Group) : (s.mapGroup g f).noGDie = s.noGDie := rfl
@[simp] theorem State.mapGroup_l2 (s : State) (g : Nat) (f : Group → Group) : (s.mapGroup g f).l2 = s.l2 := rfl
@[simp] theorem State.mapGroup_slices (s : State) (g : Nat) (f : Group → Group) : (s.mapGroup g f).slices = s.slices := rfl
@[simp] theorem State.mapGroup_seen (s : State) (g : Nat) (f : Group → Group) : (s.mapGroup g f).seen = s.seen := rfl
@[simp] theorem State.mapGroup_gclocks (s : State) (g : Nat) (f : Group → Group) : (s.mapGroup g f).gclocks = s.gclocks := rfl
@[simp] theorem State.mapGroup_fixes (s : State) (g : Nat) (f : Group → Group) : (s.mapGroup g f).fixes = s.fixes := rfl
@[simp] theorem State.mapGroup_poolFrames (s : State) (g : Nat) (f : Group → Group) : (s.mapGroup g f).poolFrames = s.poolFrames := rfl
@[simp] theorem State.mapGroup_keys (s : State) (g : Nat) (f : Group → Group) : (s.mapGroup g f).keys = s.keys := rfl
@[simp] theorem State.mapGroup_arrivals (s : State) (g : Nat) (f : Group → Group) : (s.mapGroup g f).arrivals = s.arrivals := rfl
@[simp] theorem State.mapGroup_movedAway (s : State) (g : Nat) (f : Group → Group) : (s.mapGroup g f).movedAway = s.movedAway := rfl

/-! ## `mapFrame` -/

@[simp] theorem State.mapFrame_focus (s : State) (n : Nat) (f : Frame → Frame) : (s.mapFrame n f).focus = s.focus := rfl
@[simp] theorem State.mapFrame_others (s : State) (n : Nat) (f : Frame → Frame) : (s.mapFrame n f).others = s.others := rfl
@[simp] theorem State.mapFrame_agenda (s : State) (n : Nat) (f : Frame → Frame) : (s.mapFrame n f).agenda = s.agenda := rfl
@[simp] theorem State.mapFrame_grants (s : State) (n : Nat) (f : Frame → Frame) : (s.mapFrame n f).grants = s.grants := rfl
@[simp] theorem State.mapFrame_nextId (s : State) (n : Nat) (f : Frame → Frame) : (s.mapFrame n f).nextId = s.nextId := rfl
@[simp] theorem State.mapFrame_freeCtr (s : State) (n : Nat) (f : Frame → Frame) : (s.mapFrame n f).freeCtr = s.freeCtr := rfl
@[simp] theorem State.mapFrame_turnCore (s : State) (n : Nat) (f : Frame → Frame) : (s.mapFrame n f).turnCore = s.turnCore := rfl
@[simp] theorem State.mapFrame_mem (s : State) (n : Nat) (f : Frame → Frame) : (s.mapFrame n f).mem = s.mem := rfl
@[simp] theorem State.mapFrame_codes (s : State) (n : Nat) (f : Frame → Frame) : (s.mapFrame n f).codes = s.codes := rfl
@[simp] theorem State.mapFrame_bad (s : State) (n : Nat) (f : Frame → Frame) : (s.mapFrame n f).bad = s.bad := rfl
@[simp] theorem State.mapFrame_tags (s : State) (n : Nat) (f : Frame → Frame) : (s.mapFrame n f).tags = s.tags := rfl
@[simp] theorem State.mapFrame_shadows (s : State) (n : Nat) (f : Frame → Frame) : (s.mapFrame n f).shadows = s.shadows := rfl
@[simp] theorem State.mapFrame_cores (s : State) (n : Nat) (f : Frame → Frame) : (s.mapFrame n f).cores = s.cores := rfl
@[simp] theorem State.mapFrame_l2tlb (s : State) (n : Nat) (f : Frame → Frame) : (s.mapFrame n f).l2tlb = s.l2tlb := rfl
@[simp] theorem State.mapFrame_walks (s : State) (n : Nat) (f : Frame → Frame) : (s.mapFrame n f).walks = s.walks := rfl
@[simp] theorem State.mapFrame_wgs (s : State) (n : Nat) (f : Frame → Frame) : (s.mapFrame n f).wgs = s.wgs := rfl
@[simp] theorem State.mapFrame_hedges (s : State) (n : Nat) (f : Frame → Frame) : (s.mapFrame n f).hedges = s.hedges := rfl
@[simp] theorem State.mapFrame_ctrs (s : State) (n : Nat) (f : Frame → Frame) : (s.mapFrame n f).ctrs = s.ctrs := rfl
@[simp] theorem State.mapFrame_adds (s : State) (n : Nat) (f : Frame → Frame) : (s.mapFrame n f).adds = s.adds := rfl
@[simp] theorem State.mapFrame_crossings (s : State) (n : Nat) (f : Frame → Frame) : (s.mapFrame n f).crossings = s.crossings := rfl
@[simp] theorem State.mapFrame_flips (s : State) (n : Nat) (f : Frame → Frame) : (s.mapFrame n f).flips = s.flips := rfl
@[simp] theorem State.mapFrame_copies (s : State) (n : Nat) (f : Frame → Frame) : (s.mapFrame n f).copies = s.copies := rfl
@[simp] theorem State.mapFrame_places (s : State) (n : Nat) (f : Frame → Frame) : (s.mapFrame n f).places = s.places := rfl
@[simp] theorem State.mapFrame_mgmt (s : State) (n : Nat) (f : Frame → Frame) : (s.mapFrame n f).mgmt = s.mgmt := rfl
@[simp] theorem State.mapFrame_poolRetired (s : State) (n : Nat) (f : Frame → Frame) : (s.mapFrame n f).poolRetired = s.poolRetired := rfl
@[simp] theorem State.mapFrame_harts (s : State) (n : Nat) (f : Frame → Frame) : (s.mapFrame n f).harts = s.harts := rfl
@[simp] theorem State.mapFrame_cxlDown (s : State) (n : Nat) (f : Frame → Frame) : (s.mapFrame n f).cxlDown = s.cxlDown := rfl
@[simp] theorem State.mapFrame_jobs (s : State) (n : Nat) (f : Frame → Frame) : (s.mapFrame n f).jobs = s.jobs := rfl
@[simp] theorem State.mapFrame_outbox (s : State) (n : Nat) (f : Frame → Frame) : (s.mapFrame n f).outbox = s.outbox := rfl
@[simp] theorem State.mapFrame_physLog (s : State) (n : Nat) (f : Frame → Frame) : (s.mapFrame n f).physLog = s.physLog := rfl
@[simp] theorem State.mapFrame_stage (s : State) (n : Nat) (f : Frame → Frame) : (s.mapFrame n f).stage = s.stage := rfl
@[simp] theorem State.mapFrame_meas (s : State) (n : Nat) (f : Frame → Frame) : (s.mapFrame n f).meas = s.meas := rfl
@[simp] theorem State.mapFrame_versions (s : State) (n : Nat) (f : Frame → Frame) : (s.mapFrame n f).versions = s.versions := rfl
@[simp] theorem State.mapFrame_deadDies (s : State) (n : Nat) (f : Frame → Frame) : (s.mapFrame n f).deadDies = s.deadDies := rfl
@[simp] theorem State.mapFrame_noGDie (s : State) (n : Nat) (f : Frame → Frame) : (s.mapFrame n f).noGDie = s.noGDie := rfl
@[simp] theorem State.mapFrame_l2 (s : State) (n : Nat) (f : Frame → Frame) : (s.mapFrame n f).l2 = s.l2 := rfl
@[simp] theorem State.mapFrame_slices (s : State) (n : Nat) (f : Frame → Frame) : (s.mapFrame n f).slices = s.slices := rfl
@[simp] theorem State.mapFrame_seen (s : State) (n : Nat) (f : Frame → Frame) : (s.mapFrame n f).seen = s.seen := rfl
@[simp] theorem State.mapFrame_gclocks (s : State) (n : Nat) (f : Frame → Frame) : (s.mapFrame n f).gclocks = s.gclocks := rfl
@[simp] theorem State.mapFrame_fixes (s : State) (n : Nat) (f : Frame → Frame) : (s.mapFrame n f).fixes = s.fixes := rfl
@[simp] theorem State.mapFrame_poolFrames (s : State) (n : Nat) (f : Frame → Frame) : (s.mapFrame n f).poolFrames = s.poolFrames := rfl
@[simp] theorem State.mapFrame_keys (s : State) (n : Nat) (f : Frame → Frame) : (s.mapFrame n f).keys = s.keys := rfl
@[simp] theorem State.mapFrame_arrivals (s : State) (n : Nat) (f : Frame → Frame) : (s.mapFrame n f).arrivals = s.arrivals := rfl
@[simp] theorem State.mapFrame_movedAway (s : State) (n : Nat) (f : Frame → Frame) : (s.mapFrame n f).movedAway = s.movedAway := rfl

/-! ## `mapCtr` -/

@[simp] theorem State.mapCtr_focus (s : State) (k : CtrKey) (f : Ctr → Ctr) : (s.mapCtr k f).focus = s.focus := rfl
@[simp] theorem State.mapCtr_others (s : State) (k : CtrKey) (f : Ctr → Ctr) : (s.mapCtr k f).others = s.others := rfl
@[simp] theorem State.mapCtr_agenda (s : State) (k : CtrKey) (f : Ctr → Ctr) : (s.mapCtr k f).agenda = s.agenda := rfl
@[simp] theorem State.mapCtr_grants (s : State) (k : CtrKey) (f : Ctr → Ctr) : (s.mapCtr k f).grants = s.grants := rfl
@[simp] theorem State.mapCtr_nextId (s : State) (k : CtrKey) (f : Ctr → Ctr) : (s.mapCtr k f).nextId = s.nextId := rfl
@[simp] theorem State.mapCtr_freeCtr (s : State) (k : CtrKey) (f : Ctr → Ctr) : (s.mapCtr k f).freeCtr = s.freeCtr := rfl
@[simp] theorem State.mapCtr_turnCore (s : State) (k : CtrKey) (f : Ctr → Ctr) : (s.mapCtr k f).turnCore = s.turnCore := rfl
@[simp] theorem State.mapCtr_mem (s : State) (k : CtrKey) (f : Ctr → Ctr) : (s.mapCtr k f).mem = s.mem := rfl
@[simp] theorem State.mapCtr_codes (s : State) (k : CtrKey) (f : Ctr → Ctr) : (s.mapCtr k f).codes = s.codes := rfl
@[simp] theorem State.mapCtr_bad (s : State) (k : CtrKey) (f : Ctr → Ctr) : (s.mapCtr k f).bad = s.bad := rfl
@[simp] theorem State.mapCtr_frames (s : State) (k : CtrKey) (f : Ctr → Ctr) : (s.mapCtr k f).frames = s.frames := rfl
@[simp] theorem State.mapCtr_tags (s : State) (k : CtrKey) (f : Ctr → Ctr) : (s.mapCtr k f).tags = s.tags := rfl
@[simp] theorem State.mapCtr_shadows (s : State) (k : CtrKey) (f : Ctr → Ctr) : (s.mapCtr k f).shadows = s.shadows := rfl
@[simp] theorem State.mapCtr_cores (s : State) (k : CtrKey) (f : Ctr → Ctr) : (s.mapCtr k f).cores = s.cores := rfl
@[simp] theorem State.mapCtr_l2tlb (s : State) (k : CtrKey) (f : Ctr → Ctr) : (s.mapCtr k f).l2tlb = s.l2tlb := rfl
@[simp] theorem State.mapCtr_walks (s : State) (k : CtrKey) (f : Ctr → Ctr) : (s.mapCtr k f).walks = s.walks := rfl
@[simp] theorem State.mapCtr_wgs (s : State) (k : CtrKey) (f : Ctr → Ctr) : (s.mapCtr k f).wgs = s.wgs := rfl
@[simp] theorem State.mapCtr_hedges (s : State) (k : CtrKey) (f : Ctr → Ctr) : (s.mapCtr k f).hedges = s.hedges := rfl
@[simp] theorem State.mapCtr_adds (s : State) (k : CtrKey) (f : Ctr → Ctr) : (s.mapCtr k f).adds = s.adds := rfl
@[simp] theorem State.mapCtr_crossings (s : State) (k : CtrKey) (f : Ctr → Ctr) : (s.mapCtr k f).crossings = s.crossings := rfl
@[simp] theorem State.mapCtr_flips (s : State) (k : CtrKey) (f : Ctr → Ctr) : (s.mapCtr k f).flips = s.flips := rfl
@[simp] theorem State.mapCtr_copies (s : State) (k : CtrKey) (f : Ctr → Ctr) : (s.mapCtr k f).copies = s.copies := rfl
@[simp] theorem State.mapCtr_places (s : State) (k : CtrKey) (f : Ctr → Ctr) : (s.mapCtr k f).places = s.places := rfl
@[simp] theorem State.mapCtr_mgmt (s : State) (k : CtrKey) (f : Ctr → Ctr) : (s.mapCtr k f).mgmt = s.mgmt := rfl
@[simp] theorem State.mapCtr_poolRetired (s : State) (k : CtrKey) (f : Ctr → Ctr) : (s.mapCtr k f).poolRetired = s.poolRetired := rfl
@[simp] theorem State.mapCtr_harts (s : State) (k : CtrKey) (f : Ctr → Ctr) : (s.mapCtr k f).harts = s.harts := rfl
@[simp] theorem State.mapCtr_cxlDown (s : State) (k : CtrKey) (f : Ctr → Ctr) : (s.mapCtr k f).cxlDown = s.cxlDown := rfl
@[simp] theorem State.mapCtr_jobs (s : State) (k : CtrKey) (f : Ctr → Ctr) : (s.mapCtr k f).jobs = s.jobs := rfl
@[simp] theorem State.mapCtr_outbox (s : State) (k : CtrKey) (f : Ctr → Ctr) : (s.mapCtr k f).outbox = s.outbox := rfl
@[simp] theorem State.mapCtr_physLog (s : State) (k : CtrKey) (f : Ctr → Ctr) : (s.mapCtr k f).physLog = s.physLog := rfl
@[simp] theorem State.mapCtr_stage (s : State) (k : CtrKey) (f : Ctr → Ctr) : (s.mapCtr k f).stage = s.stage := rfl
@[simp] theorem State.mapCtr_meas (s : State) (k : CtrKey) (f : Ctr → Ctr) : (s.mapCtr k f).meas = s.meas := rfl
@[simp] theorem State.mapCtr_versions (s : State) (k : CtrKey) (f : Ctr → Ctr) : (s.mapCtr k f).versions = s.versions := rfl
@[simp] theorem State.mapCtr_deadDies (s : State) (k : CtrKey) (f : Ctr → Ctr) : (s.mapCtr k f).deadDies = s.deadDies := rfl
@[simp] theorem State.mapCtr_noGDie (s : State) (k : CtrKey) (f : Ctr → Ctr) : (s.mapCtr k f).noGDie = s.noGDie := rfl
@[simp] theorem State.mapCtr_l2 (s : State) (k : CtrKey) (f : Ctr → Ctr) : (s.mapCtr k f).l2 = s.l2 := rfl
@[simp] theorem State.mapCtr_slices (s : State) (k : CtrKey) (f : Ctr → Ctr) : (s.mapCtr k f).slices = s.slices := rfl
@[simp] theorem State.mapCtr_seen (s : State) (k : CtrKey) (f : Ctr → Ctr) : (s.mapCtr k f).seen = s.seen := rfl
@[simp] theorem State.mapCtr_gclocks (s : State) (k : CtrKey) (f : Ctr → Ctr) : (s.mapCtr k f).gclocks = s.gclocks := rfl
@[simp] theorem State.mapCtr_fixes (s : State) (k : CtrKey) (f : Ctr → Ctr) : (s.mapCtr k f).fixes = s.fixes := rfl
@[simp] theorem State.mapCtr_poolFrames (s : State) (k : CtrKey) (f : Ctr → Ctr) : (s.mapCtr k f).poolFrames = s.poolFrames := rfl
@[simp] theorem State.mapCtr_keys (s : State) (k : CtrKey) (f : Ctr → Ctr) : (s.mapCtr k f).keys = s.keys := rfl
@[simp] theorem State.mapCtr_arrivals (s : State) (k : CtrKey) (f : Ctr → Ctr) : (s.mapCtr k f).arrivals = s.arrivals := rfl
@[simp] theorem State.mapCtr_movedAway (s : State) (k : CtrKey) (f : Ctr → Ctr) : (s.mapCtr k f).movedAway = s.movedAway := rfl

/-! ## `mapCopy` -/

@[simp] theorem State.mapCopy_focus (s : State) (c : Nat) (f : Copy → Copy) : (s.mapCopy c f).focus = s.focus := rfl
@[simp] theorem State.mapCopy_others (s : State) (c : Nat) (f : Copy → Copy) : (s.mapCopy c f).others = s.others := rfl
@[simp] theorem State.mapCopy_agenda (s : State) (c : Nat) (f : Copy → Copy) : (s.mapCopy c f).agenda = s.agenda := rfl
@[simp] theorem State.mapCopy_grants (s : State) (c : Nat) (f : Copy → Copy) : (s.mapCopy c f).grants = s.grants := rfl
@[simp] theorem State.mapCopy_nextId (s : State) (c : Nat) (f : Copy → Copy) : (s.mapCopy c f).nextId = s.nextId := rfl
@[simp] theorem State.mapCopy_freeCtr (s : State) (c : Nat) (f : Copy → Copy) : (s.mapCopy c f).freeCtr = s.freeCtr := rfl
@[simp] theorem State.mapCopy_turnCore (s : State) (c : Nat) (f : Copy → Copy) : (s.mapCopy c f).turnCore = s.turnCore := rfl
@[simp] theorem State.mapCopy_mem (s : State) (c : Nat) (f : Copy → Copy) : (s.mapCopy c f).mem = s.mem := rfl
@[simp] theorem State.mapCopy_codes (s : State) (c : Nat) (f : Copy → Copy) : (s.mapCopy c f).codes = s.codes := rfl
@[simp] theorem State.mapCopy_bad (s : State) (c : Nat) (f : Copy → Copy) : (s.mapCopy c f).bad = s.bad := rfl
@[simp] theorem State.mapCopy_frames (s : State) (c : Nat) (f : Copy → Copy) : (s.mapCopy c f).frames = s.frames := rfl
@[simp] theorem State.mapCopy_tags (s : State) (c : Nat) (f : Copy → Copy) : (s.mapCopy c f).tags = s.tags := rfl
@[simp] theorem State.mapCopy_shadows (s : State) (c : Nat) (f : Copy → Copy) : (s.mapCopy c f).shadows = s.shadows := rfl
@[simp] theorem State.mapCopy_cores (s : State) (c : Nat) (f : Copy → Copy) : (s.mapCopy c f).cores = s.cores := rfl
@[simp] theorem State.mapCopy_l2tlb (s : State) (c : Nat) (f : Copy → Copy) : (s.mapCopy c f).l2tlb = s.l2tlb := rfl
@[simp] theorem State.mapCopy_walks (s : State) (c : Nat) (f : Copy → Copy) : (s.mapCopy c f).walks = s.walks := rfl
@[simp] theorem State.mapCopy_wgs (s : State) (c : Nat) (f : Copy → Copy) : (s.mapCopy c f).wgs = s.wgs := rfl
@[simp] theorem State.mapCopy_hedges (s : State) (c : Nat) (f : Copy → Copy) : (s.mapCopy c f).hedges = s.hedges := rfl
@[simp] theorem State.mapCopy_ctrs (s : State) (c : Nat) (f : Copy → Copy) : (s.mapCopy c f).ctrs = s.ctrs := rfl
@[simp] theorem State.mapCopy_adds (s : State) (c : Nat) (f : Copy → Copy) : (s.mapCopy c f).adds = s.adds := rfl
@[simp] theorem State.mapCopy_crossings (s : State) (c : Nat) (f : Copy → Copy) : (s.mapCopy c f).crossings = s.crossings := rfl
@[simp] theorem State.mapCopy_flips (s : State) (c : Nat) (f : Copy → Copy) : (s.mapCopy c f).flips = s.flips := rfl
@[simp] theorem State.mapCopy_places (s : State) (c : Nat) (f : Copy → Copy) : (s.mapCopy c f).places = s.places := rfl
@[simp] theorem State.mapCopy_mgmt (s : State) (c : Nat) (f : Copy → Copy) : (s.mapCopy c f).mgmt = s.mgmt := rfl
@[simp] theorem State.mapCopy_poolRetired (s : State) (c : Nat) (f : Copy → Copy) : (s.mapCopy c f).poolRetired = s.poolRetired := rfl
@[simp] theorem State.mapCopy_harts (s : State) (c : Nat) (f : Copy → Copy) : (s.mapCopy c f).harts = s.harts := rfl
@[simp] theorem State.mapCopy_cxlDown (s : State) (c : Nat) (f : Copy → Copy) : (s.mapCopy c f).cxlDown = s.cxlDown := rfl
@[simp] theorem State.mapCopy_jobs (s : State) (c : Nat) (f : Copy → Copy) : (s.mapCopy c f).jobs = s.jobs := rfl
@[simp] theorem State.mapCopy_outbox (s : State) (c : Nat) (f : Copy → Copy) : (s.mapCopy c f).outbox = s.outbox := rfl
@[simp] theorem State.mapCopy_physLog (s : State) (c : Nat) (f : Copy → Copy) : (s.mapCopy c f).physLog = s.physLog := rfl
@[simp] theorem State.mapCopy_stage (s : State) (c : Nat) (f : Copy → Copy) : (s.mapCopy c f).stage = s.stage := rfl
@[simp] theorem State.mapCopy_meas (s : State) (c : Nat) (f : Copy → Copy) : (s.mapCopy c f).meas = s.meas := rfl
@[simp] theorem State.mapCopy_versions (s : State) (c : Nat) (f : Copy → Copy) : (s.mapCopy c f).versions = s.versions := rfl
@[simp] theorem State.mapCopy_deadDies (s : State) (c : Nat) (f : Copy → Copy) : (s.mapCopy c f).deadDies = s.deadDies := rfl
@[simp] theorem State.mapCopy_noGDie (s : State) (c : Nat) (f : Copy → Copy) : (s.mapCopy c f).noGDie = s.noGDie := rfl
@[simp] theorem State.mapCopy_l2 (s : State) (c : Nat) (f : Copy → Copy) : (s.mapCopy c f).l2 = s.l2 := rfl
@[simp] theorem State.mapCopy_slices (s : State) (c : Nat) (f : Copy → Copy) : (s.mapCopy c f).slices = s.slices := rfl
@[simp] theorem State.mapCopy_seen (s : State) (c : Nat) (f : Copy → Copy) : (s.mapCopy c f).seen = s.seen := rfl
@[simp] theorem State.mapCopy_gclocks (s : State) (c : Nat) (f : Copy → Copy) : (s.mapCopy c f).gclocks = s.gclocks := rfl
@[simp] theorem State.mapCopy_fixes (s : State) (c : Nat) (f : Copy → Copy) : (s.mapCopy c f).fixes = s.fixes := rfl
@[simp] theorem State.mapCopy_poolFrames (s : State) (c : Nat) (f : Copy → Copy) : (s.mapCopy c f).poolFrames = s.poolFrames := rfl
@[simp] theorem State.mapCopy_keys (s : State) (c : Nat) (f : Copy → Copy) : (s.mapCopy c f).keys = s.keys := rfl
@[simp] theorem State.mapCopy_arrivals (s : State) (c : Nat) (f : Copy → Copy) : (s.mapCopy c f).arrivals = s.arrivals := rfl
@[simp] theorem State.mapCopy_movedAway (s : State) (c : Nat) (f : Copy → Copy) : (s.mapCopy c f).movedAway = s.movedAway := rfl

/-! ## `logEvent` -/

@[simp] theorem State.logEvent_focus (s : State) (e : LogEntry) : (s.logEvent e).focus = s.focus := rfl
@[simp] theorem State.logEvent_others (s : State) (e : LogEntry) : (s.logEvent e).others = s.others := rfl
@[simp] theorem State.logEvent_agenda (s : State) (e : LogEntry) : (s.logEvent e).agenda = s.agenda := rfl
@[simp] theorem State.logEvent_grants (s : State) (e : LogEntry) : (s.logEvent e).grants = s.grants := rfl
@[simp] theorem State.logEvent_nextId (s : State) (e : LogEntry) : (s.logEvent e).nextId = s.nextId := rfl
@[simp] theorem State.logEvent_freeCtr (s : State) (e : LogEntry) : (s.logEvent e).freeCtr = s.freeCtr := rfl
@[simp] theorem State.logEvent_turnCore (s : State) (e : LogEntry) : (s.logEvent e).turnCore = s.turnCore := rfl
@[simp] theorem State.logEvent_mem (s : State) (e : LogEntry) : (s.logEvent e).mem = s.mem := rfl
@[simp] theorem State.logEvent_codes (s : State) (e : LogEntry) : (s.logEvent e).codes = s.codes := rfl
@[simp] theorem State.logEvent_bad (s : State) (e : LogEntry) : (s.logEvent e).bad = s.bad := rfl
@[simp] theorem State.logEvent_frames (s : State) (e : LogEntry) : (s.logEvent e).frames = s.frames := rfl
@[simp] theorem State.logEvent_tags (s : State) (e : LogEntry) : (s.logEvent e).tags = s.tags := rfl
@[simp] theorem State.logEvent_shadows (s : State) (e : LogEntry) : (s.logEvent e).shadows = s.shadows := rfl
@[simp] theorem State.logEvent_cores (s : State) (e : LogEntry) : (s.logEvent e).cores = s.cores := rfl
@[simp] theorem State.logEvent_l2tlb (s : State) (e : LogEntry) : (s.logEvent e).l2tlb = s.l2tlb := rfl
@[simp] theorem State.logEvent_walks (s : State) (e : LogEntry) : (s.logEvent e).walks = s.walks := rfl
@[simp] theorem State.logEvent_wgs (s : State) (e : LogEntry) : (s.logEvent e).wgs = s.wgs := rfl
@[simp] theorem State.logEvent_hedges (s : State) (e : LogEntry) : (s.logEvent e).hedges = s.hedges := rfl
@[simp] theorem State.logEvent_ctrs (s : State) (e : LogEntry) : (s.logEvent e).ctrs = s.ctrs := rfl
@[simp] theorem State.logEvent_adds (s : State) (e : LogEntry) : (s.logEvent e).adds = s.adds := rfl
@[simp] theorem State.logEvent_crossings (s : State) (e : LogEntry) : (s.logEvent e).crossings = s.crossings := rfl
@[simp] theorem State.logEvent_flips (s : State) (e : LogEntry) : (s.logEvent e).flips = s.flips := rfl
@[simp] theorem State.logEvent_copies (s : State) (e : LogEntry) : (s.logEvent e).copies = s.copies := rfl
@[simp] theorem State.logEvent_places (s : State) (e : LogEntry) : (s.logEvent e).places = s.places := rfl
@[simp] theorem State.logEvent_mgmt (s : State) (e : LogEntry) : (s.logEvent e).mgmt = s.mgmt := rfl
@[simp] theorem State.logEvent_poolRetired (s : State) (e : LogEntry) : (s.logEvent e).poolRetired = s.poolRetired := rfl
@[simp] theorem State.logEvent_harts (s : State) (e : LogEntry) : (s.logEvent e).harts = s.harts := rfl
@[simp] theorem State.logEvent_cxlDown (s : State) (e : LogEntry) : (s.logEvent e).cxlDown = s.cxlDown := rfl
@[simp] theorem State.logEvent_jobs (s : State) (e : LogEntry) : (s.logEvent e).jobs = s.jobs := rfl
@[simp] theorem State.logEvent_outbox (s : State) (e : LogEntry) : (s.logEvent e).outbox = s.outbox := rfl
@[simp] theorem State.logEvent_stage (s : State) (e : LogEntry) : (s.logEvent e).stage = s.stage := rfl
@[simp] theorem State.logEvent_meas (s : State) (e : LogEntry) : (s.logEvent e).meas = s.meas := rfl
@[simp] theorem State.logEvent_versions (s : State) (e : LogEntry) : (s.logEvent e).versions = s.versions := rfl
@[simp] theorem State.logEvent_deadDies (s : State) (e : LogEntry) : (s.logEvent e).deadDies = s.deadDies := rfl
@[simp] theorem State.logEvent_noGDie (s : State) (e : LogEntry) : (s.logEvent e).noGDie = s.noGDie := rfl
@[simp] theorem State.logEvent_l2 (s : State) (e : LogEntry) : (s.logEvent e).l2 = s.l2 := rfl
@[simp] theorem State.logEvent_slices (s : State) (e : LogEntry) : (s.logEvent e).slices = s.slices := rfl
@[simp] theorem State.logEvent_seen (s : State) (e : LogEntry) : (s.logEvent e).seen = s.seen := rfl
@[simp] theorem State.logEvent_gclocks (s : State) (e : LogEntry) : (s.logEvent e).gclocks = s.gclocks := rfl
@[simp] theorem State.logEvent_fixes (s : State) (e : LogEntry) : (s.logEvent e).fixes = s.fixes := rfl
@[simp] theorem State.logEvent_poolFrames (s : State) (e : LogEntry) : (s.logEvent e).poolFrames = s.poolFrames := rfl
@[simp] theorem State.logEvent_keys (s : State) (e : LogEntry) : (s.logEvent e).keys = s.keys := rfl
@[simp] theorem State.logEvent_arrivals (s : State) (e : LogEntry) : (s.logEvent e).arrivals = s.arrivals := rfl
@[simp] theorem State.logEvent_movedAway (s : State) (e : LogEntry) : (s.logEvent e).movedAway = s.movedAway := rfl

/-! ## `send` -/

@[simp] theorem State.send_focus (s : State) (m : Msg) : (s.send m).focus = s.focus := rfl
@[simp] theorem State.send_others (s : State) (m : Msg) : (s.send m).others = s.others := rfl
@[simp] theorem State.send_agenda (s : State) (m : Msg) : (s.send m).agenda = s.agenda := rfl
@[simp] theorem State.send_grants (s : State) (m : Msg) : (s.send m).grants = s.grants := rfl
@[simp] theorem State.send_nextId (s : State) (m : Msg) : (s.send m).nextId = s.nextId := rfl
@[simp] theorem State.send_freeCtr (s : State) (m : Msg) : (s.send m).freeCtr = s.freeCtr := rfl
@[simp] theorem State.send_turnCore (s : State) (m : Msg) : (s.send m).turnCore = s.turnCore := rfl
@[simp] theorem State.send_mem (s : State) (m : Msg) : (s.send m).mem = s.mem := rfl
@[simp] theorem State.send_codes (s : State) (m : Msg) : (s.send m).codes = s.codes := rfl
@[simp] theorem State.send_bad (s : State) (m : Msg) : (s.send m).bad = s.bad := rfl
@[simp] theorem State.send_frames (s : State) (m : Msg) : (s.send m).frames = s.frames := rfl
@[simp] theorem State.send_tags (s : State) (m : Msg) : (s.send m).tags = s.tags := rfl
@[simp] theorem State.send_shadows (s : State) (m : Msg) : (s.send m).shadows = s.shadows := rfl
@[simp] theorem State.send_cores (s : State) (m : Msg) : (s.send m).cores = s.cores := rfl
@[simp] theorem State.send_l2tlb (s : State) (m : Msg) : (s.send m).l2tlb = s.l2tlb := rfl
@[simp] theorem State.send_walks (s : State) (m : Msg) : (s.send m).walks = s.walks := rfl
@[simp] theorem State.send_wgs (s : State) (m : Msg) : (s.send m).wgs = s.wgs := rfl
@[simp] theorem State.send_hedges (s : State) (m : Msg) : (s.send m).hedges = s.hedges := rfl
@[simp] theorem State.send_ctrs (s : State) (m : Msg) : (s.send m).ctrs = s.ctrs := rfl
@[simp] theorem State.send_adds (s : State) (m : Msg) : (s.send m).adds = s.adds := rfl
@[simp] theorem State.send_crossings (s : State) (m : Msg) : (s.send m).crossings = s.crossings := rfl
@[simp] theorem State.send_flips (s : State) (m : Msg) : (s.send m).flips = s.flips := rfl
@[simp] theorem State.send_copies (s : State) (m : Msg) : (s.send m).copies = s.copies := rfl
@[simp] theorem State.send_places (s : State) (m : Msg) : (s.send m).places = s.places := rfl
@[simp] theorem State.send_mgmt (s : State) (m : Msg) : (s.send m).mgmt = s.mgmt := rfl
@[simp] theorem State.send_poolRetired (s : State) (m : Msg) : (s.send m).poolRetired = s.poolRetired := rfl
@[simp] theorem State.send_harts (s : State) (m : Msg) : (s.send m).harts = s.harts := rfl
@[simp] theorem State.send_cxlDown (s : State) (m : Msg) : (s.send m).cxlDown = s.cxlDown := rfl
@[simp] theorem State.send_jobs (s : State) (m : Msg) : (s.send m).jobs = s.jobs := rfl
@[simp] theorem State.send_physLog (s : State) (m : Msg) : (s.send m).physLog = s.physLog := rfl
@[simp] theorem State.send_stage (s : State) (m : Msg) : (s.send m).stage = s.stage := rfl
@[simp] theorem State.send_meas (s : State) (m : Msg) : (s.send m).meas = s.meas := rfl
@[simp] theorem State.send_versions (s : State) (m : Msg) : (s.send m).versions = s.versions := rfl
@[simp] theorem State.send_deadDies (s : State) (m : Msg) : (s.send m).deadDies = s.deadDies := rfl
@[simp] theorem State.send_noGDie (s : State) (m : Msg) : (s.send m).noGDie = s.noGDie := rfl
@[simp] theorem State.send_l2 (s : State) (m : Msg) : (s.send m).l2 = s.l2 := rfl
@[simp] theorem State.send_slices (s : State) (m : Msg) : (s.send m).slices = s.slices := rfl
@[simp] theorem State.send_seen (s : State) (m : Msg) : (s.send m).seen = s.seen := rfl
@[simp] theorem State.send_gclocks (s : State) (m : Msg) : (s.send m).gclocks = s.gclocks := rfl
@[simp] theorem State.send_fixes (s : State) (m : Msg) : (s.send m).fixes = s.fixes := rfl
@[simp] theorem State.send_poolFrames (s : State) (m : Msg) : (s.send m).poolFrames = s.poolFrames := rfl
@[simp] theorem State.send_keys (s : State) (m : Msg) : (s.send m).keys = s.keys := rfl
@[simp] theorem State.send_arrivals (s : State) (m : Msg) : (s.send m).arrivals = s.arrivals := rfl
@[simp] theorem State.send_movedAway (s : State) (m : Msg) : (s.send m).movedAway = s.movedAway := rfl

/-! ## `past` -/

@[simp] theorem State.past_others (s : State) (g : Group) : (s.past g).others = s.others := rfl
@[simp] theorem State.past_agenda (s : State) (g : Group) : (s.past g).agenda = s.agenda := rfl
@[simp] theorem State.past_grants (s : State) (g : Group) : (s.past g).grants = s.grants := rfl
@[simp] theorem State.past_nextId (s : State) (g : Group) : (s.past g).nextId = s.nextId := rfl
@[simp] theorem State.past_freeCtr (s : State) (g : Group) : (s.past g).freeCtr = s.freeCtr := rfl
@[simp] theorem State.past_turnCore (s : State) (g : Group) : (s.past g).turnCore = s.turnCore := rfl
@[simp] theorem State.past_mem (s : State) (g : Group) : (s.past g).mem = s.mem := rfl
@[simp] theorem State.past_codes (s : State) (g : Group) : (s.past g).codes = s.codes := rfl
@[simp] theorem State.past_bad (s : State) (g : Group) : (s.past g).bad = s.bad := rfl
@[simp] theorem State.past_frames (s : State) (g : Group) : (s.past g).frames = s.frames := rfl
@[simp] theorem State.past_tags (s : State) (g : Group) : (s.past g).tags = s.tags := rfl
@[simp] theorem State.past_shadows (s : State) (g : Group) : (s.past g).shadows = s.shadows := rfl
@[simp] theorem State.past_cores (s : State) (g : Group) : (s.past g).cores = s.cores := rfl
@[simp] theorem State.past_l2tlb (s : State) (g : Group) : (s.past g).l2tlb = s.l2tlb := rfl
@[simp] theorem State.past_walks (s : State) (g : Group) : (s.past g).walks = s.walks := rfl
@[simp] theorem State.past_wgs (s : State) (g : Group) : (s.past g).wgs = s.wgs := rfl
@[simp] theorem State.past_hedges (s : State) (g : Group) : (s.past g).hedges = s.hedges := rfl
@[simp] theorem State.past_ctrs (s : State) (g : Group) : (s.past g).ctrs = s.ctrs := rfl
@[simp] theorem State.past_adds (s : State) (g : Group) : (s.past g).adds = s.adds := rfl
@[simp] theorem State.past_crossings (s : State) (g : Group) : (s.past g).crossings = s.crossings := rfl
@[simp] theorem State.past_flips (s : State) (g : Group) : (s.past g).flips = s.flips := rfl
@[simp] theorem State.past_copies (s : State) (g : Group) : (s.past g).copies = s.copies := rfl
@[simp] theorem State.past_places (s : State) (g : Group) : (s.past g).places = s.places := rfl
@[simp] theorem State.past_mgmt (s : State) (g : Group) : (s.past g).mgmt = s.mgmt := rfl
@[simp] theorem State.past_poolRetired (s : State) (g : Group) : (s.past g).poolRetired = s.poolRetired := rfl
@[simp] theorem State.past_harts (s : State) (g : Group) : (s.past g).harts = s.harts := rfl
@[simp] theorem State.past_cxlDown (s : State) (g : Group) : (s.past g).cxlDown = s.cxlDown := rfl
@[simp] theorem State.past_jobs (s : State) (g : Group) : (s.past g).jobs = s.jobs := rfl
@[simp] theorem State.past_outbox (s : State) (g : Group) : (s.past g).outbox = s.outbox := rfl
@[simp] theorem State.past_physLog (s : State) (g : Group) : (s.past g).physLog = s.physLog := rfl
@[simp] theorem State.past_stage (s : State) (g : Group) : (s.past g).stage = s.stage := rfl
@[simp] theorem State.past_meas (s : State) (g : Group) : (s.past g).meas = s.meas := rfl
@[simp] theorem State.past_versions (s : State) (g : Group) : (s.past g).versions = s.versions := rfl
@[simp] theorem State.past_deadDies (s : State) (g : Group) : (s.past g).deadDies = s.deadDies := rfl
@[simp] theorem State.past_noGDie (s : State) (g : Group) : (s.past g).noGDie = s.noGDie := rfl
@[simp] theorem State.past_l2 (s : State) (g : Group) : (s.past g).l2 = s.l2 := rfl
@[simp] theorem State.past_slices (s : State) (g : Group) : (s.past g).slices = s.slices := rfl
@[simp] theorem State.past_seen (s : State) (g : Group) : (s.past g).seen = s.seen := rfl
@[simp] theorem State.past_gclocks (s : State) (g : Group) : (s.past g).gclocks = s.gclocks := rfl
@[simp] theorem State.past_fixes (s : State) (g : Group) : (s.past g).fixes = s.fixes := rfl
@[simp] theorem State.past_poolFrames (s : State) (g : Group) : (s.past g).poolFrames = s.poolFrames := rfl
@[simp] theorem State.past_keys (s : State) (g : Group) : (s.past g).keys = s.keys := rfl
@[simp] theorem State.past_arrivals (s : State) (g : Group) : (s.past g).arrivals = s.arrivals := rfl
@[simp] theorem State.past_movedAway (s : State) (g : Group) : (s.past g).movedAway = s.movedAway := rfl

/-! ## `fresh` -/

@[simp] theorem State.fresh_focus (s : State) : s.fresh.2.focus = s.focus := rfl
@[simp] theorem State.fresh_others (s : State) : s.fresh.2.others = s.others := rfl
@[simp] theorem State.fresh_agenda (s : State) : s.fresh.2.agenda = s.agenda := rfl
@[simp] theorem State.fresh_grants (s : State) : s.fresh.2.grants = s.grants := rfl
@[simp] theorem State.fresh_freeCtr (s : State) : s.fresh.2.freeCtr = s.freeCtr := rfl
@[simp] theorem State.fresh_turnCore (s : State) : s.fresh.2.turnCore = s.turnCore := rfl
@[simp] theorem State.fresh_mem (s : State) : s.fresh.2.mem = s.mem := rfl
@[simp] theorem State.fresh_codes (s : State) : s.fresh.2.codes = s.codes := rfl
@[simp] theorem State.fresh_bad (s : State) : s.fresh.2.bad = s.bad := rfl
@[simp] theorem State.fresh_frames (s : State) : s.fresh.2.frames = s.frames := rfl
@[simp] theorem State.fresh_tags (s : State) : s.fresh.2.tags = s.tags := rfl
@[simp] theorem State.fresh_shadows (s : State) : s.fresh.2.shadows = s.shadows := rfl
@[simp] theorem State.fresh_cores (s : State) : s.fresh.2.cores = s.cores := rfl
@[simp] theorem State.fresh_l2tlb (s : State) : s.fresh.2.l2tlb = s.l2tlb := rfl
@[simp] theorem State.fresh_walks (s : State) : s.fresh.2.walks = s.walks := rfl
@[simp] theorem State.fresh_wgs (s : State) : s.fresh.2.wgs = s.wgs := rfl
@[simp] theorem State.fresh_hedges (s : State) : s.fresh.2.hedges = s.hedges := rfl
@[simp] theorem State.fresh_ctrs (s : State) : s.fresh.2.ctrs = s.ctrs := rfl
@[simp] theorem State.fresh_adds (s : State) : s.fresh.2.adds = s.adds := rfl
@[simp] theorem State.fresh_crossings (s : State) : s.fresh.2.crossings = s.crossings := rfl
@[simp] theorem State.fresh_flips (s : State) : s.fresh.2.flips = s.flips := rfl
@[simp] theorem State.fresh_copies (s : State) : s.fresh.2.copies = s.copies := rfl
@[simp] theorem State.fresh_places (s : State) : s.fresh.2.places = s.places := rfl
@[simp] theorem State.fresh_mgmt (s : State) : s.fresh.2.mgmt = s.mgmt := rfl
@[simp] theorem State.fresh_poolRetired (s : State) : s.fresh.2.poolRetired = s.poolRetired := rfl
@[simp] theorem State.fresh_harts (s : State) : s.fresh.2.harts = s.harts := rfl
@[simp] theorem State.fresh_cxlDown (s : State) : s.fresh.2.cxlDown = s.cxlDown := rfl
@[simp] theorem State.fresh_jobs (s : State) : s.fresh.2.jobs = s.jobs := rfl
@[simp] theorem State.fresh_outbox (s : State) : s.fresh.2.outbox = s.outbox := rfl
@[simp] theorem State.fresh_physLog (s : State) : s.fresh.2.physLog = s.physLog := rfl
@[simp] theorem State.fresh_stage (s : State) : s.fresh.2.stage = s.stage := rfl
@[simp] theorem State.fresh_meas (s : State) : s.fresh.2.meas = s.meas := rfl
@[simp] theorem State.fresh_versions (s : State) : s.fresh.2.versions = s.versions := rfl
@[simp] theorem State.fresh_deadDies (s : State) : s.fresh.2.deadDies = s.deadDies := rfl
@[simp] theorem State.fresh_noGDie (s : State) : s.fresh.2.noGDie = s.noGDie := rfl
@[simp] theorem State.fresh_l2 (s : State) : s.fresh.2.l2 = s.l2 := rfl
@[simp] theorem State.fresh_slices (s : State) : s.fresh.2.slices = s.slices := rfl
@[simp] theorem State.fresh_seen (s : State) : s.fresh.2.seen = s.seen := rfl
@[simp] theorem State.fresh_gclocks (s : State) : s.fresh.2.gclocks = s.gclocks := rfl
@[simp] theorem State.fresh_fixes (s : State) : s.fresh.2.fixes = s.fixes := rfl
@[simp] theorem State.fresh_poolFrames (s : State) : s.fresh.2.poolFrames = s.poolFrames := rfl
@[simp] theorem State.fresh_keys (s : State) : s.fresh.2.keys = s.keys := rfl
@[simp] theorem State.fresh_arrivals (s : State) : s.fresh.2.arrivals = s.arrivals := rfl
@[simp] theorem State.fresh_movedAway (s : State) : s.fresh.2.movedAway = s.movedAway := rfl

/-! ## `free` -/

@[simp] theorem State.free_focus (s : State) (w : Nat) : (s.free w).2.focus = s.focus := rfl
@[simp] theorem State.free_others (s : State) (w : Nat) : (s.free w).2.others = s.others := rfl
@[simp] theorem State.free_agenda (s : State) (w : Nat) : (s.free w).2.agenda = s.agenda := rfl
@[simp] theorem State.free_grants (s : State) (w : Nat) : (s.free w).2.grants = s.grants := rfl
@[simp] theorem State.free_nextId (s : State) (w : Nat) : (s.free w).2.nextId = s.nextId := rfl
@[simp] theorem State.free_turnCore (s : State) (w : Nat) : (s.free w).2.turnCore = s.turnCore := rfl
@[simp] theorem State.free_mem (s : State) (w : Nat) : (s.free w).2.mem = s.mem := rfl
@[simp] theorem State.free_codes (s : State) (w : Nat) : (s.free w).2.codes = s.codes := rfl
@[simp] theorem State.free_bad (s : State) (w : Nat) : (s.free w).2.bad = s.bad := rfl
@[simp] theorem State.free_frames (s : State) (w : Nat) : (s.free w).2.frames = s.frames := rfl
@[simp] theorem State.free_tags (s : State) (w : Nat) : (s.free w).2.tags = s.tags := rfl
@[simp] theorem State.free_shadows (s : State) (w : Nat) : (s.free w).2.shadows = s.shadows := rfl
@[simp] theorem State.free_cores (s : State) (w : Nat) : (s.free w).2.cores = s.cores := rfl
@[simp] theorem State.free_l2tlb (s : State) (w : Nat) : (s.free w).2.l2tlb = s.l2tlb := rfl
@[simp] theorem State.free_walks (s : State) (w : Nat) : (s.free w).2.walks = s.walks := rfl
@[simp] theorem State.free_wgs (s : State) (w : Nat) : (s.free w).2.wgs = s.wgs := rfl
@[simp] theorem State.free_hedges (s : State) (w : Nat) : (s.free w).2.hedges = s.hedges := rfl
@[simp] theorem State.free_ctrs (s : State) (w : Nat) : (s.free w).2.ctrs = s.ctrs := rfl
@[simp] theorem State.free_adds (s : State) (w : Nat) : (s.free w).2.adds = s.adds := rfl
@[simp] theorem State.free_crossings (s : State) (w : Nat) : (s.free w).2.crossings = s.crossings := rfl
@[simp] theorem State.free_flips (s : State) (w : Nat) : (s.free w).2.flips = s.flips := rfl
@[simp] theorem State.free_copies (s : State) (w : Nat) : (s.free w).2.copies = s.copies := rfl
@[simp] theorem State.free_places (s : State) (w : Nat) : (s.free w).2.places = s.places := rfl
@[simp] theorem State.free_mgmt (s : State) (w : Nat) : (s.free w).2.mgmt = s.mgmt := rfl
@[simp] theorem State.free_poolRetired (s : State) (w : Nat) : (s.free w).2.poolRetired = s.poolRetired := rfl
@[simp] theorem State.free_harts (s : State) (w : Nat) : (s.free w).2.harts = s.harts := rfl
@[simp] theorem State.free_cxlDown (s : State) (w : Nat) : (s.free w).2.cxlDown = s.cxlDown := rfl
@[simp] theorem State.free_jobs (s : State) (w : Nat) : (s.free w).2.jobs = s.jobs := rfl
@[simp] theorem State.free_outbox (s : State) (w : Nat) : (s.free w).2.outbox = s.outbox := rfl
@[simp] theorem State.free_physLog (s : State) (w : Nat) : (s.free w).2.physLog = s.physLog := rfl
@[simp] theorem State.free_stage (s : State) (w : Nat) : (s.free w).2.stage = s.stage := rfl
@[simp] theorem State.free_meas (s : State) (w : Nat) : (s.free w).2.meas = s.meas := rfl
@[simp] theorem State.free_versions (s : State) (w : Nat) : (s.free w).2.versions = s.versions := rfl
@[simp] theorem State.free_deadDies (s : State) (w : Nat) : (s.free w).2.deadDies = s.deadDies := rfl
@[simp] theorem State.free_noGDie (s : State) (w : Nat) : (s.free w).2.noGDie = s.noGDie := rfl
@[simp] theorem State.free_l2 (s : State) (w : Nat) : (s.free w).2.l2 = s.l2 := rfl
@[simp] theorem State.free_slices (s : State) (w : Nat) : (s.free w).2.slices = s.slices := rfl
@[simp] theorem State.free_seen (s : State) (w : Nat) : (s.free w).2.seen = s.seen := rfl
@[simp] theorem State.free_gclocks (s : State) (w : Nat) : (s.free w).2.gclocks = s.gclocks := rfl
@[simp] theorem State.free_fixes (s : State) (w : Nat) : (s.free w).2.fixes = s.fixes := rfl
@[simp] theorem State.free_poolFrames (s : State) (w : Nat) : (s.free w).2.poolFrames = s.poolFrames := rfl
@[simp] theorem State.free_keys (s : State) (w : Nat) : (s.free w).2.keys = s.keys := rfl
@[simp] theorem State.free_arrivals (s : State) (w : Nat) : (s.free w).2.arrivals = s.arrivals := rfl
@[simp] theorem State.free_movedAway (s : State) (w : Nat) : (s.free w).2.movedAway = s.movedAway := rfl

/-! ## The changed fields -/

@[simp] theorem State.past_focus (s : State) (g : Group) : (s.past g).focus = g.advance := rfl
@[simp] theorem State.logEvent_physLog (s : State) (e : LogEntry) : (s.logEvent e).physLog = s.physLog ++ [e] := rfl
@[simp] theorem State.send_outbox (s : State) (m : Msg) : (s.send m).outbox = s.outbox ++ [m] := rfl
@[simp] theorem State.fresh_fst (s : State) : s.fresh.1 = s.nextId := rfl
@[simp] theorem State.fresh_nextId (s : State) : s.fresh.2.nextId = s.nextId + 1 := rfl
@[simp] theorem State.free_freeCtr (s : State) (w : Nat) : (s.free w).2.freeCtr = s.freeCtr + 1 := rfl

/-! ## The group that goes on -/

@[simp] theorem Group.advance_sregs (g : Group) : g.advance.sregs = g.sregs := rfl
@[simp] theorem Group.advance_vregs (g : Group) : g.advance.vregs = g.vregs := rfl
@[simp] theorem Group.advance_preds (g : Group) : g.advance.preds = g.preds := rfl
@[simp] theorem Group.advance_flags (g : Group) : g.advance.flags = g.flags := rfl
@[simp] theorem Group.advance_xi (g : Group) : g.advance.xi = g.xi := rfl
@[simp] theorem Group.advance_tiles (g : Group) : g.advance.tiles = g.tiles := rfl
@[simp] theorem Group.advance_frontier (g : Group) : g.advance.frontier = g.frontier := rfl
@[simp] theorem Group.advance_exited (g : Group) : g.advance.exited = g.exited := rfl
@[simp] theorem Group.advance_moves (g : Group) : g.advance.moves = g.moves := rfl
@[simp] theorem Group.advance_pend (g : Group) : g.advance.pend = g.pend := rfl
@[simp] theorem Group.advance_id (g : Group) : g.advance.id = g.id := rfl
@[simp] theorem Group.advance_stop (g : Group) : g.advance.stop = g.stop := rfl
@[simp] theorem Group.advance_issued (g : Group) : g.advance.issued = g.issued + 1 := rfl

end Sys2Proof.Machine
end

