-- ==== Sys2Proof/Laws/Ops.lean ====
section
/-! SUPPORT. What the shared operations answer: register resolution and the checks when nothing is wrong, the writes of
registers, and how an instruction of the group in focus ends. -/

namespace Sys2Proof.Machine

/-! ## Registers that may be used -/

theorem Group.sNum_eq {g : Group} {r : Reg} {k : Nat} (h : g.hasS r k) : g.sNum r k = .ok (g.regIndex r) := if_pos h.1

theorem Group.vNum_eq {g : Group} {r : Reg} {k : Nat} (h : g.hasV r k) : g.vNum r k = .ok (g.regIndex r) := if_pos h.1

theorem Group.hasS.free {g : Group} {r : Reg} {k : Nat} (h : g.hasS r k) (hk : 0 < k := by omega) :
    g.awaitsS (g.regIndex r) = false := by simpa using h.2 0 hk

theorem Group.hasV.free {g : Group} {r : Reg} {k : Nat} (h : g.hasV r k) (hk : 0 < k := by omega) :
    g.awaitsV (g.regIndex r) = false := by simpa using h.2 0 hk

theorem Group.hasV.free1 {g : Group} {r : Reg} (h : g.hasV r 2) : g.awaitsV (g.regIndex r + 1) = false :=
  h.2 1 (by omega)

theorem Group.ready_ok {g : Group} {vs ss : List Nat} {ps : List (BitVec 3)} (hv : ∀ n ∈ vs, g.awaitsV n = false)
    (hs : ∀ n ∈ ss, g.awaitsS n = false) (hp : ∀ p ∈ ps, g.awaitsP p = false) : g.ready vs ss ps = .ok () := by
  have h1 : vs.any g.awaitsV = false := by simpa using hv
  have h2 : ss.any g.awaitsS = false := by simpa using hs
  have h3 : ps.any g.awaitsP = false := by simpa using hp
  simp [Group.ready, need, h1, h2, h3]

/-- The sources of a list raise nothing. -/
def Group.clean (g : Group) (srcs : Sources) : Prop :=
  ∀ p ∈ srcs, g.awaitsV p.1 = false ∧ p.2.accepts (g.tag p.1) = true ∧ (isF6 (g.tag p.1) = false ∨ g.emu = .done)

@[simp] theorem Group.clean_nil (g : Group) : g.clean [] := by simp [Group.clean]

@[simp] theorem Group.clean_cons (g : Group) (p : Nat × Expect) (l : Sources) :
    g.clean (p :: l) ↔
      (g.awaitsV p.1 = false ∧ p.2.accepts (g.tag p.1) = true ∧ (isF6 (g.tag p.1) = false ∨ g.emu = .done)) ∧ g.clean l := by
  simp [Group.clean]

@[simp] theorem Group.clean_append (g : Group) (l m : Sources) : g.clean (l ++ m) ↔ g.clean l ∧ g.clean m := by
  constructor
  · exact fun h => ⟨fun p hp => h p (List.mem_append_left _ hp), fun p hp => h p (List.mem_append_right _ hp)⟩
  · rintro ⟨h1, h2⟩ p hp
    exact (List.mem_append.1 hp).elim (h1 p) (h2 p)

theorem Group.check_ok {g : Group} {srcs : Sources} {ds ss : List Nat} {ps : List (BitVec 3)} (h : g.clean srcs)
    (hv : ∀ n ∈ ds, g.awaitsV n = false) (hs : ∀ n ∈ ss, g.awaitsS n = false) (hp : ∀ p ∈ ps, g.awaitsP p = false) :
    g.check srcs ds ss ps = .ok () := by
  have h1 : g.ready (srcs.map (·.1) ++ ds) ss ps = .ok () := by
    refine Group.ready_ok ?_ hs hp
    intro n hn
    simp only [List.mem_append, List.mem_map] at hn
    rcases hn with ⟨p, hp, rfl⟩ | hn
    · exact (h p hp).1
    · exact hv n hn
  have h2 : (srcs.all fun p => p.2.accepts (g.tag p.1)) = true := by
    simp only [List.all_eq_true]
    exact fun p hp => (h p hp).2.1
  have h3 : ((!(false || srcs.any fun p => isF6 (g.tag p.1))) || g.emu == .done) = true := by
    by_cases he : g.emu = .done
    · simp [he]
    · have : (srcs.any fun p => isF6 (g.tag p.1)) = false := by
        simp only [List.any_eq_false]
        intro p hp
        rcases (h p hp).2.2 with h | h
        · simp [h]
        · exact absurd h he
      simp [this]
  simp only [Group.check, h1, Group.tagsOk, h2, Group.hardware, h3, need, if_true]
  rfl

theorem Group.source.clean {g : Group} {r : Reg} {e : Expect} (h : g.source r e) : g.clean [(g.regIndex r, e)] := by
  obtain ⟨h1, h2, h3⟩ := h
  simp [Group.clean, h1.free, h2, h3]

theorem Group.pairSource.clean {g : Group} {r : Reg} (h : g.pairSource r) : g.clean (pairSrc (g.regIndex r)) := by
  obtain ⟨h1, h2, h3⟩ := h
  simp [Group.clean, pairSrc, h1.free, h1.free1, h2, h3, Expect.accepts, isF6]

/-! ## B operands -/

/-- B resolved. -/
def Group.bVal (g : Group) : BSrc → BVal
  | .v r _ => .v (g.regIndex r)
  | .s r => .s (g.regIndex r)

theorem Group.bNum_eq {g : Group} {b : BSrc} {e : Expect} (h : g.bSource b e) : g.bNum b = .ok (g.bVal b) := by
  cases b with
  | v r ru => simp [Group.bNum, Group.vNum_eq (show g.hasV r from h.1), Group.bVal]; rfl
  | s r => simp [Group.bNum, Group.sNum_eq (show g.hasS r from h), Group.bVal]; rfl

theorem Group.bNum_pair {g : Group} {b : BSrc} (h : g.bPairSource b) : g.bNum b 2 = .ok (g.bVal b) := by
  cases b with
  | v r ru => simp [Group.bNum, Group.vNum_eq (show g.hasV r 2 from h.1), Group.bVal]; rfl
  | s r => simp [Group.bNum, Group.sNum_eq (show g.hasS r from h), Group.bVal]; rfl

theorem Group.bSource.clean {g : Group} {b : BSrc} {e : Expect} (h : g.bSource b e) : g.clean ((g.bVal b).srcs e) := by
  cases b with
  | v r ru => exact Group.source.clean (e := e) h
  | s r => simp [Group.bVal, BVal.srcs]

theorem Group.bPairSource.clean {g : Group} {b : BSrc} (h : g.bPairSource b) : g.clean (g.bVal b).pairs := by
  cases b with
  | v r ru => exact Group.pairSource.clean (r := r) h
  | s r => simp [Group.bVal, BVal.pairs]

theorem Group.bSource.ss {g : Group} {b : BSrc} {e : Expect} (h : g.bSource b e) :
    ∀ n ∈ (g.bVal b).ss, g.awaitsS n = false := by
  cases b with
  | v r ru => simp [Group.bVal, BVal.ss]
  | s r => simpa [Group.bVal, BVal.ss] using Group.hasS.free (k := 1) h

theorem Group.bPairSource.ss {g : Group} {b : BSrc} (h : g.bPairSource b) :
    ∀ n ∈ (g.bVal b).ss, g.awaitsS n = false := by
  cases b with
  | v r ru => simp [Group.bVal, BVal.ss]
  | s r => simpa [Group.bVal, BVal.ss] using Group.hasS.free (k := 1) h

@[simp] theorem Group.bLane_bVal (g : Group) (b : BSrc) (l : Nat) : g.bLane (g.bVal b) l = g.bOf b l := by
  cases b <;> rfl

@[simp] theorem Group.bPair_bVal (g : Group) (b : BSrc) (l : Nat) : g.bPair (g.bVal b) l = g.bPairOf b l := by
  cases b <;> rfl

/-! ## Writes leave the rest of the group -/

@[simp] theorem Group.setV_id (g : Group) (e : Mask) (n : Nat) (t : Tag) (f : Nat → Word32) : (g.setV e n t f).id = g.id := by
  simp only [Group.setV]; split <;> rfl
@[simp] theorem Group.setV_role (g : Group) (e : Mask) (n : Nat) (t : Tag) (f : Nat → Word32) :
    (g.setV e n t f).role = g.role := by
  simp only [Group.setV]; split <;> rfl
@[simp] theorem Group.setV_pairFault (g : Group) (e : Mask) (n : Nat) (t : Tag) (f : Nat → Word32) :
    (g.setV e n t f).pairFault = g.pairFault := by
  simp only [Group.setV]; split <;> rfl
@[simp] theorem Group.setP_id (g : Group) (e : Mask) (p : BitVec 3) (m : Mask) : (g.setP e p m).id = g.id := by
  simp only [Group.setP]; split <;> rfl
@[simp] theorem Group.setP_role (g : Group) (e : Mask) (p : BitVec 3) (m : Mask) : (g.setP e p m).role = g.role := by
  simp only [Group.setP]; split <;> rfl
@[simp] theorem Group.setP_pairFault (g : Group) (e : Mask) (p : BitVec 3) (m : Mask) :
    (g.setP e p m).pairFault = g.pairFault := by
  simp only [Group.setP]; split <;> rfl

/-! ## How an instruction ends -/

/-- A change of the group in focus that keeps what its pairing is judged by. -/
def Group.sameWho (g x : Group) : Prop := g.id = x.id ∧ g.role = x.role ∧ g.pairFault = x.pairFault

theorem State.advance_eq {s : State} (h : s.unfaulted) : s.advance = s.past s.focus := by
  unfold State.advance State.past
  cases hp : s.focus.partner.bind s.group with
  | none => rfl
  | some p => simp [h p hp]

theorem State.unfaulted_set {s : State} {g : Group} (h : s.unfaulted) (hg : g.sameWho s.focus) :
    ({ s with focus := g } : State).unfaulted := by
  obtain ⟨h1, h2, h3⟩ := hg
  intro p hp
  have hpart : g.partner = s.focus.partner := by simp [Group.partner, h2]
  simp only [hpart] at hp
  cases hq : s.focus.partner with
  | none => simp [hq] at hp
  | some q =>
    simp only [hq, Option.bind_some, State.group, State.groups, List.find?_cons] at hp
    by_cases hid : g.id = q
    · simp only [hid, beq_self_eq_true] at hp
      have hf : s.focus.pairFault = none := by
        refine h s.focus ?_
        simp [hq, State.group, State.groups, List.find?_cons, ← h1, hid]
      cases hp
      exact h3.trans hf
    · refine h p ?_
      have hid' : ¬s.focus.id = q := by rw [← h1]; exact hid
      simp only [hq, Option.bind_some, State.group, State.groups, List.find?_cons]
      simpa only [beq_eq_false_iff_ne.2 hid, beq_eq_false_iff_ne.2 hid'] using hp

/-- An instruction that changes its group alone completes when its checks raise nothing. -/
theorem State.issue_gives {s : State} {gd : Guard} {f : Mask → Group → Res Group} {g : Group} (h : s.runs gd)
    (hf : f (s.focus.eff gd) s.focus = .ok g) (hg : g.sameWho s.focus) : s.issue gd f = s.gives g := by
  simp only [State.issue, State.guarded, h.1, h.2.1, if_false, hf, Bool.false_eq_true]
  rw [State.advance_eq (State.unfaulted_set h.2.2 hg)]
  rfl

/-- An instruction whose E is empty has no effect but to be past (R29). -/
theorem State.issue_empty {s : State} {gd : Guard} {f : Mask → Group → Res Group} (hp : s.focus.awaitsP gd.p = false)
    (h : s.focus.eff gd = 0) : s.issue gd f = .next s.advance := by simp [State.issue, State.guarded, h, hp]

theorem State.issueS_empty {s : State} {gd : Guard} {f : Mask → State → Res State}
    (hp : s.focus.awaitsP gd.p = false) (h : s.focus.eff gd = 0) : s.issueS gd f = .next s.advance := by
  simp [State.issueS, State.guarded, h, hp]

/-! ## A group with nothing outstanding -/

theorem State.single.unfaulted {s : State} (h : s.single) : s.unfaulted := by
  intro p hp
  rw [show s.focus.partner = none by unfold Group.partner; rw [show s.focus.role = .single from h]] at hp
  cases hp

theorem Group.awaitsV_idle {g : Group} (h : g.pend = []) (n : Nat) : g.awaitsV n = false := by simp [Group.awaitsV, h]

theorem Group.awaitsS_idle {g : Group} (h : g.pend = []) (n : Nat) : g.awaitsS n = false := by simp [Group.awaitsS, h]

theorem Group.awaitsP_idle {g : Group} (h : g.pend = []) (p : BitVec 3) : g.awaitsP p = false := by
  simp [Group.awaitsP, h]

theorem Group.hasS_idle {g : Group} {r : Reg} {k : Nat} (h : g.pend = []) (hr : g.regIndex r + k ≤ g.sregs.length) :
    g.hasS r k := ⟨hr, fun _ _ => Group.awaitsS_idle h _⟩

theorem Group.hasV_idle {g : Group} {r : Reg} {k : Nat} (h : g.pend = []) (hr : g.regIndex r + k ≤ g.vregs.length) :
    g.hasV r k := ⟨hr, fun _ _ => Group.awaitsV_idle h _⟩

theorem Group.source_idle {g : Group} {r : Reg} {e : Expect} (h : g.pend = []) (hr : g.regIndex r + 1 ≤ g.vregs.length)
    (ht : e.accepts (g.tag (g.regIndex r)) = true) (h6 : isF6 (g.tag (g.regIndex r)) = false) : g.source r e :=
  ⟨Group.hasV_idle h hr, ht, .inl h6⟩

end Sys2Proof.Machine
end

