-- ==== Sys2Proof/Certificates/Slice0/Obligations.lean ====
section
/-! DEFINITION. The statements for the provers, in the order of OBLIGATIONS.json. Each docstring names the rules of
spec/ that the statement rests on. -/

open Sys2Proof Sys2Proof.Machine

/-! ## Row 0 and VMOVS -/

/-- The scalar instructions of two S sources (R81, R82): for operands within the allotment that nothing awaits, each
completes and does no more than to write the value of the table *Scalar ALU* to S[D]. The immediate forms (R83): IMM,
sign-extended to 64 bits, takes B's place, and there are no modifiers, so that the operations which know signedness
are signed. -/
def Obligations.ScalarArithmetic : Prop :=
  (∀ (s : State) (gd : Guard) (d a b : Reg), s.runs gd → s.focus.hasS d → s.focus.hasS a → s.focus.hasS b →
    let x := s.focus.sOf a
    let y := s.focus.sOf b
    s.setsS (.sadd gd .wrap d a b) d (x + y) ∧
    s.setsS (.sadd gd .sat d a b) d (BitVec.ofInt 64 (satSigned 64 (x.toInt + y.toInt))) ∧
    s.setsS (.sadd gd .nsat d a b) d (BitVec.ofNat 64 (min (x.toNat + y.toNat) (2 ^ 64 - 1))) ∧
    s.setsS (.ssub gd .wrap d a b) d (x - y) ∧
    s.setsS (.ssub gd .sat d a b) d (BitVec.ofInt 64 (satSigned 64 (x.toInt - y.toInt))) ∧
    s.setsS (.ssub gd .nsat d a b) d (BitVec.ofNat 64 (x.toNat - y.toNat)) ∧
    s.setsS (.smul gd .wrap d a b) d (x * y) ∧
    s.setsS (.smul gd .sat d a b) d (BitVec.ofInt 64 (satSigned 64 (x.toInt * y.toInt))) ∧
    s.setsS (.smul gd .nsat d a b) d (BitVec.ofNat 64 (min (x.toNat * y.toNat) (2 ^ 64 - 1))) ∧
    s.setsS (.smulh gd false d a b) d (BitVec.ofInt 64 (x.toInt * y.toInt / 2 ^ 64)) ∧
    s.setsS (.smulh gd true d a b) d (BitVec.ofNat 64 (x.toNat * y.toNat / 2 ^ 64)) ∧
    s.setsS (.sand gd d a b) d (x &&& y) ∧
    s.setsS (.sor gd d a b) d (x ||| y) ∧
    s.setsS (.sxor gd d a b) d (x ^^^ y) ∧
    s.setsS (.sshl gd d a b) d (x <<< y) ∧
    s.setsS (.sshr gd d a b) d (x >>> y) ∧
    s.setsS (.ssra gd d a b) d (x.sshiftRight' y) ∧
    s.setsS (.smin gd false d a b) d (if x.slt y then x else y) ∧
    s.setsS (.smin gd true d a b) d (if x.ult y then x else y) ∧
    s.setsS (.smax gd false d a b) d (if x.slt y then y else x) ∧
    s.setsS (.smax gd true d a b) d (if x.ult y then y else x)) ∧
  (∀ (s : State) (gd : Guard) (d a : Reg) (imm : Word32), s.runs gd → s.focus.hasS d → s.focus.hasS a →
    let x := s.focus.sOf a
    let y : Word64 := imm.signExtend 64
    s.setsS (.saddImm gd d a imm) d (x + y) ∧
    s.setsS (.ssubImm gd d a imm) d (x - y) ∧
    s.setsS (.smulImm gd d a imm) d (x * y) ∧
    s.setsS (.smulhImm gd d a imm) d (BitVec.ofInt 64 (x.toInt * y.toInt / 2 ^ 64)) ∧
    s.setsS (.sandImm gd d a imm) d (x &&& y) ∧
    s.setsS (.sorImm gd d a imm) d (x ||| y) ∧
    s.setsS (.sxorImm gd d a imm) d (x ^^^ y) ∧
    s.setsS (.sshlImm gd d a imm) d (x <<< y) ∧
    s.setsS (.sshrImm gd d a imm) d (x >>> y) ∧
    s.setsS (.ssraImm gd d a imm) d (x.sshiftRight' y) ∧
    s.setsS (.sminImm gd d a imm) d (if x.slt y then x else y) ∧
    s.setsS (.smaxImm gd d a imm) d (if x.slt y then y else x))

/-- The other scalar instructions (R81, R85): moves, counts and bit fields. The field position is S[B][5:0], its
length the lesser of S[B][14:8], 64 and what is left above the position. VMOVS in its five modes (R90). -/
def Obligations.ScalarMovesCountsFields : Prop :=
  (∀ (s : State) (gd : Guard) (d : Reg), s.runs gd → s.focus.hasS d →
    (∀ imm : Word32, s.setsS (.sli gd d imm) d (imm.signExtend 64) ∧
      s.setsS (.slih gd d imm) d (imm ++ (s.focus.sOf d).extractLsb' 0 32)) ∧
    (∀ a : Reg, s.focus.hasS a → let x := s.focus.sOf a
      s.setsS (.smov gd d a) d x ∧
      s.setsS (.sclz gd d a) d x.clz ∧
      s.setsS (.spop gd d a) d (BitVec.ofNat 64 ((List.range 64).countP fun i => x.getLsbD i)) ∧
      (∀ b : Reg, s.focus.hasS b →
        let pos := (s.focus.sOf b).toNat % 64
        let n := min (min ((s.focus.sOf b).toNat / 256 % 128) 64) (64 - pos)
        s.setsS (.sbfe gd false d a b) d ((x >>> pos).extractLsb' 0 n |>.setWidth 64) ∧
        s.setsS (.sbfe gd true d a b) d ((x >>> pos).extractLsb' 0 n |>.signExtend 64) ∧
        (∀ c : Reg, s.focus.hasS c → ∃ r : Word64, s.setsS (.sbfi gd d a b c) d r ∧
          ∀ i, i < 64 → r.getLsbD i =
            if pos ≤ i ∧ i < pos + n then x.getLsbD (i - pos) else (s.focus.sOf c).getLsbD i)))) ∧
  (∀ (s : State) (gd : Guard), s.runs gd →
    (∀ (d a : Reg), s.focus.hasS a → let x := s.focus.sOf a
      (s.focus.hasV d → ∀ tag, s.setsV (.vmovsVs gd tag false d a) gd d tag (fun _ => x.extractLsb' 0 32) ∧
        s.setsV (.vmovsVs gd tag true d a) gd d tag fun _ => x.extractLsb' 32 32) ∧
      (s.focus.hasV d 2 → s.setsPair (.vmovsDs gd d a) gd d .dLo .dHi fun _ => x)) ∧
    (∀ (p : BitVec 3) (a : Reg), s.focus.hasS a → s.focus.awaitsP p = false →
      s.setsP (.vmovsPs gd p a) gd p fun l => (s.focus.sOf a).getLsbD l) ∧
    (∀ (d : Reg) (p : BitVec 3), s.focus.hasS d → s.focus.awaitsP p = false →
      s.setsS (.vmovsSp gd d p) d ((s.focus.predMask p).setWidth 64)) ∧
    (∀ (d a b : Reg), s.focus.hasS d → s.focus.source a .any → s.focus.hasS b →
      s.setsS (.vmovsSv gd d a b) d ((s.focus.vOf a ((s.focus.sOf b).toNat % 32)).setWidth 64)))

/-- SCMP writes the flag word of R84, bit 0 equal, 1 less, 2 greater, 3 less unsigned, 4 greater unsigned, and SSEL
selects by the bits of its mask, or by S[C] being other than 0 where the mask is 0. -/
def Obligations.ScalarCompareSelect : Prop :=
  ∀ (s : State) (gd : Guard) (d a : Reg), s.runs gd → s.focus.hasS d → s.focus.hasS a →
    let x := s.focus.sOf a
    let word (y : Word64) : Word64 := BitVec.ofNat 64
      ((if x = y then 1 else 0) + (if x.toInt < y.toInt then 2 else 0) + (if y.toInt < x.toInt then 4 else 0) +
        (if x.toNat < y.toNat then 8 else 0) + (if y.toNat < x.toNat then 16 else 0))
    (∀ imm : Word32, s.setsS (.scmpImm gd d a imm) d (word (imm.signExtend 64))) ∧
    (∀ b : Reg, s.focus.hasS b → s.setsS (.scmp gd d a b) d (word (s.focus.sOf b)) ∧
      ∀ c : Reg, s.focus.hasS c →
        (∀ mask : BitVec 5, mask ≠ 0 → s.setsS (.ssel gd mask d a b c) d
          (if (s.focus.sOf c).extractLsb' 0 5 &&& mask = 0 then s.focus.sOf b else x)) ∧
        s.setsS (.ssel gd 0 d a b c) d (if s.focus.sOf c = 0 then s.focus.sOf b else x))

/-! ## Rows 2 and 3 -/

/-- Vector integer arithmetic (R91 to R94): in the lanes of E the exact result on operands read as signed, or as
unsigned under N, modulo 2^32, or brought into range first under SAT, with the tag I32, or N32 under N; VMADW adds a
64-bit product to a pair. Comparison and selection (R95, R96): VCMP writes the condition on the operands read by
signedness, VSEL selects by P[C] with A's tag where B has the same or comes from an S register, VMOV copies bits and
tag, VLI writes IMM. Vector bit operations (R97 to R99), which take bits of any tag and leave RAW, but for the counts
(N32), VSRA (I32 throughout) and VBFE. -/
def Obligations.VectorIntegers : Prop :=
  (∀ (s : State) (gd : Guard) (sat n : Bool) (d a : Reg) (b : BSrc), s.runs gd → s.focus.source a (.ofN n) →
    s.focus.bSource b (.ofN n) →
    let num (w : Nat) (x : BitVec w) : Int := if n then x.toNat else x.toInt
    let fit (w : Nat) (r : Int) : BitVec w :=
      BitVec.ofInt w (if sat then (if n then satUnsigned w r else satSigned w r) else r)
    let x (l : Nat) : Int := num 32 (s.focus.vOf a l)
    let y (l : Nat) : Int := num 32 (s.focus.bOf b l)
    let t : Tag := if n then .n32 else .i32
    (s.focus.hasV d →
      s.setsV (.vadd gd ⟨sat, n⟩ d a b) gd d t (fun l => fit 32 (x l + y l)) ∧
      s.setsV (.vsub gd ⟨sat, n⟩ d a b) gd d t (fun l => fit 32 (x l - y l)) ∧
      s.setsV (.vmul gd ⟨sat, n⟩ d a b) gd d t (fun l => fit 32 (x l * y l)) ∧
      s.setsV (.vmulh gd n d a b) gd d t (fun l => BitVec.ofInt 32 (x l * y l / 2 ^ 32)) ∧
      s.setsV (.vmin gd n d a b) gd d t (fun l => if x l ≤ y l then s.focus.vOf a l else s.focus.bOf b l) ∧
      s.setsV (.vmax gd n d a b) gd d t (fun l => if x l ≤ y l then s.focus.bOf b l else s.focus.vOf a l) ∧
      (n = false → s.setsV (.vabs gd sat d a) gd d .i32 fun l => fit 32 |x l|) ∧
      ∀ c, s.focus.source c (.ofN n) →
        s.setsV (.vmad gd ⟨sat, n⟩ d a b c) gd d t fun l => fit 32 (x l * y l + num 32 (s.focus.vOf c l))) ∧
    (∀ c : Reg, s.focus.hasV d 2 → s.focus.hasV c 2 →
      s.focus.tag (s.focus.regIndex c) ∈ [.i32, .n32, .raw] → s.focus.tag (s.focus.regIndex c + 1) ∈ [t, .raw] →
      s.setsPair (.vmadw gd ⟨sat, n⟩ d a b c) gd d .n32 t fun l => fit 64 (x l * y l + num 64 (s.focus.pairOf c l)))) ∧
  (∀ (s : State) (gd : Guard) (a : Reg), s.runs gd →
    (∀ (n : Bool) (p : BitVec 3) (b : BSrc), s.focus.source a (.ofN n) → s.focus.bSource b (.ofN n) →
      s.focus.awaitsP p = false →
      let x (l : Nat) : Int := if n then (s.focus.vOf a l).toNat else (s.focus.vOf a l).toInt
      let y (l : Nat) : Int := if n then (s.focus.bOf b l).toNat else (s.focus.bOf b l).toInt
      s.setsP (.vcmp gd .eq n p a b) gd p (fun l => x l = y l) ∧
      s.setsP (.vcmp gd .ne n p a b) gd p (fun l => x l ≠ y l) ∧
      s.setsP (.vcmp gd .lt n p a b) gd p (fun l => x l < y l) ∧
      s.setsP (.vcmp gd .le n p a b) gd p (fun l => x l ≤ y l) ∧
      s.setsP (.vcmp gd .gt n p a b) gd p (fun l => x l > y l) ∧
      s.setsP (.vcmp gd .ge n p a b) gd p (fun l => x l ≥ y l)) ∧
    (∀ d : Reg, s.focus.hasV d →
      (∀ tag imm, s.setsV (.vli gd tag d imm) gd d tag fun _ => imm) ∧
      (s.focus.source a .any →
        s.setsV (.vmov gd d a) gd d (s.focus.tag (s.focus.regIndex a)) (fun l => s.focus.vOf a l) ∧
        ∀ (b : BSrc) (p : BitVec 3), s.focus.bSource b .any → s.focus.awaitsP p = false →
          s.setsV (.vsel gd d a b p) gd d
            (match b with
              | .s _ => s.focus.tag (s.focus.regIndex a)
              | .v r _ => if s.focus.tag (s.focus.regIndex r) = s.focus.tag (s.focus.regIndex a)
                  then s.focus.tag (s.focus.regIndex a) else .raw)
            fun l => if (s.focus.predMask p).getLsbD l then s.focus.vOf a l else s.focus.bOf b l))) ∧
  (∀ (s : State) (gd : Guard) (d a : Reg), s.runs gd → s.focus.hasV d → s.focus.source a .any →
    let x (l : Nat) : Word32 := s.focus.vOf a l
    s.setsV (.vnot gd d a) gd d .raw (fun l => ~~~(x l)) ∧
    s.setsV (.vclz gd d a) gd d .n32 (fun l => (x l).clz) ∧
    s.setsV (.vpop gd d a) gd d .n32 (fun l => BitVec.ofNat 32 ((List.range 32).countP fun i => (x l).getLsbD i)) ∧
    s.setsV (.vbrev gd d a) gd d .raw (fun l => (x l).reverse) ∧
    (∀ lenM1 pos : BitVec 5, let n := min (lenM1.toNat + 1) (32 - pos.toNat)
      s.setsV (.vbfe gd false lenM1 pos d a) gd d .n32 (fun l => ((x l >>> pos).extractLsb' 0 n).setWidth 32) ∧
      s.setsV (.vbfe gd true lenM1 pos d a) gd d .i32 (fun l => ((x l >>> pos).extractLsb' 0 n).signExtend 32)) ∧
    (∀ b : BSrc, s.focus.bSource b .any → let y (l : Nat) : Word32 := s.focus.bOf b l
      s.setsV (.vand gd d a b) gd d .raw (fun l => x l &&& y l) ∧
      s.setsV (.vor gd d a b) gd d .raw (fun l => x l ||| y l) ∧
      s.setsV (.vxor gd d a b) gd d .raw (fun l => x l ^^^ y l)) ∧
    (∀ b : BSrc, s.focus.bSource b .int → let y (l : Nat) : Word32 := s.focus.bOf b l
      s.setsV (.vshl gd d a b) gd d .raw (fun l => x l <<< y l) ∧
      s.setsV (.vshr gd d a b) gd d .raw (fun l => x l >>> y l) ∧
      s.setsV (.vrot gd d a b) gd d .raw (fun l => (x l).rotateLeft (y l).toNat) ∧
      (s.focus.source a .i32 → s.setsV (.vsra gd d a b) gd d .i32 fun l => (x l).sshiftRight' (y l))) ∧
    (∀ b : BReg, s.focus.source b.r .any → let y (l : Nat) : Word32 := s.focus.vOf b.r l
      (∀ lenM1 pos : BitVec 5, let n := min (lenM1.toNat + 1) (32 - pos.toNat)
        ∃ r : Nat → Word32, s.setsV (.vbfi gd lenM1 pos d a b) gd d .raw r ∧
          ∀ l i, i < 32 → (r l).getLsbD i =
            if pos.toNat ≤ i ∧ i < pos.toNat + n then (x l).getLsbD (i - pos.toNat) else (y l).getLsbD i) ∧
      ∀ c : Reg, s.focus.source c .int →
        ∃ r : Nat → Word32, s.setsV (.vpermb gd d a b c) gd d .raw r ∧
          ∀ l k, k < 4 → (r l).extractLsb' (8 * k) 8 =
            let sel := (s.focus.vOf c l).toNat / 2 ^ (4 * k) % 16
            if 8 ≤ sel then 0 else ((s.focus.vOf b.r l) ++ (x l)).extractLsb' (8 * sel) 8))

/-! ## Rows 4 and 5, and the packed formats -/

/-- Rounding (R57, R58, R62): the result of rounding a nonzero number, where it does not overflow, is a finite code whose
value is the nearest not greater in magnitude under RZ, the nearest not less under RP, the nearest not greater under RM,
and under RN a nearest one, with an even code where two are as near; NX is raised exactly when it differs from the
number. -/
def Obligations.RoundingIsNearest : Prop :=
  ∀ (f : FpFmt) (mode : Round) (neg : Bool) (mag : Nat) (exp : Int), mag ≠ 0 →
    let x : ℚ := (FVal.fin neg mag exp).rat
    let r := f.round mode false neg mag exp
    let v : ℚ := (f.value r.code).rat
    r.flags &&& flagOF = 0 →
      r.code < 2 ^ f.width ∧ (f.value r.code).isFin = true ∧ (r.flags &&& flagNX ≠ 0 ↔ v ≠ x) ∧
      match mode with
      | .rz => |v| ≤ |x| ∧ ∀ w, f.represents w → |w| ≤ |x| → |w| ≤ |v|
      | .rp => x ≤ v ∧ ∀ w, f.represents w → x ≤ w → v ≤ w
      | .rm => v ≤ x ∧ ∀ w, f.represents w → w ≤ x → w ≤ v
      | .rn => ∀ w, f.represents w → |v - x| ≤ |w - x| ∧ (|v - x| = |w - x| → w ≠ v → r.code % 2 = 0)

/-- FP32 arithmetic, minimum, maximum and comparison (R104 to R107): each lane of E holds the exact sum, product or
fused sum of the operand values rounded once, after NB and NC have flipped the signs of b and c, or what the rules of
FMIN, FMAX and FCMP give. The special cases of FP32 arithmetic (R61, R105): a NaN operand gives the canonical NaN and
raises NV only if it is signalling; infinities of opposite signs in a sum, and zero times infinity, give the canonical
NaN and NV; any other infinite term gives that infinity without a flag; an exact zero sum is +0, or −0 under RM or
when both addends are −0. The results of finite operands are the exact numbers rounded once (R57). -/
def Obligations.Float32 : Prop :=
  (∀ (s : State) (gd : Guard) (d a : Reg) (b : BSrc), s.runs gd → s.focus.source a .f32 → s.focus.bSource b .f32 →
    let flip (c : Bool) (x : Word32) : Word32 := if c then x ^^^ 0x80000000 else x
    let x (l : Nat) : FVal := FpFmt.f32.value (s.focus.vOf a l).toNat
    let y (nb : Bool) (l : Nat) : FVal := FpFmt.f32.value (flip nb (s.focus.bOf b l)).toNat
    (s.focus.hasV d → ∀ (nb : Bool) (rnd : Round),
      s.setsF (.fadd gd nb rnd d a b) gd d .f32 (fun l => FpFmt.f32.add rnd (x l) (y nb l)) ∧
      s.setsF (.fsub gd nb rnd d a b) gd d .f32 (fun l => FpFmt.f32.add rnd (x l) (y (!nb) l)) ∧
      s.setsF (.fmul gd nb rnd d a b) gd d .f32 (fun l => FpFmt.f32.mul rnd (x l) (y nb l)) ∧
      s.setsF (.fmin gd d a b) gd d .f32
        (fun l => FpFmt.f32.minMax false (s.focus.vOf a l).toNat (s.focus.bOf b l).toNat) ∧
      s.setsF (.fmax gd d a b) gd d .f32
        (fun l => FpFmt.f32.minMax true (s.focus.vOf a l).toNat (s.focus.bOf b l).toNat) ∧
      ∀ (nc : Bool) (c : Reg), s.focus.source c .f32 →
        s.setsF (.ffma gd nc nb rnd d a b c) gd d .f32 fun l =>
          FpFmt.f32.fma rnd (x l) (y nb l) (FpFmt.f32.value (flip nc (s.focus.vOf c l)).toNat)) ∧
    (∀ (cc : FCond) (p : BitVec 3), s.focus.awaitsP p = false →
      s.setsCmp (.fcmp gd cc p a b) gd p fun l => fpCompare cc (x l) (y false l))) ∧
  (∀ (rnd : Round) (x y : FVal),
    ((x.isNan = true ∨ y.isNan = true) →
      FpFmt.f32.add rnd x y = ⟨0x7FC00000, if x.isSnan = true ∨ y.isSnan = true then flagNV else 0⟩ ∧
      FpFmt.f32.mul rnd x y = ⟨0x7FC00000, if x.isSnan = true ∨ y.isSnan = true then flagNV else 0⟩) ∧
    (∀ n : Bool, FpFmt.f32.add rnd (.inf n) (.inf !n) = ⟨0x7FC00000, flagNV⟩ ∧
      FpFmt.f32.add rnd (.inf n) (.inf n) = ⟨if n then 0xFF800000 else 0x7F800000, 0⟩ ∧
      (x.isFin = true → FpFmt.f32.add rnd x (.inf n) = ⟨if n then 0xFF800000 else 0x7F800000, 0⟩ ∧
        FpFmt.f32.mul rnd x (.inf n) = (if x.isZero then ⟨0x7FC00000, flagNV⟩
          else ⟨if n = x.neg then 0x7F800000 else 0xFF800000, 0⟩))) ∧
    (x.isFin = true → y.isFin = true → x.rat + y.rat = 0 → FpFmt.f32.add rnd x y =
      ⟨if rnd = .rm ∨ (x.isZero = true ∧ x.neg = true ∧ y.isZero = true ∧ y.neg = true) then 0x80000000 else 0, 0⟩)) ∧
  FpFmt.f32.exactResults

/-- Packed FP16, or BF16 under .BF (R110): element j of the result comes from element j of each source, and a lane raises
the flags of both. The results of finite operands are the exact numbers rounded once (R57). -/
def Obligations.FloatPacked : Prop :=
  FpFmt.f16.exactResults ∧ FpFmt.bf16.exactResults ∧ ∀ (s : State) (gd : Guard) (bf nb : Bool) (rnd : Round) (d a : Reg) (b : BSrc),
    let e : Expect := if bf then .b2 else .h2
    let f : FpFmt := if bf then .bf16 else .f16
    s.runs gd → s.focus.hasV d → s.focus.source a e → s.focus.bSource b e →
      let el (x : Word32) (flip : Bool) (j : Nat) : Nat :=
        ((x ^^^ (if flip then 0x80008000 else 0)).toNat / 2 ^ (16 * j)) % 2 ^ 16
      let two (r : Nat → FRes) : FRes := ⟨(r 0).code + (r 1).code * 2 ^ 16, (r 0).flags ||| (r 1).flags⟩
      let x (l j : Nat) : Nat := el (s.focus.vOf a l) false j
      let y (flip : Bool) (l j : Nat) : Nat := el (s.focus.bOf b l) flip j
      let t : Tag := if bf then .b2 else .h2
      s.setsF (.hadd2 gd bf nb rnd d a b) gd d t
        (fun l => two fun j => f.add rnd (f.value (x l j)) (f.value (y nb l j))) ∧
      s.setsF (.hmul2 gd bf nb rnd d a b) gd d t
        (fun l => two fun j => f.mul rnd (f.value (x l j)) (f.value (y nb l j))) ∧
      s.setsF (.hmin2 gd bf d a b) gd d t (fun l => two fun j => f.minMax false (x l j) (y false l j)) ∧
      s.setsF (.hmax2 gd bf d a b) gd d t (fun l => two fun j => f.minMax true (x l j) (y false l j)) ∧
      ∀ (nc : Bool) (c : Reg), s.focus.source c e →
        s.setsF (.hfma2 gd bf nc nb rnd d a b c) gd d t fun l => two fun j =>
          f.fma rnd (f.value (x l j)) (f.value (y nb l j)) (f.value (el (s.focus.vOf c l) nc j))

/-- Classification and rounding to integral values, in FP32 or on pairs (R108, R109). FP64 arithmetic on pairs (R111): the
results of finite operands are the exact numbers rounded once (R57). -/
def Obligations.Float64AndClassify : Prop :=
  FpFmt.f64.exactResults ∧
  (∀ (s : State) (gd : Guard) (d a : Reg), s.runs gd →
    (s.focus.source a .f32 → s.focus.hasV d →
      s.setsV (.fclass gd false d a) gd d .n32
        (fun l => BitVec.ofNat 32 (FpFmt.f32.classify (s.focus.vOf a l).toNat)) ∧
      ∀ rnd, s.setsF (.frnd gd false rnd d a) gd d .f32 fun l =>
        FpFmt.f32.integral rnd (FpFmt.f32.value (s.focus.vOf a l).toNat)) ∧
    (s.focus.pairSource a →
      (s.focus.hasV d → s.setsV (.fclass gd true d a) gd d .n32
        fun l => BitVec.ofNat 32 (FpFmt.f64.classify (s.focus.pairOf a l).toNat)) ∧
      (s.focus.hasV d 2 → ∀ rnd, s.setsD (.frnd gd true rnd d a) gd d fun l =>
        FpFmt.f64.integral rnd (FpFmt.f64.value (s.focus.pairOf a l).toNat)))) ∧
  (∀ (s : State) (gd : Guard) (d a : Reg) (b : BSrc), s.runs gd → s.focus.pairSource a → s.focus.bPairSource b →
    let flip (c : Bool) (x : Word64) : Word64 := if c then x ^^^ 0x8000000000000000 else x
    let x (l : Nat) : FVal := FpFmt.f64.value (s.focus.pairOf a l).toNat
    let y (nb : Bool) (l : Nat) : FVal := FpFmt.f64.value (flip nb (s.focus.bPairOf b l)).toNat
    (s.focus.hasV d 2 → ∀ (nb : Bool) (rnd : Round),
      s.setsD (.dadd gd nb rnd d a b) gd d (fun l => FpFmt.f64.add rnd (x l) (y nb l)) ∧
      s.setsD (.dmul gd nb rnd d a b) gd d (fun l => FpFmt.f64.mul rnd (x l) (y nb l)) ∧
      s.setsD (.dmin gd d a b) gd d
        (fun l => FpFmt.f64.minMax false (s.focus.pairOf a l).toNat (s.focus.bPairOf b l).toNat) ∧
      s.setsD (.dmax gd d a b) gd d
        (fun l => FpFmt.f64.minMax true (s.focus.pairOf a l).toNat (s.focus.bPairOf b l).toNat) ∧
      ∀ (nc : Bool) (c : Reg), s.focus.pairSource c →
        s.setsD (.dfma gd nc nb rnd d a b c) gd d fun l =>
          FpFmt.f64.fma rnd (x l) (y nb l) (FpFmt.f64.value (flip nc (s.focus.pairOf c l)).toNat)) ∧
    (∀ (cc : FCond) (p : BitVec 3), s.focus.awaitsP p = false →
      s.setsCmp (.dcmp gd cc p a b) gd p fun l => fpCompare cc (x l) (y false l)))

/-- The functions (R112, R113): each completes with one rounded result a lane, and its special inputs give what the table
*Special inputs* states. -/
def Obligations.FloatFunctions : Prop :=
  (∀ (s : State) (gd : Guard) (rnd : Round) (d a : Reg), s.runs gd → s.focus.hasV d → s.focus.source a .f32 →
    let x (l : Nat) : FVal := FpFmt.f32.value (s.focus.vOf a l).toNat
    (∀ b, s.focus.bSource b .f32 → s.setsF (.fdiv gd rnd d a b) gd d .f32 fun l =>
      FpFmt.f32.div rnd (x l) (FpFmt.f32.value (s.focus.bOf b l).toNat)) ∧
    s.setsF (.fsqrt gd rnd d a) gd d .f32 (fun l => FpFmt.f32.sqrt rnd (x l)) ∧
    s.setsF (.frcp gd rnd d a) gd d .f32 (fun l => FpFmt.f32.rcp rnd (x l)) ∧
    s.setsF (.frsq gd rnd d a) gd d .f32 (fun l => FpFmt.f32.rsq rnd (x l)) ∧
    s.setsF (.fexp2 gd rnd d a) gd d .f32 (fun l => FpFmt.f32.exp2 rnd (x l)) ∧
    s.setsF (.flog2 gd rnd d a) gd d .f32 (fun l => FpFmt.f32.log2 rnd (x l)) ∧
    s.setsF (.fsin gd rnd d a) gd d .f32 (fun l => FpFmt.f32.sin rnd (x l)) ∧
    s.setsF (.fcos gd rnd d a) gd d .f32 (fun l => FpFmt.f32.cos rnd (x l))) ∧
  (∀ (rnd : Round) (n m : Bool) (k j : Nat) (e i : Int), k ≠ 0 → j ≠ 0 →
    let inf (neg : Bool) : Nat := if neg then 0xFF800000 else 0x7F800000
    let zero (neg : Bool) : Nat := if neg then 0x80000000 else 0
    let bad : FRes := ⟨0x7FC00000, flagNV⟩
    FpFmt.f32.div rnd (.fin n 0 e) (.fin m 0 i) = bad ∧ FpFmt.f32.div rnd (.inf n) (.inf m) = bad ∧
    FpFmt.f32.div rnd (.fin n k e) (.fin m 0 i) = ⟨inf (n != m), flagDZ⟩ ∧
    FpFmt.f32.div rnd (.inf n) (.fin m j i) = ⟨inf (n != m), 0⟩ ∧
    FpFmt.f32.div rnd (.fin n k e) (.inf m) = ⟨zero (n != m), 0⟩ ∧
    FpFmt.f32.div rnd (.fin n 0 e) (.fin m j i) = ⟨zero (n != m), 0⟩ ∧
    FpFmt.f32.sqrt rnd (.fin true 0 e) = ⟨0x80000000, 0⟩ ∧ FpFmt.f32.sqrt rnd (.inf false) = ⟨inf false, 0⟩ ∧
    FpFmt.f32.sqrt rnd (.fin true k e) = bad ∧ FpFmt.f32.sqrt rnd (.inf true) = bad ∧
    FpFmt.f32.rcp rnd (.fin n 0 e) = ⟨inf n, flagDZ⟩ ∧ FpFmt.f32.rcp rnd (.inf n) = ⟨zero n, 0⟩ ∧
    FpFmt.f32.rsq rnd (.fin n 0 e) = ⟨inf n, flagDZ⟩ ∧ FpFmt.f32.rsq rnd (.inf false) = ⟨0, 0⟩ ∧
    FpFmt.f32.rsq rnd (.fin true k e) = bad ∧ FpFmt.f32.rsq rnd (.inf true) = bad ∧
    FpFmt.f32.exp2 rnd (.inf true) = ⟨0, 0⟩ ∧ FpFmt.f32.exp2 rnd (.inf false) = ⟨inf false, 0⟩ ∧
    FpFmt.f32.log2 rnd (.fin n 0 e) = ⟨inf true, flagDZ⟩ ∧ FpFmt.f32.log2 rnd (.inf false) = ⟨inf false, 0⟩ ∧
    FpFmt.f32.log2 rnd (.fin true k e) = bad ∧ FpFmt.f32.log2 rnd (.inf true) = bad ∧
    FpFmt.f32.sin rnd (.inf n) = bad ∧ FpFmt.f32.sin rnd (.fin n 0 e) = ⟨zero n, 0⟩ ∧
    FpFmt.f32.cos rnd (.inf n) = bad ∧ FpFmt.f32.cos rnd (.fin n 0 e) = ⟨0x3F800000, 0⟩)

/-- CVT (R114, R115): in each lane of E the value of the source read as FROM, converted to TO, with the result tags of TO;
integer to integer it wraps or saturates, and a NaN, an infinity or a number out of range becomes the integer of R66. -/
def Obligations.Conversions : Prop :=
  (∀ (s : State) (gd : Guard) (dst src : CvtTy) (sat : Bool) (rnd : Round) (d a : Reg), s.runs gd →
    s.focus.hasV d (cvtSpan dst) → s.focus.hasV a (cvtSpan src) →
    (∀ p ∈ cvtSources (s.focus.regIndex a) src, p.2.accepts (s.focus.tag p.1) = true) →
    let x (l : Nat) : Word64 := if cvtSpan src = 2 then s.focus.pairOf a l else (s.focus.vOf a l).setWidth 64
    let r (l : Nat) : FRes := cvtConvert dst sat rnd (cvtRead (x l) src)
    let e := s.focus.eff gd
    exec (.cvt gd dst src sat rnd d a) s = s.gives
      ((if cvtSpan dst = 2 then
          s.focus.setPair e (s.focus.regIndex d) (cvtTags dst).1 (cvtTags dst).2 fun l => BitVec.ofNat 64 (r l).code
        else s.focus.setV e (s.focus.regIndex d) (cvtTags dst).1 fun l => BitVec.ofNat 32 (r l).code).raise
          (laneFlags e fun l => (r l).flags))) ∧
  (∀ (rnd : Round) (i : Int),
    cvtConvert .i32 false rnd (.int i) = ⟨(BitVec.ofInt 32 i).toNat, 0⟩ ∧
    cvtConvert .i32 true rnd (.int i) = ⟨(BitVec.ofInt 32 (satSigned 32 i)).toNat, 0⟩ ∧
    cvtConvert .n32 true rnd (.int i) = ⟨(BitVec.ofInt 32 (satUnsigned 32 i)).toNat, 0⟩ ∧
    cvtConvert .i64 true rnd (.int i) = ⟨(BitVec.ofInt 64 (satSigned 64 i)).toNat, 0⟩ ∧
    cvtConvert .n64 true rnd (.int i) = ⟨(BitVec.ofInt 64 (satUnsigned 64 i)).toNat, 0⟩) ∧
  (∀ (sat q : Bool) (rnd : Round),
    cvtConvert .i32 sat rnd (.fl (.nan q)) = ⟨0, flagNV⟩ ∧
    cvtConvert .i32 sat rnd (.fl (.inf false)) = ⟨0x7FFFFFFF, flagNV⟩ ∧
    cvtConvert .i32 sat rnd (.fl (.inf true)) = ⟨0x80000000, flagNV⟩ ∧
    cvtConvert .n32 sat rnd (.fl (.inf false)) = ⟨0xFFFFFFFF, flagNV⟩ ∧
    cvtConvert .n32 sat rnd (.fl (.inf true)) = ⟨0, flagNV⟩ ∧
    cvtConvert .n32 sat rnd (.fl (.fin true 3 0)) = ⟨0, flagNV⟩)

/-- Tags, packing and dot products (R116 to R121): TAGS copies bits under a new tag, TAGRD reads a tag code and checks
nothing, PACK places n converted values as the elements of one register, UNPK does the reverse, and DOT4 and DOT8 add the
products of the elements to c. -/
def Obligations.TagsPackingDots : Prop :=
  ∀ (s : State) (gd : Guard) (d a : Reg), s.runs gd →
    (s.focus.hasV d →
      (s.focus.source a .any → ∀ tag, s.setsV (.tags gd tag d a) gd d tag fun l => s.focus.vOf a l) ∧
      (s.focus.hasV a → s.setsV (.tagrd gd false d a) gd d .n32
        fun _ => (s.focus.tag (s.focus.regIndex a)).code.setWidth 32) ∧
      (s.focus.regIndex a < s.focus.tiles.length → s.setsV (.tagrd gd true d a) gd d .n32
        fun _ => (s.focus.tile (s.focus.regIndex a)).tag.code.setWidth 32)) ∧
    (∀ (f : PackFmt) (sat : Bool) (rnd : Round),
      let (n, w, k) := packShape f
      let plain : Expect := match k with
        | .fl _ => .f32
        | .int u => .ofN u
      s.focus.hasV d → s.focus.hasV a n → (packIsF6 f = false ∨ s.focus.emu = .done) →
      (∀ i, i < n → plain.accepts (s.focus.tag (s.focus.regIndex a + i)) = true) →
        let el (l i : Nat) : FRes := packElem w k sat rnd (s.focus.lane (s.focus.regIndex a + i) l)
        s.setsF (.pack gd f sat rnd d a) gd d (packTag f) fun l =>
          ⟨((List.range n).map fun i => (el l i).code * 2 ^ (w * i)).sum,
            ((List.range n).map fun i => (el l i).flags).foldl (· ||| ·) 0⟩) ∧
    (∀ f : PackFmt,
      let (n, w, k) := packShape f
      s.focus.hasV d n → s.focus.source a (unpkSource f) → (packIsF6 f = false ∨ s.focus.emu = .done) →
        let tag : Tag := match k with
          | .fl _ => .f32
          | .int u => if u then .n32 else .i32
        let el (l i : Nat) : FRes := unpkElem w k ((s.focus.vOf a l).toNat / 2 ^ (w * i) % 2 ^ w)
        exec (.unpk gd f d a) s = s.gives ((List.range n).foldl
          (fun g i => g.setVF (s.focus.eff gd) (s.focus.regIndex d + i) tag fun l => el l i) s.focus)) ∧
    (∀ (ta tb nacc sat : Bool) (b : BReg) (c : Reg), s.focus.hasV d → s.focus.source c (.ofN nacc) →
      let num (u : Bool) (w : Nat) (x : Word32) (i : Nat) : Int :=
        if u then ((x.extractLsb' (w * i) w).toNat : Int) else (x.extractLsb' (w * i) w).toInt
      let acc (l : Nat) : Int := num nacc 32 (s.focus.vOf c l) 0
      let dot (w n l : Nat) : Int := ((List.range n).map fun i =>
        num ta w (s.focus.vOf a l) i * num tb w (s.focus.vOf b.r l) i).sum + acc l
      let fit (x : Int) : FRes := ⟨(BitVec.ofInt 32
        (if sat then (if nacc then satUnsigned 32 x else satSigned 32 x) else x)).toNat, 0⟩
      let t : Tag := if nacc then .n32 else .i32
      (s.focus.source a .i8x4 → s.focus.source b.r .i8x4 →
        s.setsF (.dot4 gd (.int ta tb nacc sat) d a b c) gd d t fun l => fit (dot 8 4 l)) ∧
      (s.focus.source a .i4x8 → s.focus.source b.r .i4x8 →
        s.setsF (.dot8 gd (.int ta tb nacc sat) d a b c) gd d t fun l => fit (dot 4 8 l))) ∧
    (∀ (ta tb sat : Bool) (rnd : Round) (b : BReg) (c : Reg), s.focus.hasV d → s.focus.source c .f32 →
      let fmt (t : Bool) : FpFmt := if t then .e5m2 else .e4m3
      let ex (t : Bool) : Expect := if t then .e5x4 else .e4x4
      (s.focus.source a (ex ta) → s.focus.source b.r (ex tb) →
        s.setsF (.dot4 gd (.fp ta tb sat rnd) d a b c) gd d .f32 fun l =>
          dotFp 8 4 (fmt ta) (fmt tb) sat rnd (s.focus.vOf a l) (s.focus.vOf b.r l) (s.focus.vOf c l)) ∧
      (s.focus.source a .e2x8 → s.focus.source b.r .e2x8 →
        s.setsF (.dot8 gd (.fp sat rnd) d a b c) gd d .f32 fun l =>
          dotFp 4 8 .e2m1 .e2m1 sat rnd (s.focus.vOf a l) (s.focus.vOf b.r l) (s.focus.vOf c l)))

/-! ## Row 6, cross-lane, and row 7 -/

/-- SHFL, BCAST, VOTE and MATCH (R176 to R181, R183): lanes are read whatever their state, and only the lanes of E are
written. REDX and SCANX (R182): the lanes of E get the combination of all members, or of those up to the lane, or
below it under .EX; an integer sum is exact and then wraps or saturates, and an empty member set gives the identity.
-/
def Obligations.CrossLane : Prop :=
  (∀ (s : State) (gd : Guard) (a : Reg), s.runs gd →
    let e := s.focus.eff gd
    let x (l : Nat) : Word32 := s.focus.vOf a l
    (∀ (d : Reg), s.focus.hasV d → s.focus.source a .any →
      let t := s.focus.tag (s.focus.regIndex a)
      (∀ (seg : Seg) (b : BSrc), s.focus.bSource b .int →
        let w := segWidth seg
        let y (l : Nat) : Nat := (s.focus.bOf b l).toNat
        s.setsV (.shfl gd seg .idx d a b) gd d t (fun l => x (l - l % w + y l % w)) ∧
        s.setsV (.shfl gd seg .up d a b) gd d t (fun l => x (if y l ≤ l % w then l - y l else l)) ∧
        s.setsV (.shfl gd seg .down d a b) gd d t (fun l => x (if l % w + y l < w then l + y l else l)) ∧
        s.setsV (.shfl gd seg .xor d a b) gd d t (fun l => x (l - l % w + (l % w ^^^ y l) % w))) ∧
      (∀ k : BitVec 5, s.setsV (.bcast gd (.lane k) d a) gd d t fun _ => x k.toNat) ∧
      (∀ r : Reg, s.focus.hasS r →
        s.setsV (.bcast gd (.s r) d a) gd d t fun _ => x ((s.focus.sOf r).toNat % 32))) ∧
    (∀ mm : Option Reg, s.focus.hasMM mm →
      let m := s.focus.membersOf e mm
      (∀ q : BitVec 3, s.focus.awaitsP q = false →
        let yes := m &&& s.focus.predMask q
        (∀ p : BitVec 3, s.focus.awaitsP p = false →
          s.setsP (.vote gd (.any p) q mm) gd p (fun _ => yes ≠ 0) ∧
          s.setsP (.vote gd (.all p) q mm) gd p (fun _ => yes = m)) ∧
        (∀ d : Reg, s.focus.hasV d →
          s.setsV (.vote gd (.ballot d) q mm) gd d .n32 (fun _ => yes) ∧
          s.setsV (.vote gd (.count d) q mm) gd d .n32 fun _ =>
            BitVec.ofNat 32 ((List.range 32).countP fun l => yes.getLsbD l))) ∧
      (s.focus.source a .any →
        let same (l : Nat) : Mask := maskOf fun k => m.getLsbD k && x k == x l
        (∀ d : Reg, s.focus.hasV d → s.setsV (.matchx gd (.any d) a mm) gd d .n32 same) ∧
        (∀ p : BitVec 3, s.focus.awaitsP p = false →
          s.setsP (.matchx gd (.all p) a mm) gd p fun l => same l = m)))) ∧
  ((∀ (s : State) (gd : Guard) (k : RedKind) (d a : Reg) (mm : Option Reg), s.runs gd → s.focus.hasMM mm →
    (if redDouble k then s.focus.hasV d 2 ∧ s.focus.pairSource a
      else s.focus.hasV d ∧ s.focus.hasV a ∧ ∀ p ∈ redSources k (s.focus.regIndex a), p.2.accepts (s.focus.tag p.1) = true) →
    let e := s.focus.eff gd
    let m := s.focus.membersOf e mm
    let x (l : Nat) : Word64 := if redDouble k then s.focus.pairOf a l else (s.focus.vOf a l).setWidth 64
    let among (p : Nat → Bool) : FRes := redValue k (((List.range 32).filter fun l => m.getLsbD l && p l).map x)
    exec (.redx gd k d a mm) s =
      s.gives (s.focus.setRed e k (s.focus.regIndex d) fun _ => among fun _ => true) ∧
    exec (.scanx gd k false d a mm) s =
      s.gives (s.focus.setRed e k (s.focus.regIndex d) fun l => among fun j => decide (j ≤ l)) ∧
    exec (.scanx gd k true d a mm) s =
      s.gives (s.focus.setRed e k (s.focus.regIndex d) fun l => among fun j => decide (j < l))) ∧
  (∀ xs : List Word64, let ws := xs.map fun x => x.extractLsb' 0 32
    redValue (.intAdd false false) xs = ⟨(BitVec.ofInt 32 (ws.map BitVec.toInt).sum).toNat, 0⟩ ∧
    redValue (.intAdd false true) xs = ⟨(BitVec.ofInt 32 (satSigned 32 (ws.map BitVec.toInt).sum)).toNat, 0⟩ ∧
    redValue (.intAdd true true) xs = ⟨min (ws.map BitVec.toNat).sum (2 ^ 32 - 1), 0⟩) ∧
  redValue (.intOp false .min) [] = ⟨0x7FFFFFFF, 0⟩ ∧ redValue (.intOp true .min) [] = ⟨0xFFFFFFFF, 0⟩ ∧
  redValue (.intOp false .max) [] = ⟨0x80000000, 0⟩ ∧ redValue (.intOp true .max) [] = ⟨0, 0⟩ ∧
  (∀ n, redValue (.intOp n .and) [] = ⟨0xFFFFFFFF, 0⟩ ∧ redValue (.intOp n .or) [] = ⟨0, 0⟩ ∧
    redValue (.intOp n .xor) [] = ⟨0, 0⟩) ∧
  (∀ rnd, redValue (.fAdd false rnd) [] = ⟨0, 0⟩) ∧ redValue (.fMin false) [] = ⟨0x7FC00000, 0⟩ ∧
  redValue (.fMax true) [] = ⟨0x7FF8000000000000, 0⟩)

/-- Binding (R184, R185): LBIND binds the group where E is all 32 lanes and faults LIMBMASK otherwise, LFREE unbinds
it; every limb instruction faults LIMBMASK where the group is not bound, or E holds part of a set without all of it (R187). Limb comparison and count (R188): LCMP
writes to the lanes of each set the condition on its numbers, read as signed under .AR, and LCLZ the leading zero bits
of 32w. -/
def Obligations.LimbBindingCompareCount : Prop :=
  (∀ (s : State) (gd : Guard), s.runs gd →
    (∀ w, exec (.lbind gd w) s = if s.focus.eff gd = BitVec.allOnes 32 then s.gives { s.focus with limb := some w }
      else .next (s.raisePlain (s.focus.eff gd) .limbmask)) ∧
    exec (.lfree gd) s = s.gives { s.focus with limb := none } ∧
    ((∀ w, ¬s.focus.boundAt (s.focus.eff gd) w) → ∀ (d a : Reg), s.focus.hasV d → s.focus.source a .limb →
      let masked (i : Instr) : Prop := exec i s = .next (s.raisePlain (s.focus.eff gd) .limbmask)
      let free (k : Option (BitVec 3)) : Prop := ∀ p, k = some p → s.focus.awaitsP p = false
      masked (.lclz gd d a) ∧
      (∀ b : Reg, s.focus.source b .limb →
        (∀ (trap : Bool) (c : Carry), free (carryPred c) → masked (.ladd gd trap c d a b) ∧ masked (.lsub gd trap c d a b)) ∧
        ∀ (cc : Cond) (ar : Bool) (p : BitVec 3), s.focus.awaitsP p = false → masked (.lcmp gd cc ar p a b)) ∧
      ∀ (trap : Bool) (k : Option (BitVec 3)), free k →
        masked (.lneg gd k d a) ∧
        (∀ b : CountSrc, (match b with
            | .v r => s.focus.source r .int
            | .s r => s.focus.hasS r) →
          masked (.lshl gd trap k d a b) ∧ ∀ ar, masked (.lshr gd trap ar k d a b)) ∧
        ∀ b c : Reg, s.focus.hasS b → s.focus.hasV c → masked (.lmuls gd trap k d a b c))) ∧
  (∀ (s : State) (gd : Guard) (w : Nat) (a : Reg), s.runs gd → s.focus.boundAt (s.focus.eff gd) w →
    s.focus.source a .limb →
    let x (j : Nat) : Nat := s.focus.limbNumber w a j
    (∀ (ar : Bool) (p : BitVec 3) (b : Reg), s.focus.source b .limb → s.focus.awaitsP p = false →
      let num (n : Nat) : Int := if ar = true ∧ 2 ^ (32 * w - 1) ≤ n then (n : Int) - 2 ^ (32 * w) else n
      let u (l : Nat) : Int := num (x (l / w * w))
      let v (l : Nat) : Int := num (s.focus.limbNumber w b (l / w * w))
      s.setsP (.lcmp gd .eq ar p a b) gd p (fun l => u l = v l) ∧
      s.setsP (.lcmp gd .ne ar p a b) gd p (fun l => u l ≠ v l) ∧
      s.setsP (.lcmp gd .lt ar p a b) gd p (fun l => u l < v l) ∧
      s.setsP (.lcmp gd .le ar p a b) gd p (fun l => u l ≤ v l) ∧
      s.setsP (.lcmp gd .gt ar p a b) gd p (fun l => u l > v l) ∧
      s.setsP (.lcmp gd .ge ar p a b) gd p (fun l => u l ≥ v l)) ∧
    (∀ d : Reg, s.focus.hasV d → s.setsV (.lclz gd d a) gd d .n32 fun l =>
      BitVec.ofNat 32 (if x (l / w * w) = 0 then 32 * w else 32 * w - 1 - (x (l / w * w)).log2)))

/-- Limb arithmetic (R187 to R190): the number of each set inside E, taken over its limbs, gives the stated number and
carry-out; under .TRAP a carry-out of any set faults LIMBOVF and nothing is written. -/
def Obligations.LimbArithmetic : Prop :=
  ∀ (s : State) (gd : Guard) (w : Nat) (d a : Reg), s.runs gd → s.focus.boundAt (s.focus.eff gd) w →
    s.focus.hasV d → s.focus.source a .limb →
    let e := s.focus.eff gd
    let x (j : Nat) : Nat := s.focus.limbNumber w a j
    let ends (i : Instr) (trap : Bool) (k : Option (BitVec 3)) (r : Nat → Int) (co : Nat → Bool) (u : Group → Group) :
        Prop :=
      (trap = true ∧ someSet e w (fun j => co j = true) → exec i s = .next (s.raisePlain e .limbovf)) ∧
      (¬(trap = true ∧ someSet e w fun j => co j = true) → exec i s =
        s.gives (u ((s.focus.setV e (s.focus.regIndex d) .limb (limbAt w r)).withCarry e k w co)))
    let free (k : Option (BitVec 3)) : Prop := ∀ p, k = some p → s.focus.awaitsP p = false
    (∀ (trap ci : Bool) (k : BitVec 3) (b : Reg), s.focus.source b .limb → s.focus.awaitsP k = false →
      let c (j : Nat) : Int := if ci = true ∧ (s.focus.predMask k).getLsbD j = true then 1 else 0
      let y (j : Nat) : Nat := s.focus.limbNumber w b j
      ends (.ladd gd trap (.out k ci) d a b) trap (some k) (fun j => x j + y j + c j)
        (fun j => decide ((2 : Int) ^ (32 * w) ≤ x j + y j + c j)) id ∧
      ends (.lsub gd trap (.out k ci) d a b) trap (some k) (fun j => x j - y j - c j)
        (fun j => decide ((x j : Int) - y j - c j < 0)) id ∧
      ends (.ladd gd trap .none d a b) trap none (fun j => x j + y j) (fun j => decide (2 ^ (32 * w) ≤ x j + y j)) id ∧
      ends (.lsub gd trap .none d a b) trap none (fun j => x j - y j) (fun j => decide (x j < y j)) id) ∧
    (∀ (trap : Bool) (k : Option (BitVec 3)), free k →
      (∀ (b : CountSrc) (n : Nat → Nat),
        (match b with
          | .v r => s.focus.source r .int ∧ ∀ j, n j = (s.focus.vOf r j).toNat
          | .s r => s.focus.hasS r ∧ ∀ j, n j = (s.focus.sOf r).toNat) →
        let out (j : Nat) : Bool := decide (x j % 2 ^ min (n j) (32 * w) ≠ 0)
        ends (.lshl gd trap k d a b) trap k (fun j => if 32 * w ≤ n j then 0 else x j * 2 ^ n j)
          (fun j => decide (x j / 2 ^ (32 * w - n j) ≠ 0)) id ∧
        ends (.lshr gd trap false k d a b) trap k (fun j => if 32 * w ≤ n j then 0 else x j / 2 ^ n j) out id ∧
        ends (.lshr gd trap true k d a b) trap k
          (fun j => sgn w (x j) / 2 ^ min (n j) (32 * w)) out id) ∧
      (∀ b c : Reg, s.focus.hasS b → s.focus.hasV c →
        let p (j : Nat) : Nat := x j * ((s.focus.sOf b).toNat % 2 ^ 32)
        let high (j : Nat) : Nat := p j / 2 ^ (32 * w)
        ends (.lmuls gd trap k d a b c) trap k (fun j => p j) (fun j => decide (high j ≠ 0)) fun g =>
          g.setV e (s.focus.regIndex c) .n32 fun l => BitVec.ofNat 32 (high (l / w * w)))) ∧
    (∀ k : Option (BitVec 3), free k →
      ends (.lneg gd k d a) false k (fun j => -(x j : Int)) (fun j => decide (x j ≠ 0)) id)

/-! ## Row 13, control -/

/-- The branches (R191 to R193, R196): each completes and sends every active lane to its target T or to F, the header
that follows; CALL also leaves F as a word offset in the lanes of E of its link register. A branch out of the text
section faults BUFBOUND for its lowest such lane, with ACC 3, the address and the offset in the record (R193, R449),
and one that would split a set of a bound group faults LIMBDIV (R186). That LIMBDIV looks at the entries before those with one
address merge is the model's reading (log 27). -/
def Obligations.Branches : Prop :=
  (∀ (s : State) (gd : Guard), s.acts gd → s.focus.wholeMask s.focus.active → s.focus.wholeMask (s.focus.eff gd) →
    let g := s.focus
    let e := s.focus.eff gd
    let f : Int := g.fall
    (∀ (off : Word32) (n : Int), n = g.target off →
      let split (l : Nat) : Int := if e.getLsbD l then n else f
      let whole (c : Prop) [Decidable c] (_ : Nat) : Int := if c then n else f
      (g.mayGo split → s.goes (.bra gd off) split id ∧
        ∀ link : BitVec 8, (e ≠ 0 → g.hasV ⟨link, false⟩) →
          s.goes (.call gd link off) split fun t => t.setV e link.toNat .n32 fun _ => BitVec.ofInt 32 (f / 8)) ∧
      (g.mayGo (whole (e ≠ 0)) → s.goes (.brc gd .any off) (whole (e ≠ 0)) id) ∧
      (g.mayGo (whole (e = g.active)) → s.goes (.brc gd .all off) (whole (e = g.active)) id) ∧
      (g.mayGo (whole (e = 0)) → s.goes (.brc gd .none off) (whole (e = 0)) id) ∧
      (g.mayGo (whole (e ≠ g.active)) → s.goes (.brc gd .nall off) (whole (e ≠ g.active)) id) ∧
      ∀ imm : BitVec 14, let x := g.xi.toNat
        let y := imm.toNat
        (g.mayGo (whole (e ≠ 0 ∧ x = y)) → s.goes (.bru gd imm .eq off) (whole (e ≠ 0 ∧ x = y)) id) ∧
        (g.mayGo (whole (e ≠ 0 ∧ x ≠ y)) → s.goes (.bru gd imm .ne off) (whole (e ≠ 0 ∧ x ≠ y)) id) ∧
        (g.mayGo (whole (e ≠ 0 ∧ x < y)) → s.goes (.bru gd imm .ltu off) (whole (e ≠ 0 ∧ x < y)) id) ∧
        (g.mayGo (whole (e ≠ 0 ∧ y ≤ x)) → s.goes (.bru gd imm .geu off) (whole (e ≠ 0 ∧ y ≤ x)) id)) ∧
    (∀ a : Reg, (e ≠ 0 → g.source a .int) →
      let each (l : Nat) : Int := if e.getLsbD l then 8 * ((g.vOf a l).toNat : Int) else f
      g.mayGo each → s.goes (.ret gd a) each id ∧ s.goes (.jmpi gd a) each id) ∧
    (g.mayGo (fun _ => f) → s.goes (.yield gd) (fun _ => f) fun t => { t with yielded := t.yielded || e != 0 }) ∧
    (g.mayGo (fun l => if e.getLsbD l then 0 else f) → 0 < g.code.tlen →
      ∃ ms, exec (.exit gd) s = s.gives { g with moves := some ms, exited := g.exited ||| e } ∧
        ∀ l, l < 32 → sentTo ms l = if g.active.getLsbD l && !e.getLsbD l then some f.toNat else none)) ∧
  (∀ (s : State) (gd : Guard) (off : Word32), s.acts gd →
    let g := s.focus
    let e := s.focus.eff gd
    let n : Int := g.target off
    let dest (l : Nat) : Int := if e.getLsbD l then n else g.fall
    let out (l : Nat) : Prop := g.active.getLsbD l = true ∧ (dest l < 0 ∨ (g.code.tlen : Int) ≤ dest l)
    (∀ l, l < 32 → out l → (∀ k, k < l → ¬out k) → exec (.bra gd off) s = .next (s.raise e
      { code := .bufbound, lane := some l, acc := 3, va := (g.code.text + dest l).toNat % 2 ^ 64, off := dest l,
        buf := g.code.buf })) ∧
    ((∀ l, l < 32 → ¬out l) → g.wholeMask g.active → ¬g.wholeMask e →
      exec (.bra gd off) s = .next (s.raisePlain e .limbdiv)))

/-- NOP, SETXI, WAIT and BKPT (R194 to R196): NOP does nothing; SETXI writes XI modulo 2^16; WAIT parks the group
until the core cycle count has gone on by the count, at the next boundary, or to the later deadline of an earlier WAIT;
BKPT stops the group there where its hedge has debug enabled, and leaves a breakpoint record, one for a checked pair (its
slice is the model's choice, log 9 and log 73). RDSR (R197): the selector LANE gives each lane its number, tagged N32; any
other gives its value to S[D], and the clearing form of FLAGS clears the sticky flags that it returns; a trailing group gets
what its leading group got (R169). -/
def Obligations.ControlAndStatus : Prop :=
  (∀ (s : State) (gd : Guard), s.runs gd →
    let g := s.focus
    exec (.nop gd) s = s.gives g ∧
    (∀ imm : Word32, exec (.setxi gd imm) s = s.gives { g with xi := BitVec.ofNat 16 imm.toNat } ∧
      exec (.setxiAdd gd imm) s = s.gives { g with xi := BitVec.ofNat 16 (g.xi.toNat + imm.toNat) } ∧
      ∀ a : Reg, g.hasS a → exec (.setxiS gd a imm) s =
        s.gives { g with xi := BitVec.ofInt 16 ((g.sOf a).toInt + imm.toInt) }) ∧
    (let now := (s.core (s.coreOf g)).cycle
      let until_ (n : Nat) : Group := { g with waitUntil := some (match g.waitUntil with
        | none => now + BitVec.ofNat 64 n
        | some old => if (old - now).toInt < n then now + BitVec.ofNat 64 n else old) }
      (∀ n : BitVec 11, exec (.wait gd (.imm n)) s = s.gives (until_ n.toNat)) ∧
      ∀ r : Reg, g.hasS r → exec (.wait gd (.s r)) s = s.gives (until_ ((g.sOf r).toNat % 2 ^ 32))) ∧
    (∀ (code : BitVec 12) (h : Hedge), s.hedge g.hedge = some h →
      let stop : Group := { g with holds := g.holds ++ [.bkpt] }
      (h.p.debug = false → exec (.bkpt gd code) s = s.gives g) ∧
      (h.p.debug = true → (∀ p, g.role ≠ .trailing p) → exec (.bkpt gd code) s =
        .next (({ s with physLog := s.physLog ++ [.breakpoint (contextSlice g.hedge) g.hedge code.toNat
          (g.code.text + g.clauseOff)] } : State).past stop)) ∧
      (h.p.debug = true → ∀ p, g.role = .trailing p → exec (.bkpt gd code) s = s.gives stop))) ∧
  (∀ (s : State) (gd : Guard) (d : Reg), s.runs gd →
    let g := s.focus
    (g.hasV d → s.setsV (.rdsr gd .lane d) gd d .n32 fun l => BitVec.ofNat 32 l) ∧
    (g.hasS d →
      s.setsS (.rdsr gd .cycle d) d (s.core (s.coreOf g)).cycle ∧
      (s.single →
        (∀ sel, sel ≠ .lane → sel ≠ .flagsClr → s.setsS (.rdsr gd sel d) d (BitVec.ofNat 64 (s.rdsrValue sel))) ∧
        exec (.rdsr gd .flagsClr d) s =
          s.gives (({ g with flags := 0 } : Group).setS (g.regIndex d) (g.flags.setWidth 64)) ∧
        s.rdsrValue .flags = g.flags.toNat ∧ s.rdsrValue .group = g.number ∧ s.rdsrValue .hedge = g.hedge ∧
        s.rdsrValue .lseq = g.lseq ∧
        s.rdsrValue .die = s.coreOf g / 256 ∧ s.rdsrValue .cx = s.coreOf g % 16 ∧
        s.rdsrValue .cy = s.coreOf g / 16 % 16 ∧
        s.rdsrValue .limbw = (match g.limb with
          | none => 0
          | some b => limbWidth b)) ∧
      ∀ sel, sel ≠ .lane → sel ≠ .cycle →
        let clear (x : Group) : Group := if sel = .flagsClr then { x with flags := 0 } else x
        (∀ p, g.role = .leading p → let v := BitVec.ofNat 64 (s.rdsrValue sel)
          exec (.rdsr gd sel d) s =
            s.gives ((clear { g with rdsrs := g.rdsrs ++ [(g.issued, v)] }).setS (g.regIndex d) v)) ∧
        (∀ p lead v, g.role = .trailing p → p ≠ g.id → s.group p = some lead → find1 lead.rdsrs g.issued = some v →
          ∃ t, exec (.rdsr gd sel d) s = .next t ∧ t.focus = ((clear g).setS (g.regIndex d) v).advance)))

/-! ## Rows 8 and 9, and the memory instructions of row 1 -/

/-- Vector loads and stores (R135 to R137): the lanes of E access FMT's bytes at the exact offset of the form plus OFF
× size, in the buffer of the operand, in the order ORD at SCOPE; a store takes its data at issue. SLD and SST (R86,
R87): one access of FMT's width for the whole group, at S[A] + OFF × bytes read as a signed number of 64 bits, checked
for the lowest lane of E. SLDK (R89): the 8-byte word of the const section at index S[A] + IMM, as a load of the
group; an index at or beyond the section faults BUFBOUND. That a scalar access stands under the lowest lane of E, and the offset,
buffer and address in the fault record of SLDK, are the model's choices (log 74). -/
def Obligations.LoadsStores : Prop :=
  (∀ (s : State) (gd : Guard) (f : MemFmt) (ord : MemOrd) (buf : BufSel) (off : BitVec 14) (d : Reg), s.runs gd → s.single →
    s.focus.hasBuf buf → s.focus.hasV d (if f = .f64 then 2 else 1) →
    let g := s.focus
    let e := g.eff gd
    let size : Nat := memBytes f
    let n := g.regIndex d
    let load (pos : Nat → Int) : MemReq :=
      ⟨.load, .load, .load, 1, g.bufOf buf, fun l => pos l + off.toInt * size, size, lanesOf e, noData, noData, .v n f,
        true, false, ord, selScope buf⟩
    let data (l : Nat) : List Byte := leBytes size (if f = .f64 then (g.pairOf d l).toNat else (g.vOf d l).toNat)
    let store (pos : Nat → Int) : MemReq :=
      ⟨.store, .store, .store, 1, g.bufOf buf, fun l => pos l + off.toInt * size, size, lanesOf e, data, noData, .none,
        false, true, ord, selScope buf⟩
    let may : Prop := g.takes (storeSources f n)
    (∀ a : Reg, g.source a .int → let pos (l : Nat) : Int := (g.vOf a l).toNat
      s.asks (.ld gd f ⟨ord, buf, off, a⟩ d) e (load pos) ∧
      (may → s.asks (.st gd f ⟨ord, buf, off, a⟩ d) e (store pos))) ∧
    (∀ a : Reg, g.hasV a 2 → g.takes [(g.regIndex a, .int), (g.regIndex a + 1, .int)] →
      let pos (l : Nat) : Int := (g.pairOf a l).toNat
      s.asks (.ldx gd f ⟨ord, buf, off, a⟩ d) e (load pos) ∧
      (may → s.asks (.stx gd f ⟨ord, buf, off, a⟩ d) e (store pos))) ∧
    (∀ a : BitVec 7, a.toNat < g.sregs.length → g.awaitsS a.toNat = false →
      let pos (l : Nat) : Int := (g.s a.toNat).toInt + l * size
      s.asks (.ldsp gd f ⟨ord, buf, off, a⟩ d) e (load pos) ∧
      (may → s.asks (.stsp gd f ⟨ord, buf, off, a⟩ d) e (store pos)))) ∧
  (∀ (s : State) (gd : Guard) (d a : Reg), s.runs gd → s.single → s.focus.hasS d → s.focus.hasS a →
    let g := s.focus
    let e := g.eff gd
    (∀ (f : ScalarFmt) (ord : MemOrd) (buf : BufSel) (off : BitVec 14), g.hasBuf buf →
      let size : Nat := scalarBytes f
      let pos : Int := (g.sOf a + BitVec.ofInt 64 (off.toInt * size)).toInt
      s.asks (.sld gd f ⟨ord, buf, off, a⟩ d) e
        ⟨.load, .load, .load, 1, g.bufOf buf, fun _ => pos, size, [lowest e], noData, noData, .s (g.regIndex d) f, true,
          false, ord, selScope buf⟩ ∧
      s.asks (.sst gd f ⟨ord, buf, off, a⟩ d) e
        ⟨.store, .store, .store, 1, g.bufOf buf, fun _ => pos, size, [lowest e],
          fun _ => leBytes size (g.sOf d).toNat, noData, .none, false, true, ord, selScope buf⟩) ∧
    (∀ imm : Word32, let i := (g.sOf a).toNat + imm.toNat
      (g.code.clen / 8 ≤ i → exec (.sldk gd d a imm) s = .next (s.raise e
        { code := .bufbound, off := (8 * i : Nat), buf := g.code.buf })) ∧
      (i < g.code.clen / 8 → s.requestRoom = true → s.focus.fences = [] → ∀ ps : List (Nat × Bool), ps.length = 8 →
        (∀ k, k < 8 → (ps[k]?).map Except.ok =
          some (s.translate (s.coreOf g) g.hedge ((g.code.const + 8 * i + k) % 2 ^ 64) needR)) →
        s.leaves (.sldk gd d a imm) { s.newOp .load .load e with
          dst := .s (g.regIndex d) .n64, reads := true, buf := g.code.buf
          accs := [⟨lowest e, ps.map fun p => if p.2 then .home p.1 else .mem p.1, [], [],
            (g.code.const + 8 * i) % 2 ^ 64, (8 * i : Nat)⟩] })))

/-- Atomics and reductions (R142 to R146): the lanes of E ask for their operation on the aligned element at the offset
V[A] + AOFF × size, with the operand of the lane; ATOM and ATOMC take the old value to V[D], and ATOMC's new value
stands above the comparand. -/
def Obligations.Atomics : Prop :=
  ∀ (s : State) (gd : Guard) (ty : AtomTy) (ord : MemOrd) (buf : BufSel) (aoff : BitVec 10) (d a : Reg), s.runs gd →
    s.single → s.focus.hasBuf buf → s.focus.source a .int →
    let g := s.focus
    let e := g.eff gd
    let size : Nat := atomBytes ty
    let n := g.regIndex d
    let k := if atomWide ty then 2 else 1
    let word (n l : Nat) : Nat := if atomWide ty then (g.pair n l).toNat else (g.lane n l).toNat
    let pos (l : Nat) : Int := (g.vOf a l).toNat + aoff.toInt * size
    let order : MemOrd := if ord = .weak then .rlx else ord
    (g.hasV d k → g.takes (atomSources ty n) → ∀ op : AtomOp,
      s.asks (.atom gd op ty ⟨ord, buf, aoff, a⟩ d) e
        ⟨.load, .atom op ty, .atomic, size, g.bufOf buf, pos, size, lanesOf e, fun l => leBytes size (word n l), noData,
          .old n ty, true, true, order, selScope buf⟩ ∧
      s.asks (.red gd op ty ⟨ord, buf, aoff, a⟩ d) e
        ⟨.store, .atom op ty, .red (op == .add) (windowType ty), size, g.bufOf buf, pos, size, lanesOf e,
          fun l => leBytes size (word n l), noData, .none, false, true, order, selScope buf⟩) ∧
    (g.hasV d (2 * k) → g.takes (atomSources ty n ++ atomSources ty (n + k)) →
      s.asks (.atomc gd ty ⟨ord, buf, aoff, a⟩ d) e
        ⟨.load, .cas ty, .atomic, size, g.bufOf buf, pos, size, lanesOf e, fun l => leBytes size (word n l),
          fun l => leBytes size (word (n + k) l), .old n ty, true, true, order, selScope buf⟩)

/-- PFX, CFL, CINV, FENCE and FENCEE (R147 to R150): a prefetch whose pages are all in the TLB changes no register, no
group and no counter, and on a window nothing at all; cache maintenance on a window does nothing, and otherwise leaves one store-class operation outstanding
with the lanes whose pages are mapped (the rights that the three ask of a page are the model's choice, log 96); a fence records the accesses that its group has outstanding. PLACE, PIN, UNPIN and MCRD
(R375 to R378): with every lane through its checks, each leaves one operation outstanding for the pages that it names;
on a window PLACE, PIN and UNPIN do nothing. -/
def Obligations.HintsFencesPlacement : Prop :=
  (∀ (s : State) (gd : Guard), s.runs gd → s.single →
    let g := s.focus
    let e := g.eff gd
    (∀ (f : MemFmt) (sc : Scope) (b : BitVec 7) (off : BitVec 14) (a : Reg), g.hasBuf (.reg b sc) → g.source a .int →
      let iw := g.s b.toNat
      let pos (l : Nat) : Int := (g.vOf a l).toNat + off.toInt * memBytes f
      (∀ ps, s.requestRoom = true → s.prefetchLanes g iw pos (memBytes f) (lanesOf e) = .ok ps →
        ∃ t, exec (.pfx gd f b off a) s = .next t ∧ t.focus = g.advance ∧ t.others = s.others ∧ t.wgs = s.wgs ∧
          t.ctrs = s.ctrs) ∧
      (isWindow iw = true → exec (.pfx gd f b off a) s = s.gives g ∧ exec (.cfl gd f sc b off a) s = s.gives g ∧
        exec (.cinv gd f sc b off a) s = s.gives g) ∧
      (isWindow iw = false → ∀ chk, s.maintLanes g iw pos (memBytes f) (lanesOf e) = .ok chk → s.requestRoom = true →
        g.fences = [] →
        let t := { s with walks := s.walks.filter fun w =>
          !(w.hedge == g.hedge && w.core == s.coreOf g && w.answer.isSome) }
        let o (inv : Bool) : Op := { s.newOp .store (.maint inv) e with
          scope := sidedScope sc
          accs := chk.map fun p => ⟨p.1, p.2, [], [], s.bufVa g.hedge iw.toNat (pos p.1), pos p.1⟩, buf := iw.toNat % 4096 }
        exec (.cfl gd f sc b off a) s = t.gives (g.leaving (o false)) ∧
        exec (.cinv gd f sc b off a) s = t.gives (g.leaving (o true)))) ∧
    (∀ sc : Scope,
      let fence (k : FenceKind) (before : List Nat) : Host.Outcome State Fault Refusal :=
        s.gives { g with fences := g.fences ++ [⟨false, k, sc, before⟩] }
      let mine := g.pend.filter Op.isAccess
      let waits := g.cwaits.map (·.id)
      exec (.fence gd .ar sc) s = fence .ar (mine.map (·.id) ++ waits) ∧
      exec (.fence gd .rel sc) s = fence .rel (mine.map (·.id) ++ waits) ∧
      exec (.fence gd .acq sc) s = fence .acq ((mine.filter (·.reads)).map (·.id) ++ waits)) ∧
    exec (.fencee gd) s =
      s.gives { g with fences := g.fences ++ [⟨true, .ar, .sys, ((g.pend.filter Op.isAccess).filter (·.writes)).map (·.id)⟩] }) ∧
  (∀ (s : State) (gd : Guard), s.runs gd → s.single →
    let g := s.focus
    let e := g.eff gd
    (∀ (buf : BufSel) (off : BitVec 14) (a : Reg), g.hasBuf buf → g.source a .int →
      let iw := g.bufOf buf
      let pos (l : Nat) : Int := (g.vOf a l).toNat + off.toInt
      (isWindow iw = true → (∀ t, exec (.place gd t buf off a) s = s.gives g) ∧ exec (.pin gd buf off a) s = s.gives g ∧
        exec (.unpin gd buf off a) s = s.gives g) ∧
      (isWindow iw = false → ∀ chk (pa : Nat → Nat), s.checkLanes g .either none 1 iw pos 1 (lanesOf e) [] [] = .ok chk →
        (∀ l, e.getLsbD l = true → s.pageOf g iw (pos l) = .ok (pa l)) → s.requestRoom = true →
        let frames := (lanesOf e).map fun l => Place.home (frameOf (pa l) * 65536)
        let o (k : OpKind) : Op := { s.newOp .store k e with
          accs := [⟨0, frames.eraseDups, [], [], 0, 0⟩], buf := iw.toNat % 4096
          words := (lanesOf e).map fun l => BitVec.ofInt 64 (pos l) }
        (∀ t, s.leaves (.place gd t buf off a) (o (.place t))) ∧ s.leaves (.pin gd buf off a) (o .pin) ∧
        s.leaves (.unpin gd buf off a) (o .unpin))) ∧
    (∀ d : Reg, g.hasS d → s.requestRoom = true →
      s.leaves (.mcrdQuota gd d) { s.newOp .load .quota e with dst := .s64 (g.regIndex d), reads := true } ∧
      ∀ (a b : Reg) (ps : List Place) (pa : Nat), g.hasS a → g.hasS b →
        s.checkLane g .either 1 (g.sOf a) (lowest e) (g.sOf b).toInt 1 = .ok ps →
        s.pageOf g (g.sOf a) (g.sOf b).toInt = .ok pa →
        s.leaves (.mcrdPage gd d a b) { s.newOp .load (.mcrd pa) e with
          dst := .s64 (g.regIndex d), reads := true, buf := (g.sOf a).toNat % 4096 }))

/-- Buffer entries (R124): an entry is invalid exactly in the listed cases, and an access through an index whose entry
is invalid faults BUFIDX. The check of a lane through a valid entry without FABRED (R125, R126, R398): the first that
applies of BUFBOUND (the alignment with it), BUFRIGHT for another's buffer, a right that it lacks or an attribute that
refuses, SPECVIOL, and what translation raises at the lowest byte that it refuses; otherwise the places of the bytes.
The windows of a group's own scratch, tiles and class 1 counters (R127, R130, R131): BUFBOUND outside the length or
the alignment, then BUFRIGHT for what the table does not allow, otherwise the bytes of the window; never a
translation. -/
def Obligations.AccessChecks : Prop :=
  ((∀ (feat : BitVec 256) (w0 w1 w2 w3 : Word64),
    let pub := w2.getLsbD 32 = true
    let spec := w2.getLsbD 33 = true
    let counter := w2.getLsbD 34 = true
    let fabred := w2.getLsbD 35 = true
    let bankmv := w2.getLsbD 36 = true
    decodeEntry feat [w0, w1, w2, w3] = none ↔
      w2.getLsbD 0 = false ∨
      (∃ i, i < 64 ∧ w2.getLsbD i = true ∧ i ∈ [7, 14, 15, 19, 20, 21, 22, 23, 28, 29, 30, 31] ++
        (List.range 27).map (· + 37)) ∨ 2 ^ 16 ≤ w3.toNat ∨
      w0.toNat % 128 ≠ 0 ∨ (∃ i, 57 ≤ i ∧ i < 64 ∧ w0.getLsbD i ≠ w0.getLsbD 56) ∨
      2 ^ 56 < w0.toNat % 2 ^ 56 + w1.toNat ∨
      (counter ∧ (pub ∨ spec ∨ fabred ∨ bankmv)) ∨ (counter ∧ (w0.toNat % 8 ≠ 0 ∨ w1.toNat % 8 ≠ 0)) ∨
      (pub ∧ fabred) ∨ (pub ∧ bankmv) ∨ (fabred ∧ bankmv) ∨ (w3 ≠ 0 ∧ ¬fabred ∧ ¬bankmv) ∨
      (fabred ∧ feat.getLsbD 6 = false) ∨ (bankmv ∧ feat.getLsbD 5 = false) ∨ (pub ∧ feat.getLsbD 11 = false) ∨
      (w2.getLsbD 18 = true ∧ feat.getLsbD 9 = false)) ∧
  (∀ (s : State) (g : Group) (a : Access) (align : Nat) (iw : Word64) (lane : Nat) (off : Int) (size : Nat) (h : Hedge),
    s.hedge g.hedge = some h → iw.toNat < 0xFF0 → h.entry iw.toNat = none →
    s.checkLane g a align iw lane off size = .error (.fault
      { code := .bufidx, lane := some lane, acc := a.need.acc, va := 0, off := off, buf := iw.toNat }))) ∧
  (∀ (s : State) (g : Group) (h : Hedge) (e : BufEntry) (a : Access) (align : Nat) (iw : Word64) (lane : Nat) (off : Int)
    (size : Nat), s.hedge g.hedge = some h → iw.toNat < 0xFF0 → h.entry iw.toNat = some e → e.fabred = false →
    let check := s.checkLane g a align iw lane off size
    let va := ((e.vbase + off) % 2 ^ 64).toNat
    let bad (c : FaultCode) : Stop := .fault
      { code := c, lane := some lane, acc := a.need.acc, va := va, off := off, buf := iw.toNat }
    let bounds : Prop := 0 ≤ off ∧ off + size ≤ e.len ∧ off % align = 0
    let right : Prop := e.owner = g.hedge ∧
      match a with
      | .load | .tileLoad => e.r = true ∧ e.bankmv = false
      | .store | .tileStore => e.w = true ∧ e.counter = false ∧ e.pub = false ∧ e.fabred = false
      | .atomic => e.atom = true ∧ e.counter = false ∧ e.pub = false ∧ e.fabred = false ∧ e.bankmv = false
      | .red _ _ => e.atom = true ∧ e.counter = false ∧ e.pub = false ∧ e.bankmv = false
      | .either => e.r = true ∨ e.w = true
      | .prefetch => True
      | .copySrc => e.r = true ∧ e.counter = false ∧ e.bankmv = false
      | .copyDst => e.w = true ∧ e.counter = false ∧ e.fabred = false
      | .bank => e.bankmv = true ∧ e.r = true
    let mayWrite : Prop := ∀ sp, s.specOf g = some sp → a.writes = true → iw.toNat ∈ sp.wset
    (¬bounds → check = .error (bad .bufbound)) ∧
    (bounds → ¬right → check = .error (bad .bufright)) ∧
    (bounds → right → ¬mayWrite → check = .error (bad .specviol)) ∧
    (bounds → right → mayWrite → ∀ (k : Nat) (st : Stop), k < size →
      s.translate (s.coreOf g) g.hedge (va + k) a.need = .error st →
      (∀ j, j < k → ∃ p, s.translate (s.coreOf g) g.hedge (va + j) a.need = .ok p) →
      check = .error (atLane lane va off iw.toNat st)) ∧
    (bounds → right → mayWrite → (∀ i, i < size → h.otherSpec g.lseq (va + i) = false) →
      ∀ (pa : Nat → Nat) (nc : Nat → Bool),
      (∀ j, j < size → s.translate (s.coreOf g) g.hedge (va + j) a.need = .ok (pa j, nc j)) →
      check = .ok ((List.range size).map fun j =>
        if a = .prefetch then prefetchPlace e (nc j) (pa j)
        else h.memPlace (s.specOf g) g.lseq e (va + j) (nc j) (pa j)))) ∧
  (∀ (s : State) (g : Group) (a : Access) (align lane : Nat) (off : Int) (size k : Nat) (w : Workgroup) (h : Hedge),
    k < 4 → k ≠ 2 → s.wgOf g.wg = some w → s.hedge g.hedge = some h →
    let check := s.checkLane g a align (BitVec.ofNat 64 (0xFFC + k)) lane off size
    let bad (c : FaultCode) : Stop := .fault
      { code := c, lane := some lane, acc := a.need.acc, va := 0, off := off, buf := 0xFFC + k }
    let len : Nat := if k = 3 then w.size else if k = 1 then 4096 * g.tiles.length else 256 * h.slots.length
    let place (i : Nat) : Place :=
      if k = 3 then .scratch g.wg i else if k = 1 then .tile i else .ctr (.c1 g.hedge w.lcore (i / 8)) (i % 8)
    let bounds : Prop := 0 ≤ off ∧ off + size ≤ len ∧ off % align = 0
    let allowed : Prop := a = .load ∨ (a = .store ∧ k ≠ 0) ∨ (k = 3 ∧ a ≠ .either ∧ a ≠ .prefetch ∧ a ≠ .bank)
    (¬bounds → check = .error (bad .bufbound)) ∧ (bounds → ¬allowed → check = .error (bad .bufright)) ∧
      (bounds → allowed → check = .ok ((List.range size).map fun i => place (off.toNat + i))))

/-- LOAD_LANDS for the last lane of a load (R137, R140, R306, R320): what the bytes of its places hold, at the home where
no L1 is dirty, or in scratch, lands in the registers of the operation, which is no longer outstanding; a relaxed load keeps
the release tags that it meets, of memory and of counters, for a later fence (the model's reading, log 71), and no other part of
the group changes. A weak load whose line the core
holds returns the core's bytes. What lands in V[n] for each memory format, and in S[n] for each scalar format (R86, R136),
in the lanes of the mask. -/
def Obligations.LoadLands : Prop :=
  (∀ (s : State) (g p l va : Nat) (off : Int) (gr : Group) (o : Op) (ps : List Place), s.group g = some gr →
    gr.pend.find? (fun o => o.id == p) = some o → o.kind = .load → o.dst ≠ .none → (∀ t f, o.dst ≠ .tile t f) →
    o.accs = [⟨l, ps, [], [], va, off⟩] → o.writes = false → o.rel = false → gr.role = .single →
    s.mayPerform gr o = true → s.opError gr o = none →
    let lands (bytes : List Byte) : Prop := ∃ t x, exec (.loadLands g p) s = .next t ∧ t.group g = some x ∧
      x = { (gr.land o.emask o.dst (o.got ++ [(l, bytes)])).dropOp o.id with
        metTags := x.metTags, metCtrs := x.metCtrs } ∧
      t.wgs = s.wgs ∧ t.mem = s.mem
    (∀ byte : Place → Byte,
      (∀ q ∈ ps, (∃ pa, q = .home pa ∧ byte q = s.homeRead pa) ∨ (∃ w k, q = .scratch w k ∧ byte q = s.scratchRead w k)) →
      s.l1Clean → lands (ps.map byte)) ∧
    (∀ (line : Line) (k : Nat → Nat), o.strong = false → o.acq = false → gr.seat.isSome = true →
      (s.core (s.coreOf gr)).line ((gr.seat.map (·.quarter)).getD 0) gr.hedge line.num = some line →
      (∀ i, i < ps.length → ps[i]? = some (.mem (line.num * 128 + k i)) ∧ k i < 128) →
      lands ((List.range ps.length).map fun i => line.data.getD (k i) 0))) ∧
  (∀ (g : Group) (e : Mask) (n : Nat) (vals : List (Nat × List Byte)),
    let x (l : Nat) : Nat := leNat (laneBytes vals l)
    let gives (f : MemFmt) (t : Tag) (v : Nat → Word32) : Prop := g.land e (.v n f) vals = g.setV e n t v
    let bits (l : Nat) : Word32 := BitVec.ofNat 32 (x l)
    gives .raw .raw bits ∧ gives .i32 .i32 bits ∧ gives .n32 .n32 bits ∧ gives .f32 .f32 bits ∧ gives .h2 .h2 bits ∧
    gives .b2 .b2 bits ∧ gives .e4x4 .e4x4 bits ∧ gives .e5x4 .e5x4 bits ∧ gives .e2x8 .e2x8 bits ∧
    gives .i8x4 .i8x4 bits ∧ gives .i4x8 .i4x8 bits ∧ gives .n8 .n32 bits ∧ gives .n16 .n32 bits ∧
    gives .i8 .i32 (fun l => (BitVec.ofNat 8 (x l)).signExtend 32) ∧
    gives .i16 .i32 (fun l => (BitVec.ofNat 16 (x l)).signExtend 32) ∧
    g.land e (.v n .f64) vals = g.setPair e n .dLo .dHi (fun l => BitVec.ofNat 64 (x l)) ∧
    (∀ f, f = .n8 ∨ f = .n16 ∨ f = .n32 ∨ f = .n64 → g.land e (.s n f) vals = g.setS n (BitVec.ofNat 64 (x 0))) ∧
    g.land e (.s n .i8) vals = g.setS n ((BitVec.ofNat 8 (x 0)).signExtend 64) ∧
    g.land e (.s n .i16) vals = g.setS n ((BitVec.ofNat 16 (x 0)).signExtend 64) ∧
    g.land e (.s n .i32) vals = g.setS n ((BitVec.ofNat 32 (x 0)).signExtend 64))

/-- STORE_PERFORMED for the last lane of a store (R137, R140, R141): the bytes of its data stand at its places, every
other byte of memory and scratch is as before, and the operation is no longer outstanding; nothing else of the group
changes. For a store to memory no L1 is dirty, so that no write-back takes place beside it (R313). Bytes stored to the
scratch of a saved workgroup enter its image in memory too (R251). The places are those that the lane's check gave at
issue. -/
def Obligations.StorePerforms : Prop :=
  ∀ (s : State) (g p l a va : Nat) (off : Int) (gr : Group) (o : Op) (ps : List Place) (data : List Byte),
    s.group g = some gr → gr.pend.find? (fun o => o.id == p) = some o → o.kind = .store → o.dst = .none →
    o.accs = [⟨l, ps, data, [], va, off⟩] → o.reads = false → o.writes = true → o.rel = false → o.acq = false →
    gr.role = .single → s.mayPerform gr o = true → s.memWf →
    let at_ (k : Nat) (old : Byte) : Byte := if a ≤ k ∧ k < a + data.length then data.getD (k - a) 0 else old
    (ps = (List.range data.length).map (fun i => Place.home (a + i)) → s.l1Clean →
      (∀ i, i < data.length → (s.frame (frameOf (a + i))).mig = none ∧ s.isMismatched (a + i) = false) →
      s.logFits (ps.filterMap Place.logged) = true →
      ∃ t, exec (.storePerformed g p) s = .next t ∧ t.group g = some (gr.dropOp o.id) ∧ t.wgs = s.wgs ∧
        ∀ k, t.mem.read k = at_ k (s.mem.read k)) ∧
    (∀ w x, ps = (List.range data.length).map (fun i => Place.scratch w (a + i)) → s.wgOf w = some x →
      x.scratch.wf = true → ∃ t, exec (.storePerformed g p) s = .next t ∧ t.group g = some (gr.dropOp o.id) ∧
        (x.core.isSome = true ∨ x.image = none → t.mem = s.mem) ∧
        ∀ v k, t.scratchRead v k = if v = w then at_ k (s.scratchRead v k) else s.scratchRead v k)

/-- LOAD_LANDS and STORE_PERFORMED for the last lane of an atomic in scratch (R143 to R146): the memory value m becomes
op(m, v), or the new value where it equals the comparand, and ATOM and ATOMC take m to their registers. -/
def Obligations.AtomicPerforms : Prop :=
  ∀ (s : State) (g p l w a va : Nat) (off : Int) (gr : Group) (o : Op) (ty : AtomTy) (x : Workgroup) (v v2 : Nat),
    s.group g = some gr → gr.pend.find? (fun o => o.id == p) = some o → o.rel = false → o.acq = false →
    gr.role = .single → s.mayPerform gr o = true → s.opError gr o = none → s.wgOf w = some x →
    x.scratch.wf = true → o.writes = true → let n := atomBytes ty
    v < 2 ^ (8 * n) → v2 < 2 ^ (8 * n) →
    o.accs = [⟨l, (List.range n).map fun i => Place.scratch w (a + i), leBytes n v,
      if o.kind = .cas ty then leBytes n v2 else [], va, off⟩] →
    let m := x.scratch.readLE a n
    let signed (y : Nat) : Int := (BitVec.ofNat (8 * n) y).toInt
    let fmt : FpFmt := if ty = .f64 then .f64 else .f32
    let holds (y : Nat) (t : State) : Prop :=
      (∀ u k, t.scratchRead u k = if u = w ∧ a ≤ k ∧ k < a + n then (leBytes n y).getD (k - a) 0 else s.scratchRead u k) ∧
        (x.core.isSome = true ∨ x.image = none → t.mem = s.mem)
    let after (e : Instr) (y : Nat) : Prop := ∃ t, exec e s = .next t ∧ holds y t ∧
      t.group g = some ((if o.dst = .none then gr else gr.land o.emask o.dst (o.got ++ [(l, leBytes n m)])).dropOp o.id)
    let does (y : Nat) : Prop :=
      (o.cls = .load → (∃ k, o.dst = .old k ty) → after (.loadLands g p) y) ∧
        (o.cls ≠ .load → o.dst = .none → after (.storePerformed g p) y)
    (∀ op, o.kind = .atom op ty →
      (op = .swap → does v) ∧ (op = .and → does (m &&& v)) ∧ (op = .or → does (m ||| v)) ∧
      (op = .xor → does (m ^^^ v)) ∧
      (ty = .i32 ∨ ty = .i64 ∨ ty = .n32 ∨ ty = .n64 → op = .add → does ((m + v) % 2 ^ (8 * n))) ∧
      (ty = .i32 ∨ ty = .i64 → (op = .min → does (if signed v < signed m then v else m)) ∧
        (op = .max → does (if signed m < signed v then v else m))) ∧
      (ty = .n32 ∨ ty = .n64 → (op = .min → does (min m v)) ∧ (op = .max → does (max m v))) ∧
      (ty = .f32 ∨ ty = .f64 →
        (op = .add → does (fmt.add .rn (fmt.value m) (fmt.value v)).code) ∧
        (op = .min → does (fmt.minMax false m v).code) ∧ (op = .max → does (fmt.minMax true m v).code))) ∧
    (o.kind = .cas ty → o.cls = .load → (∃ k, o.dst = .old k ty) →
      after (.loadLands g p) (if m = v then v2 else m))

/-! ## Row 10 -/

/-- Handles (R198 to R203): the fields of a handle, what passes item 1 of R202 for each class, the counter that a handle
of class 0, 1 or 2 then names, CNTHANDLE for every other shape and for an amount of 2^63 or more, and for class 3 the
buffer checks in order. That the clusters are those of the creation rectangle is the model's reading (log 85), and so is
what the class 3 fault records show (log 28). -/
def Obligations.CounterHandles : Prop :=
  ∀ (s : State) (h : Hedge) (u : HandleUse) (x : Word64), s.hedge s.focus.hedge = some h →
    let cls := x.toNat / 2 ^ 28 % 16
    let i := x.toNat % 2 ^ 28
    let high := x.toNat / 2 ^ 32
    let peer := x.toNat / 2 ^ 48
    let word := (high % 2 ^ 16) * 2 ^ 16 + i % 2 ^ 16
    let names (r : Res (List CtrRef)) : Prop :=
      ∀ amount : Word64, amount.toNat < 2 ^ 63 → ∀ a, a = none ∨ a = some amount → s.handles [(u, x)] a false = r
    let ok0 : Prop := high = 0 ∧ i < 8 ∧ u.link = false
    let ok1 : Prop := high = 0 ∧ i / 512 < h.cores ∧ i % 512 < 32 * h.slots.length
    let ok2 : Prop := high = 0 ∧ i < 2 ^ 14 ∧ i / 2 ^ 13 < (diesOf h.p.rect.dies).length ∧ i % 2 ^ 13 < h.p.clusterCounters
    let ok3 : Prop := peer = 0 ∨ (u.peer = true ∧ h.features.getLsbD 12 = true ∧ h.routeAllows peer u.watch = true)
    let bad (c : FaultCode) : Stop := .fault
      { code := c, acc := if u.cadd then 1 else 0, va := s.bufVa s.focus.hedge (i / 2 ^ 16) (8 * word : Nat),
        off := (8 * word : Nat), buf := i / 2 ^ 16 }
    let owner : Nat := match s.focus.role with
      | .trailing p => p
      | .single | .leading _ => s.focus.id
    (cls = 0 → ok0 → names (.ok [.here (.c0 owner i)])) ∧
    (cls = 1 → ok1 → names (.ok [.here (.c1 s.focus.hedge (i / 512) (i % 512))])) ∧
    (cls = 2 → ok2 → names (.ok [.here (.c2 s.focus.hedge (i / 2 ^ 13) (i % 2 ^ 13))])) ∧
    ((cls = 0 ∧ ¬ok0) ∨ (cls = 1 ∧ ¬ok1) ∨ (cls = 2 ∧ ¬ok2) ∨ (cls = 3 ∧ ¬ok3) ∨ 4 ≤ cls →
      ∀ a never, s.handles [(u, x)] a never = .error (.plain .cnthandle)) ∧
    ((cls = 0 ∧ ok0) ∨ (cls = 1 ∧ ok1) ∨ (cls = 2 ∧ ok2) ∨ (cls = 3 ∧ ok3) →
      ∀ (amount : Word64) never, 2 ^ 63 ≤ amount.toNat →
        s.handles [(u, x)] (some amount) never = .error (.plain .cnthandle)) ∧
    (cls = 3 → peer = 0 → ∀ never,
      (h.entry (i / 2 ^ 16) = none → s.handles [(u, x)] none never = .error (bad .bufidx)) ∧
      ∀ e, h.entry (i / 2 ^ 16) = some e →
        (e.len < 8 * word + 8 → s.handles [(u, x)] none never = .error (bad .bufbound)) ∧
        (8 * word + 8 ≤ e.len →
          (e.owner ≠ s.focus.hedge ∨ e.counter = false ∨ (if u.cadd then e.cadd else e.r) = false) →
          s.handles [(u, x)] none never = .error (bad .bufright)))

/-- The counter instructions that leave an operation outstanding (R205 to R215): where their handles pass, each leaves
the operation on its counter, of its class, with its amount, threshold or value, in its order at its scope, which is SYS on a
peer's counter (R436), with the operand words that a checked pair compares; ORD of CWATCH
orders the add that it fires, and the CWATCH itself orders nothing (R206, R215). -/
def Obligations.CounterInstructions : Prop :=
  ∀ (s : State) (gd : Guard) (a : Reg), s.runs gd → s.single → s.focus.hasS a →
    let g := s.focus
    let e := g.eff gd
    let x := g.sOf a
    let at_ (k : CtrRef) (sc : CtrScope) : CtrScope := match k with
      | .peer _ => .sys
      | .here _ => sc
    (∀ k : CtrRef, s.handles [(useAdd, x)] none false = .ok [k] → ∀ ord sc (imm : Word32),
      s.asksCtr (.caddImm gd ord sc a imm) e .store k (.add imm.toNat) .none ord (at_ k (sidedScope sc)) true
        [x, imm.setWidth 64]) ∧
    (∀ (m : CtrMod) (b : Reg), g.hasS b → let y := g.sOf b
      (∀ k, s.handles [(useAdd, x)] (some y) false = .ok [k] →
        s.asksCtr (.cadd gd m a b) e .store k (.add y.toNat) .none m.ord (at_ k m.scope) true [x, y] ∧
        ∀ d, g.hasS d →
          s.asksCtr (.cnext gd m d a b) e .load k (.next y.toNat) (.s64 (g.regIndex d)) m.ord (at_ k m.scope) true [x, y]) ∧
      (∀ k, s.handles [(useRead, x)] none false = .ok [k] → ∀ p, g.awaitsP p = false →
        s.asksCtr (.ctest gd m p a b) e .load k (.test y) (.pred p) m.ord (at_ k m.scope) false [x, y]) ∧
      (∀ k, s.handles [(useAdd, x)] none true = .ok [k] →
        s.asksCtr (.cinit gd m a b) e .store k (.init y) .none m.ord (at_ k m.scope) true [x, y]) ∧
      (∀ k p (logs : BitVec 5), s.handles [(useLink, x), (useLink, y)] none true = .ok [k, .here p] →
        handleClass x = 1 ∨ handleClass x = 2 → handleClass x < handleClass y →
        s.asksCtr (.clink gd logs a b) e .store k (.link p logs.toNat) .none .rlx (at_ k .grp) true [x, y]) ∧
      (∀ k target c d, g.hasS c → g.hasS d →
        s.handles [(useSource, x), (useAdd, g.sOf c)] (some (g.sOf d)) true = .ok [k, target] →
        (handlePeer x = 0 → s.watchesOf g.hedge (s.lcoreOf g) < s.watchQuota g.hedge) →
        s.asksCtr (.cwatch gd m a b c d) e .store k (.watch y target (g.sOf d).toNat
          (if handlePeer x = 0 then some (s.lcoreOf g) else none) (decide (m.ord = .ar)) (x, g.sOf c)) .none .rlx
          (at_ k m.scope) true [x, y, g.sOf c, g.sOf d])) ∧
    (∀ m k d, g.hasS d → s.handles [(useRead, x)] none false = .ok [k] →
      s.asksCtr (.crd gd m d a) e .load k .read (.s64 (g.regIndex d)) m.ord (at_ k m.scope) false [x]) ∧
    (∀ k, s.handles [(useLink, x)] none true = .ok [k] → handleClass x = 1 ∨ handleClass x = 2 →
      s.asksCtr (.clinkU gd a) e .store k .unlink .none .rlx (at_ k .grp) true [x])

/-- CWAIT (R204, R211, R218): where the counter's value satisfies the threshold the wait is answered in the same step;
otherwise a waiter is armed at the home, or the wait is polled where the hedge's share is full and no relay has room. Of a
class 3 counter the home is read, which changes nothing of the group. What counts towards a share (log 72), and which relay
takes a waiter (log 32), are the model's choices. -/
def Obligations.CounterWaits : Prop :=
  ∀ (s t : State) (gd : Guard) (m : CtrMod) (a b : Reg) (k : CtrKey), s.runs gd → s.single → s.focus.hasS a →
    s.focus.hasS b → s.handles [(useRead, s.focus.sOf a)] none false = .ok [.here k] → s.focus.ctrPending k = false →
    s.ctrBad k = none → s.passFences false false = .ok t → (∀ c ∈ t.focus.cwaits, c.id ≠ t.focus.nextOp) →
    (∀ x ∈ t.others, x.id ≠ t.focus.id) →
    let g := t.focus
    let th := s.focus.sOf b
    let v := t.ctrView k g.hedge g.lseq
    let w : Waiter := ⟨.cwait g.id g.nextOp, g.hedge, th⟩
    let with_ (c : CWaitAt) : Group := { g with
      nextOp := g.nextOp + 1
      cwaits := g.cwaits ++ [⟨g.nextOp, k, th, ctrAcq m.ord, m.scope, c, g.waitWords (s.focus.eff gd) (s.focus.sOf a) th⟩] }
    let on : Prop := ∀ pa, k ≠ .c3 pa
    ((v - th).toNat < 2 ^ 63 →
      (on → exec (.cwait gd m a b) s = t.gives (with_ .answered)) ∧
      (t.l1Clean → ∃ u, exec (.cwait gd m a b) s = .next u ∧ u.focus = (with_ .answered).advance)) ∧
    (2 ^ 63 ≤ (v - th).toNat → t.relayFor (some (t.coreOf g)) k w = none →
      (t.shareRoom g.hedge (t.homeId k) = false → exec (.cwait gd m a b) s = t.gives (with_ .polled)) ∧
      (t.shareRoom g.hedge (t.homeId k) = true →
        (on → exec (.cwait gd m a b) s =
          (t.mapCtr k fun c => { c with waiters := c.waiters ++ [w] }).gives (with_ .armed)) ∧
        (t.l1Clean → ∃ u, exec (.cwait gd m a b) s = .next u ∧ u.focus = (with_ .armed).advance ∧
          (u.ctr k).waiters = (t.ctr k).waiters ++ [w])))

/-- add(k, a) of R209 at a counter of class 0, 1 or 2: the value modulo 2^64; a crossing of floor(new / 2^e) −
floor(old / 2^e) sent to the parent when that is above 0; the waiters that the new value satisfies leave and no
others, a released CWAIT is answered, and a released watch sends its add. The performing of counter operations at
their homes (R209 to R217, R296, R298), for a group that is no part of a speculative launch: a release first makes its
accesses visible; HOME_ADD, CROSSING_ADD and DOWN_FLIP make their add or flip, a child's crossings in order; CNEXT, CTEST
and CRD land, and meet the counter's release tag before an add leaves its own; CINIT, CLINK and CLINK.U take effect, CINIT
only on a counter where nothing waits. -/
def Obligations.CounterOperations : Prop :=
  (∀ (s : State) (k : CtrKey) (a : Nat), (∀ pa, k ≠ .c3 pa) → (s.ctr k).pending = [] → (s.ctr k).regs.length ≤ 64 →
    let t := s.addCtr k a
    let old := (s.ctrValue k).toNat
    let new : Word64 := BitVec.ofNat 64 (old + a)
    let met (w : Waiter) : Bool := decide ((new - w.t).toNat < 2 ^ 63)
    t.ctrValue k = new ∧ (t.ctr k).waiters = (s.ctr k).waiters.filter (fun w => !met w) ∧
    (t.ctr k).link = (s.ctr k).link ∧
    ((s.ctr k).link = none → t.crossings = s.crossings) ∧
    (∀ p e, (s.ctr k).link = some (p, e) → let c := (old + a) / 2 ^ e - old / 2 ^ e
      t.crossings = s.crossings ++ if c = 0 then [] else [⟨k, p, c⟩]) ∧
    (∀ g i gr c, Waiter.mk (.cwait g i) gr.hedge c ∈ (s.ctr k).waiters → met ⟨.cwait g i, gr.hedge, c⟩ = true →
      s.group g = some gr → ∃ x, t.group g = some x ∧ ∀ y ∈ x.cwaits, y.id = i → y.at_ = .answered) ∧
    t.adds = s.adds ++ ((s.ctr k).waiters.filter met).filterMap fun w => match w.who with
      | .watch h target n _ order hs => some ⟨target, h, none, n, some hs, order.rel, false⟩
      | _ => none) ∧
  ((∀ (s : State) (g p : Nat) (gr : Group) (o : Op) (k : CtrKey), s.group g = some gr → gr.role = .single →
    gr.pend.find? (fun o => o.id == p) = some o → s.mayPerform gr o = true → s.specOf gr = none → s.ctrRoom k = true →
    let drops (t : State) : State := t.mapGroup g fun x => x.dropOp o.id
    let u := if o.rel = true then s.release gr o.scope else s
    let v := u.ctrView k gr.hedge gr.lseq
    let reads (acq : Bool) : State := (u.countCtr k true false).ctrAcquire gr acq o.scope k
    let met (th : Word64) : Bool := decide ((v - th).toNat < 2 ^ 63)
    let word (w : Word64) : List (Nat × List Byte) := [(0, leBytes 8 w.toNat)]
    (∀ n, o.kind = .ctr (.here k) (.add n) → o.dst = .none →
      exec (.homeAdd (.group g p)) s = .next (drops ((u.ctrRelease gr o k).addCtr k n))) ∧
    (∀ n d, o.kind = .ctr (.here k) (.next n) → o.dst = .s64 d →
      (o.got = [] → exec (.homeAdd (.group g p)) s =
        .next ((((u.ctrAcquire gr o.acq o.scope k).ctrRelease gr o k).addCtr k n).mapGroup g fun x =>
          x.setOp { o with got := word v })) ∧
      (o.got ≠ [] → exec (.loadLands g p) s = .next (s.landOp g o o.got))) ∧
    (∀ th q, o.kind = .ctr (.here k) (.test th) → o.dst = .pred q → s.ctrBad k = none →
      exec (.loadLands g p) s = .next ((reads (o.acq && met th)).landOp g o (word (if met th then 1 else 0)))) ∧
    (∀ d, o.kind = .ctr (.here k) .read → o.dst = .s64 d → s.ctrBad k = none →
      exec (.loadLands g p) s = .next ((reads o.acq).landOp g o (word v))) ∧
    (∀ x, o.kind = .ctr (.here k) (.init x) → o.dst = .none →
      let w := u.countCtr k false true
      exec (.storePerformed g p) s = .next (drops (if (w.ctr k).waiters = [] ∧ (w.ctr k).regs = [] ∧ (w.ctr k).pending = []
        then (w.ctrRelease gr o k).setCtr k x else w))) ∧
    (∀ q e, o.kind = .ctr (.here k) (.link q e) → o.dst = .none → (u.ctr k).proxies = [] →
      exec (.storePerformed g p) s = .next (drops
        ((u.mapCtr k fun c => { c with proxies := [] }).mapCtr k fun c => { c with link := some (q, e) }))) ∧
    (o.kind = .ctr (.here k) .unlink → o.dst = .none → (u.ctr k).proxies = [] →
      exec (.storePerformed g p) s = .next (drops
        ((u.mapCtr k fun c => { c with proxies := [] }).mapCtr k fun c => { c with link := none }))) ∧
    (∀ th target n charge ar hs, o.kind = .ctr (.here k) (.watch th target n charge ar hs) → o.dst = .none →
      let r := u.countCtr k true false
      let w : Waiter := ⟨.watch gr.hedge target n charge (r.watchOrder gr o.scope ar) hs, gr.hedge, th⟩
      exec (.storePerformed g p) s = .next (drops (r.arm (some (r.coreOf gr)) k w)))) ∧
  (∀ (s : State) (i : Nat) (c : Crossing), s.crossings[i]? = some c → (∀ x ∈ s.crossings.take i, x.child ≠ c.child) →
    s.ctrRoom c.parent = true →
    exec (.crossingAdd i) s = .next ({ s with crossings := s.crossings.eraseIdx i }.addCtr c.parent c.amount)) ∧
  (∀ (s : State) (i : Nat) (f : Flip), s.flips[i]? = some f →
    exec (.downFlip i) s = .next ({ s with flips := s.flips.eraseIdx i }.flip f)) ∧
  (∀ (s : State) (i : Nat) (r : AddReq) (k : CtrKey), s.adds[i]? = some r → r.target = .here k → r.spec = none →
    s.ctrLives r.hedge k = true → s.ctrRoom k = true → (∀ w, r.watch = some w → s.targetLives r.hedge w.2 = true) →
    let t := { s with adds := s.adds.eraseIdx i }
    (r.rel = none → exec (.homeAdd (.queue i)) s = .next (t.addCtr k r.amount)) ∧
    ∀ tag, r.rel = some tag → exec (.homeAdd (.queue i)) s = .next ((t.setTagCtr k tag).addCtr k r.amount)) ∧
  (∀ (s : State) (g i : Nat) (gr : Group) (c : CWaitRef), s.group g = some gr → gr.cwaits.find? (fun c => c.id == i) = some c →
    let leaves (x : Group) : Group := { x with cwaits := x.cwaits.filter fun y => y.id != i }
    (c.at_ = .answered →
      (gr.role = .single →
        exec (.cwaitAnswer g i) s = .next ((s.ctrAcquire gr c.acq c.scope c.key).mapGroup g leaves)) ∧
      ∀ p y, gr.role = .leading p → s.group p = some y →
        exec (.cwaitAnswer g i) s = .next (((s.ctrAcquire gr c.acq c.scope c.key).mapGroup g leaves).mapGroup p leaves)) ∧
    (c.at_ = .polled → (s.ctrView c.key gr.hedge gr.lseq - c.t).toNat < 2 ^ 63 →
      exec (.cwaitPoll g i) s = .next (s.mapGroup g fun x =>
        { x with cwaits := x.cwaits.map fun y => if y.id == i then { y with at_ := .answered } else y }))))

/-! ## Row 11 -/

/-- CPY and RROT (R257, R258, R265): with its descriptor read and its checks passed, each completes and its slice joins
the copy of this execution, which is made where there is none; for an empty E the slice is empty. -/
def Obligations.CollectiveCopies : Prop :=
  ∀ (s : State) (gd : Guard) (sc : Scope) (a b : Reg), s.focus.awaitsP gd.p = false → s.single → s.copyRoom →
    let g := s.focus
    (g.eff gd = 0 → (∀ p, s.supplies (.cpy gd p sc a b) false (s.mkSlice 0 none p sc)) ∧
      ∀ c, s.supplies (.rrot gd sc a b c) true (s.mkSlice 0 none false sc)) ∧
    (g.eff gd ≠ 0 →
      (∀ p q src dst, s.tensorReq a b none = .ok (q, src, dst) → s.checkSlice g false q src dst p = .ok () →
        s.supplies (.cpy gd p sc a b) false (s.mkSlice (g.eff gd) (some q) p sc)) ∧
      ∀ (c : Reg) (w : Workgroup) (l : Launch), g.hasS a → g.hasS b → g.hasS c → s.wgOf g.wg = some w →
        s.launch g.hedge g.lseq = some l →
        let len := (g.sOf a).toNat / 2 ^ 32
        let soff := (g.sOf a).toNat % 2 ^ 32
        let doff := (g.sOf c).toNat
        len % 32 = 0 → soff % 32 = 0 → doff % 32 = 0 → soff + len ≤ w.size → doff + len ≤ w.size → doff < 2 ^ 32 →
        (l.rect.dies = 1 ∨ l.rect.dies = 2) → l.wgcount = 2 ^ l.rect.lw * 2 ^ l.rect.lh * l.p →
        s.handleShape useAdd (g.sOf b) = .ok () → s.handleBuffer useAdd (g.sOf b) = .ok () →
        s.supplies (.rrot gd sc a b c) true (s.mkSlice (g.eff gd)
          (some ⟨0xFFF, 0xFFF, .rows [⟨soff, doff, len⟩], g.sOf b, [g.sOf a, g.sOf c]⟩) false sc))

/-- CPYS, CPYG and PUBL (R263, R264, R268): CPYS and CPYG start a copy of one slice at once, CPYG with one row for each
lane of E, packed in lane order on one side and placed by V[C] times the stride on the other; PUBL leaves the publish of
its range outstanding, and of an empty range does nothing. -/
def Obligations.SingleCopiesAndPublish : Prop :=
  ∀ (s : State) (gd : Guard) (p : Bool) (sc : Scope) (a b c : Reg), s.runs gd → s.single → s.copyRoom →
    let g := s.focus
    let e := g.eff gd
    (∀ q src dst, s.tensorReq a b (some c) = .ok (q, src, dst) → s.checkSlice g true q src dst p = .ok () →
      s.starts (.cpys gd p sc a b c) (s.mkSlice e (some q) p sc)) ∧
    (g.hasS a 4 → g.hasS b → g.source c .int → ∀ scatter : Bool,
      let reg (i : Nat) : Word64 := g.s (g.regIndex a + i)
      let len : Nat := (reg 0).toNat % 2 ^ 32
      let rank (l : Nat) : Nat := ((lanesOf e).filter fun k => k < l).length
      let runs := (lanesOf e).map fun l =>
        let packed : Int := rank l * len
        let placed : Int := (g.vOf c l).toNat * (reg 3).toInt
        if scatter then Run.mk ((reg 1).toInt + packed) ((reg 2).toInt + placed) len
          else Run.mk ((reg 1).toInt + placed) ((reg 2).toInt + packed) len
      let q : SliceReq := ⟨(reg 0).toNat / 2 ^ 52, (reg 0).toNat / 2 ^ 40 % 2 ^ 12, .rows runs, g.sOf b,
        [reg 0, reg 1, reg 2, reg 3]⟩
      (reg 0).toNat / 2 ^ 32 % 2 ^ 8 = 0 → 1 ≤ len → len ≤ 65536 →
      s.checkSlice g false q (runsSpan (runs.map fun r => (r.src, r.len))) (runsSpan (runs.map fun r => (r.dst, r.len))) p =
        .ok () → s.starts (.cpyg gd scatter p sc a b c) (s.mkSlice e (some q) p sc)) ∧
    (g.hasS a → g.hasS b → g.hasS c → ∀ (h : Hedge) (x : BufEntry), s.hedge g.hedge = some h →
      (g.sOf a).toNat < 0xFF0 → h.entry (g.sOf a).toNat = some x → x.pub = true → x.w = true → x.owner = g.hedge →
      let lo := (g.sOf b).toNat
      let len := (g.sOf c).toNat
      (len = 0 → exec (.publ gd sc a b c) s = s.gives g) ∧
      (0 < len → lo + len ≤ x.len → (∀ y, s.specOf g = some y → (g.sOf a).toNat ∈ y.wset) →
        s.leaves (.publ gd sc a b c) { s.newOp .copy (.publ lo len) e with
          writes := true, strong := true, rel := true, scope := sidedScope sc, buf := (g.sOf a).toNat }))

/-- The engine's steps (R257, R261, R262, R265 to R269): a copy starts once every group has supplied its slice; a
source sector of the own scratch is read in one step; pages are published in one step once every chunk has landed,
with the adds that were kept; a copy that cannot be resolved may be abandoned; a publish of a range is performed as a
release. CHUNK_LAND into the own scratch of a resident workgroup, for a sector that one run fills (R259 to R261, R267): the
sector's bytes stand at their offsets and every other byte of scratch and all of memory is as before; with the last sector
of a chunk the chunk has landed and its one add sets out as a release at the slice's SCOPE, but under P, and with any other
no add does. That an add sets out with its chunk's last sector, in the step that lands it, is the model's reading (log 36), and
so is the abandonment of a rotation that does not fit (log 37). -/
def Obligations.EngineSteps : Prop :=
  (∀ (s : State) (i : Nat) (c : Copy) (h : Hedge), s.copies.find? (fun x => x.id == i) = some c → s.hedge c.hedge = some h →
    c.abandoned = false →
    (∀ w, c.wg.bind s.wgOf = some w → c.rot = false → c.started = false → s.allSupplied c w = true →
      (∀ y ∈ c.slices, s.sliceHeld y = false) →
      exec (.copyStart i) s = .next (((s.mapCopy i fun y => { y with started := true }).mapWg w.id fun y =>
        { y with copies := (y.copies + 1) % 2 ^ 32 }).settleCopy i)) ∧
    (∀ l, s.launch c.hedge c.lseq = some l → c.rot = true → c.started = false →
      let ws := s.wgs.filter fun w => w.hedge == c.hedge && w.lseq == c.lseq
      ws.length = l.wgcount → (∀ w ∈ ws, s.allSupplied c w = true) → (∀ y ∈ c.slices, s.sliceHeld y = false) →
      let t := ws.foldl (fun u w => u.mapWg w.id fun y => { y with rots := (y.rots + 1) % 2 ^ 32 })
        (s.mapCopy i fun y => { y with started := true })
      exec (.rrotStart i) s = .next
        (if t.rotMisfit { c with started := true } then t.abandon i else (t.rotLines i).settleCopy i)) ∧
    (∀ (k : Nat) (y : Slice) (sector : Nat) (w : Nat), c.started = true → c.slices[k]? = some y → y.src = .own w →
      s.sliceHeld y = false → (sector : Int) ∈ y.sectors → find1 y.got (sector : Int) = none →
      s.scratchAbsent w (32 * sector) = false →
      s.torn ((List.range 32).map fun j => Place.scratch w (32 * sector + j)) = false →
      s.consumeFault ((List.range 32).map fun j => Place.scratch w (32 * sector + j)) = none →
      let bytes := (List.range 32).map fun j => s.scratchRead w (32 * sector + j)
      let y' := { y with got := y.got ++ [((sector : Int), bytes)] }
      let t := s.mapCopy i fun z => z.mapSlice k fun _ => y'
      exec (.engineRead i k sector) s = .next ((if y'.readDone then t.mapGroup y.group fun g =>
        { g with pend := g.pend.filter fun o => o.id != y.op } else t).settleCopy i)) ∧
    (c.started = true → c.published = false → (∃ y ∈ c.slices, y.pub = true) → s.copyLanded c = true →
      ∀ (ts : List (Option CtrRef)) (t : State), (c.slices.mapM fun y =>
        if y.pub then (y.handle.bind (s.handleAt h y.group)).map some else some none) = some ts →
      s.publishAll h c.lseq (s.pubPages c h) = some t →
      exec (.copyPublish i) s = .next (((c.slices.zip ts).zipIdx.foldl (fun u p => match p.1.2 with
        | some k => u.sendAdds h c p.2 p.1.1 k p.1.1.landed
        | none => u) (t.mapCopy i fun z => { z with published := true })).settleCopy i)) ∧
    (c.started = true → s.unresolved h c = true → exec (.copyAbandon i) s = .next (s.abandon i)) ∧
    (∀ (g p lo len : Nat) (gr : Group) (o : Op) (u : State), s.group g = some gr → gr.hedge = c.hedge →
      gr.pend.find? (fun o => o.id == p) = some o → o.kind = .publ lo len → s.mayPerform gr o = true →
      s.publWaits gr o lo len = false →
      (s.release gr o.scope).publishAll h gr.lseq ((pagesOf (((h.entry o.buf).map (·.vbase)).getD 0) [((lo : Int), len)]).map
        fun j => ⟨o.buf, j, scopeKind o.scope, s.coreOf gr⟩) = some u →
      exec (.publPerform g p) s = .next (u.mapGroup g fun x => { x with pend := x.pend.filter fun y => y.id != p }))) ∧
  (∀ (s : State) (i k : Nat) (sector : Int) (c : Copy) (y : Slice) (h : Hedge) (w : Nat) (x : Workgroup) (p : Piece)
    (data : List Byte) (ctr : CtrRef), s.copies.find? (fun x => x.id == i) = some c → s.hedge c.hedge = some h →
    (∀ d ∈ s.copies, d.id = i → d = c) → c.started = true → c.abandoned = false → c.rot = false →
    c.slices[k]? = some y → s.sliceHeld y = false → y.dst = .own w → s.wgOf w = some x → x.core.isSome = true →
    x.scratch.wf = true →
    let chunk := sector / 16
    let mine := y.pieces.filter fun q => q.chunk == chunk
    (mine.filter fun q => q.sector == sector) = [p] → 0 ≤ p.dst → sector ∉ y.put → y.pieceBytes p = some data →
    (mine.mapM y.pieceBytes).isSome = true → y.handle.bind (s.handleAt h y.group) = some ctr →
    s.passedAccess (placeLines ((List.range p.len).map fun j => Place.scratch w (p.dst.toNat + j))) = false →
    ∃ t, exec (.chunkLand i k sector) s = .next t ∧ t.mem = s.mem ∧
      (∀ v o, t.scratchRead v o = if v = w ∧ p.dst ≤ o ∧ o < p.dst + p.len then data.getD (o - p.dst.toNat) 0
        else s.scratchRead v o) ∧
      (∀ d ∈ t.copies, d.id = i → ∃ z, d.slices[k]? = some z ∧ sector ∈ z.put) ∧
      ((∃ q ∈ mine, q.sector ≠ sector ∧ q.sector ∉ y.put) → t.adds = s.adds) ∧
      ((∀ q ∈ mine, q.sector = sector ∨ q.sector ∈ y.put) →
        (∀ d ∈ t.copies, d.id = i → ∃ z, d.slices[k]? = some z ∧ chunk ∈ z.landed) ∧
        t.adds = s.adds ++ if y.pub then []
          else [⟨ctr, c.hedge, s.chunkSpec c y chunk, 1, none, some (s.completionRel h y), false⟩]))

/-! ## Row 12 -/

/-- MMA, MZERO, MCOMMIT and MWAIT (R227, R232 to R234, R239): with its operands through their checks, MMA joins the open
batch, a full one committed first, and gives its tile the tag of its class; MZERO leaves the clearing of its rows
outstanding and sets the tag at once; MCOMMIT commits the open batch, and MWAIT keeps the least bound of its clause. -/
def Obligations.MatrixInstructions : Prop :=
  ∀ (s : State) (gd : Guard), s.runs gd → s.single → s.focus.fences = [] →
    let g := s.focus
    let e := g.eff gd
    (∀ (m : MmaArg) (as bs : List (List Place)) (af bf : List Place), g.hasTile m.t → m.sa.toNat < g.sregs.length →
      g.awaitsS m.sa.toNat = false → m.sb.toNat < g.sregs.length → g.awaitsS m.sb.toNat = false →
      let n := g.regIndex m.t
      let depth : Nat := if m.k = 0 then 64 else m.k.toNat
      let cols : Nat := m.n1.toNat + 1
      m.z = true ∨ (g.tile n).tag = .raw ∨ (g.tile n).tag = accTag m.fa →
      s.operand g (g.s m.sa.toNat) 32 depth (matBits m.fa) false = .ok (as, af) →
      (if m.tb then s.operand g (g.s m.sb.toNat) cols depth (matBits m.fb) false
        else s.operand g (g.s m.sb.toNat) depth cols (matBits m.fb) false) = .ok (bs, bf) →
      s.present (af ++ bf) = .ok () → g.openBatch.count < 256 ∨ g.batches.length < 8 →
      let x := if g.openBatch.count < 256 then g else
        { g with batches := g.batches ++ [g.openBatch], openBatch := Batch.empty, restored := [] }
      exec (.mma gd m) s = s.gives { x.setTileTag n (accTag m.fa) with
        nextOp := g.nextOp + 1
        openBatch := { x.openBatch with
          tiles := if x.openBatch.tiles.contains n then x.openBatch.tiles else x.openBatch.tiles ++ [n]
          count := x.openBatch.count + 1
          mmas := x.openBatch.mmas ++ [⟨g.nextOp, m, n, e, as, bs, g.s m.sa.toNat, g.s m.sb.toNat, g.position.1,
            g.clauseOff, g.position.2⟩] } }) ∧
    (∀ f d, g.hasTile d → let n := g.regIndex d
      g.openTarget n = false → g.committedTarget n = false →
      exec (.mzero gd f d) s = s.gives ((g.setTileTag n (tileTag f)).leaving (s.newOp .tile (.mzero n) e))) ∧
    (g.openBatch.count = 0 → exec (.mcommit gd) s = s.gives { g with restored := [] }) ∧
    (g.openBatch.count ≠ 0 → g.batches.length < 8 → exec (.mcommit gd) s = s.gives
      { g with batches := g.batches ++ [g.openBatch], openBatch := Batch.empty, restored := [] }) ∧
    (∀ n : BitVec 3, exec (.mwait gd n) s = s.gives
      { g with mwait := some (match g.mwait with | none => n.toNat | some k => min n.toNat k) })

/-- MRD, MWR, MLD and MST (R235, R238 to R241): on a tile that no batch targets, MRD reads words c to c + N − 1 of each
lane's row, modulo 32, into consecutive V registers with the word's tag, MWR writes them; MLD and MST leave the moving of
the rows of E outstanding, with the checks of 128-byte lanes aligned to 32, MLD setting the tile's tag at once. -/
def Obligations.TileMoves : Prop :=
  ∀ (s : State) (gd : Guard) (n : BitVec 5) (col : ColSrc) (t : Reg), s.runs gd → s.single → s.focus.hasTile t →
    let g := s.focus
    let e := g.eff gd
    let u := g.regIndex t
    let num := n.toNat + 1
    let c : Nat := match col with
      | .imm k => k.toNat
      | .s r => (g.sOf r).toNat % 32
    let old (l w : Nat) : Word32 := ((g.tile u).rows.toList.getD l (Vector.replicate 32 0)).toList.getD w 0
    g.openTarget u = false → g.committedTarget u = false →
    ((match col with | .imm _ => True | .s r => g.hasS r) → g.tileBusy u = false →
      (∀ d, g.hasV d num → ∃ x, exec (.mrd gd n col d t) s = s.gives x ∧
        (∀ j, j < num → x.tag (g.regIndex d + j) = wordTag (g.tile u).tag ((c + j) % 32) ∧
          ∀ l, l < 32 → x.lane (g.regIndex d + j) l =
            if e.getLsbD l then old l ((c + j) % 32) else g.lane (g.regIndex d + j) l) ∧
        (∀ k, k < g.regIndex d ∨ g.regIndex d + num ≤ k → x.v k = g.v k) ∧
        x = { g with vregs := x.vregs }) ∧
      (∀ a, g.hasV a num →
        g.takes ((List.range num).map fun j => (g.regIndex a + j, wordExpect (g.tile u).tag ((c + j) % 32))) →
        ∃ f : Nat → Lanes, exec (.mwr gd n col t a) s = s.gives (g.setRows e u f) ∧
          ∀ l w, w < 32 → (f l).toList.getD w 0 =
            if (w + 32 - c) % 32 < num then g.lane (g.regIndex a + (w + 32 - c) % 32) l else old l w)) ∧
    (∀ (f : TileFmt) (ord : MemOrd) (buf : BufSel) (off : BitVec 14) (a : Reg) (store : Bool) (chk : List (Nat × List Place)),
      g.hasBuf buf → g.source a .int → g.fences = [] → s.requestRoom = true →
      let pos (l : Nat) : Int := (g.vOf a l).toNat + off.toInt * 128
      s.checkLanes g (if store then .tileStore else .tileLoad) (if store then none else some (ord != .weak)) 32
        (g.bufOf buf) pos 128 (lanesOf e) [] [] = .ok chk →
      s.present (chk.flatMap (·.2)) = .ok () →
      let o : Op := { s.newOp .tile (if store then .store else .load) e with
        dst := .tile u f, reads := !store, writes := store, strong := ord != .weak, acq := isAcq ord, rel := isRel ord,
        scope := sidedScope (selScope buf), buf := (g.bufOf buf).toNat % 4096
        accs := chk.flatMap fun p => (List.range 4).map fun i =>
          ⟨p.1, (p.2.drop (32 * i)).take 32, [], [],
            if (g.bufOf buf).toNat < 0xFF0 then s.bufVa g.hedge (g.bufOf buf).toNat (pos p.1) else 0, pos p.1⟩ }
      (store = false → exec (.mld gd f ⟨ord, buf, off, a⟩ t) s = s.gives ((g.setTileTag u (tileTag f)).leaving o)) ∧
      (store = true → f = .raw ∨ (g.tile u).tag = tileTag f ∨ (g.tile u).tag = .raw →
        exec (.mst gd f ⟨ord, buf, off, a⟩ t) s = s.gives (g.leaving o)))

/-- MVB (R244 to R246): with weights whose buffer, layout, format and rows are in order, and with its vector and result
in order in scratch, it leaves its work outstanding and the lines of its result become absent. -/
def Obligations.BankProducts : Prop :=
  ∀ (s : State) (gd : Guard) (fa fb : MatFmt) (n1 : BitVec 5) (sa sb : BitVec 7) (d : Reg) (h : Hedge) (x : BufEntry)
    (b : Bank) (pa : Nat → Nat → Nat) (vec res : List (List Place)) (vf rf : List Place), s.runs gd → s.single →
    s.focus.fences = [] →
    s.requestRoom = true → s.focus.hasS d → sa.toNat < s.focus.sregs.length → s.focus.awaitsS sa.toNat = false →
    sb.toNat < s.focus.sregs.length → s.focus.awaitsS sb.toNat = false → s.hedge s.focus.hedge = some h →
    let g := s.focus
    let n := 32 * (n1.toNat + 1)
    let w := (g.s sa.toNat).toNat
    let idx := w % 2 ^ 12
    let row0 := w / 2 ^ 32
    let len := (b.cols * matBits fb + 7) / 8
    w / 2 ^ 12 % 2 ^ 20 = 0 → idx < 0xFF0 → h.entry idx = some x → x.bankmv = true → x.r = true → x.owner = g.hedge →
    h.bank x = some b → b.fmt = matCode fb → row0 + n ≤ b.rows →
    let va (q i : Nat) : Nat := (x.vbase + (row0 + q) * b.pitch + i) % 2 ^ 64
    (∀ q i, q < n → i < len → h.otherSpec g.lseq (va q i) = false ∧
      ∃ nc, s.translate (s.coreOf g) g.hedge (va q i) needR = .ok (pa q i, nc)) →
    s.operand g (g.s sb.toNat) 1 b.cols (matBits fa) true = .ok (vec, vf) → s.operand g (g.sOf d) 1 n 32 true = .ok (res, rf) →
    s.present vf = .ok () → (∀ p ∈ res.flatten, ∃ v o, p = .scratch v o ∧ v ≠ 0) →
    let place (q i : Nat) : Place := match s.specOf g with
      | some y => if h.specPage y (va q i) true = true then .spec g.lseq (pa q i) else .home (pa q i)
      | none => .home (pa q i)
    let rows := (List.range n).map fun q => (List.range len).map fun i => place q i
    let lines := placeLines res.flatten
    exec (.mvb gd fb fa n1 sb sa d) s = (s.absent1 lines).gives (g.leaving
      { s.newOp .tile (.mvb fa fb rows vec.flatten b.kb b.cols res.flatten (List.range lines.length)) (g.eff gd) with
        writes := true, buf := idx, clears := lines })

/-- MMA_PERFORM, for every class of the table *Matrix formats*, the fragments in scratch, present and without errors, and nothing
latched (R225, R228 to R231): each element of the rows of E and of the first N columns becomes, from the accumulator or from 0
under Z, for integers that plus the sum over k of A[row][k] × B[k][col], modulo 2^32 (R69), and for floating point the fold of
chunk_sum over the exact products in chunks of w, ascending (R67); every other word of every tile is as before. Element j of a row
stands at bit j × b of its bytes. chunk_sum is what R67 and R68 say. -/
def Obligations.MatrixProducts : Prop :=
  FpFmt.f32.chunkSums 50 ∧ FpFmt.f64.chunkSums 108 ∧
  ∀ (s : State) (gid : Nat) (g : Group) (m : MmaOp), s.group gid = some g → g.nextMma = some m → m.t < g.tiles.length →
    g.tileEarlier m.t m.id = false → g.latch = none →
    (∀ r ∈ m.aRows ++ m.bRows, ∀ p ∈ r, ∃ w o, p = Place.scratch w o) →
    s.engineWaits [] (m.aRows.flatten ++ m.bRows.flatten) = false →
    s.consumeFault (m.aRows.flatten ++ m.bRows.flatten) = none →
    let fa := m.arg.fa
    let fb := m.arg.fb
    let depth : Nat := if m.arg.k = 0 then 64 else m.arg.k.toNat
    let cols : Nat := m.arg.n1.toNat + 1
    let row (rows : List (List Place)) (r : Nat) : Nat := leNat ((rows.getD r []).map fun p => match p with
      | .scratch w o => s.scratchRead w o
      | _ => 0)
    let elem (f : MatFmt) (rows : List (List Place)) (r j : Nat) : Nat := row rows r / 2 ^ (matBits f * j) % 2 ^ matBits f
    let a (r k : Nat) : Nat := elem fa m.aRows r k
    let b (k c : Nat) : Nat := if m.arg.tb then elem fb m.bRows c k else elem fb m.bRows k c
    m.aRows.length = 32 → (∀ r ∈ m.aRows, r.length = (depth * matBits fa + 7) / 8) →
    m.bRows.length = (if m.arg.tb then cols else depth) →
    (∀ r ∈ m.bRows, r.length = ((if m.arg.tb then depth else cols) * matBits fb + 7) / 8) →
    let word (t r c : Nat) : Word32 := ((g.tile t).rows.toList.getD r (Vector.replicate 32 0)).toList.getD c 0
    let wide : Prop := fa = .f64
    let from_ (r c : Nat) : Nat := if m.arg.z then 0
      else if wide then (word m.t r (2 * c)).toNat + 2 ^ 32 * (word m.t r (2 * c + 1)).toNat else (word m.t r c).toNat
    let acc : FpFmt := if wide then .f64 else .f32
    let window : Nat := if wide then 108 else 50
    let chunk : Nat := match fa with
      | .f64 => 4
      | .f16 | .bf16 => 8
      | .e4m3 | .e5m2 | .i8 | .n8 => 16
      | .e2m1 | .i4 | .n4 => 32
    let num (f : MatFmt) (x : Nat) : Int :=
      if f = .n8 ∨ f = .n4 ∨ x < 2 ^ (matBits f - 1) then x else (x : Int) - 2 ^ matBits f
    ∃ t x, exec (.mmaPerform gid) s = .next t ∧ t.group gid = some x ∧ t.mem = s.mem ∧ t.wgs = s.wgs ∧
      x = { g.doneMma m (x.tile m.t) with latch := x.latch } ∧
      ∀ result : Nat → Nat → Nat,
        (matFp fa = none → matFp fb = none → ∀ r c, result r c = (BitVec.ofInt 32
          (from_ r c + ((List.range depth).map fun k => num fa (a r k) * num fb (b k c)).sum)).toNat) →
        (∀ ea eb, matFp fa = some ea → matFp fb = some eb → ∀ r c, result r c =
          (List.range ((depth + chunk - 1) / chunk)).foldl (fun v i => chunkSum acc window (acc.value v)
            ((((List.range depth).map fun k => (ea.value (a r k)).mul (eb.value (b k c))).drop (chunk * i)).take chunk))
            (from_ r c)) →
        ((matFp fa).isSome = (matFp fb).isSome) → ∀ u r c, u < g.tiles.length → r < 32 → c < 32 →
          let column : Nat := if wide then c / 2 else c
          ((x.tile u).rows.toList.getD r (Vector.replicate 32 0)).toList.getD c 0 =
            if u = m.t ∧ m.emask.getLsbD r = true ∧ column < cols then
              BitVec.ofNat 32 (if wide then result r column / 2 ^ (32 * (c % 2)) else result r column)
            else word u r c

/-- The other steps of the matrix engine (R232, R239, R240, R246, R247): the oldest batch retires when its MMAs are performed;
MZERO clears the rows of E; the last sector of an MLD lands its rows, and of an MST stores its bytes. An MVB first reads, for each
line of its result, the rows of its weights, and its vector once, as they then are; an error in what it reads ends it with
nothing landed, and the group stops at its next boundary; once every line is read a line of the result lands, and with the last
one the instruction is done. That MLD and MST move their sectors in ascending order, and that an MVB reads line by line before
any line lands, are the model's choices (log 78, log 88). -/
def Obligations.MatrixSteps : Prop :=
  ∀ (s : State) (gid : Nat) (g : Group), s.group gid = some g → g.role = .single →
    (∀ b rest, g.batches = b :: rest → b.mmas = [] →
      exec (.batchRetire gid) s = .next (s.mapGroup gid fun x => { x with batches := rest })) ∧
    (∀ p o, g.pend.find? (fun o => o.id == p) = some o →
      (∀ t, o.kind = .mzero t → g.tileTurn t o.id = true → exec (.tileOpDone gid p) s = .next (s.mapGroup gid fun x =>
        (x.setRows o.emask t fun _ => Vector.replicate 32 0).dropOp p)) ∧
      (∀ t f l w a va off, o.dst = .tile t f → g.tileTurn t o.id = true → s.mayPerform g o = true → o.acq = false →
        o.rel = false → o.strong = false →
        (o.kind = .load → s.opError g o = none →
          o.accs = [⟨l, (List.range 32).map fun i => Place.scratch w (a + i), [], [], va, off⟩] →
          exec (.tileOpDone gid p) s = .next (s.mapGroup gid fun y => (y.land o.emask (.tile t f)
            (o.got ++ [(l, (List.range 32).map fun i => s.scratchRead w (a + i))])).dropOp p)) ∧
        (∀ x, o.kind = .store → o.accs = [⟨l, (List.range 32).map fun i => Place.scratch w (a + i), [], [], va, off⟩] →
          s.wgOf w = some x → x.scratch.wf = true → l < 32 →
          ∃ v, exec (.tileOpDone gid p) s = .next v ∧ v.group gid = some (g.dropOp p) ∧
            (x.core.isSome = true ∨ x.image = none → v.mem = s.mem) ∧
            ∀ u k, v.scratchRead u k = if u = w ∧ a ≤ k ∧ k < a + 32 then
              (((g.tile t).rows.toList.getD l (Vector.replicate 32 0)).toList.getD (24 + (k - a) / 4) 0).extractLsb'
                (8 * ((k - a) % 4)) 8 else s.scratchRead u k)) ∧
      (∀ fa fb rows vec kb cols todo line w a n x, o.kind = .mvb fa fb rows vec kb cols
          ((List.range (4 * n)).map fun i => Place.scratch w (a + i)) todo → line ∈ todo → s.mayPerform g o = true →
        s.wgOf w = some x → x.core.isSome = true → x.scratch.wf = true → a % 32 = 0 → 0 < n →
        let last := (a + 4 * n - 1) / 128 - a / 128
        let lo (i : Nat) : Nat := max a (128 * (a / 128 + i))
        let hi (i : Nat) : Nat := min (a + 4 * n) (128 * (a / 128 + i) + 128)
        let elems (i : Nat) : List Nat := (List.range ((hi i - lo i) / 4)).map fun k => (lo i - a) / 4 + k
        (∀ i, i ≤ last → find1 o.got (i + 1) = none → (∀ j, j < i → find1 o.got (j + 1) ≠ none) →
          let reads := (elems i).flatMap (fun k => rows.getD k []) ++ if o.got = [] then vec else []
          let lines := (List.range (last + 1)).map fun j => (w, a / 128 + j)
          s.engineWaits lines reads = false →
          (s.consumeFault reads = none →
            let byte := s.placeByte (engineVia g.hedge) g
            let v := ((o.got.head?).map (·.2)).getD (vec.map byte)
            let ys := (elems i).flatMap fun k => leBytes 4 (mvbElement fa fb kb cols ((rows.getD k []).map byte) v)
            ∃ t, exec (.mvbResultLand gid p line) s = .next t ∧ t.wgs = s.wgs ∧ (s.l1Clean → t.mem = s.mem) ∧
              t.group gid = some (g.setOp { o with
                got := (if o.got = [] then [(0, v)] else o.got) ++ [(i + 1, ys)] })) ∧
          ∀ c, s.consumeFault reads = some c → ∃ t, exec (.mvbResultLand gid p line) s = .next t ∧ t.mem = s.mem ∧
            (∀ u k, t.scratchRead u k = s.scratchRead u k) ∧
            t.group gid = some { g.dropOp p with lateFault := some ⟨c, o.idx, o.off, o.word, o.emask⟩ }) ∧
        (∀ ys, (∀ i, i ≤ last → find1 o.got (i + 1) ≠ none) → line ≤ last → find1 o.got (line + 1) = some ys →
          ys.length = hi line - lo line → s.passedAccess [(w, a / 128 + line)] = false →
          ∃ t, exec (.mvbResultLand gid p line) s = .next t ∧ t.mem = s.mem ∧
            (∀ u k, t.scratchRead u k = if u = w ∧ lo line ≤ k ∧ k < hi line then ys.getD (k - lo line) 0
              else s.scratchRead u k) ∧
            ((∀ y ∈ todo, y = line) → t.group gid = some (g.dropOp p)) ∧
            ((∃ y ∈ todo, y ≠ line) → t.group gid = some (g.setOp { o with
              kind := .mvb fa fb rows vec kb cols ((List.range (4 * n)).map fun i => Place.scratch w (a + i))
                (todo.filter fun y => y != line) })))))

/-! ## Row 14 -/

/-- SVC and TRAP (R393, R397): with no lane in E the entry moves to F, wherever F is (log 45, the model's reading). SVC with
lanes, its accesses before it performed, takes the whole entry from the frontier; where the interval log has room for the line of
TICKET it takes a ticket, and its lanes wait for the slot of the ticket, or on-core with the ticket for FREE or for room in the
log, otherwise for room before the ticket (that it waits for the log is the model's reading of R405, log 46). TRAP moves the
entry to F and stops the group there with the next resume token, which is the model's choice of a token (log 9). -/
def Obligations.ServiceCallsAndTraps : Prop :=
  ∀ (s : State) (gd : Guard) (code : BitVec 12), s.acts gd → s.single →
    let g := s.focus
    let e := g.eff gd
    (e = 0 → s.goes (.trap gd code) (fun _ => g.fall) id ∧ ∀ d a, s.goes (.svc gd code d a) (fun _ => g.fall) id) ∧
    (e ≠ 0 → ∀ h, s.hedge g.hedge = some h →
      (∃ t ms, exec (.trap gd code) s = .next t ∧ t.focus.moves = some ms ∧ t.focus.holds = g.holds ++ [.trap h.nextToken] ∧
        (∀ l, l < 32 → sentTo ms l = if g.active.getLsbD l then some g.fall.toNat else none) ∧
        ∃ k, t.hedge g.hedge = some k ∧ k.nextToken = h.nextToken + 1) ∧
      ∀ d a x, g.hasV a 8 → g.hasV d 3 → g.takes ((List.range 8).map fun k => (g.regIndex a + k, .any)) →
        s.specOf g = none → g.settled = true → g.fences = [] →
        let u := s.release g .sys
        let ticket := u.ctrValue (.c3 h.ticketAt)
        u.hedge g.hedge = some x →
        let waits (t : State) (ticket : Option Word64) : Prop := ∃ w, t.focus.svcWait = some w ∧ w.ticket = ticket ∧
          w.call = code ∧ w.emask = e ∧
          w.args = (lanesOf e).map fun l => (l, (List.range 4).map fun k => g.pair (g.regIndex a + 2 * k) l)
        exec (.svc gd code d a) s = .next (u.svcCall x code (g.regIndex d) (g.regIndex a) e).advance ∧
        ∃ t, exec (.svc gd code d a) s = .next t ∧ t.focus.moves = some [] ∧
          (u.logRoom h.ticketAt = false → waits t none) ∧
          (u.logRoom h.ticketAt = true →
            (t.focus.svcWait = none ∧
              t.focus.svcReplies.map (·.slot) = g.svcReplies.map (·.slot) ++ [ticket.toNat % h.p.nslot]) ∨
            waits t (some ticket)))

/-- LNCH and CHKPT (R387, R388, R404): a launch that is refused leaves a result word with bit 63, its reason and its code;
one that passes joins the queue of its hedge with the next sequence number, which is the result; CHKPT asks for a
snapshot and holds its group at the next boundary. -/
def Obligations.LaunchesAndCheckpoints : Prop :=
  ∀ (s : State) (gd : Guard) (d : Reg) (h : Hedge), s.runs gd → s.single → s.focus.hasS d → s.specOf s.focus = none →
    s.hedge s.focus.hedge = some h →
    let g := s.focus
    let e := g.eff gd
    exec (.chkpt gd d) s = (s.mapHedge g.hedge fun h => { h with wantSnap := true }).gives
      { g with holds := g.holds ++ [.chkpt (g.regIndex d)] } ∧
    (∀ (a b : Reg) (u : State) (x : Hedge) (r : Except (Nat × Nat) Launch), g.hasS a → g.hasS b → g.settled = true →
      g.fences = [] → let v := s.release g .sys
      v.hedge g.hedge = some x →
      v.launchForm ⟨promotedAt .sys, dieAgents (dieOf (v.coreOf g)), fun u _ => u⟩ x g.lseq (g.sOf a) (g.sOf b) (fun idx base va =>
        match v.translate (v.coreOf g) g.hedge va needR with
        | .error st => .error (atLane (lowest e) va ((va : Int) - base) idx st)
        | .ok r => .ok r) = .ok (u, r) →
      let op (w : Word64) (o : Op) : Prop := o.kind = .lnch w ∧ o.dst = .s64 (g.regIndex d) ∧ o.id = g.nextOp ∧ o.cls = .none
      (∀ reason c, r = .error (reason, c) → ∃ t o, exec (.lnch gd d a b) s = .next t ∧ t.focus.pend = g.pend ++ [o] ∧
        op (BitVec.ofNat 64 (2 ^ 63 + reason * 256 + c)) o ∧
        (t.hedge g.hedge).map (fun x => (x.launches, x.nextSeq)) = some (h.launches, h.nextSeq)) ∧
      (∀ l, r = .ok l → ∃ t o k x, exec (.lnch gd d a b) s = .next t ∧ t.focus.pend = g.pend ++ [o] ∧
        op (BitVec.ofNat 64 h.nextSeq) o ∧ t.hedge g.hedge = some k ∧ k.nextSeq = h.nextSeq + 1 ∧
        k.launches.map (·.seq) = h.launches.map (·.seq) ++ [h.nextSeq] ∧ k.launches.getLast? = some x ∧
        x = { l with seq := h.nextSeq, deps := x.deps }))

/-- SPCMT and SPDSC (R402, R426): with the checks passed, and the group's accesses performed, each leaves the actions on the
pages of its range outstanding, and under .FINAL on every page that is left and the resolution of the launch; one action a step
is then performed, for the oldest such instruction of the group, a commit once its home takes the page (the step that performs it
is the model's choice, log 89, and that a commit waits for the interval log its reading, log 46). What a resolution does to a
page of memory (R398, R402): a commit gives the page the bytes of the launch's shadow, where no L1 has a dirty byte to write
back first (R322), a discard leaves memory as it is; either way the launch's shadow of the page is gone. No other byte changes.
After .FINAL the launch is resolved and has no shadow. -/
def Obligations.SpeculationResolves : Prop :=
  (∀ (s : State) (gd : Guard) (final : Bool) (a b c : Reg) (h : Hedge) (q : Nat) (sp : Spec) (pages : List (Nat × Nat)),
    s.runs gd → s.single → s.focus.hasS a → s.focus.hasS b → s.focus.hasS c →
    s.resolveCheck (s.focus.regIndex a) (s.focus.regIndex b) (s.focus.regIndex c) = .ok (h, q, sp, pages) →
    s.focus.settled = true → s.focus.fences = [] →
    let u := s.release s.focus .sys
    let todo := (pages ++ if final then h.writePages sp else []).eraseDups
    let after (commit : Bool) : Group := if todo = [] ∧ final = false then s.focus
      else s.focus.leaving (s.newOp .none (.resolve q commit final todo) (s.focus.eff gd))
    exec (.spdsc gd final a b c) s = u.gives (after false) ∧ exec (.spcmt gd final a b c) s = u.gives (after true)) ∧
  (∀ (s : State) (g p q : Nat) (gr : Group) (o : Op) (h : Hedge) (commit final : Bool) (todo : List (Nat × Nat)),
    s.group g = some gr → gr.role = .single → s.hedge gr.hedge = some h → gr.pend.find? (fun o => o.id == p) = some o →
    gr.pend.find? Op.isResolve = some o → o.kind = .resolve q commit final todo → s.specAt gr.hedge q ≠ none →
    (todo = [] → exec (.publPerform g p) s =
      .next ((if final then s.resolveFinal h q commit else s).mapGroup g fun y => y.dropOp p)) ∧
    ∀ x rest, todo = x :: rest → (commit = true → s.commitRoom h q x = true) → exec (.publPerform g p) s =
      .next ((((s.focusOn g).resolvePage h q commit x).focusOn s.focus.id).mapGroup g fun y =>
        if rest = [] ∧ final = false then y.dropOp p else y.setOp { o with kind := .resolve q commit final rest })) ∧
  (∀ (s : State) (h q page : Nat) (x : Shadow), s.shadow h (some q) page = some x → s.memWf →
    (∀ i, i < 4096 → (s.frame (frameOf (page * 4096 + i))).mig = none) →
    let t := s.commitPage h q page false false
    let d := s.dropShadow h (some q) page
    (s.l1Clean → ∀ a, t.mem.read a = if page * 4096 ≤ a ∧ a < page * 4096 + 4096 then x.data.read (a - page * 4096)
      else s.mem.read a) ∧ t.shadow h (some q) page = none ∧
    d.mem = s.mem ∧ d.shadow h (some q) page = none) ∧
  (∀ (s : State) (h : Hedge) (q : Nat) (commit : Bool), let t := s.resolveFinal h q commit
    t.specAt h.p.id q = none ∧ ∀ page, t.shadow h.p.id (some q) page = none)

/-! ## Issue, clauses and groups -/

/-- ISSUE_CYCLE (R5, R156, R157, R159, R351): a gated core does nothing; of any other the core-local count goes up by one,
and each quarter may issue from the groups of its slot numbers that the count gives to the slot's owner, those of the
count's own slot first; nothing else changes but the cores. In a slot with a clause in progress that is its group alone;
otherwise it is each group of the slot, those that have not yielded first, and in the order of the pick after the one that
started a clause there last. -/
def Obligations.IssueCycles : Prop :=
  ∀ (s : State) (core : Nat), let k := s.core core
    (s.gated core = true → exec (.issueCycle core) s = .next s) ∧
    (s.gated core = false → ∃ t, exec (.issueCycle core) s = .next t ∧ (t.core core).cycle = k.cycle + 1 ∧
      (∀ c, c ≠ core → t.core c = s.core c) ∧
      t.grants = s.grants ++ (List.range 4).map (fun q => s.quarterPicks core q (k.cycle + 1).toNat) ∧
      t = { s with cores := t.cores, grants := t.grants }) ∧
    (∀ q n, (k.slots.getD (n % 16) none = none → s.quarterPicks core q n = []) ∧
      ∀ h, k.slots.getD (n % 16) none = some h →
        (∃ rest, s.quarterPicks core q n = (s.slotPicks core q (n % 16)).map (·.id) ++ rest) ∧
        ∀ i, i ∈ s.quarterPicks core q n ↔ ∃ slot, slot < 16 ∧ k.slots.getD slot none = some h ∧
          ∃ g ∈ s.slotPicks core q slot, g.id = i) ∧
    (∀ q slot, let gs := s.slotGroups core q slot
      (∀ g, gs.find? Group.inProgress = some g → s.slotPicks core q slot = [g]) ∧
      ((∀ g ∈ gs, g.inProgress = false) →
        let turn (g : Group) : Nat :=
          let x := (g.seat.map (·.pos)).getD 0
          match k.lastAt q slot with
          | none => x
          | some p => if p < x then x else x + 4
        (∀ g, g ∈ s.slotPicks core q slot ↔ g ∈ gs) ∧
        (s.slotPicks core q slot).Pairwise fun a b =>
          (a.yielded = true → b.yielded = true) ∧ (a.yielded = b.yielded → turn a < turn b)))

/-- CLAUSE_START and CLAUSE_BOUNDARY (R22, R25, R27, R161, R165, R166): a group that nothing holds starts the clause of its
next entry, when it passes its checks, with its pass count read once; a count of 0 runs no pass, and unmet thresholds start
none: the clause then stays as it was fetched and checked. A later pass starts with the words as they were checked. At the
boundary XI steps; with passes left the clause is to be replayed, otherwise its entry gives way to those that its lanes move
to, merged by address, and the best of all is selected; a continuation past the text is BUFBOUND. A group that is ready at a
resume point runs on, and one with an error of engine work takes it. That a clause is fetched and checked when it is first
reached, with the words then latched (log 42), that the entry selected stands until its clause has run (log 47), what a
clause with WST 0 shows to engine reads (log 49), and when an error of engine work is taken (log 8), are the model's choices. -/
def Obligations.Clauses : Prop :=
  ∀ (s : State) (g : Nat) (gr : Group), s.group g = some gr → gr.role = .single →
    let runs (c : Clause) (sel : Option Entry) (latched : Option Clause) : Prop :=
      (gr.meetsHeader c.head = true → ∃ t y, exec (.clauseStart g) s = .next t ∧
        t.group g = some { gr with
          clause := some c, selected := sel, replay := none, reached := none, mwait := none, moves := none, stop := none
          yielded := y } ∧
        (c.head.wst ≠ 0 → t.mem = s.mem)) ∧
      (gr.meetsHeader c.head = false → s.becomes (.clauseStart g) g { gr with selected := sel, reached := latched })
    (s.snapHeld gr = false → s.resumable gr = true → ∃ t y, exec (.clauseStart g) s = .next t ∧
      t.group g = some { gr.rerun with yielded := y } ∧ t.mem = s.mem) ∧
    (∀ f, gr.lateFault = some f → gr.takesLate = true → ∃ t x, exec (.clauseStart g) s = .next t ∧
      t.group g = some x ∧ (x.stop.map (·.code)) = some f.code ∧ x.lateFault = none) ∧
    (s.snapHeld gr = false → gr.clause = none → gr.stop = none → gr.pairFault = none →
      gr.free_ false = true → gr.lateFault = none → gr.replyFirst = false →
        (∀ c, gr.replay = some c → runs c gr.selected gr.reached) ∧
        (∀ e c, gr.replay = none → gr.nextEntry = some e →
          let n := if c.head.rep then (gr.s c.head.rcnt).toNat % 2 ^ 32 else 1
          let goes (x : Group) : Prop := let t : State := { s.focusOn g with focus := x }
            (c.head.rep = true → gr.awaitsS c.head.rcnt = true → s.becomes (.clauseStart g) g x) ∧
            ((c.head.rep = true → gr.awaitsS c.head.rcnt = false) →
              (n = 0 → exec (.clauseStart g) s = .next ((t.continue_ { c with mask := e.mask }).focusOn s.focus.id)) ∧
              (n ≠ 0 → runs { c with passes := n, mask := e.mask } (some e) (some c)))
          (gr.reachedAt e = some c → goes gr) ∧
          (gr.reachedAt e = none → (s.focusOn g).fetchClause gr e = .ok c →
            goes { gr with selected := some e, reached := some c }))) ∧
    (∀ c, gr.clause = some c → c.words.length ≤ c.idx → gr.stop = none → gr.presence = false → gr.emu = .none →
      gr.pairFault = none → gr.lateFault = none → gr.sysHeld = false →
      let xi := gr.xi + xiStep c.head.xstep
      let next := c.off + 8 * (c.head.n + 1)
      let goes (ms : List (Nat × Mask)) : Prop := ∃ t x, exec (.clauseBoundary g) s = .next t ∧ t.group g = some x ∧
        x.xi = xi ∧ x.clause = none ∧ x.replay = none ∧
        (x.frontier.map fun y => (y.off, y.mask)) = (ms.foldl (fun es m => joinEntry es ⟨0, m.1, m.2⟩)
          (leaveEntry gr.frontier c.off c.mask)).map (fun y => (y.off, y.mask)) ∧
        x.selected = bestEntry x.frontier ∧ t.mem = s.mem
      (1 < c.passes → s.becomes (.clauseBoundary g) g
        { gr with xi := xi, clause := none, moves := none, replay := some { c with idx := 0, passes := c.passes - 1 } }) ∧
      (c.passes ≤ 1 → (∀ ms, gr.moves = some ms → goes ms) ∧
        (gr.moves = none → next < gr.code.tlen → goes [(next, c.mask)]) ∧
        (gr.moves = none → gr.code.tlen ≤ next → ∃ t x y, exec (.clauseBoundary g) s = .next t ∧ t.group g = some x ∧
          x.stop = some y ∧ y.code = .bufbound ∧ x.frontier = gr.frontier)))

/-- Parking and emulation (R71, R72, R132, R163, R194, R195, R301 to R304): WAIT_EXPIRE from the deadline on and not before
it, PRESENCE_UNPARK, FMTEMU_TRAP and FMTEMU_QUEUE_FREE into a queue of fewer than 64 traps of the hedge, MGMT_TURN, which
serves the first trap of the turn's hedge, and no hedge in a system turn: then it gathers the events, comparisons that failed
with their records in the physical log and a rollback each, and takes a request up, the groups that are to be saved being
held; and BREAKPOINT_RELEASE. That a served instruction has its effect when its group issues it again (log 23), that a turn of a
hedge serves one trap (log 94), that the physical log is a list to which entries are added (log 9), and the slice that stands
for a hedge's context area (log 73), are the model's choices. -/
def Obligations.Parking : Prop :=
  ∀ (s : State) (g : Nat) (gr : Group), s.group g = some gr →
    (∀ d, gr.waitUntil = some d → gr.seat.isSome = true →
      let over_ := ((s.core (s.coreOf gr)).cycle - d).toNat
      (over_ < 2 ^ 63 → s.becomes (.waitExpire g) g { gr with waitUntil := none }) ∧
      (2 ^ 63 ≤ over_ → exec (.waitExpire g) s = .next s)) ∧
    (gr.presence = true → gr.stop = none → s.becomes (.presenceUnpark g) g { gr with presence := false }) ∧
    (gr.role = .single → s.becomes (.breakpointRelease g) g { gr with holds := gr.holds.filter fun y => y != .bkpt }) ∧
    (∀ m, gr.emu = .trapped → s.mgmt[dieOf (s.coreOf gr)]? = some m →
      let presents (i : Instr) : Prop := ∃ t, exec i s = .next t ∧ t.group g = some { gr with emu := .queued } ∧
        t.mgmt[dieOf (s.coreOf gr)]? = some { m with queue := m.queue ++ [(gr.hedge, g)] } ∧ t.mem = s.mem
      (m.waiting gr.hedge < 64 → presents (.fmtemuTrap g) ∧
        ((s.groups.find? fun x =>
            x.emu == .trapped && x.hedge == gr.hedge && dieOf (s.coreOf x) == dieOf (s.coreOf gr)) = some gr →
          presents (.fmtemuQueueFree (dieOf (s.coreOf gr)) gr.hedge))) ∧
      (64 ≤ m.waiting gr.hedge → exec (.fmtemuTrap g) s = .next s)) ∧
    (∀ die m, s.mgmt[die]? = some m →
      let turn := (m.turn + 1) % 256
      (m.turn % 8 = 7 ∨ m.table.getD m.turn none = none → (∀ e ∈ m.events, ∃ x, e = .mismatch x) →
        ∃ t k, exec (.mgmtTurn die) s = .next t ∧ t.mgmt[die]? = some k ∧ k.turn = turn ∧ k.events = [] ∧ k.queue = m.queue ∧
          (∀ x, .mismatch x ∈ m.events → LogEntry.record (contextSlice x.hedge) x.hedge x.record ∈ t.physLog ∧
            LogEntry.mismatch (contextSlice x.hedge) x.hedge x.word x.mask x.a x.b ∈ t.physLog ∧
            Instr.rollback x.hedge .shadow (.va 0) ∈ t.agenda) ∧
          (m.requests = [] → k.requests = []) ∧
          ∀ r rest, m.requests = r :: rest → r.taken = false → { r with taken := true } ∈ k.requests ∧
            ∀ i x, t.group i = some x → (r.what = .save x.wg ∧ x.seat.isSome = true) ∨ r.what = .saveGroup i →
              x.holds.contains .save = true) ∧
      (∀ h, m.turn % 8 ≠ 7 → m.table.getD m.turn none = some h → (m.queue.find? fun x => x.1 == h) = some (h, g) →
        gr.emu = .queued → ∃ t, exec (.mgmtTurn die) s = .next t ∧ t.group g = some { gr with emu := .done } ∧
          t.mgmt[die]? = some { m with turn := turn, queue := m.queue.filter fun y => y != (h, g) } ∧ t.mem = s.mem))

/-- Groups leave, stop and come back (R163, R168, R173, R303, R334, R337, R341, R343, R346, R347, R350, R372): GROUP_RETIRE
under the conditions of R168 alone, GROUP_SAVE, which asks for a save and makes it once every group of the workgroup is
held and can be saved, or asks and makes it for the group alone where it only waits for a reply, GROUP_RESTORE of what is
next in order, GROUP_END of a drained group, GROUP_RESUME by its token, MIGR_RESUME, WALK_COMPLETE, and FAULT of an error in a
group's state, which asks for a rollback of the hedge. A save or a restore waits for a system turn to take its request up.
Memory is as before where no image of a workgroup goes or is written, no request's counter stands, and no L1 has dirty bytes to
write back. That a workgroup is saved as a whole and only where that was asked for (log 58), that a rollback stands at the head of the
agenda (log 8), and what an interval log without room keeps waiting (log 46), are the model's choices. -/
def Obligations.GroupsComeAndGo : Prop :=
  (∀ (s : State) (g : Nat) (gr : Group), s.group g = some gr → gr.role = .single →
    (s.retirable gr = false → exec (.groupRetire g) s = .next s) ∧
    (s.retirable gr = true → (∀ x ∈ s.others, x.id ≠ s.focus.id) → g < s.nextId → ∃ t, exec (.groupRetire g) s = .next t ∧
      t.group g = none ∧ (∀ i, find1 t.ctrs (.c0 g i) = none) ∧ ((∀ x ∈ s.wgs, x.image = none) → t.mem = s.mem) ∧
      ∀ w, s.wgOf gr.wg = some w → (s.wgs.map (·.id)).Nodup → t.wgOf gr.wg = none ∨ ∃ x, t.wgOf gr.wg = some x ∧ x.retired = w.retired ++ [gr.number]) ∧
    (∀ x, gr.stop = some x → x.ready = false → x.code ≠ .uncorr → x.code ≠ .sdc → x.code ≠ .migr →
      s.drained gr = true →
      ∃ t y, exec (.groupEnd g) s = .next t ∧ t.group g = some y ∧ y.frontier = [] ∧ y.exited = BitVec.allOnes 32 ∧
        y.clause = none ∧ y.stop = none ∧ y.holds = [] ∧ y.vregs = gr.vregs ∧ y.sregs = gr.sregs) ∧
    (∀ x (token : Word32), gr.stop = some x → x.resumable = true → x.ready = false → x.token = token.toNat → token ≠ 0 →
      ∃ t, exec (.groupResume g token) s = .next t ∧ t.group g = some gr.ready_ ∧
        ((∀ x ∈ s.wgs, x.image = none) → t.mem = s.mem)) ∧
    (∀ lane, gr.stop = none → gr.seat.isSome = true → ∃ t y x, exec (.fault g .state lane) s = .next t ∧
      t.group g = some y ∧ y.stop = some x ∧ x.code = .uncorr ∧ x.resumable = false ∧ x.token = 0 ∧
      .rollback gr.hedge .uncorr (.va 0) ∈ t.agenda) ∧
    (∀ w c, s.wgOf gr.wg = some w → w.core = some c → gr.seat.isSome = true →
      (s.saving w.id = false →
        (gr.awaitsReply = false → exec (.groupSave g) s = .next (s.askSave w.id)) ∧
        (gr.awaitsReply = true → let alone : Service := .saveGroup g
          (s.taken alone = false → exec (.groupSave g) s = .next (s.askImage w c alone)) ∧
          (s.taken alone = true → let can : Prop := s.pairSavable gr = true ∧ ∀ r ∈ gr.svcReplies, r.ready = false
            (¬can → exec (.groupSave g) s = .next s) ∧
            (can → ∃ t x, exec (.groupSave g) s = .next t ∧ t.group g = some x ∧ x.seat = none ∧ x.vregs = gr.vregs ∧
              ((t.wgOf w.id).map (·.core)) = some (some c))))) ∧
      (s.saving w.id = true →
        let can : Prop := s.taken (.save w.id) = true ∧ ∀ x ∈ s.groups, x.wg = w.id → x.seat.isSome = true →
          x.holds.contains .save = true ∧ s.pairSavable x = true
        (¬can → exec (.groupSave g) s = .next s) ∧
        (can → s.openDiff (s.seated w.id) = none → ∃ t, exec (.groupSave g) s = .next t ∧
          ((t.wgOf w.id).map (·.core)) = some none ∧ t.saving w.id = false ∧
          ∀ k x, t.group k = some x → x.wg = w.id → x.seat = none) ∧
        (can → ∀ x a b, s.openDiff (s.seated w.id) = some (x, a, b) → ∃ t y, exec (.groupSave g) s = .next t ∧
          t.group x.id = some y ∧ (y.stop.map (·.code)) = some .sdc ∧ t.mem = s.mem)))) ∧
  (∀ (s : State) (w : Workgroup) (h : Hedge) (l : Launch) (c : Cand) (i : Nat), s.wgOf w.id = some w → w.core = none →
    s.hedge w.hedge = some h → s.launch w.hedge w.lseq = some l → s.wgDone w = false → h.wantSnap = false →
    h.resize = none → h.oversized l = false → s.imageVersionOk w = true → s.nextDispatch h = some (.place c i) → c.wg = some w.id →
    s.logRoom h.freeAt = true →
    (s.taken (.restore w.id) = false → exec (.groupRestore w.id) s = .next (s.askRestore h w)) ∧
    (s.taken (.restore w.id) = true → ∃ t, exec (.groupRestore w.id) s = .next t ∧
      ((t.wgOf w.id).map (·.core)) = some (some (h.map.getD w.lcore 0)) ∧ t.request (.restore w.id) = none ∧
      (s.memWf → s.l1Clean → (∀ x ∈ s.groups, x.wg = w.id → ∀ r ∈ x.svcReplies, r.ready = false) →
        ∀ a, (∀ r k, s.request (.restore w.id) = some r → r.counter = some k →
            ∃ b, k = .c3 b ∧ ¬(s.redirect b ≤ a ∧ a < s.redirect b + 8)) → t.mem.read a = s.mem.read a))) ∧
  (∀ (s : State) (f g : Nat) (gr : Group) (x : Stopped) (h : Hedge) (y : TlbEntry)
      (reads : List TableRead), s.group g = some gr → gr.stop = some x →
    x.code = .migr → s.hedge gr.hedge = some h → s.walk none h x.va = .ok (y, reads) → frameOf (y.addr x.va) = f →
    s.poolOk (frameOf (s.redirect (y.addr x.va))) = true → s.windowRoom (s.redirect (y.addr x.va)) = true → x.ready = false →
    ∃ t, exec (.migrResume f) s = .next t ∧ t.group g = some gr.ready_ ∧
      ∀ k z, s.group k = some z → (∀ v, z.stop = some v → v.code ≠ .migr) → t.group k = some z) ∧
  (∀ (s : State) (i : Nat) (w : Walk) (h : Hedge), s.walks[i]? = some w → w.answer = none → s.hedge w.hedge = some h →
    (s.walkerFree h i w.va = false → exec (.walkComplete i) s = .next s) ∧
    (s.walkerFree h i w.va = true → let ans := s.walk (some (dieOf w.core)) h (w.va * 4096)
      (∀ y reads, ans = .ok (y, reads) → exec (.walkComplete i) s =
        .next ((({ s with walks := s.walks.eraseIdx i }.countReads h.p.id reads).homePage y).fillTlb w.core h y reads)) ∧
      (∀ a reads, ans = .error (.xlat a, reads) → exec (.walkComplete i) s =
        .next ({ s with walks := s.walks.set i { w with answer := some a } }.countReads h.p.id reads))))

/-! ## Launches and the service kernel -/

/-- DISPATCH, LAUNCH_ADMIT, LAUNCH_COMPLETE and SBI_LAUNCH (R250, R251, R386 to R391). A new workgroup stands on its
logical core's physical core with zero scratch and its groups as R386 starts them, and of a saved one its restore is asked for,
as a save is of one that gives way; a launch is admitted when every
dependence is met; it is complete when its workgroups have finished and its copies are settled, makes its DONE add and
leaves the queue, unless its speculation is unresolved. The service kernel answers a launch through the SBI with the
result word. -/
def Obligations.LaunchLife : Prop :=
  (∀ (s : State) (h : Hedge), h.wantSnap = false → h.resize = none → let u := s.freeWgs
    u.hedge h.p.id = some h →
    (u.nextDispatch h = none → exec (.dispatch h.p.id) s = .next u) ∧
    (∀ w q, u.nextDispatch h = some (.evict w q) → let t := u.askSave w
      (t.saving w = true → exec (.dispatch h.p.id) s = .next (t.mapWg w fun x => { x with swapped := q })) ∧
      (t.saving w = false → exec (.dispatch h.p.id) s = .next t)) ∧
    (∀ (c : Cand) (i w : Nat) (x : Workgroup), u.nextDispatch h = some (.place c i) → c.wg = some w → u.wgOf w = some x →
      exec (.dispatch h.p.id) s = .next (u.askRestore h x)) ∧
    (∀ (c : Cand) (i : Nat) (l : Launch), u.nextDispatch h = some (.place c i) → c.wg = none →
      u.launch h.p.id c.lseq = some l → h.p.checked = false → (∀ x ∈ s.groups, x.id < s.nextId) →
      (∀ w ∈ s.wgs, w.id < s.nextId) → ∃ t, exec (.dispatch h.p.id) s = .next t ∧ (u.l1Clean → t.mem = u.mem) ∧
        (t.launch h.p.id l.seq).map (·.placed) = some (l.placed + 1) ∧
        (∃ w, t.wgOf s.nextId = some w ∧ w.hedge = h.p.id ∧ w.lseq = l.seq ∧ w.index = l.placed ∧ w.lcore = i ∧
          w.core = some (h.map.getD i 0) ∧ w.size = l.scr ∧ w.scratch = []) ∧
        ∀ n, n < l.groups → ∃ x ∈ t.groups, x.wg = s.nextId ∧ x.number = n ∧ x.hedge = h.p.id ∧ x.lseq = l.seq ∧
          x.code = l.code ∧ (x.frontier.map fun e => (e.off, e.mask)) = [(l.entry, BitVec.allOnes 32)] ∧
          x.vregs = List.replicate l.v VReg.zero ∧ x.tiles = List.replicate l.acc Tile.zero ∧
          x.sregs = l.binds.foldl (fun ss b => ss.set b.1 b.2) (List.replicate l.s 0) ∧ x.xi = 0 ∧ x.exited = 0 ∧
          x.flags = 0 ∧ x.preds = Vector.replicate 7 0 ∧ x.limb = none)) ∧
  (∀ (s : State) (hedge seq : Nat) (h : Hedge) (l : Launch), s.hedge hedge = some h → s.launch hedge seq = some l →
    (l.admitted = false →
      ((∀ d ∈ l.deps, d.met = true) → ∃ t, exec (.launchAdmit hedge seq) s = .next t ∧
        t.launch hedge seq = some { l with admitted := true }) ∧
      ((∃ d ∈ l.deps, d.met = false) → exec (.launchAdmit hedge seq) s = .next s)) ∧
    (l.finished < l.wgcount → exec (.launchComplete hedge seq) s = .next s) ∧
    (l.complete = false → l.admitted = true → l.wgcount ≤ l.finished → s.copiesSettled hedge seq = true →
      ∃ t, exec (.launchComplete hedge seq) s = .next t ∧
        t.adds = s.adds ++ (match l.done with
          | some k => [⟨.here k, hedge, none, 1, none, some none, false⟩]
          | none => []) ∧
        let but (x : Launch) : Launch := { x with held := [] }
        ((∀ x, l.spec = some x → x.resolved = true) → t.launch hedge seq = none ∧
          ∀ q, q ≠ seq → (t.launch hedge q).map but = (s.launch hedge q).map but) ∧
        ((∃ x, l.spec = some x ∧ x.resolved = false) →
          (t.launch hedge seq).map but = some (but { l with complete := true })))) ∧
  (∀ (s u : State) (h : Hedge) (buf off : Word64) (r : Except (Nat × Nat) Launch), s.hedge h.p.id = some h →
    s.launchForm ⟨fun t => t.narrower .sys, offDie, fun u va => u.hubReach h va⟩ h 0 buf off (fun _ _ va => match s.hubTranslate h va needR with
      | some x => .ok x
      | none => .error .wait) = .ok (u, r) →
    (∀ reason c, r = .error (reason, c) → ∃ t, exec (.sbiLaunch h.p.id buf off) s = .next t ∧
      t.outbox = u.outbox ++ [.sbi h.p.id 0 (BitVec.ofNat 64 (2 ^ 63 + reason * 256 + c))] ∧ t.hedges = u.hedges) ∧
    (∀ l k, r = .ok l → u.hedge h.p.id = some k → ∃ t x, exec (.sbiLaunch h.p.id buf off) s = .next t ∧
      t.outbox.getLast? = some (.sbi h.p.id 0 (BitVec.ofNat 64 k.nextSeq)) ∧ t.hedge h.p.id = some x ∧
      x.nextSeq = k.nextSeq + 1 ∧ x.launches.map (·.seq) = k.launches.map (·.seq) ++ [k.nextSeq]))

/-- The calls of the table *Service calls* (R343, R393 to R395, R411, R418, R420, R448): the reply to the next lane of a
slot, EINVAL for an unassigned call, a guest's call passed on; through the SBI the answer of the same call; a slot whose
last lane is served is served whole. SVC_FREE_UNPARK sends a request whose ticket FREE allows, and SVC_REPLY_TAKE gives
the reply registers to the lanes of EMASK and sends AMASK on at F. What is outstanding when an invalidation is said to wait
(`State.quiet`, log 25), and that a call or a request that finds no room in the interval log has a snapshot taken first (R405;
log 46), are the model's choices. -/
def Obligations.ServiceCalls : Prop :=
  (∀ (s : State) (h : Hedge) (slot l n : Nat) (ws : List Word64), s.hedge h.p.id = some h →
    s.nextLane h slot = some (l, n, ws) →
    let w (i : Nat) : Word64 := ws.getD i 0
    let src : CallSrc := .slot h.p.id slot
    let reply (i : Instr) (t : State) (c : Nat) (r : Word64) : Prop :=
      exec i s = .next (s.orSnap h (t.replyLane ((t.hedge h.p.id).getD h) slot l (BitVec.ofNat 64 c) r))
    let room : Prop := s.logRoom (h.blockAt slot l) = true ∧ s.logRoom (h.resumeAt slot) = true
    (¬room → ∀ i ∈ [Instr.bufalloc src, .buffree src, .bufmap src, .resume src, .setvsatp src, .inval src, .eqconfig src],
      exec i s = .next (s.wantSnap h.p.id)) ∧
    (room →
    (n = 0 ∨ (7 < n ∧ n < 0x800) → exec (.bufalloc src) s = .next (s.replyLane h slot l (BitVec.ofNat 64 einval) 0)) ∧
    (0x800 ≤ n → ∀ code rval, exec (.guestCall h.p.id slot code rval) s =
      .next ((s.send (.guestCall h.p.id slot l n ws)).replyLane h slot l code rval)) ∧
    (n = 1 → (w 0 = 0 → (w 2).getLsbD 63 = false → reply (.bufalloc src) s einval 0) ∧
      (∀ c, s.allocate h (w 0) (w 1) (w 2) (w 3) = .error c → reply (.bufalloc src) s c 0) ∧
      ∀ t r, s.allocate h (w 0) (w 1) (w 2) (w 3) = .ok (t, r) → reply (.bufalloc src) t 0 r ∧
        (t.hedge h.p.id).map (fun x => find1 x.bufs r.toNat) = some (some [BitVec.ofNat 64 (regionBase r.toNat),
          BitVec.ofNat 64 (((w 0).toNat + 4095) / 4096 * 4096), h.entryWord (w 1), 0])) ∧
    (n = 2 → let i := (w 0).toNat
      (0xFF0 ≤ i ∨ h.entry i = none → reply (.buffree src) s einval 0) ∧
      ∀ e, i < 0xFF0 → h.entry i = some e →
        (e.owner ≠ h.p.id → reply (.buffree src) s einval 0) ∧
        (e.owner = h.p.id → s.quiet h.p.id = false → exec (.buffree src) s = .next s) ∧
        (e.owner = h.p.id → s.quiet h.p.id = true → ∃ t, reply (.buffree src) t 0 0 ∧
          (t.hedge h.p.id).map (fun x => find1 x.bufs i) = some none)) ∧
    (n = 3 → s.vaArg h (w 0).toNat (w 1).toNat = .ok () → w 2 &&& ~~~allocBits = 0 →
      let es : List Word64 := [w 0, w 1, h.entryWord (w 2), w 3]
      (decodeEntry h.features es = none → reply (.bufmap src) s einval 0) ∧
      (decodeEntry h.features es ≠ none →
        (h.freeIndex = none → reply (.bufmap src) s equota 0) ∧
        ∀ i, h.freeIndex = some i → reply (.bufmap src) (s.setEntry h.p.id i es) 0 (BitVec.ofNat 64 i))) ∧
    (n = 4 → (s.resumeToken h.p.id (w 0).toNat = none → reply (.resume src) s einval 0) ∧
      ∀ t, s.resumeToken h.p.id (w 0).toNat = some t → reply (.resume src) t 0 0) ∧
    (n = 5 → (vsatpOk (w 0) = false → reply (.setvsatp src) s einval 0) ∧
      (vsatpOk (w 0) = true → (∀ i, i < 16 →
          s.guestPa h (((w 0).extractLsb' 0 44).toNat * 4096 + 8 * (0x1F0 + i)) ≠ none) →
        (s.quiet h.p.id = false → exec (.setvsatp src) s = .next s) ∧
        (s.quiet h.p.id = true → ∃ t, reply (.setvsatp src) t 0 0 ∧ (t.hedge h.p.id).map (·.vsatp) = some (w 0)))) ∧
    (n = 6 → (s.quiet h.p.id = false → exec (.inval src) s = .next s) ∧
      (s.quiet h.p.id = true → reply (.inval src)
        (if (w 1).toNat = 0 then s else (s.flushAll h.p.id).dropTlb h.p.id (w 0).toNat (w 1).toNat) 0 0)) ∧
    (n = 7 → ∀ e b, let k := (w 1).toNat
      4 ≤ k → k ≤ 16 → s.bufArg h (w 0) 0 (64 * 2 ^ k + 16) true true = .ok e → s.bufArg h (w 2) 0 64 true false = .ok b →
      (b.counter = false → reply (.eqconfig src) s einval 0) ∧
      (b.counter = true → reply (.eqconfig src) (s.mapHedge h.p.id fun x =>
        { x with errq := some ⟨(w 0).toNat, k, (w 2).toNat, 0⟩ }) 0 0)))) ∧
  (∀ (s t : State) (h : Hedge) (w0 w1 w2 w3 : Word64) (c : Nat) (r : Word64), s.hedge h.p.id = some h →
    let src : CallSrc := .sbi h.p.id w0 w1 w2 w3
    let answers (i : Instr) (f : Call) : Prop := f s h [w0, w1, w2, w3] = some (t, c, r) →
      exec i s = .next (s.orSnap h (t.send (.sbi h.p.id (BitVec.ofNat 64 c) r)))
    answers (.bufalloc src) callAlloc ∧ answers (.buffree src) callFree ∧ answers (.bufmap src) callMap ∧
    answers (.resume src) callResume ∧ answers (.setvsatp src) callVsatp ∧ answers (.inval src) callInval ∧
    answers (.eqconfig src) callEq) ∧
  (∀ (s : State) (h : Hedge) (slot l : Nat) (code rval : Word64) (ls : List Nat), s.hedge h.p.id = some h →
    find1 h.calls slot = some ls → let rest := ls.filter fun k => k != l
    ((s.replyLane h slot l code rval).hedge h.p.id).map (fun x => find1 x.calls slot) =
      some (if rest = [] then none else some rest)) ∧
  (∀ (s : State) (g : Nat) (gr : Group) (h : Hedge), s.group g = some gr → gr.role = .single →
    s.hedge gr.hedge = some h → gr.seat.isSome = true →
    (∀ w, gr.svcWait = some w → (w.ready = false → exec (.svcFreeUnpark g) s = .next s) ∧
      (w.ready = true → ∀ ticket : Word64, w.ticket = some ticket →
        let fits := s.logFits [(none, h.fillAt), (none, h.slotAt (ticket.toNat % h.p.nslot))]
        (fits = true → exec (.svcFreeUnpark g) s = .next (s.svcSend gr h w)) ∧
        (fits = false → ∃ t, exec (.svcFreeUnpark g) s = .next t ∧ t.group g = some gr ∧ t.mem = s.mem ∧
          (t.hedge gr.hedge).map (·.wantSnap) = some true))) ∧
    (∀ slot r, gr.svcReplies.find? (fun r => r.slot == slot && r.ready) = some r → gr.clause = none →
      s.logRoom h.freeAt = true → (∀ w, s.wgOf gr.wg = some w → gr.number ∉ w.ended) →
      let word (o : Nat) : Word64 := s.homeWord (h.slotAt slot + o)
      let off := (word 0x20).toNat - gr.code.text
      let next := off + 8 * ((((s.peekWord gr off).map (·.toNat)).getD 0) % 32 + 1)
      let d := (word 0x28).toNat / 256 % 256
      ∃ t y, exec (.svcReplyTake g slot) s = .next t ∧ t.group g = some y ∧
        y.vregs = (gr.takeReply ((word 0x18).extractLsb' 32 32) d (fun l => s.homeWord (h.blockAt slot l + 40))
          fun l => s.homeWord (h.blockAt slot l + 48)).vregs ∧
        (y.frontier.map fun e => (e.off, e.mask)) =
          (joinEntry gr.frontier ⟨0, next, (word 0x18).extractLsb' 0 32⟩).map (fun e => (e.off, e.mask)) ∧
        y.svcReplies.map (·.slot) = (gr.svcReplies.map (·.slot)).filter fun k => k != slot))

/-! ## Frames, snapshots and hedges -/

/-- Migration and pool ownership (R363, R365 to R371, R373, R377): the copy starts with an empty window, a larger leaf being
split first; at SWITCH the new frame holds the old frame's bytes with the window's applied, no other byte changes, and poisoned
lines travel; FORWARD_END leaves the old frame to be scrubbed, reading zero; a migration given up retires its target. Ownership
requests queue at the owner, which hands the frame to the oldest and passes the others on. A store to a frame in COPY stands in
the window, where no L1 has a dirty byte to write back beside it. EPOCH_BOUNDARY halves the counts, and a scrubbed frame is FREE.
That a frame reads zeros from PENDING-SCRUB on (log 34), what FORWARD_END waits for (`State.quiet`, log 25), that an accepted
request waits while its frame may not move (log 92), and who maps a pool frame and learns of its new owner (log 93), are the
model's choices. -/
def Obligations.Migrations : Prop :=
  (∀ (s : State) (f n : Nat) (t : Tier) (h : Hedge), (s.frame f).owner.bind s.hedge = some h →
    let starts (i : Instr) (v : State) (places : List PlaceReq) : Prop := ∃ u, exec i s = .next u ∧
      (u.frame f).mig = some (.copy n t []) ∧ (u.frame n).owner = some h.p.id ∧ u.mem = v.mem ∧ u.places = places
    ((∀ l ∈ s.guestPages h f, l.2.2.1 ≤ 65536) → s.splitG h f = .ok s) ∧
    (s.mayCopy h f t 0 = true → ∀ v, s.splitG h f = .ok v → tierOfFrame n = t → n ∉ v.usedFrames → n < v.tierEnd t →
      starts (.migrationStart f n t) v s.places) ∧
    (s.mayCopy h f t 0 = false → exec (.migrationStart f n t) s = .next s) ∧
    (∀ i p, s.places[i]? = some p → p.hedge = h.p.id → s.hedge h.p.id = some h → p.frame = f → p.tier = t →
      (s.placeOver p = true → exec (.placeRequest i) s = .next { s with places := s.places.eraseIdx i }) ∧
      (s.placeOver p = false →
        (s.mayCopy h f t p.allowed = false → exec (.placeRequest i) s = .next s) ∧
        (s.mayCopy h f t p.allowed = true → ∀ v, s.splitG h f = .ok v →
          (v.freeFrame t = none → exec (.placeRequest i) s = .next s) ∧
          (v.freeFrame t = some n → starts (.placeRequest i) v (s.places.eraseIdx i)))))) ∧
  (∀ (s : State) (f n : Nat) (t : Tier) (w : List (Nat × Byte)) (h : Nat), (s.frame f).mig = some (.copy n t w) →
    (s.frame f).owner = some h → n ≠ f → s.memWf →
    let m := w.foldl (fun m p => m.write p.1 p.2) s.mem
    (∀ x ∈ s.poisoned f w, ∃ u, exec (.migrationSwitch f) s = .next u ∧ n * 512 + x % 512 ∈ u.bad ∧
      LogEntry.unconsumed h ∈ u.physLog) ∧
    (s.poisoned f w = [] → ∃ u, exec (.migrationSwitch f) s = .next u ∧
      (u.frame f).mig = some (.forward n) ∧ (u.frame f).pin = false ∧ (u.frame n).pin = (s.frame f).pin ∧
      (u.frame n).rd = (s.frame f).rd ∧ (u.frame n).wr = (s.frame f).wr ∧
      (u.frame n).migs = min 255 ((s.frame f).migs + 1) ∧
      ∀ a, u.mem.read a = if frameOf a = n then m.read (f * 65536 + a % 65536) else m.read a) ∧
    (∃ u, exec (.migrationAbandon f) s = .next u ∧ (u.frame f).mig = none ∧ (u.frame n).retired = true ∧
      ∀ a, u.mem.read a = if frameOf a = n then 0 else m.read a)) ∧
  (∀ (s : State) (f n : Nat) (h : Hedge), (s.frame f).mig = some (.forward n) →
    (s.frame f).owner.bind s.hedge = some h →
    (s.quiet h.p.id = false → exec (.forwardEnd f) s = .next s) ∧
    (∀ c, s.quiet h.p.id = true → s.remapG h f n = .error c → exec (.forwardEnd f) s = .next s) ∧
    (∀ t, s.quiet h.p.id = true → s.remapG h f n = .ok t → ∃ u, exec (.forwardEnd f) s = .next u ∧
      (u.frame f).owner = none ∧ (u.frame f).scrub = true ∧ ∀ a, frameOf a = f → u.mem.read a = 0)) ∧
  (∀ (s : State) (f : Nat) (p : Pool), (s.frame f).pool = some p →
    let gives (i : Instr) (q : Pool) (ms : List Msg) : Prop := ∃ u, exec i s = .next u ∧ (u.frame f).pool = some q ∧
      u.outbox = s.outbox ++ ms
    (p.owned = true → (∀ a, gives (.ownershipRequest f a) { p with
          requests := p.requests ++ [a], sharers := if a ∈ p.sharers then p.sharers else p.sharers ++ [a] } []) ∧
      (p.requests = [] → exec (.ownershipGrant f) s = .next s) ∧
      ∀ a rest, p.requests = a :: rest →
        (s.inCopy (f * 65536) = true ∨ s.frameBusy f = true → exec (.ownershipGrant f) s = .next s) ∧
        (s.inCopy (f * 65536) = false → s.frameBusy f = false →
          (∀ h, (s.frame f).owner.bind s.hedge = some h → h.loggedFrame f = true →
            exec (.ownershipGrant f) s = .next (s.wantSnap h.p.id)) ∧
          ((∀ h, (s.frame f).owner.bind s.hedge = some h → h.loggedFrame f = false) →
            gives (.ownershipGrant f) { p with owner := some a, requests := [] }
              (.ownerGrant f a :: rest.map (.ownerForward f a))))) ∧
    (p.owned = false → (p.asked = false → gives (.ownershipGrant f) { p with asked := true } [.ownerRequest f]) ∧
      (∀ o, p.asked = true → p.owner = some o → gives (.ownershipGrant f)
        { p with owner := none, asked := false, sharers := if o ∈ p.sharers then p.sharers else p.sharers ++ [o] } []) ∧
      ∀ a, exec (.ownershipRequest f a) s = .next s)) ∧
  (∀ s : State, (∃ u, exec .epochBoundary s = .next u ∧ u.mem = s.mem ∧
      ∀ f, (u.frame f).rd = (s.frame f).rd / 2 ∧ (u.frame f).wr = (s.frame f).wr / 2) ∧
    ∀ f, (s.frame f).scrub = true → (s.frames.map (·.1)).Nodup → ∃ u, exec (.scrubComplete f) s = .next u ∧ u.mem = s.mem ∧
      ((s.frame f).retired = false → (s.frame f).owner = none → u.frame f = Frame.free (tierOfFrame f)) ∧
      ((s.frame f).retired = true ∨ (s.frame f).owner ≠ none → u.frame f = { s.frame f with scrub := false })) ∧
  (∀ (s : State) (g p l a va : Nat) (off : Int) (gr : Group) (o : Op) (data : List Byte) (n : Nat) (t : Tier) (w : List (Nat × Byte)),
    s.group g = some gr → gr.pend.find? (fun o => o.id == p) = some o → o.kind = .store → o.dst = .none →
    o.accs = [⟨l, (List.range data.length).map fun i => Place.home (a + i), data, [], va, off⟩] → o.writes = true →
    o.rel = false → o.acq = false → gr.role = .single → s.mayPerform gr o = true → s.opError gr o = none →
    s.l1Clean →
    data ≠ [] → a / 65536 = (a + data.length - 1) / 65536 → (s.frame (frameOf a)).mig = some (.copy n t w) →
    s.logFits ((List.range data.length).map fun i => (none, a + i)) = true →
    (∀ i, i < data.length → s.windowRoom (a + i) = true ∧ s.isMismatched (a + i) = false) →
    exec (.storePerformed g p) s = .next s ∧
    ∃ u, exec (.stalledWriteAccept g p) s = .next u ∧ u.group g = some (gr.dropOp o.id) ∧ u.mem = s.mem ∧
      ∀ i, i < data.length → u.homeRead (a + i) = data.getD i 0)

/-- SNAPSHOT and ROLLBACK (R303, R403 to R407): a snapshot is taken once the management cores assist and the hedge is ready,
and asked for until then; it begins a new interval with an empty log and holds what a rollback restores. Where the open batches
of a pair differ, the pair disagrees instead. The log replayed in reverse gives every byte the value that its line had when it
first entered the log, but for the words of the error queue and the error counters. A second rollback of one cause in an
interval, or one with no snapshot, resets the hedge. That accumulators of reduction windows belong to a snapshot (log 62), and
that the snapshot holds the machine's own data beside the images (log 33), are the model's choices. -/
def Obligations.SnapshotsAndRollbacks : Prop :=
  (∀ (s : State) (h : Hedge), s.hedge h.p.id = some h → h.moving = none →
    let ready : Prop := s.assisted h = true ∧ s.snapReady h.p.id = true
    (¬ready → exec (.snapshot h.p.id) s = .next (s.askSnapshot h)) ∧
    (ready → s.openDiff (s.hedgeGroups h.p.id) = none →
      (∀ d r, s.request (.snapshot h.p.id d) = some r → r.counter = none) →
      ∃ t k x, exec (.snapshot h.p.id) s = .next t ∧ t.hedge h.p.id = some k ∧
        k.interval = h.interval + 1 ∧ k.log = [] ∧ k.freed = [] ∧ k.rolled = [] ∧ k.sentAdds = 0 ∧ k.sentBytes = 0 ∧
        k.wantSnap = false ∧ k.launches = h.launches ∧ k.snap = some x ∧ x.interval = h.interval + 1 ∧ x.launches = h.launches ∧
        x.nextSeq = h.nextSeq ∧ x.bufs = h.bufs ∧ x.vsatp = h.vsatp ∧ x.accs = h.accs ∧
        ∀ d ∈ h.dies, t.request (.snapshot h.p.id d) = none) ∧
    (ready → ∀ g a b, s.openDiff (s.hedgeGroups h.p.id) = some (g, a, b) → ∃ t y, exec (.snapshot h.p.id) s = .next t ∧
      t.group g.id = some y ∧ (y.stop.map (·.code)) = some .sdc ∧ t.hedge h.p.id = some h ∧ t.mem = s.mem)) ∧
  (∀ (s : State) (h : Hedge) (a : Nat), s.memWf → (∀ l ∈ s.bad, (s.frame (frameOf (l * 128))).owner ≠ some h.p.id) →
    let hub : Prop := ∃ r ∈ s.hubRuns h, r.1 ≤ a ∧ a < r.1 + r.2
    let line := h.log.find? fun x => x.shadow.isNone && decide (x.line * 128 ≤ a) && decide (a < x.line * 128 + x.data.length)
    (hub → (s.replayLog h).mem.read a = s.mem.read a) ∧
    (¬hub → (∀ x, line = some x → (s.replayLog h).mem.read a = x.data.getD (a - x.line * 128) 0) ∧
      (line = none → (s.replayLog h).mem.read a = s.mem.read a))) ∧
  (∀ (s : State) (h : Hedge) (cause : RollCause) (addr : RollAt), s.hedge h.p.id = some h →
    (∀ x, h.snap = some x → (∀ r ∈ h.rolled, r.1 ≠ cause) → ∃ t k, exec (.rollback h.p.id cause addr) s = .next t ∧
      t.hedge h.p.id = some k ∧ k.interval = x.interval ∧ k.launches.map (·.seq) = x.launches.map (·.seq) ∧
      k.nextSeq = x.nextSeq ∧ k.bufs = x.bufs ∧ k.vsatp = x.vsatp ∧ k.accs = x.accs ∧
      k.rolled = h.rolled ++ [(cause, h.interval)]) ∧
    (h.snap = none ∨ (∃ r ∈ h.rolled, r.1 = cause) → ∃ t k, exec (.rollback h.p.id cause addr) s = .next t ∧
      t.hedge h.p.id = some k ∧ k.interval = 1 ∧ k.launches = [] ∧ k.bufs = [] ∧ k.epoch = h.epoch + 1 ∧
      k.key = h.key + 1 ∧ LogEntry.reset h.p.id ∈ t.physLog))

/-- Hedges (R153, R173, R305, R344, R380 to R383, R403, R414, R415): creation writes the slot maps of the rectangle and begins
interval 1, or is refused whole; a reset gives a new key and epoch, and keeps rectangle and core map; a destroyed hedge
owns no frame; a resize that displaces nothing takes effect at once; a fenced core; a live migration, which a target
lacking a feature refuses, which stops the hedge and takes all of it away, and by which a hedge arrives here as it was; the
entries of the service kernel's tables; and errors as they are detected: a corrected one, a die's, a pool page's, a line's of
scratch or of an L1, and one in a clause fetched ahead, those of a cluster being gathered in a system turn. What a reset keeps
(log 54), how a hedge goes and arrives (logs 57, 95), and that the pool's extents and keys are told through
SERVICE_TABLE_WRITE (logs 15, 84), are the model's choices. -/
def Obligations.Hedges : Prop :=
  (∀ (s : State) (p : HedgeParams), (s.createOk p = false → exec (.hedgeCreate p) s = .next s) ∧
    (s.createOk p = true → ∃ t k, exec (.hedgeCreate p) s = .next t ∧ t.hedge p.id = some k ∧ k.p = p ∧ k.rect = p.rect ∧
      k.slots = p.slots ∧ k.map = rectCores p.rect ∧ k.launches = [] ∧ k.bufs = [] ∧ k.epoch = 1 ∧ k.interval = 1 ∧
      (∀ c ∈ rectCores p.rect, ∀ i ∈ p.slots, (s.core c).slots.length = 16 → (t.core c).slots.getD i none = some p.id) ∧
      ∀ h, h ≠ p.id → (t.hedge h).map (·.p) = (s.hedge h).map (·.p))) ∧
  (∀ (s : State) (h : Hedge), s.hedge h.p.id = some h →
    (∃ t, exec (.hedgeDestroy h.p.id) s = .next t ∧ t.hedge h.p.id = none ∧
      ∀ f, (t.frame f).owner ≠ some h.p.id) ∧
    (∃ t k, exec (.hedgeReset h.p.id) s = .next t ∧ t.hedge h.p.id = some k ∧ k.p = h.p ∧ k.rect = h.rect ∧ k.map = h.map ∧
      k.slots = h.slots ∧ k.epoch = h.epoch + 1 ∧ k.key = h.key + 1 ∧ k.interval = 1 ∧ k.launches = [] ∧ k.bufs = []) ∧
    (∀ r ss, h.resize = none →
      (s.resizeOk h r ss = false → exec (.hedgeResize h.p.id r ss) s = .next s) ∧
      (∀ m, s.resizeOk h r ss = true → s.newMap h r = some m →
        (s.displaced h m ss = [] → ∃ t k, exec (.hedgeResize h.p.id r ss) s = .next t ∧ t.hedge h.p.id = some k ∧
          k.rect = r ∧ k.slots = ss ∧ k.map = m ∧ k.resize = none) ∧
        (s.displaced h m ss ≠ [] → exec (.hedgeResize h.p.id r ss) s =
          .next ((s.displaced h m ss).foldl (fun u w => u.askSave w.id)
            (s.mapHedge h.p.id fun x => { x with resize := some (r, ss) }))))) ∧
    (∀ (faddr : BitVec 48) (target : BitVec 256),
      (h.features &&& ~~~target ≠ 0 → exec (.liveMigration h.p.id faddr target) s =
        .next (s.mapHedge h.p.id fun x => { x with moving := none })) ∧
      (h.features &&& ~~~target = 0 → ∃ t, exec (.liveMigration h.p.id faddr target) s = .next t ∧
        t.hedge h.p.id = some { h with moving := some faddr, wantSnap := true } ∧ t.mem = s.mem ∧
        ∀ d ∈ h.dies, d < s.mgmt.length → (t.request (.snapshot h.p.id d)).isSome = true) ∧
      (h.moving = some faddr →
        (s.assisted h = false ∨ s.snapReady h.p.id = false ∨ s.noCopy h.p.id = false →
          exec (.snapshot h.p.id) s = .next (s.askSnapshot h)) ∧
        (s.assisted h = true → s.snapReady h.p.id = true → s.noCopy h.p.id = true →
          s.openDiff (s.hedgeGroups h.p.id) = none → ∃ t m, exec (.snapshot h.p.id) s = .next t ∧
            t.hedge h.p.id = none ∧ Msg.migrate faddr m ∈ t.outbox ∧ m.hedge.p = h.p ∧ m.hedge.epoch = h.epoch ∧
            m.snap.interval = h.interval + 1 ∧ m.snap.nextSeq = h.nextSeq ∧
            ∀ p ∈ h.peers, Msg.switch p.1 p.2 h.p.id faddr ∈ t.outbox))) ∧
    (∀ (i : Nat) (w0 w1 w2 w3 : Word64),
      let writes (w : TableWrite) (f : Hedge → Hedge) : Prop :=
        exec (.serviceTableWrite w) s = .next (s.mapHedge h.p.id f)
      (1 ≤ i → i < 16 → h.interleaveOk w0 w1 = true → writes (.interleave h.p.id i w0 w1) fun x =>
        { x with interleave := put1 x.interleave i [w0, w1] }) ∧
      (i = 0 ∨ 16 ≤ i ∨ h.interleaveOk w0 w1 = false → exec (.serviceTableWrite (.interleave h.p.id i w0 w1)) s = .next s) ∧
      (1 ≤ i → i < 4096 → writes (.route h.p.id i w0 w1 w2 w3) fun x =>
        { x with routes := put1 x.routes i [w0, w1, w2, w3] }) ∧
      (i < 1024 → h.features.getLsbD 5 = true → writes (.bank h.p.id i w0 w1 w2 w3) fun x =>
        { x with banks := put1 x.banks i [w0, w1, w2, w3] }) ∧
      (i < 1024 → h.features.getLsbD 6 = true → writes (.window h.p.id i w0 w1 w2 w3) fun x =>
        { x with windows := put1 x.windows i [w0, w1, w2, w3], accs := x.accs.filter fun p => p.1.1 != i }) ∧
      (∀ key, exec (.serviceTableWrite (.poolKey h.p.id key)) s = .next (s.loadKey h.p.id true key)) ∧
      (∀ k, handleClass w0 ≠ 0 → handlePeer w0 = 0 → h.handleOk useAdd w0 = true → s.handleAt h 0 w0 = some (.here k) →
        (s.ctrBusy k = true → exec (.serviceTableWrite (.cinit h.p.id w0 w1)) s = .next s) ∧
        (s.ctrBusy k = false → s.ctrBad k = none → s.memWf → (∀ a, k = .c3 a → (s.frame (frameOf a)).mig = none) → ∃ t, exec (.serviceTableWrite (.cinit h.p.id w0 w1)) s = .next t ∧
          t.ctrValue k = w1)) ∧
      ∀ word, writes (.clearAcc h.p.id i word) fun x => { x with accs := del1 x.accs (i, word) })) ∧
  (∀ (s : State) (a : Arrival) (faddr : BitVec 48) (target : BitVec 256), let id := a.moved.hedge.p.id
    s.hedge id = none → s.arrivals.find? (fun x => x.moved.hedge.p.id == id) = some a →
    (s.arrivalOk a = false → exec (.liveMigration id faddr target) s = .next { s with arrivals := s.arrivals.erase a }) ∧
    (s.arrivalOk a = true → ∃ t k, exec (.liveMigration id faddr target) s = .next t ∧ t.arrivals = s.arrivals.erase a ∧
      t.hedge id = some k ∧ k.rect = a.rect ∧ k.slots = a.slots ∧ k.map = rectCores a.rect ∧ k.epoch = a.moved.hedge.epoch ∧
      k.interval = a.moved.snap.interval + 1 ∧ k.nextSeq = a.moved.snap.nextSeq ∧ k.bufs = a.moved.snap.bufs ∧
      k.launches.map (·.seq) = a.moved.snap.launches.map (·.seq) ∧ k.calls = a.moved.snap.calls)) ∧
  (∀ (s : State) (n : Nat), (∀ f ∈ s.usedFrames, tierOfFrame f = .pool → f < 29360128 + n) →
    (s.hedges.map fun h => h.p.quotaPool).sum ≤ n → n ≤ 268435456 →
    exec (.serviceTableWrite (.extents n)) s = .next { s with poolFrames := n }) ∧
  (∀ (s : State) (c : Nat), (∃ t, exec (.coreFence c) s = .next t ∧ (t.core c).fenced = true ∧
      LogEntry.fenced c ∈ t.physLog) ∧
    (∃ t, exec (.fencedCoreClear c) s = .next t ∧ (t.core c).fenced = false) ∧
    ((∀ h ∈ s.hedges, c ∉ h.map) →
      exec (.fencedCoreClear c) s = .next (s.mapCore c fun k => { k with fenced := false }))) ∧
  (∀ s : State, (∀ d e i, e = .die ∨ (∃ x, e = .page x) →
      exec (.fault d e i) s = .next (s.clusterEvent d (.failure d e i))) ∧
    (∀ n c i x, s.hedge n = some x →
      exec (.fault n (.counter c) i) s = .next (s.clusterEvent (x.clusterDie c) (.failure n (.counter c) i))) ∧
    (∀ d m e i n, s.mgmt[d]? = some m → m.turn % 8 = 7 → m.events = [.failure n e i] →
      ∃ t, exec (.mgmtTurn d) s = .next t ∧
        (e = .die → (∀ k, k / 256 = n → (t.core k).fenced = true) ∧ LogEntry.die n ∈ t.physLog) ∧
        (∀ x, e = .page x → t.poolRetired = s.poolRetired.set n (s.poolRetired.getD n 0 + 1) ∧
          LogEntry.retired n ∈ t.physLog) ∧
        (∀ c, e = .counter c → LogEntry.cluster (contextSlice n) n e ∈ t.physLog ∧ .rollback n .uncorr (.va 0) ∈ t.agenda)) ∧
    (∀ n i, ∃ t, exec (.fault n .corrected i) s = .next t ∧ t.physLog = s.physLog ++ [.error n true]) ∧
    (∀ n c i, let k := (find1 s.fixes (n, c, i)).getD 0 + 1
      ∃ t, exec (.fault n (.pageFix c) i) s = .next t ∧ find1 t.fixes (n, c, i) = some k ∧
        t.physLog = s.physLog ++ [.error n true] ∧
        ∀ m, s.mgmt[dieOf c]? = some m → ∃ x, t.mgmt[dieOf c]? = some x ∧ x.events = m.events ++
          if k = 16 then [.failure (dieOf c) (.page (some (n, c))) i] else []) ∧
    (∀ d i, ∃ t, exec (.fault d .scrubCycle i) s = .next t ∧ (∀ p ∈ t.fixes, dieOf p.1.2.1 ≠ d) ∧
      t = { s with fixes := t.fixes }) ∧
    (∀ w line x, s.wgOf w = some x → ∃ t y, exec (.fault w .scratch line) s = .next t ∧ t.wgOf w = some y ∧
      line ∈ y.bad ∧ y = { x with bad := y.bad }) ∧
    (∀ c k line, ∃ t, exec (.fault k (.l1Line c) line) s = .next t ∧ t.mem = s.mem ∧
      (∀ l ∈ (t.core c).l1, l.hedge = k → l.num = line → l.bad = true ∧ l.dirty ≠ 0)) ∧
    ∀ h i x, s.hedge h = some x → ∃ t k, exec (.fault h .fetchAhead i) s = .next t ∧ t.hedge h = some k ∧
      k.unconsumed = x.unconsumed + 1 ∧ LogEntry.unconsumed h ∈ t.physLog)

/-! ## Peers, the G-die and the package -/

/-- What a peer asks and what becomes of it (R435 to R442): a request is answered by nobody before the package is up,
forwarded after a hedge that has moved while its peer has not switched, refused with EINVAL where no route accepts it and with
the code of its first failing check otherwise, and else accepted; an accepted operation is performed at the home and replied to,
with no other change of memory where no L1 has dirty bytes; the add of a watch that this hedge holds at a peer is made on its
target. An operation, or an add, of this package that a peer refuses, or whose route is lost, is no longer outstanding. That
nothing is answered before the package is up (log 59), what counts towards a route's watches and the order of a peer's watch
(log 60), EADDR for a misaligned atomic and the codes that leave with a read (log 61), and that an add of 2^63 or more is refused
(R203; log 83), are the model's choices. -/
def Obligations.Peers : Prop :=
  (∀ (s : State) (r : PeerReq),
    let refuses (code : Nat) : Prop := exec (.peerRequest r) s = .next (s.refusePeer r code)
    (s.stage ≠ .up → exec (.peerRequest r) s = .next s) ∧
    (s.stage = .up → opSwitches r.op = false →
      (s.hedge r.hedge = none ∨ (∃ h, s.hedge r.hedge = some h ∧ h.routeOf r = none) →
        (s.movedTo r = none → refuses einval) ∧
        ∀ f, s.movedTo r = some f → exec (.peerRequest r) s = .next (s.send (.forward f r))) ∧
      (∀ h, s.hedge r.hedge = some h →
        ∀ route entry, h.routeOf r = some (route, entry) →
          (∀ code, s.peerRefuses h route entry r = some code → refuses code) ∧
          (s.peerRefuses h route entry r = none → peerAmountOk r.op = false → refuses einval) ∧
          (s.peerRefuses h route entry r = none → peerAmountOk r.op = true →
            exec (.peerRequest r) s = .next { s with jobs := s.jobs ++ [⟨r, []⟩] }))) ∧
    (s.stage = .up → ∀ f h, r.op = .moved f → s.hedge r.hedge = some h → ∃ t k, exec (.peerRequest r) s = .next t ∧
      t.outbox = s.outbox ++ [.switched r.faddr r.phedge r.hedge] ∧ t.hedge r.hedge = some k ∧
      ∀ i e, find1 h.routes i = some e → find1 k.routes i = some (if onRoute { r with op := .switched } e
        then ((e.getD 0 0).extractLsb' 48 16 ++ f) :: e.drop 1 else e)) ∧
    (s.stage = .up → r.op = .switched → (∀ x ∈ s.movedAway, x.2.2.Nodup) →
      ∃ t, exec (.peerRequest r) s = .next t ∧ t.movedTo r = none)) ∧
  (∀ (s : State) (h : Hedge) (route : Nat) (entry : List Word64) (r : PeerReq) (buf off : Nat) (data : List Byte),
    r.op = .rmaWrite buf off data none →
    (s.peerRefuses h route entry r = none ↔ buf < 0xFF0 ∧ ∃ e, h.entry buf = some e ∧ e.owner = h.p.id ∧
      e.remote = true ∧ e.w = true ∧ e.counter = false ∧ e.fabred = false ∧ e.bankmv = false ∧
      off + data.length ≤ e.len) ∧
    (0xFF0 ≤ buf → buf ≤ 0xFFF → s.peerRefuses h route entry r = some ewindow)) ∧
  (∀ (s : State) (i : Nat) (j : PeerJob) (h : Hedge) (pa : Nat) (nc : Bool), s.jobs[i]? = some j →
    s.hedge j.req.hedge = some h → h.wantSnap = false →
    let ends (t : State) (data : List Byte) : State :=
      { t with jobs := t.jobs.eraseIdx i }.send (.reply j.req.faddr 0 data [])
    (∀ x, peerHandle j.req.op = some x → s.jobBehind i j.req = false →
      (∀ w n, h.jobWatch j.req = some w → j.req.op = .cadd x n → ∃ t k, exec (.remoteCounterOp i) s = .next t ∧
        t.adds = s.adds ++ [⟨.here w.key, h.p.id, none, n.toNat, some (w.source, w.target), some none, false⟩] ∧
        t.jobs = s.jobs.eraseIdx i ∧ t.outbox = s.outbox ++ [.reply j.req.faddr 0 [] []] ∧
        t.hedge j.req.hedge = some k ∧ k.farWatches = h.farWatches.erase w) ∧
      (h.jobWatch j.req = none → let b := s.hubReach h (h.ctrVa x)
        (∀ f, s.findCtr h x (if j.watches then needR else needCtr) = .later f →
          exec (.remoteCounterOp i) s = .next (s.askOwner f)) ∧
        (s.findCtr h x needCtr = .at_ pa nc → s.logRoom pa = true →
          (∀ n, j.req.op = .cadd x n → exec (.remoteCounterOp i) s =
            .next (ends ((b.tagCtr (.c3 pa) none .sys 0 h.p.id).addCtr (.c3 pa) n.toNat) [])) ∧
          (∀ n, j.req.op = .cnext x n → let t := (b.promoteCtr (.c3 pa) fun _ => true).tagCtr (.c3 pa) none .sys 0 h.p.id
            exec (.remoteCounterOp i) s = .next (ends (t.addCtr (.c3 pa) n.toNat)
              (leBytes 8 (t.ctrValue (.c3 pa)).toNat))) ∧
          (∀ v, j.req.op = .cinit x v → exec (.remoteCounterOp i) s = .next
            (ends (if b.ctrBusy (.c3 pa) then b
              else (b.tagCtr (.c3 pa) none .sys 0 h.p.id).setCtr (.c3 pa) v) []))) ∧
        (∀ t target n ar route entry, s.findCtr h x needR = .at_ pa nc → j.req.op = .watch x t target n ar →
          h.routeOf j.req = some (route, entry) → exec (.remoteCounterOp i) s = .next (ends (b.arm none (.c3 pa)
            ⟨.watch h.p.id (.peer (reverseHandle target route)) n.toNat none
              ⟨if ar then some .sys else none, some none⟩ (x, target), h.p.id, t⟩) [])))) ∧
    (∀ buf off e, h.entry buf = some e → h.inWriteSet buf off = false → s.logRoom pa = true →
      s.windowRoom pa = true → s.l1Clean → s.memWf →
      (∀ data : List Byte, j.req.op = .rmaWrite buf off data none → data ≠ [] → j.done = [] → e.pub = false →
        off / 32 = (off + data.length - 1) / 32 → s.find h ((e.vbase + off) % 2 ^ 64) needW = .at_ pa nc →
        (∀ k, k < data.length → (s.frame (frameOf (pa + k))).mig = none ∧ s.isMismatched (pa + k) = false) →
        ∃ t, exec (.rmaWrite i (off / 32)) s = .next t ∧ t.mem = s.mem.writeN pa data ∧ t.jobs = s.jobs.eraseIdx i ∧
          t.outbox = s.outbox ++ [.reply j.req.faddr 0 [] []]) ∧
      (∀ op ty x, j.req.op = .rmaAtomic buf off op ty x → s.find h ((e.vbase + off) % 2 ^ 64) needRW = .at_ pa nc →
        (∀ k, k < atomBytes ty → (s.frame (frameOf (pa + k))).mig = none ∧ s.isBad (pa + k) = false ∧
          s.isMismatched (pa + k) = false) → let n := atomBytes ty
        ∃ t, exec (.rmaWrite i (off / 32)) s = .next t ∧ t.jobs = s.jobs.eraseIdx i ∧
          t.mem = s.mem.writeN pa (leBytes n (atomNew op ty (leNat (s.homeReadN pa n)) (x.toNat % 2 ^ (8 * n)))) ∧
          t.outbox = s.outbox ++ [.reply j.req.faddr 0 (s.homeReadN pa n) []]) ∧
      (∀ len, j.req.op = .rmaRead buf off len → len ≠ 0 → e.fabred = false → off / 32 = (off + len - 1) / 32 →
        s.consumeFault [.home pa] = none → s.find h ((e.vbase + off) % 2 ^ 64) needR = .at_ pa nc →
        ∃ t, exec (.rmaRead i) s = .next t ∧ t.mem = s.mem ∧ t.jobs = s.jobs.eraseIdx i ∧
          t.outbox = s.outbox ++ [.reply j.req.faddr 0 (s.homeReadN pa len) [s.storedCode pa]]) ∧
      (∀ ty c, j.req.op = .contribute buf off ty c → exec (.reductionMerge i) s =
        .next (ends (s.mergeAt h.p.id e.aux (off / atomBytes ty) c) [])))) ∧
  (∀ (s : State) (g : Nat) (gr : Group) (o : Op) (h : Hedge) (route : Nat) (x : Word64), s.group g = some gr →
    s.hedge gr.hedge = some h → h.sentTo o = some (route, x) →
    (∀ code, gr.pend.find? (fun y => y.id == o.id) = some o → ∃ t y, exec (.peerRefusal (some g) o.id code) s = .next t ∧
      t.group g = some y ∧ ∀ q ∈ y.pend, q.id ≠ o.id) ∧
    (o ∈ gr.pend → ∃ t y, exec (.routeTimeout gr.hedge route) s = .next t ∧ t.group g = some y ∧
      ∀ q ∈ y.pend, q.id ≠ o.id)) ∧
  (∀ (s : State) (a : AddReq) (x : Word64), a.sentTo = some x →
    (∀ p code, s.adds[p]? = some a → ∃ t more, exec (.peerRefusal none p code) s = .next t ∧
      t.adds = s.adds.erase a ++ more) ∧
    (∀ p code, s.adds[p]? = none → exec (.peerRefusal none p code) s = .next s) ∧
    ((s.hedge a.hedge).isSome = true → s.adds.count a = 1 → ∃ t, exec (.routeTimeout a.hedge (handlePeer x)) s = .next t ∧ a ∉ t.adds))

/-- G_DIE_ACCESS (R203, R328): for a core that the hedge owns, an access whose bytes its pages allow is performed at its home:
a load and LR read, LR reserves, SC stores where its reservation holds and writes 0, or 1 otherwise, an AMO writes its
result and returns the old value, and an AMOADD.D to a counter's word adds to the counter; a misaligned load or store is
performed a byte at a time. A misaligned LR, SC or AMO, a byte that is not mapped, and another write of a counter's word
raise an exception and change no memory; FENCE r,rw promotes the releases that the thread's loads have met, any other fence
changes nothing; its software sends bytes to another package (R432), and reads a counter by its handle (R429). No other byte
changes where no L1 has dirty bytes to write back. That only adds and CINIT change a counter's word (log 83), and how a thread
waits, is paused, goes on byte by byte and reads a counter (log 63), are the model's choices. -/
def Obligations.GDieAccesses : Prop :=
  ∀ (s : State) (h : Hedge) (hart : Nat) (va : Word64) (op : GOp), s.hedge h.p.id = some h →
    let run := exec (.gDieAccess hart h.p.id va op) s
    (hart ∉ h.p.gCores → run = .next s) ∧
    (hart ∈ h.p.gCores → h.wantSnap = false →
      (∀ rel, (op = .fence false rel → run = .next s) ∧
        (op = .fence true rel → ∃ t, run = .next t ∧ (t.hart hart).metTags = [] ∧ (t.hart hart).metCtrs = [] ∧
          ∀ p ∈ (s.hart hart).metTags, t.tagOf (p.1 * 512) ≠ some p.2)) ∧
      (∀ f data, op = .send f data → ∃ t k, run = .next t ∧ t.outbox = s.outbox ++ [.transfer f h.p.id data] ∧
        t.hedge h.p.id = some k ∧ k.sentBytes = h.sentBytes + data.length ∧ t.mem = s.mem) ∧
      (∀ x acq, op = .ctr x acq →
        (handleClass x = 0 ∨ h.handleOk useRead x = false → ∃ t, run = .next t ∧ (t.hart hart).raised = true ∧ t.mem = s.mem) ∧
        (handleClass x ≠ 0 → h.handleOk useRead x = true → ∀ k, s.handleAt h 0 x needR = some (.here k) → s.l1Clean →
          ∃ t, run = .next t ∧ (t.hart hart).raised = false ∧ (t.hart hart).value = s.ctrView k h.p.id 0 ∧ t.mem = s.mem)) ∧
      ((∀ a b, op ≠ .fence a b) → gWidthOk op = true →
        let n := gBytes op
        let raises : Prop := ∃ t, run = .next t ∧ (t.hart hart).raised = true ∧ t.mem = s.mem
        let at_ (need : Need) (i pa : Nat) : Prop := (∃ nc, s.find h ((va.toNat + i) % 2 ^ 64) need = .at_ pa nc) ∧
          h.specCovers ((va.toNat + i) % 2 ^ 64) = false ∧ s.logRoom pa = true ∧ s.windowRoom pa = true ∧
          s.isBad pa = false ∧ s.isMismatched pa = false ∧ (s.frame (frameOf pa)).mig = none
        (gReserves op = true → va.toNat % n ≠ 0 → raises) ∧ (h.gAllows va.toNat op = false → raises) ∧
        (h.gAllows va.toNat op = true → va.toNat % n = 0 →
          let need : Need := { gNeed op with ctr := h.addsCounter va.toNat op }
          ((∃ i, i < n ∧ s.find h ((va.toNat + i) % 2 ^ 64) need = .missing) → raises) ∧
          ∀ pa, (∀ i, i < n → at_ need i (pa + i)) → s.logFits ((List.range n).map fun i => (none, pa + i)) = true → s.l1Clean →
            s.memWf →
            let old := leNat (s.mem.readN pa n)
            let does (v : Option Nat) (m : Memory) (r : Option (Nat × Nat)) : Prop := ∃ t, run = .next t ∧ t.mem = m ∧
              (t.hart hart).raised = false ∧ (∀ x, v = some x → (t.hart hart).value = BitVec.ofNat 64 x) ∧
              ((gReserves op = true ∧ ∀ o a b d, op ≠ .amo n o a b d) → (t.hart hart).reserved = r)
            (op = .load n → does (some old) s.mem none) ∧
            (∀ a b, op = .lr n a b → does (some old) s.mem (some (pa, n))) ∧
            (∀ d, op = .store n d → does none (s.mem.writeN pa (leBytes n d.toNat)) none) ∧
            (∀ a b d, op = .sc n a b d →
              ((s.hart hart).reserved = some (pa, n) → does (some 0) (s.mem.writeN pa (leBytes n d.toNat)) none) ∧
              ((s.hart hart).reserved ≠ some (pa, n) → does (some 1) s.mem none)) ∧
            (∀ o a b d, op = .amo n o a b d →
              (h.addsCounter va.toNat op = false → does (some old)
                (s.mem.writeN pa (leBytes n (amoNew o (8 * n) old (d.toNat % 2 ^ (8 * n))))) none) ∧
              (h.addsCounter va.toNat op = true → ∃ t, run = .next t ∧
                (t.hart hart).value = BitVec.ofNat 64 old ∧ (t.hart hart).raised = false ∧
                t.ctrValue (.c3 pa) = s.ctrValue (.c3 pa) + d))) ∧
        (h.gAllows va.toNat op = true → va.toNat % n ≠ 0 → ∀ done, done.length < n →
          (s.hart hart).todo = some (va.toNat, done) ∨ (s.hart hart).todo = none ∧ done = [] →
          (s.find h ((va.toNat + done.length) % 2 ^ 64) (gNeed op) = .missing → raises) ∧
          ∀ pa, at_ (gNeed op) done.length pa → s.l1Clean → s.memWf →
            let goes (b : Byte) (m : Memory) : Prop := ∃ t, run = .next t ∧ t.mem = m ∧ (t.hart hart).raised = false ∧
              (t.hart hart).todo = if done.length + 1 < n then some (va.toNat, done ++ [b]) else none
            (op = .load n → goes (s.mem.read pa) s.mem ∧
              (done.length + 1 = n → ∃ t, run = .next t ∧
                (t.hart hart).value = BitVec.ofNat 64 (leNat (done ++ [s.mem.read pa])))) ∧
            ∀ d, op = .store n d → let b := (leBytes n d.toNat).getD done.length 0
              goes b (s.mem.write pa b))))

/-- The package's own events (R305, R307, R313, R322, R338, R351, R352, R362, R443 to R445): the boot sequence with its
second bank, its measurements, its fencing and its recovery; the attestation report with a signature of 29,792 bytes; clock
changes; a management core's reset; the loss of a CXL link; write-back, invalidation and expiry of cached lines and translations.
That each die's management core loads the one image of the stage, and that a signed image ends a recovery (log 59), are the
model's choices, as is what an invalidation waits for (`State.quiet`, log 25). -/
def Obligations.PackageEvents : Prop :=
  (∀ (s : State) (image : List Byte),
    let boots (stage : Fin 4) (good : Stage) (bad : State) : Prop := exec (.boot image) s =
      .next (if imageOk stage image then { s.measure stage image with stage := good } else bad)
    let dead (x : State) : State := x.logEvent .bootFailure
    (s.stage = .rom → boots 0 .loader { s with stage := .romB }) ∧
    (s.stage = .romB → boots 0 .loader (dead { s with stage := .recovery })) ∧
    (s.stage = .loader → boots 1 .kernel { s with stage := .loaderB }) ∧
    (s.stage = .loaderB → boots 1 .kernel (dead { s with stage := .recovery })) ∧
    (let holds (t : State) (die : Nat) (next : Stage) : State :=
        { t.mapMgmt die (fun m => { m with sram := image.take 262144 }) with stage := next }
      let fails (die : Nat) (next : Stage) : State := dead { s with stage := next, deadDies := s.deadDies ++ [die] }
      (s.stage = .kernel → exec (.boot image) s =
        .next (if imageOk 2 image then holds (s.measure 2 image) 0 .mgmt else fails 0 .mgmt)) ∧
      (s.stage = .mgmt → 0 ∈ s.deadDies → exec (.boot image) s =
        .next (if imageOk 2 image then holds (s.measure 2 image) 1 .gdie else fails 1 .gdie)) ∧
      (s.stage = .mgmt → 0 ∉ s.deadDies → ∀ m, s.mgmt[0]? = some m → exec (.boot image) s =
        .next (if imageOk 2 image = true ∧ m.sram = image.take 262144 then holds s 1 .gdie else fails 1 .gdie))) ∧
    (s.stage = .gdie → boots 3 .up (dead { s with stage := .up, noGDie := true })) ∧
    (s.stage = .up → exec (.boot image) s = .next s) ∧
    (s.stage = .recovery → exec (.boot image) s = .next (if imageOk 0 image
      then { ({ s with meas := Vector.replicate 4 0, versions := Vector.replicate 4 0 }.measure 0 image) with stage := .loader }
      else s)) ∧
    (∀ stage : Fin 4, (s.measure stage image).meas[stage] =
        shakeWord (leBytes 32 s.meas[stage].toNat ++ shake256 image) ∧
      ∀ k : Fin 4, k ≠ stage → (s.measure stage image).meas[k] = s.meas[k])) ∧
  (∀ (s : State) (h : Hedge) (nonce : BitVec 256), s.hedge h.p.id = some h →
    let body := s.reportBody h nonce
    ∃ sig : List Byte, sig.length = 29792 ∧
      exec (.attestationReport h.p.id nonce) s = .next (s.send (.report h.p.id (body ++ sig)))) ∧
  (∀ (s : State) (core mhz : Nat),
    let settable : Prop := 400 ≤ mhz ∧ mhz ≤ 1600 ∧ mhz % 100 = 0 ∧ core < 576
    (¬settable → ∀ forced, exec (.clockChange core mhz forced) s = .next s) ∧
    (settable → ∀ forced, ∃ t, exec (.clockChange core mhz forced) s = .next t ∧ t.clock core = mhz ∧
      (∀ c, c ≠ core → t.clock c = s.clock c) ∧ t.physLog =
        s.physLog ++ if forced then [LogEntry.clock core (s.clock core) mhz] else [])) ∧
  (∀ (s : State) (die : Nat) (m : Mgmt), s.mgmt[die]? = some m → ∃ t, exec (.mgmtCoreReset die) s = .next t ∧
    t.mgmt[die]? = some { m with queue := [], requests := m.requests.map fun r => { r with taken := false } } ∧ t.physLog = s.physLog ++ [.mgmt die] ∧
    ∀ h g gr, (h, g) ∈ m.queue → s.group g = some gr → gr.emu = .queued → t.group g = some { gr with emu := .trapped }) ∧
  (∀ (s : State) (port : Nat), (port < 8 → port ∉ s.cxlDown →
      exec (.cxlLinkLoss port) s = .next ({ s with cxlDown := s.cxlDown ++ [port] }.logEvent (.link port))) ∧
    (8 ≤ port ∨ port ∈ s.cxlDown → exec (.cxlLinkLoss port) s = .next s)) ∧
  (∀ (s : State) (core : Nat) (l : Line), s.memWf → ((s.core core).l1.filter fun x => x.num == l.num) = [l] →
    l.data.length = 128 → l.bad = false → (s.frame (frameOf (l.num * 128))).mig = none →
    s.placesRoom true (l.dirtyBytes.map fun p => Place.home p.1) = true →
    ∃ t, exec (.writeBack (.l1 core) l.num) s = .next t ∧
      ((t.core core).l1.filter fun x => x.num == l.num) = [{ l with dirty := 0 }] ∧
      ∀ a, t.mem.read a = if a / 128 = l.num ∧ l.dirty.getLsbD (a % 128) = true then l.data.getD (a % 128) 0
        else s.mem.read a) ∧
  (∀ (s : State) (n : Nat),
    (∀ die, ∃ t, exec (.writeBack (.l2 die) n) s = .next t ∧ t.mem = s.mem ∧
      ∀ b ∈ t.l2, b.cache = die → b.num ≠ n / 4) ∧
    (∀ k, ∃ t, exec (.writeBack (.home k) n) s = .next t ∧ t.tagOf (n * 128) = none ∧
      (∀ b ∈ t.slices, b.cache = k → b.num ≠ n / 4) ∧ (s.l1Clean → t.mem = s.mem)) ∧
    (∀ h va len, (s.quiet h = true → exec (.translationInvalidate h va len) s = .next ((s.flushAll h).dropTlb h va len)) ∧
      (s.quiet h = false → exec (.translationInvalidate h va len) s = .next s)) ∧
    ∀ core q, exec (.quarterBufferExpiry core q n) s = .next (s.mapCore core fun k =>
      { k with quarters := k.quarters.filter fun x => !(x.quarter == q && x.line.num == n) }))

/-! ## Masks, registers and what every instruction does -/

/-- Registers of a group. P7 reads as true in every lane and a write of it is discarded (R14). A write of V[d] takes the
result and its tag in the lanes of the mask, an exited lane left out, keeps the other lanes and every other register, and
changes nothing where the mask is empty (R16, R17). A lane is in E when it is active and its predicate, turned round by GN,
is true (R29). -/
def Obligations.MasksAndRegisters : Prop :=
  ∀ g : Group,
    (∀ l, l < 32 → (g.predMask 7).getLsbD l = true) ∧
    (∀ e m, g.setP e 7 m = g) ∧
    (∀ (e : Mask) (p : BitVec 3) (m : Mask), p ≠ 7 → let x := g.setP e p m
      (∀ l, l < 32 → (x.predMask p).getLsbD l =
        if e.getLsbD l ∧ g.exited.getLsbD l = false then m.getLsbD l else (g.predMask p).getLsbD l) ∧
      (∀ q, q ≠ p → x.predMask q = g.predMask q) ∧ { x with preds := g.preds } = g) ∧
    (∀ (e : Mask) (n : Nat) (t : Tag) (f : Nat → Word32), n < g.vregs.length → let x := g.setV e n t f
      (e = 0 → x = g) ∧ (e ≠ 0 → x.tag n = t) ∧
      (∀ l, l < 32 → x.lane n l = if e.getLsbD l ∧ g.exited.getLsbD l = false then f l else g.lane n l) ∧
      (∀ k, k ≠ n → x.v k = g.v k) ∧ { x with vregs := g.vregs } = g) ∧
    (∀ (gd : Guard) (l : Nat), l < 32 → (g.eff gd).getLsbD l =
      (g.active.getLsbD l && ((g.predMask gd.p).getLsbD l ^^ gd.neg))) ∧
    (∀ c, g.clause = some c → ∀ l, l < 32 → g.active.getLsbD l = (c.mask.getLsbD l && !g.exited.getLsbD l)) ∧
    (∀ (r : Reg), g.regIndex r = r.n.toNat + if r.x then g.xi.toNat else 0)

/-- Issue of any instruction word but the clause-ending ones, CPY and RROT (R29, R31, R39): bits [12:10] name the guard
and bit 13 negates it; the instruction changes nothing, and does not go on, while its guard is still awaited (the model's
reading, log 26), and with an empty E it raises no fault and only goes on. With lanes in E the checks come in order, shown for VADD: REGBOUND of any
register field, a register that is still awaited (which the interlock of R140 holds at issue), and TAGMIS. VMOV of an FP6
register traps for emulation until it is done (R71). -/
def Obligations.IssueChecks : Prop :=
  (∀ (s : State) (i : Instr) (w : Word64), s.single → encode i = some w → clauseEnding w = false →
    w.extractLsb' 0 10 ≠ 0x2C0 → w.extractLsb' 0 10 ≠ 0x2C3 →
    let gd : Guard := ⟨w.extractLsb' 10 3, w.getLsbD 13⟩
    (s.focus.awaitsP gd.p = true → exec i s = .next s) ∧
    (s.focus.awaitsP gd.p = false → s.focus.eff gd = 0 → exec i s = s.gives s.focus)) ∧
  (∀ (s : State) (gd : Guard) (m : IntMod) (d a : Reg) (b : BSrc), s.runs gd →
    let g := s.focus
    let within : Prop := g.regIndex d < g.vregs.length ∧ g.regIndex a < g.vregs.length ∧
      match b with
      | .v r _ => g.regIndex r < g.vregs.length
      | .s r => g.regIndex r < g.sregs.length
    let awaited : Prop := g.awaitsV (g.regIndex d) = true ∨ g.awaitsV (g.regIndex a) = true ∨
      match b with
      | .v r _ => g.awaitsV (g.regIndex r) = true
      | .s r => g.awaitsS (g.regIndex r) = true
    let e : Expect := if m.n then .n32 else .i32
    let tags : Prop := e.accepts (g.tag (g.regIndex a)) = true ∧
      match b with
      | .v r _ => e.accepts (g.tag (g.regIndex r)) = true
      | .s _ => True
    (¬ within → exec (.vadd gd m d a b) s = .next (s.raisePlain (g.eff gd) .regbound)) ∧
    (within → awaited → exec (.vadd gd m d a b) s = .next s) ∧
    (within → ¬ awaited → ¬ tags → exec (.vadd gd m d a b) s = .next (s.raisePlain (g.eff gd) .tagmis)) ∧
    (g.hasV d → g.hasV a → isF6 (g.tag (g.regIndex a)) = true → g.emu ≠ .done →
      exec (.vmov gd d a) s = .next { s with focus := { g with emu := .trapped } }))

/-- What no instruction word changes in its group, over all of them: XI but by SETXI (R15), the lanes that have exited
but by EXIT (R17), the limb binding but by LBIND and LFREE (R184), the frontier, which changes between clauses (R165), the
allotments (R12), and V and P of a lane that has exited (R17). -/
def Obligations.GroupStateChanges : Prop :=
  ∀ (s t : State) (i : Instr) (w : Word64), encode i = some w → exec i s = .next t →
    let g := s.focus
    let h := t.focus
    h.id = g.id ∧ h.frontier = g.frontier ∧ h.code = g.code ∧
      h.vregs.length = g.vregs.length ∧ h.sregs.length = g.sregs.length ∧ h.tiles.length = g.tiles.length ∧
      (h.xi = g.xi ∨ (∃ gd imm, i = .setxi gd imm) ∨ (∃ gd a imm, i = .setxiS gd a imm) ∨ ∃ gd imm, i = .setxiAdd gd imm) ∧
      (h.exited = g.exited ∨ ∃ gd, i = .exit gd ∧ h.exited = g.exited ||| g.eff gd) ∧
      (h.limb = g.limb ∨ (∃ gd x, i = .lbind gd x) ∨ ∃ gd, i = .lfree gd) ∧
      ∀ l, l < 32 → g.exited.getLsbD l = true →
        (∀ n, h.lane n l = g.lane n l) ∧ ∀ p, (h.predMask p).getLsbD l = (g.predMask p).getLsbD l

/-! ## Faults -/

/-- Taking a fault (R339 to R343, R449). A group of its own takes it at once; of a checked pair the fault is taken once,
when both groups raise the same one at the same instruction; where they differ both stop, and the management core gets the
event with the values (R172, R304). The group stops where it
is, none of its registers changed; a fault that may resume gets the hedge's next token (log 9); the record goes to the
physical log; UNCORR and SDC ask for a rollback of the hedge before anything else happens (log 8). The record has the
fields of the table *Fault record*, and the codes are those of the table *Fault kinds*. -/
def Obligations.TakingFaults : Prop :=
  (∀ (s : State) (e : Mask) (i : FaultInfo), s.single → s.raise e i = s.takeFault e i) ∧
  (∀ (s : State) (e : Mask) (i : FaultInfo) (p : Group), s.focus.partner.bind s.group = some p →
    (p.issued = s.focus.issued → p.pairFault = none →
      s.raise e i = { s with focus := { s.focus with pairFault := some i.code } }) ∧
    (p.issued = s.focus.issued → p.pairFault = some i.code → s.raise e i = s.takeFault e i) ∧
    (∀ c, p.issued = s.focus.issued → p.pairFault = some c → c ≠ i.code →
      s.raise e i = s.mismatch e (faultNumber i.code) (faultNumber c)) ∧
    (s.focus.issued < p.issued → s.raise e i = s.mismatch e (faultNumber i.code) 0)) ∧
  (∀ (s : State) (e : Mask) (a b : Word64) (m : Mgmt), let g := s.focus
    let t := s.mismatch e a b
    s.mgmt[dieOf (s.coreOf g)]? = some m → (t.focus.stop.map fun x => (x.code, x.resumable)) = some (.sdc, false) ∧
      t.mgmt[dieOf (s.coreOf g)]? = some { m with
        events := m.events ++ [.mismatch ⟨g.hedge, s.faultRecord g e { code := .sdc } 0, g.position.2, e, a, b⟩] } ∧
      t.mem = s.mem ∧ t.physLog = s.physLog ∧ t.agenda = s.agenda) ∧
  (∀ (s : State) (e : Mask) (i : FaultInfo),
    let g := s.focus
    let token : Nat := if i.resumable then ((s.hedge g.hedge).map (·.nextToken)).getD 1 else 0
    let t := s.takeFault e i
    let h := t.focus
    h.stop = some ⟨i.code, i.resumable, false, token, i.gstage, i.byte.getD i.va⟩ ∧
      h.clause = g.clause ∧ h.frontier = g.frontier ∧ h.vregs = g.vregs ∧ h.sregs = g.sregs ∧ h.preds = g.preds ∧
      h.tiles = g.tiles ∧ h.xi = g.xi ∧ h.flags = g.flags ∧ h.exited = g.exited ∧ h.limb = g.limb ∧ h.pend = g.pend ∧
      t.physLog = s.physLog ++ [.record (i.slice g.hedge) g.hedge (s.faultRecord g e i token)] ∧
      (i.code = .uncorr → .rollback g.hedge .uncorr (.va i.va) ∈ t.agenda) ∧
      (i.code = .sdc → .rollback g.hedge .sdc (.va i.va) ∈ t.agenda) ∧
      ((s.hedge g.hedge).bind (·.errq) = none →
        t.agenda = (if i.code = .uncorr then [.rollback g.hedge .uncorr (.va i.va)] else
          if i.code = .sdc then [.rollback g.hedge .sdc (.va i.va)] else []) ++ s.agenda) ∧
      (t.hedge g.hedge).map (·.nextToken) =
        (s.hedge g.hedge).map (fun x => if i.resumable then x.nextToken + 1 else x.nextToken) ∧
      (i.code = .migr → t.mem = s.mem ∧ t.ctrs = s.ctrs)) ∧
  (∀ (s : State) (g : Group) (e : Mask) (i : FaultInfo) (token : Nat),
    let r := s.faultRecord g e i token
    let w (n : Nat) : Word64 := r.getD n 0
    let m := i.mask.getD e
    r.length = 8 ∧ (w 0).extractLsb' 58 6 = BitVec.ofNat 6 g.hedge ∧
      ((w 0).extractLsb' 52 6).toNat = faultNumber i.code ∧ (w 0).getLsbD 51 = i.resumable ∧ (w 0).getLsbD 50 = i.gstage ∧
      (w 0).extractLsb' 48 2 = BitVec.ofNat 2 i.acc ∧
      (w 0).extractLsb' 43 5 = BitVec.ofNat 5 (i.lane.getD (lowest m)) ∧
      (w 0).extractLsb' 37 1 = BitVec.ofNat 1 (dieOf (s.coreOf g)) ∧
      (w 0).extractLsb' 29 8 = BitVec.ofNat 8 (s.coreOf g) ∧ (w 0).extractLsb' 0 29 = 0 ∧
      w 2 = BitVec.ofNat 64 i.va ∧ w 3 = BitVec.ofInt 64 i.off ∧ (w 4).extractLsb' 32 32 = m ∧
      (w 4).extractLsb' 0 32 = BitVec.ofNat 32 i.buf ∧ (w 5).extractLsb' 32 32 = BitVec.ofNat 32 g.lseq ∧
      (∀ x, s.wgOf g.wg = some x → (w 5).extractLsb' 0 32 = BitVec.ofNat 32 x.index) ∧
      (w 7).extractLsb' 58 6 = BitVec.ofNat 6 g.number ∧ (w 7).extractLsb' 32 26 = 0 ∧
      (w 7).extractLsb' 0 32 = BitVec.ofNat 32 token ∧
      (∀ c x, i.place = none → g.clause = some c → c.words[c.idx]? = some x →
        w 1 = BitVec.ofNat 64 (g.code.text + c.off) ∧ w 6 = x ∧ (w 0).extractLsb' 38 5 = BitVec.ofNat 5 c.idx) ∧
      ∀ idx off x, i.place = some (idx, off, x) →
        w 1 = BitVec.ofNat 64 (g.code.text + off) ∧ w 6 = x ∧ (w 0).extractLsb' 38 5 = BitVec.ofNat 5 idx) ∧
  [FaultCode.illop, .illclause, .regbound, .tagmis, .bufidx, .bufbound, .bufright, .xlat, .migr, .acchaz, .limbmask,
    .limbdiv, .limbovf, .cnthandle, .cntquota, .uncorr, .sdc, .specviol].map faultNumber =
    (List.range 18).map (· + 1) ∧
  ∀ e : Mask, e ≠ 0 → lowest e < 32 ∧ e.getLsbD (lowest e) = true ∧ ∀ l, l < lowest e → e.getLsbD l = false

/-! ## Reset, fetch and the step -/

/-- The state after reset: the boot ROM is next (R443), the measurement registers are zero (R444), no hedge exists, and
the group in focus holds what a group holds at its start (R11). That the machine holds such a group, with the largest
allotments, and that memory reads as zero, are choices of the model (log 2, log 29). -/
def Obligations.ResetState : Prop :=
  let s := State.reset
  let g := s.focus
  s.stage = .rom ∧ s.meas = Vector.replicate 4 0 ∧ s.hedges = [] ∧ s.others = [] ∧ s.wgs = [] ∧ s.copies = [] ∧
    s.memWf ∧ (∀ a, s.mem.read a = 0) ∧
    g.vregs.length = 256 ∧ g.sregs.length = 128 ∧ g.tiles.length = 64 ∧
    (∀ n, g.tag n = .raw ∧ ∀ l, g.lane n l = 0) ∧ (∀ n, g.s n = 0) ∧
    (∀ p : BitVec 3, p ≠ 7 → g.predMask p = 0) ∧ g.predMask 7 = BitVec.allOnes 32 ∧ g.xi = 0 ∧
    (∀ n, g.tile n = ⟨.raw, Vector.replicate 32 (Vector.replicate 32 0)⟩) ∧ g.flags = 0 ∧ g.exited = 0 ∧
    g.frontier.map (·.mask) = [BitVec.allOnes 32] ∧ g.limb = none ∧ g.replay = none ∧ ∀ c, g.countOf c = 0

/-- A step (R18, R22, R38, R156, R157, R159, R161): what stands first in the agenda happens; otherwise the groups that a
quarter may issue from are looked at in turn, and the first that can issue does: it comes into focus, nothing else changed,
and the instruction that its latched word decodes to is carried out, a word that is no instruction being ILLOP. A group
between clauses starts one, with its first instruction where that can issue in the same cycle, and otherwise not at all.
Of a group that cannot issue no more than walks and its next clause, fetched and checked, remain. The words latched for a clause are those at the header's address +
8 × (i + 1) in the text, as the hedge's translation gives them, and they are the words of well-formed instructions. The
agenda and the list of groups are the model's own (log 1), and so is that a clause is latched when it is first reached (log 42). -/
def Obligations.StepRunsDecoded : Prop :=
  (∀ (s : State) (i : Instr) (rest : List Instr), s.agenda = i :: rest → step s = exec i { s with agenda := rest }) ∧
  (∀ (s : State) (k : Nat) (ks : List Nat) (rest : List (List Nat)) (g : Group), s.agenda = [] →
    s.grants = (k :: ks) :: rest → s.group k = some g →
    let b := { s with grants := rest }
    let t := b.focusOn k
    let does (o : Host.Outcome State Fault Refusal) : Prop := (ks = [] → step s = o) ∧
      ∀ u, o = .next u → (u.movedSince t = true → step s = .next u) ∧
        (ks ≠ [] → u.movedSince t = false → step s = (b.lookedAt k u).issueFrom ks)
    (t.focus = g ∧ (∀ n, t.group n = s.group n) ∧ t = { s with grants := rest, focus := t.focus, others := t.others }) ∧
    (∀ (c : Clause) (w : Word64), g.runnable = true → g.clause = some c → c.words[c.idx]? = some w →
      (∀ i, decodeWord w = .ok i → does (exec i t)) ∧
      ∀ x, decodeWord w = .error x → does (.next (t.raisePlain g.active .illop))) ∧
    (∀ u, g.runnable = false → exec (.clauseStart k) t = .next u →
      (u.focus.runnable = false → does (.next u)) ∧
      (u.focus.runnable = true → ∀ (c : Clause) (w : Word64) (i : Instr) (v : State), u.focus.clause = some c →
        c.words[c.idx]? = some w → decodeWord w = .ok i → exec i u = .next v →
        (v.movedSince u = true → does (.next v)) ∧ (v.movedSince u = false → does (.next (t.lookedAt k v)))))) ∧
  (∀ (s u : State) (k : Nat), let v := s.lookedAt k u
    v = { s with walks := u.walks, focus := v.focus, others := v.others } ∧ ∀ n x, s.group n = some x →
      ∃ y, v.group n = some y ∧ { y with reached := x.reached } = x ∧ (n ≠ k → y = x)) ∧
  (∀ (s : State) (g : Group) (e : Entry) (c : Clause), s.fetchClause g e = .ok c →
    let at_ (off : Nat) (w : Word64) : Prop := ∃ pa nc,
      s.translate (s.coreOf g) g.hedge ((g.code.text + off) % 2 ^ 64) needX = .ok (pa, nc) ∧ w = s.homeWord pa
    c.off = e.off ∧ c.mask = e.mask ∧ c.idx = 0 ∧ decodeHeader c.headWord = some c.head ∧ c.words.length = c.head.n ∧
      at_ e.off c.headWord ∧ e.off + 8 * c.head.n < g.code.tlen ∧
      ∀ n w, c.words[n]? = some w → at_ (e.off + 8 * (n + 1)) w ∧ c.head.declares w = true ∧ ∃ i, decodeWord w = .ok i) ∧
  ∀ (s : State) (nbits w : Nat) (i : Instr), decodeWord (BitVec.ofNat 64 w) = .ok i →
    step (s.withFetchWord nbits w) = exec i { s.withFetchWord nbits w with grants := [] }

/-- Words that the spec writes out in its worked examples decode to the instructions printed beside them, and headers to
their fields (R19, R28 to R36). -/
def Obligations.DecodeWords : Prop :=
  decodeWord 0x0000000403061C13 = .ok (.scmp ⟨7, false⟩ ⟨6, false⟩ ⟨3, false⟩ ⟨4, false⟩) ∧
  decodeWord 0x0020060403071C14 = .ok (.ssel ⟨7, false⟩ 2 ⟨7, false⟩ ⟨3, false⟩ ⟨4, false⟩ ⟨6, false⟩) ∧
  decodeWord 0x0000003404201C2A = .ok (.sshlImm ⟨7, false⟩ ⟨32, false⟩ ⟨4, false⟩ 52) ∧
  decodeWord 0x0020000009011C43 = .ok (.vmovsPs ⟨7, false⟩ 1 ⟨9, false⟩) ∧
  decodeWord 0x00200005040B1C80 =
    .ok (.vadd ⟨7, false⟩ ⟨true, false⟩ ⟨11, false⟩ ⟨4, false⟩ (.v ⟨5, false⟩ false)) ∧
  decodeWord 0x0010001F1E1E0880 =
    .ok (.vadd ⟨2, false⟩ ⟨false, true⟩ ⟨30, false⟩ ⟨30, false⟩ (.v ⟨31, false⟩ false)) ∧
  decodeWord 0x0000000008105C8B = .ok (.vmov ⟨7, false⟩ ⟨16, true⟩ ⟨8, false⟩) ∧
  decodeWord 0x004000091E1F1CC4 = .ok (.vshl ⟨7, false⟩ ⟨31, false⟩ ⟨30, false⟩ (.s ⟨9, false⟩)) ∧
  decodeWord 0x0000001404089D02 =
    .ok (.fmul ⟨7, false⟩ false .rn ⟨8, false⟩ ⟨4, true⟩ (.v ⟨20, false⟩ false)) ∧
  decodeWord 0x020000070A030506 = .ok (.fcmp ⟨1, false⟩ .gt 3 ⟨10, false⟩ (.v ⟨7, false⟩ false)) ∧
  decodeWord 0x060000000C101D82 = .ok (.pack ⟨7, false⟩ .e4m3 true .rn ⟨16, false⟩ ⟨12, false⟩) ∧
  decodeWord 0x1000090003081D92 =
    .ok (.redx ⟨7, false⟩ (.intAdd false false) ⟨8, false⟩ ⟨3, false⟩ (some ⟨9, false⟩)) ∧
  decodeWord 0x30000005040A1DC2 = .ok (.ladd ⟨7, false⟩ false (.out 2 false) ⟨10, false⟩ ⟨4, false⟩ ⟨5, false⟩) ∧
  decodeWord 0x2C80000402031E01 =
    .ok (.st ⟨7, false⟩ .n32 ⟨.rel, .reg 4 .core, 0, ⟨2, false⟩⟩ ⟨3, false⟩) ∧
  decodeWord 0xE1C0000F18101E01 = .ok (.st ⟨7, false⟩ .e4x4 ⟨.weak, .window 15, 0, ⟨24, false⟩⟩ ⟨16, false⟩) ∧
  decodeWord 0x6484001504070640 =
    .ok (.atom ⟨1, false⟩ .add .n32 ⟨.rlx, .reg 21 .die, 0, ⟨4, false⟩⟩ ⟨7, false⟩) ∧
  decodeWord 0x0000000104142AA0 = .ok (.caddImm ⟨2, true⟩ .rel .pkg ⟨4, false⟩ 1) ∧
  decodeWord 0x00C0000820001EC0 = .ok (.cpy ⟨7, false⟩ true .pkg ⟨32, false⟩ ⟨8, false⟩) ∧
  decodeWord 0x20CC08058A020700 =
    .ok (.mma ⟨1, false⟩ ⟨true, false, false, false, .e4m3, .e4m3, 0, 32, 11, 10, ⟨2, false⟩⟩) ∧
  decodeWord 0x0000000000181341 = .ok (.brc ⟨4, false⟩ .any 24) ∧
  decodeWord 0x00000000000B1F4A = .ok (.rdsr ⟨7, false⟩ .lane ⟨11, false⟩) ∧
  decodeWord 0x0010000008101F80 = .ok (.svc ⟨7, false⟩ 1 ⟨16, false⟩ ⟨8, false⟩) ∧
  decodeWord 0x0010180500001F84 = .ok (.spcmt ⟨7, false⟩ true ⟨0, false⟩ ⟨5, false⟩ ⟨24, false⟩) ∧
  decodeHeader 0xA000000007FFF866 = some ⟨0, 0, 0, false, 15, 15, 15, 15, 3, 6⟩ ∧
  decodeHeader 0xA000080007FF8081 = some ⟨2, 0, 0, false, 15, 15, 15, 0, 4, 1⟩ ∧
  decodeHeader 0xA000200007FFF881 = some ⟨8, 0, 0, false, 15, 15, 15, 15, 4, 1⟩ ∧
  (∀ w : Word64, w.extractLsb' 60 4 ≠ 0xA → decodeHeader w = none)

/-- Decoding and encoding agree, for every instruction and every operand (R28 to R36): the word of a well-formed
instruction decodes to it, an instruction that is not well formed has a word that does not, and a word that decodes is the
word of the well-formed instruction that it decodes to. -/
def Obligations.EncodeDecode : Prop :=
  (∀ (i : Instr) (w : Word64), encode i = some w → (decodeWord w = .ok i ↔ i.wellFormed = true)) ∧
  (∀ (w : Word64) (i : Instr), decodeWord w = .ok i → encode i = some w ∧ i.wellFormed = true)

/-- Every step keeps the memory in its canonical form (R4): addresses rise strictly, and no entry holds what an unlisted
address reads as. -/
def Obligations.StepKeepsMemoryCanonical : Prop :=
  ∀ s t : State, s.memWf → step s = .next t → t.memWf

/-- No step is refused, and nothing stops the machine but the completion of a walk that names a physical address at or
beyond 2^45, where no storage is (R308): everything else completes, waits, parks or takes its fault. -/
def Obligations.StepNeverRefuses : Prop :=
  (∀ s : State, (∃ t, step s = .next t) ∨ ∃ a, 2 ^ 45 ≤ a ∧ step s = .fault (.noStorage a)) ∧
  ∀ (i : Instr) (s : State), (∃ t, exec i s = .next t) ∨
    ∃ n a, i = .walkComplete n ∧ 2 ^ 45 ≤ a ∧ exec i s = .fault (.noStorage a)
end

