-- ==== Sys2Proof/Laws/Dispatch.lean ====
section
/-! SUPPORT. What `exec` does with each constructor: one call of its meaning. -/

namespace Sys2Proof.Machine

@[simp] theorem exec_smov (g : Guard) (d : Reg) (a : Reg) (s : State) :
   exec (.smov g d a) s = execSmov g d a s := rfl
@[simp] theorem exec_sli (g : Guard) (d : Reg) (imm : Word32) (s : State) :
   exec (.sli g d imm) s = execSli g d imm s := rfl
@[simp] theorem exec_slih (g : Guard) (d : Reg) (imm : Word32) (s : State) :
   exec (.slih g d imm) s = execSlih g d imm s := rfl
@[simp] theorem exec_sadd (g : Guard) (m : SatMode) (d : Reg) (a : Reg) (b : Reg) (s : State) :
   exec (.sadd g m d a b) s = execSadd g m d a b s := rfl
@[simp] theorem exec_saddImm (g : Guard) (d : Reg) (a : Reg) (imm : Word32) (s : State) :
   exec (.saddImm g d a imm) s = execSaddImm g d a imm s := rfl
@[simp] theorem exec_ssub (g : Guard) (m : SatMode) (d : Reg) (a : Reg) (b : Reg) (s : State) :
   exec (.ssub g m d a b) s = execSsub g m d a b s := rfl
@[simp] theorem exec_ssubImm (g : Guard) (d : Reg) (a : Reg) (imm : Word32) (s : State) :
   exec (.ssubImm g d a imm) s = execSsubImm g d a imm s := rfl
@[simp] theorem exec_smul (g : Guard) (m : SatMode) (d : Reg) (a : Reg) (b : Reg) (s : State) :
   exec (.smul g m d a b) s = execSmul g m d a b s := rfl
@[simp] theorem exec_smulImm (g : Guard) (d : Reg) (a : Reg) (imm : Word32) (s : State) :
   exec (.smulImm g d a imm) s = execSmulImm g d a imm s := rfl
@[simp] theorem exec_smulh (g : Guard) (n : Bool) (d : Reg) (a : Reg) (b : Reg) (s : State) :
   exec (.smulh g n d a b) s = execSmulh g n d a b s := rfl
@[simp] theorem exec_smulhImm (g : Guard) (d : Reg) (a : Reg) (imm : Word32) (s : State) :
   exec (.smulhImm g d a imm) s = execSmulhImm g d a imm s := rfl
@[simp] theorem exec_sand (g : Guard) (d : Reg) (a : Reg) (b : Reg) (s : State) :
   exec (.sand g d a b) s = execSand g d a b s := rfl
@[simp] theorem exec_sandImm (g : Guard) (d : Reg) (a : Reg) (imm : Word32) (s : State) :
   exec (.sandImm g d a imm) s = execSandImm g d a imm s := rfl
@[simp] theorem exec_sor (g : Guard) (d : Reg) (a : Reg) (b : Reg) (s : State) :
   exec (.sor g d a b) s = execSor g d a b s := rfl
@[simp] theorem exec_sorImm (g : Guard) (d : Reg) (a : Reg) (imm : Word32) (s : State) :
   exec (.sorImm g d a imm) s = execSorImm g d a imm s := rfl
@[simp] theorem exec_sxor (g : Guard) (d : Reg) (a : Reg) (b : Reg) (s : State) :
   exec (.sxor g d a b) s = execSxor g d a b s := rfl
@[simp] theorem exec_sxorImm (g : Guard) (d : Reg) (a : Reg) (imm : Word32) (s : State) :
   exec (.sxorImm g d a imm) s = execSxorImm g d a imm s := rfl
@[simp] theorem exec_sshl (g : Guard) (d : Reg) (a : Reg) (b : Reg) (s : State) :
   exec (.sshl g d a b) s = execSshl g d a b s := rfl
@[simp] theorem exec_sshlImm (g : Guard) (d : Reg) (a : Reg) (imm : Word32) (s : State) :
   exec (.sshlImm g d a imm) s = execSshlImm g d a imm s := rfl
@[simp] theorem exec_sshr (g : Guard) (d : Reg) (a : Reg) (b : Reg) (s : State) :
   exec (.sshr g d a b) s = execSshr g d a b s := rfl
@[simp] theorem exec_sshrImm (g : Guard) (d : Reg) (a : Reg) (imm : Word32) (s : State) :
   exec (.sshrImm g d a imm) s = execSshrImm g d a imm s := rfl
@[simp] theorem exec_ssra (g : Guard) (d : Reg) (a : Reg) (b : Reg) (s : State) :
   exec (.ssra g d a b) s = execSsra g d a b s := rfl
@[simp] theorem exec_ssraImm (g : Guard) (d : Reg) (a : Reg) (imm : Word32) (s : State) :
   exec (.ssraImm g d a imm) s = execSsraImm g d a imm s := rfl
@[simp] theorem exec_smin (g : Guard) (n : Bool) (d : Reg) (a : Reg) (b : Reg) (s : State) :
   exec (.smin g n d a b) s = execSmin g n d a b s := rfl
@[simp] theorem exec_sminImm (g : Guard) (d : Reg) (a : Reg) (imm : Word32) (s : State) :
   exec (.sminImm g d a imm) s = execSminImm g d a imm s := rfl
@[simp] theorem exec_smax (g : Guard) (n : Bool) (d : Reg) (a : Reg) (b : Reg) (s : State) :
   exec (.smax g n d a b) s = execSmax g n d a b s := rfl
@[simp] theorem exec_smaxImm (g : Guard) (d : Reg) (a : Reg) (imm : Word32) (s : State) :
   exec (.smaxImm g d a imm) s = execSmaxImm g d a imm s := rfl
@[simp] theorem exec_sclz (g : Guard) (d : Reg) (a : Reg) (s : State) :
   exec (.sclz g d a) s = execSclz g d a s := rfl
@[simp] theorem exec_spop (g : Guard) (d : Reg) (a : Reg) (s : State) :
   exec (.spop g d a) s = execSpop g d a s := rfl
@[simp] theorem exec_sbfe (g : Guard) (ir : Bool) (d : Reg) (a : Reg) (b : Reg) (s : State) :
   exec (.sbfe g ir d a b) s = execSbfe g ir d a b s := rfl
@[simp] theorem exec_sbfi (g : Guard) (d : Reg) (a : Reg) (b : Reg) (c : Reg) (s : State) :
   exec (.sbfi g d a b c) s = execSbfi g d a b c s := rfl
@[simp] theorem exec_scmp (g : Guard) (d : Reg) (a : Reg) (b : Reg) (s : State) :
   exec (.scmp g d a b) s = execScmp g d a b s := rfl
@[simp] theorem exec_scmpImm (g : Guard) (d : Reg) (a : Reg) (imm : Word32) (s : State) :
   exec (.scmpImm g d a imm) s = execScmpImm g d a imm s := rfl
@[simp] theorem exec_ssel (g : Guard) (mask : BitVec 5) (d : Reg) (a : Reg) (b : Reg) (c : Reg) (s : State) :
   exec (.ssel g mask d a b c) s = execSsel g mask d a b c s := rfl
@[simp] theorem exec_sld (g : Guard) (f : ScalarFmt) (m : MemArg) (d : Reg) (s : State) :
   exec (.sld g f m d) s = execSld g f m d s := rfl
@[simp] theorem exec_sst (g : Guard) (f : ScalarFmt) (m : MemArg) (d : Reg) (s : State) :
   exec (.sst g f m d) s = execSst g f m d s := rfl
@[simp] theorem exec_sldk (g : Guard) (d : Reg) (a : Reg) (imm : Word32) (s : State) :
   exec (.sldk g d a imm) s = execSldk g d a imm s := rfl
@[simp] theorem exec_vmovsVs (g : Guard) (tag : Tag) (hi : Bool) (d : Reg) (a : Reg) (s : State) :
   exec (.vmovsVs g tag hi d a) s = execVmovsVs g tag hi d a s := rfl
@[simp] theorem exec_vmovsSv (g : Guard) (d : Reg) (a : Reg) (b : Reg) (s : State) :
   exec (.vmovsSv g d a b) s = execVmovsSv g d a b s := rfl
@[simp] theorem exec_vmovsPs (g : Guard) (d : BitVec 3) (a : Reg) (s : State) :
   exec (.vmovsPs g d a) s = execVmovsPs g d a s := rfl
@[simp] theorem exec_vmovsSp (g : Guard) (d : Reg) (a : BitVec 3) (s : State) :
   exec (.vmovsSp g d a) s = execVmovsSp g d a s := rfl
@[simp] theorem exec_vmovsDs (g : Guard) (d : Reg) (a : Reg) (s : State) :
   exec (.vmovsDs g d a) s = execVmovsDs g d a s := rfl
@[simp] theorem exec_vadd (g : Guard) (m : IntMod) (d : Reg) (a : Reg) (b : BSrc) (s : State) :
   exec (.vadd g m d a b) s = execVadd g m d a b s := rfl
@[simp] theorem exec_vsub (g : Guard) (m : IntMod) (d : Reg) (a : Reg) (b : BSrc) (s : State) :
   exec (.vsub g m d a b) s = execVsub g m d a b s := rfl
@[simp] theorem exec_vmul (g : Guard) (m : IntMod) (d : Reg) (a : Reg) (b : BSrc) (s : State) :
   exec (.vmul g m d a b) s = execVmul g m d a b s := rfl
@[simp] theorem exec_vmulh (g : Guard) (n : Bool) (d : Reg) (a : Reg) (b : BSrc) (s : State) :
   exec (.vmulh g n d a b) s = execVmulh g n d a b s := rfl
@[simp] theorem exec_vmad (g : Guard) (m : IntMod) (d : Reg) (a : Reg) (b : BSrc) (c : Reg) (s : State) :
   exec (.vmad g m d a b c) s = execVmad g m d a b c s := rfl
@[simp] theorem exec_vmadw (g : Guard) (m : IntMod) (d : Reg) (a : Reg) (b : BSrc) (c : Reg) (s : State) :
   exec (.vmadw g m d a b c) s = execVmadw g m d a b c s := rfl
@[simp] theorem exec_vabs (g : Guard) (sat : Bool) (d : Reg) (a : Reg) (s : State) :
   exec (.vabs g sat d a) s = execVabs g sat d a s := rfl
@[simp] theorem exec_vmin (g : Guard) (n : Bool) (d : Reg) (a : Reg) (b : BSrc) (s : State) :
   exec (.vmin g n d a b) s = execVmin g n d a b s := rfl
@[simp] theorem exec_vmax (g : Guard) (n : Bool) (d : Reg) (a : Reg) (b : BSrc) (s : State) :
   exec (.vmax g n d a b) s = execVmax g n d a b s := rfl
@[simp] theorem exec_vcmp (g : Guard) (cc : Cond) (n : Bool) (d : BitVec 3) (a : Reg) (b : BSrc) (s : State) :
   exec (.vcmp g cc n d a b) s = execVcmp g cc n d a b s := rfl
@[simp] theorem exec_vsel (g : Guard) (d : Reg) (a : Reg) (b : BSrc) (c : BitVec 3) (s : State) :
   exec (.vsel g d a b c) s = execVsel g d a b c s := rfl
@[simp] theorem exec_vmov (g : Guard) (d : Reg) (a : Reg) (s : State) :
   exec (.vmov g d a) s = execVmov g d a s := rfl
@[simp] theorem exec_vli (g : Guard) (tag : Tag) (d : Reg) (imm : Word32) (s : State) :
   exec (.vli g tag d imm) s = execVli g tag d imm s := rfl
@[simp] theorem exec_vand (g : Guard) (d : Reg) (a : Reg) (b : BSrc) (s : State) :
   exec (.vand g d a b) s = execVand g d a b s := rfl
@[simp] theorem exec_vor (g : Guard) (d : Reg) (a : Reg) (b : BSrc) (s : State) :
   exec (.vor g d a b) s = execVor g d a b s := rfl
@[simp] theorem exec_vxor (g : Guard) (d : Reg) (a : Reg) (b : BSrc) (s : State) :
   exec (.vxor g d a b) s = execVxor g d a b s := rfl
@[simp] theorem exec_vnot (g : Guard) (d : Reg) (a : Reg) (s : State) :
   exec (.vnot g d a) s = execVnot g d a s := rfl
@[simp] theorem exec_vshl (g : Guard) (d : Reg) (a : Reg) (b : BSrc) (s : State) :
   exec (.vshl g d a b) s = execVshl g d a b s := rfl
@[simp] theorem exec_vshr (g : Guard) (d : Reg) (a : Reg) (b : BSrc) (s : State) :
   exec (.vshr g d a b) s = execVshr g d a b s := rfl
@[simp] theorem exec_vsra (g : Guard) (d : Reg) (a : Reg) (b : BSrc) (s : State) :
   exec (.vsra g d a b) s = execVsra g d a b s := rfl
@[simp] theorem exec_vrot (g : Guard) (d : Reg) (a : Reg) (b : BSrc) (s : State) :
   exec (.vrot g d a b) s = execVrot g d a b s := rfl
@[simp] theorem exec_vclz (g : Guard) (d : Reg) (a : Reg) (s : State) :
   exec (.vclz g d a) s = execVclz g d a s := rfl
@[simp] theorem exec_vpop (g : Guard) (d : Reg) (a : Reg) (s : State) :
   exec (.vpop g d a) s = execVpop g d a s := rfl
@[simp] theorem exec_vbfe (g : Guard) (ir : Bool) (lenM1 : BitVec 5) (pos : BitVec 5) (d : Reg) (a : Reg) (s : State) :
   exec (.vbfe g ir lenM1 pos d a) s = execVbfe g ir lenM1 pos d a s := rfl
@[simp] theorem exec_vbfi (g : Guard) (lenM1 : BitVec 5) (pos : BitVec 5) (d : Reg) (a : Reg) (b : BReg) (s : State) :
   exec (.vbfi g lenM1 pos d a b) s = execVbfi g lenM1 pos d a b s := rfl
@[simp] theorem exec_vbrev (g : Guard) (d : Reg) (a : Reg) (s : State) :
   exec (.vbrev g d a) s = execVbrev g d a s := rfl
@[simp] theorem exec_vpermb (g : Guard) (d : Reg) (a : Reg) (b : BReg) (c : Reg) (s : State) :
   exec (.vpermb g d a b c) s = execVpermb g d a b c s := rfl
@[simp] theorem exec_fadd (g : Guard) (nb : Bool) (rnd : Round) (d : Reg) (a : Reg) (b : BSrc) (s : State) :
   exec (.fadd g nb rnd d a b) s = execFadd g nb rnd d a b s := rfl
@[simp] theorem exec_fsub (g : Guard) (nb : Bool) (rnd : Round) (d : Reg) (a : Reg) (b : BSrc) (s : State) :
   exec (.fsub g nb rnd d a b) s = execFsub g nb rnd d a b s := rfl
@[simp] theorem exec_fmul (g : Guard) (nb : Bool) (rnd : Round) (d : Reg) (a : Reg) (b : BSrc) (s : State) :
   exec (.fmul g nb rnd d a b) s = execFmul g nb rnd d a b s := rfl
@[simp] theorem exec_ffma (g : Guard) (nc : Bool) (nb : Bool) (rnd : Round) (d : Reg) (a : Reg) (b : BSrc) (c : Reg) (s : State) :
   exec (.ffma g nc nb rnd d a b c) s = execFfma g nc nb rnd d a b c s := rfl
@[simp] theorem exec_fmin (g : Guard) (d : Reg) (a : Reg) (b : BSrc) (s : State) :
   exec (.fmin g d a b) s = execFmin g d a b s := rfl
@[simp] theorem exec_fmax (g : Guard) (d : Reg) (a : Reg) (b : BSrc) (s : State) :
   exec (.fmax g d a b) s = execFmax g d a b s := rfl
@[simp] theorem exec_fcmp (g : Guard) (cc : FCond) (d : BitVec 3) (a : Reg) (b : BSrc) (s : State) :
   exec (.fcmp g cc d a b) s = execFcmp g cc d a b s := rfl
@[simp] theorem exec_fclass (g : Guard) (dbl : Bool) (d : Reg) (a : Reg) (s : State) :
   exec (.fclass g dbl d a) s = execFclass g dbl d a s := rfl
@[simp] theorem exec_frnd (g : Guard) (dbl : Bool) (rnd : Round) (d : Reg) (a : Reg) (s : State) :
   exec (.frnd g dbl rnd d a) s = execFrnd g dbl rnd d a s := rfl
@[simp] theorem exec_hadd2 (g : Guard) (bf : Bool) (nb : Bool) (rnd : Round) (d : Reg) (a : Reg) (b : BSrc) (s : State) :
   exec (.hadd2 g bf nb rnd d a b) s = execHadd2 g bf nb rnd d a b s := rfl
@[simp] theorem exec_hmul2 (g : Guard) (bf : Bool) (nb : Bool) (rnd : Round) (d : Reg) (a : Reg) (b : BSrc) (s : State) :
   exec (.hmul2 g bf nb rnd d a b) s = execHmul2 g bf nb rnd d a b s := rfl
@[simp] theorem exec_hfma2 (g : Guard) (bf : Bool) (nc : Bool) (nb : Bool) (rnd : Round) (d : Reg) (a : Reg) (b : BSrc) (c : Reg) (s : State) :
   exec (.hfma2 g bf nc nb rnd d a b c) s = execHfma2 g bf nc nb rnd d a b c s := rfl
@[simp] theorem exec_hmin2 (g : Guard) (bf : Bool) (d : Reg) (a : Reg) (b : BSrc) (s : State) :
   exec (.hmin2 g bf d a b) s = execHmin2 g bf d a b s := rfl
@[simp] theorem exec_hmax2 (g : Guard) (bf : Bool) (d : Reg) (a : Reg) (b : BSrc) (s : State) :
   exec (.hmax2 g bf d a b) s = execHmax2 g bf d a b s := rfl
@[simp] theorem exec_dadd (g : Guard) (nb : Bool) (rnd : Round) (d : Reg) (a : Reg) (b : BSrc) (s : State) :
   exec (.dadd g nb rnd d a b) s = execDadd g nb rnd d a b s := rfl
@[simp] theorem exec_dmul (g : Guard) (nb : Bool) (rnd : Round) (d : Reg) (a : Reg) (b : BSrc) (s : State) :
   exec (.dmul g nb rnd d a b) s = execDmul g nb rnd d a b s := rfl
@[simp] theorem exec_dfma (g : Guard) (nc : Bool) (nb : Bool) (rnd : Round) (d : Reg) (a : Reg) (b : BSrc) (c : Reg) (s : State) :
   exec (.dfma g nc nb rnd d a b c) s = execDfma g nc nb rnd d a b c s := rfl
@[simp] theorem exec_dcmp (g : Guard) (cc : FCond) (d : BitVec 3) (a : Reg) (b : BSrc) (s : State) :
   exec (.dcmp g cc d a b) s = execDcmp g cc d a b s := rfl
@[simp] theorem exec_dmin (g : Guard) (d : Reg) (a : Reg) (b : BSrc) (s : State) :
   exec (.dmin g d a b) s = execDmin g d a b s := rfl
@[simp] theorem exec_dmax (g : Guard) (d : Reg) (a : Reg) (b : BSrc) (s : State) :
   exec (.dmax g d a b) s = execDmax g d a b s := rfl
@[simp] theorem exec_fdiv (g : Guard) (rnd : Round) (d : Reg) (a : Reg) (b : BSrc) (s : State) :
   exec (.fdiv g rnd d a b) s = execFdiv g rnd d a b s := rfl
@[simp] theorem exec_fsqrt (g : Guard) (rnd : Round) (d : Reg) (a : Reg) (s : State) :
   exec (.fsqrt g rnd d a) s = execFsqrt g rnd d a s := rfl
@[simp] theorem exec_frcp (g : Guard) (rnd : Round) (d : Reg) (a : Reg) (s : State) :
   exec (.frcp g rnd d a) s = execFrcp g rnd d a s := rfl
@[simp] theorem exec_frsq (g : Guard) (rnd : Round) (d : Reg) (a : Reg) (s : State) :
   exec (.frsq g rnd d a) s = execFrsq g rnd d a s := rfl
@[simp] theorem exec_fexp2 (g : Guard) (rnd : Round) (d : Reg) (a : Reg) (s : State) :
   exec (.fexp2 g rnd d a) s = execFexp2 g rnd d a s := rfl
@[simp] theorem exec_flog2 (g : Guard) (rnd : Round) (d : Reg) (a : Reg) (s : State) :
   exec (.flog2 g rnd d a) s = execFlog2 g rnd d a s := rfl
@[simp] theorem exec_fsin (g : Guard) (rnd : Round) (d : Reg) (a : Reg) (s : State) :
   exec (.fsin g rnd d a) s = execFsin g rnd d a s := rfl
@[simp] theorem exec_fcos (g : Guard) (rnd : Round) (d : Reg) (a : Reg) (s : State) :
   exec (.fcos g rnd d a) s = execFcos g rnd d a s := rfl
@[simp] theorem exec_cvt (g : Guard) (dst : CvtTy) (src : CvtTy) (sat : Bool) (rnd : Round) (d : Reg) (a : Reg) (s : State) :
   exec (.cvt g dst src sat rnd d a) s = execCvt g dst src sat rnd d a s := rfl
@[simp] theorem exec_tags (g : Guard) (tag : Tag) (d : Reg) (a : Reg) (s : State) :
   exec (.tags g tag d a) s = execTags g tag d a s := rfl
@[simp] theorem exec_tagrd (g : Guard) (tile : Bool) (d : Reg) (a : Reg) (s : State) :
   exec (.tagrd g tile d a) s = execTagrd g tile d a s := rfl
@[simp] theorem exec_dot4 (g : Guard) (m : Dot4Mod) (d : Reg) (a : Reg) (b : BReg) (c : Reg) (s : State) :
   exec (.dot4 g m d a b c) s = execDot4 g m d a b c s := rfl
@[simp] theorem exec_dot8 (g : Guard) (m : Dot8Mod) (d : Reg) (a : Reg) (b : BReg) (c : Reg) (s : State) :
   exec (.dot8 g m d a b c) s = execDot8 g m d a b c s := rfl
@[simp] theorem exec_pack (g : Guard) (f : PackFmt) (sat : Bool) (rnd : Round) (d : Reg) (a : Reg) (s : State) :
   exec (.pack g f sat rnd d a) s = execPack g f sat rnd d a s := rfl
@[simp] theorem exec_unpk (g : Guard) (f : PackFmt) (d : Reg) (a : Reg) (s : State) :
   exec (.unpk g f d a) s = execUnpk g f d a s := rfl
@[simp] theorem exec_shfl (g : Guard) (seg : Seg) (m : ShflMode) (d : Reg) (a : Reg) (b : BSrc) (s : State) :
   exec (.shfl g seg m d a b) s = execShfl g seg m d a b s := rfl
@[simp] theorem exec_vote (g : Guard) (d : VoteDst) (a : BitVec 3) (mm : Option Reg) (s : State) :
   exec (.vote g d a mm) s = execVote g d a mm s := rfl
@[simp] theorem exec_redx (g : Guard) (k : RedKind) (d : Reg) (a : Reg) (mm : Option Reg) (s : State) :
   exec (.redx g k d a mm) s = execRedx g k d a mm s := rfl
@[simp] theorem exec_scanx (g : Guard) (k : RedKind) (ex : Bool) (d : Reg) (a : Reg) (mm : Option Reg) (s : State) :
   exec (.scanx g k ex d a mm) s = execScanx g k ex d a mm s := rfl
@[simp] theorem exec_bcast (g : Guard) (src : BcastSrc) (d : Reg) (a : Reg) (s : State) :
   exec (.bcast g src d a) s = execBcast g src d a s := rfl
@[simp] theorem exec_matchx (g : Guard) (d : MatchDst) (a : Reg) (mm : Option Reg) (s : State) :
   exec (.matchx g d a mm) s = execMatchx g d a mm s := rfl
@[simp] theorem exec_lbind (g : Guard) (w : LimbW) (s : State) :
   exec (.lbind g w) s = execLbind g w s := rfl
@[simp] theorem exec_lfree (g : Guard) (s : State) :
   exec (.lfree g) s = execLfree g s := rfl
@[simp] theorem exec_ladd (g : Guard) (trap : Bool) (k : Carry) (d : Reg) (a : Reg) (b : Reg) (s : State) :
   exec (.ladd g trap k d a b) s = execLadd g trap k d a b s := rfl
@[simp] theorem exec_lsub (g : Guard) (trap : Bool) (k : Carry) (d : Reg) (a : Reg) (b : Reg) (s : State) :
   exec (.lsub g trap k d a b) s = execLsub g trap k d a b s := rfl
@[simp] theorem exec_lshl (g : Guard) (trap : Bool) (k : Option (BitVec 3)) (d : Reg) (a : Reg) (b : CountSrc) (s : State) :
   exec (.lshl g trap k d a b) s = execLshl g trap k d a b s := rfl
@[simp] theorem exec_lshr (g : Guard) (trap : Bool) (ar : Bool) (k : Option (BitVec 3)) (d : Reg) (a : Reg) (b : CountSrc) (s : State) :
   exec (.lshr g trap ar k d a b) s = execLshr g trap ar k d a b s := rfl
@[simp] theorem exec_lmuls (g : Guard) (trap : Bool) (k : Option (BitVec 3)) (d : Reg) (a : Reg) (b : Reg) (c : Reg) (s : State) :
   exec (.lmuls g trap k d a b c) s = execLmuls g trap k d a b c s := rfl
@[simp] theorem exec_lcmp (g : Guard) (cc : Cond) (ar : Bool) (d : BitVec 3) (a : Reg) (b : Reg) (s : State) :
   exec (.lcmp g cc ar d a b) s = execLcmp g cc ar d a b s := rfl
@[simp] theorem exec_lneg (g : Guard) (k : Option (BitVec 3)) (d : Reg) (a : Reg) (s : State) :
   exec (.lneg g k d a) s = execLneg g k d a s := rfl
@[simp] theorem exec_lclz (g : Guard) (d : Reg) (a : Reg) (s : State) :
   exec (.lclz g d a) s = execLclz g d a s := rfl
@[simp] theorem exec_ld (g : Guard) (f : MemFmt) (m : MemArg) (d : Reg) (s : State) :
   exec (.ld g f m d) s = execLd g f m d s := rfl
@[simp] theorem exec_st (g : Guard) (f : MemFmt) (m : MemArg) (d : Reg) (s : State) :
   exec (.st g f m d) s = execSt g f m d s := rfl
@[simp] theorem exec_ldx (g : Guard) (f : MemFmt) (m : MemArg) (d : Reg) (s : State) :
   exec (.ldx g f m d) s = execLdx g f m d s := rfl
@[simp] theorem exec_stx (g : Guard) (f : MemFmt) (m : MemArg) (d : Reg) (s : State) :
   exec (.stx g f m d) s = execStx g f m d s := rfl
@[simp] theorem exec_ldsp (g : Guard) (f : MemFmt) (m : SpArg) (d : Reg) (s : State) :
   exec (.ldsp g f m d) s = execLdsp g f m d s := rfl
@[simp] theorem exec_stsp (g : Guard) (f : MemFmt) (m : SpArg) (d : Reg) (s : State) :
   exec (.stsp g f m d) s = execStsp g f m d s := rfl
@[simp] theorem exec_pfx (g : Guard) (f : MemFmt) (sr : BitVec 7) (off : BitVec 14) (a : Reg) (s : State) :
   exec (.pfx g f sr off a) s = execPfx g f sr off a s := rfl
@[simp] theorem exec_cfl (g : Guard) (f : MemFmt) (scope : Scope) (sr : BitVec 7) (off : BitVec 14) (a : Reg) (s : State) :
   exec (.cfl g f scope sr off a) s = execCfl g f scope sr off a s := rfl
@[simp] theorem exec_cinv (g : Guard) (f : MemFmt) (scope : Scope) (sr : BitVec 7) (off : BitVec 14) (a : Reg) (s : State) :
   exec (.cinv g f scope sr off a) s = execCinv g f scope sr off a s := rfl
@[simp] theorem exec_atom (g : Guard) (op : AtomOp) (ty : AtomTy) (m : AtomArg) (d : Reg) (s : State) :
   exec (.atom g op ty m d) s = execAtom g op ty m d s := rfl
@[simp] theorem exec_atomc (g : Guard) (ty : AtomTy) (m : AtomArg) (d : Reg) (s : State) :
   exec (.atomc g ty m d) s = execAtomc g ty m d s := rfl
@[simp] theorem exec_red (g : Guard) (op : AtomOp) (ty : AtomTy) (m : AtomArg) (d : Reg) (s : State) :
   exec (.red g op ty m d) s = execRed g op ty m d s := rfl
@[simp] theorem exec_fence (g : Guard) (k : FenceKind) (scope : Scope) (s : State) :
   exec (.fence g k scope) s = execFence g k scope s := rfl
@[simp] theorem exec_fencee (g : Guard) (s : State) :
   exec (.fencee g) s = execFencee g s := rfl
@[simp] theorem exec_place (g : Guard) (tier : Tier) (buf : BufSel) (off : BitVec 14) (a : Reg) (s : State) :
   exec (.place g tier buf off a) s = execPlace g tier buf off a s := rfl
@[simp] theorem exec_pin (g : Guard) (buf : BufSel) (off : BitVec 14) (a : Reg) (s : State) :
   exec (.pin g buf off a) s = execPin g buf off a s := rfl
@[simp] theorem exec_unpin (g : Guard) (buf : BufSel) (off : BitVec 14) (a : Reg) (s : State) :
   exec (.unpin g buf off a) s = execUnpin g buf off a s := rfl
@[simp] theorem exec_mcrdPage (g : Guard) (d : Reg) (a : Reg) (b : Reg) (s : State) :
   exec (.mcrdPage g d a b) s = execMcrdPage g d a b s := rfl
@[simp] theorem exec_mcrdQuota (g : Guard) (d : Reg) (s : State) :
   exec (.mcrdQuota g d) s = execMcrdQuota g d s := rfl
@[simp] theorem exec_cadd (g : Guard) (m : CtrMod) (a : Reg) (b : Reg) (s : State) :
   exec (.cadd g m a b) s = execCadd g m a b s := rfl
@[simp] theorem exec_caddImm (g : Guard) (ord : CtrOrd) (scope : Scope) (a : Reg) (imm : Word32) (s : State) :
   exec (.caddImm g ord scope a imm) s = execCaddImm g ord scope a imm s := rfl
@[simp] theorem exec_cnext (g : Guard) (m : CtrMod) (d : Reg) (a : Reg) (b : Reg) (s : State) :
   exec (.cnext g m d a b) s = execCnext g m d a b s := rfl
@[simp] theorem exec_cwait (g : Guard) (m : CtrMod) (a : Reg) (b : Reg) (s : State) :
   exec (.cwait g m a b) s = execCwait g m a b s := rfl
@[simp] theorem exec_ctest (g : Guard) (m : CtrMod) (d : BitVec 3) (a : Reg) (b : Reg) (s : State) :
   exec (.ctest g m d a b) s = execCtest g m d a b s := rfl
@[simp] theorem exec_crd (g : Guard) (m : CtrMod) (d : Reg) (a : Reg) (s : State) :
   exec (.crd g m d a) s = execCrd g m d a s := rfl
@[simp] theorem exec_cinit (g : Guard) (m : CtrMod) (a : Reg) (b : Reg) (s : State) :
   exec (.cinit g m a b) s = execCinit g m a b s := rfl
@[simp] theorem exec_clink (g : Guard) (e : BitVec 5) (a : Reg) (b : Reg) (s : State) :
   exec (.clink g e a b) s = execClink g e a b s := rfl
@[simp] theorem exec_clinkU (g : Guard) (a : Reg) (s : State) :
   exec (.clinkU g a) s = execClinkU g a s := rfl
@[simp] theorem exec_cwatch (g : Guard) (m : CtrMod) (a : Reg) (b : Reg) (c : Reg) (d : Reg) (s : State) :
   exec (.cwatch g m a b c d) s = execCwatch g m a b c d s := rfl
@[simp] theorem exec_cpy (g : Guard) (p : Bool) (scope : Scope) (a : Reg) (b : Reg) (s : State) :
   exec (.cpy g p scope a b) s = execCpy g p scope a b s := rfl
@[simp] theorem exec_cpyg (g : Guard) (sc : Bool) (p : Bool) (scope : Scope) (a : Reg) (b : Reg) (c : Reg) (s : State) :
   exec (.cpyg g sc p scope a b c) s = execCpyg g sc p scope a b c s := rfl
@[simp] theorem exec_cpys (g : Guard) (p : Bool) (scope : Scope) (a : Reg) (b : Reg) (c : Reg) (s : State) :
   exec (.cpys g p scope a b c) s = execCpys g p scope a b c s := rfl
@[simp] theorem exec_rrot (g : Guard) (scope : Scope) (a : Reg) (b : Reg) (c : Reg) (s : State) :
   exec (.rrot g scope a b c) s = execRrot g scope a b c s := rfl
@[simp] theorem exec_publ (g : Guard) (scope : Scope) (a : Reg) (b : Reg) (c : Reg) (s : State) :
   exec (.publ g scope a b c) s = execPubl g scope a b c s := rfl
@[simp] theorem exec_mma (g : Guard) (m : MmaArg) (s : State) :
   exec (.mma g m) s = execMma g m s := rfl
@[simp] theorem exec_mzero (g : Guard) (f : TileFmt) (d : Reg) (s : State) :
   exec (.mzero g f d) s = execMzero g f d s := rfl
@[simp] theorem exec_mld (g : Guard) (f : TileFmt) (m : MemArg) (d : Reg) (s : State) :
   exec (.mld g f m d) s = execMld g f m d s := rfl
@[simp] theorem exec_mst (g : Guard) (f : TileFmt) (m : MemArg) (d : Reg) (s : State) :
   exec (.mst g f m d) s = execMst g f m d s := rfl
@[simp] theorem exec_mrd (g : Guard) (nM1 : BitVec 5) (col : ColSrc) (d : Reg) (a : Reg) (s : State) :
   exec (.mrd g nM1 col d a) s = execMrd g nM1 col d a s := rfl
@[simp] theorem exec_mwr (g : Guard) (nM1 : BitVec 5) (col : ColSrc) (d : Reg) (a : Reg) (s : State) :
   exec (.mwr g nM1 col d a) s = execMwr g nM1 col d a s := rfl
@[simp] theorem exec_mcommit (g : Guard) (s : State) :
   exec (.mcommit g) s = execMcommit g s := rfl
@[simp] theorem exec_mwait (g : Guard) (n : BitVec 3) (s : State) :
   exec (.mwait g n) s = execMwait g n s := rfl
@[simp] theorem exec_mvb (g : Guard) (fb : MatFmt) (fa : MatFmt) (n1 : BitVec 5) (sb : BitVec 7) (sa : BitVec 7) (t : Reg) (s : State) :
   exec (.mvb g fb fa n1 sb sa t) s = execMvb g fb fa n1 sb sa t s := rfl
@[simp] theorem exec_bra (g : Guard) (off : Word32) (s : State) :
   exec (.bra g off) s = execBra g off s := rfl
@[simp] theorem exec_brc (g : Guard) (c : BrcCond) (off : Word32) (s : State) :
   exec (.brc g c off) s = execBrc g c off s := rfl
@[simp] theorem exec_bru (g : Guard) (imm : BitVec 14) (c : BruCond) (off : Word32) (s : State) :
   exec (.bru g imm c off) s = execBru g imm c off s := rfl
@[simp] theorem exec_call (g : Guard) (link : BitVec 8) (off : Word32) (s : State) :
   exec (.call g link off) s = execCall g link off s := rfl
@[simp] theorem exec_ret (g : Guard) (a : Reg) (s : State) :
   exec (.ret g a) s = execRet g a s := rfl
@[simp] theorem exec_jmpi (g : Guard) (a : Reg) (s : State) :
   exec (.jmpi g a) s = execJmpi g a s := rfl
@[simp] theorem exec_exit (g : Guard) (s : State) :
   exec (.exit g) s = execExit g s := rfl
@[simp] theorem exec_nop (g : Guard) (s : State) :
   exec (.nop g) s = execNop g s := rfl
@[simp] theorem exec_wait (g : Guard) (n : WaitSrc) (s : State) :
   exec (.wait g n) s = execWait g n s := rfl
@[simp] theorem exec_yield (g : Guard) (s : State) :
   exec (.yield g) s = execYield g s := rfl
@[simp] theorem exec_rdsr (g : Guard) (sel : RdsrSel) (d : Reg) (s : State) :
   exec (.rdsr g sel d) s = execRdsr g sel d s := rfl
@[simp] theorem exec_bkpt (g : Guard) (code : BitVec 12) (s : State) :
   exec (.bkpt g code) s = execBkpt g code s := rfl
@[simp] theorem exec_setxi (g : Guard) (imm : Word32) (s : State) :
   exec (.setxi g imm) s = execSetxi g imm s := rfl
@[simp] theorem exec_setxiS (g : Guard) (a : Reg) (imm : Word32) (s : State) :
   exec (.setxiS g a imm) s = execSetxiS g a imm s := rfl
@[simp] theorem exec_setxiAdd (g : Guard) (imm : Word32) (s : State) :
   exec (.setxiAdd g imm) s = execSetxiAdd g imm s := rfl
@[simp] theorem exec_svc (g : Guard) (call : BitVec 12) (d : Reg) (a : Reg) (s : State) :
   exec (.svc g call d a) s = execSvc g call d a s := rfl
@[simp] theorem exec_trap (g : Guard) (code : BitVec 12) (s : State) :
   exec (.trap g code) s = execTrap g code s := rfl
@[simp] theorem exec_lnch (g : Guard) (d : Reg) (a : Reg) (b : Reg) (s : State) :
   exec (.lnch g d a b) s = execLnch g d a b s := rfl
@[simp] theorem exec_chkpt (g : Guard) (d : Reg) (s : State) :
   exec (.chkpt g d) s = execChkpt g d s := rfl
@[simp] theorem exec_spcmt (g : Guard) (final : Bool) (a : Reg) (b : Reg) (c : Reg) (s : State) :
   exec (.spcmt g final a b c) s = execSpcmt g final a b c s := rfl
@[simp] theorem exec_spdsc (g : Guard) (final : Bool) (a : Reg) (b : Reg) (c : Reg) (s : State) :
   exec (.spdsc g final a b c) s = execSpdsc g final a b c s := rfl
@[simp] theorem exec_issueCycle (core : Nat) (s : State) :
   exec (.issueCycle core) s = execIssueCycle core s := rfl
@[simp] theorem exec_clauseStart (g : Nat) (s : State) :
   exec (.clauseStart g) s = execClauseStart g s := rfl
@[simp] theorem exec_clauseBoundary (g : Nat) (s : State) :
   exec (.clauseBoundary g) s = execClauseBoundary g s := rfl
@[simp] theorem exec_loadLands (g : Nat) (p : Nat) (s : State) :
   exec (.loadLands g p) s = execLoadLands g p s := rfl
@[simp] theorem exec_storePerformed (g : Nat) (p : Nat) (s : State) :
   exec (.storePerformed g p) s = execStorePerformed g p s := rfl
@[simp] theorem exec_presenceUnpark (g : Nat) (s : State) :
   exec (.presenceUnpark g) s = execPresenceUnpark g s := rfl
@[simp] theorem exec_waitExpire (g : Nat) (s : State) :
   exec (.waitExpire g) s = execWaitExpire g s := rfl
@[simp] theorem exec_fmtemuTrap (g : Nat) (s : State) :
   exec (.fmtemuTrap g) s = execFmtemuTrap g s := rfl
@[simp] theorem exec_mgmtTurn (die : Nat) (s : State) :
   exec (.mgmtTurn die) s = execMgmtTurn die s := rfl
@[simp] theorem exec_fmtemuQueueFree (die : Nat) (hedge : Nat) (s : State) :
   exec (.fmtemuQueueFree die hedge) s = execFmtemuQueueFree die hedge s := rfl
@[simp] theorem exec_homeAdd (src : AddSrc) (s : State) :
   exec (.homeAdd src) s = execHomeAdd src s := rfl
@[simp] theorem exec_crossingAdd (ir : Nat) (s : State) :
   exec (.crossingAdd ir) s = execCrossingAdd ir s := rfl
@[simp] theorem exec_cwaitAnswer (g : Nat) (ir : Nat) (s : State) :
   exec (.cwaitAnswer g ir) s = execCwaitAnswer g ir s := rfl
@[simp] theorem exec_cwaitPoll (g : Nat) (ir : Nat) (s : State) :
   exec (.cwaitPoll g ir) s = execCwaitPoll g ir s := rfl
@[simp] theorem exec_downFlip (ir : Nat) (s : State) :
   exec (.downFlip ir) s = execDownFlip ir s := rfl
@[simp] theorem exec_copyStart (c : Nat) (s : State) :
   exec (.copyStart c) s = execCopyStart c s := rfl
@[simp] theorem exec_rrotStart (c : Nat) (s : State) :
   exec (.rrotStart c) s = execRrotStart c s := rfl
@[simp] theorem exec_engineRead (c : Nat) (slice : Nat) (sector : Int) (s : State) :
   exec (.engineRead c slice sector) s = execEngineRead c slice sector s := rfl
@[simp] theorem exec_chunkLand (c : Nat) (slice : Nat) (chunk : Int) (s : State) :
   exec (.chunkLand c slice chunk) s = execChunkLand c slice chunk s := rfl
@[simp] theorem exec_copyPublish (c : Nat) (s : State) :
   exec (.copyPublish c) s = execCopyPublish c s := rfl
@[simp] theorem exec_copyAbandon (c : Nat) (s : State) :
   exec (.copyAbandon c) s = execCopyAbandon c s := rfl
@[simp] theorem exec_publPerform (g : Nat) (p : Nat) (s : State) :
   exec (.publPerform g p) s = execPublPerform g p s := rfl
@[simp] theorem exec_mmaPerform (g : Nat) (s : State) :
   exec (.mmaPerform g) s = execMmaPerform g s := rfl
@[simp] theorem exec_batchRetire (g : Nat) (s : State) :
   exec (.batchRetire g) s = execBatchRetire g s := rfl
@[simp] theorem exec_mvbResultLand (g : Nat) (p : Nat) (line : Nat) (s : State) :
   exec (.mvbResultLand g p line) s = execMvbResultLand g p line s := rfl
@[simp] theorem exec_tileOpDone (g : Nat) (p : Nat) (s : State) :
   exec (.tileOpDone g p) s = execTileOpDone g p s := rfl
@[simp] theorem exec_groupRetire (g : Nat) (s : State) :
   exec (.groupRetire g) s = execGroupRetire g s := rfl
@[simp] theorem exec_groupRestore (w : Nat) (s : State) :
   exec (.groupRestore w) s = execGroupRestore w s := rfl
@[simp] theorem exec_groupResume (g : Nat) (token : Word32) (s : State) :
   exec (.groupResume g token) s = execGroupResume g token s := rfl
@[simp] theorem exec_migrResume (frame : Nat) (s : State) :
   exec (.migrResume frame) s = execMigrResume frame s := rfl
@[simp] theorem exec_groupEnd (g : Nat) (s : State) :
   exec (.groupEnd g) s = execGroupEnd g s := rfl
@[simp] theorem exec_breakpointRelease (g : Nat) (s : State) :
   exec (.breakpointRelease g) s = execBreakpointRelease g s := rfl
@[simp] theorem exec_walkComplete (ir : Nat) (s : State) :
   exec (.walkComplete ir) s = execWalkComplete ir s := rfl
@[simp] theorem exec_dispatch (hedge : Nat) (s : State) :
   exec (.dispatch hedge) s = execDispatch hedge s := rfl
@[simp] theorem exec_launchAdmit (hedge : Nat) (seq : Nat) (s : State) :
   exec (.launchAdmit hedge seq) s = execLaunchAdmit hedge seq s := rfl
@[simp] theorem exec_launchComplete (hedge : Nat) (seq : Nat) (s : State) :
   exec (.launchComplete hedge seq) s = execLaunchComplete hedge seq s := rfl
@[simp] theorem exec_bufalloc (src : CallSrc) (s : State) :
   exec (.bufalloc src) s = execBufalloc src s := rfl
@[simp] theorem exec_buffree (src : CallSrc) (s : State) :
   exec (.buffree src) s = execBuffree src s := rfl
@[simp] theorem exec_bufmap (src : CallSrc) (s : State) :
   exec (.bufmap src) s = execBufmap src s := rfl
@[simp] theorem exec_resume (src : CallSrc) (s : State) :
   exec (.resume src) s = execResume src s := rfl
@[simp] theorem exec_setvsatp (src : CallSrc) (s : State) :
   exec (.setvsatp src) s = execSetvsatp src s := rfl
@[simp] theorem exec_inval (src : CallSrc) (s : State) :
   exec (.inval src) s = execInval src s := rfl
@[simp] theorem exec_eqconfig (src : CallSrc) (s : State) :
   exec (.eqconfig src) s = execEqconfig src s := rfl
@[simp] theorem exec_svcReplyTake (g : Nat) (slot : Nat) (s : State) :
   exec (.svcReplyTake g slot) s = execSvcReplyTake g slot s := rfl
@[simp] theorem exec_svcFreeUnpark (g : Nat) (s : State) :
   exec (.svcFreeUnpark g) s = execSvcFreeUnpark g s := rfl
@[simp] theorem exec_stalledWriteAccept (g : Nat) (p : Nat) (s : State) :
   exec (.stalledWriteAccept g p) s = execStalledWriteAccept g p s := rfl
@[simp] theorem exec_migrationSwitch (frame : Nat) (s : State) :
   exec (.migrationSwitch frame) s = execMigrationSwitch frame s := rfl
@[simp] theorem exec_forwardEnd (frame : Nat) (s : State) :
   exec (.forwardEnd frame) s = execForwardEnd frame s := rfl
@[simp] theorem exec_placeRequest (ir : Nat) (s : State) :
   exec (.placeRequest ir) s = execPlaceRequest ir s := rfl
@[simp] theorem exec_ownershipGrant (frame : Nat) (s : State) :
   exec (.ownershipGrant frame) s = execOwnershipGrant frame s := rfl
@[simp] theorem exec_epochBoundary (s : State) : exec .epochBoundary s = execEpochBoundary s := rfl
@[simp] theorem exec_scrubComplete (frame : Nat) (s : State) :
   exec (.scrubComplete frame) s = execScrubComplete frame s := rfl
@[simp] theorem exec_snapshot (hedge : Nat) (s : State) :
   exec (.snapshot hedge) s = execSnapshot hedge s := rfl
@[simp] theorem exec_rollback (hedge : Nat) (cause : RollCause) (addr : RollAt) (s : State) :
   exec (.rollback hedge cause addr) s = execRollback hedge cause addr s := rfl
@[simp] theorem exec_remoteCounterOp (ir : Nat) (s : State) :
   exec (.remoteCounterOp ir) s = execRemoteCounterOp ir s := rfl
@[simp] theorem exec_rmaWrite (ir : Nat) (sector : Nat) (s : State) :
   exec (.rmaWrite ir sector) s = execRmaWrite ir sector s := rfl
@[simp] theorem exec_rmaRead (ir : Nat) (s : State) :
   exec (.rmaRead ir) s = execRmaRead ir s := rfl
@[simp] theorem exec_reductionMerge (ir : Nat) (s : State) :
   exec (.reductionMerge ir) s = execReductionMerge ir s := rfl
@[simp] theorem exec_writeBack (level : CacheLevel) (line : Nat) (s : State) :
   exec (.writeBack level line) s = execWriteBack level line s := rfl
@[simp] theorem exec_groupSave (g : Nat) (s : State) :
   exec (.groupSave g) s = execGroupSave g s := rfl
@[simp] theorem exec_fault (n : Nat) (e : ErrEvent) (i : Nat) (s : State) :
   exec (.fault n e i) s = execFault n e i s := rfl
@[simp] theorem exec_translationInvalidate (hedge : Nat) (va : Nat) (len : Nat) (s : State) :
   exec (.translationInvalidate hedge va len) s = execTranslationInvalidate hedge va len s := rfl
@[simp] theorem exec_sbiLaunch (hedge : Nat) (buf : Word64) (off : Word64) (s : State) :
   exec (.sbiLaunch hedge buf off) s = execSbiLaunch hedge buf off s := rfl
@[simp] theorem exec_guestCall (hedge : Nat) (slot : Nat) (code : Word64) (rval : Word64) (s : State) :
   exec (.guestCall hedge slot code rval) s = execGuestCall hedge slot code rval s := rfl
@[simp] theorem exec_migrationStart (frame : Nat) (newFrame : Nat) (tier : Tier) (s : State) :
   exec (.migrationStart frame newFrame tier) s = execMigrationStart frame newFrame tier s := rfl
@[simp] theorem exec_migrationAbandon (frame : Nat) (s : State) :
   exec (.migrationAbandon frame) s = execMigrationAbandon frame s := rfl
@[simp] theorem exec_ownershipRequest (frame : Nat) (faddr : BitVec 48) (s : State) :
   exec (.ownershipRequest frame faddr) s = execOwnershipRequest frame faddr s := rfl
@[simp] theorem exec_hedgeCreate (p : HedgeParams) (s : State) :
   exec (.hedgeCreate p) s = execHedgeCreate p s := rfl
@[simp] theorem exec_hedgeResize (hedge : Nat) (rect : Rect) (slots : List Nat) (s : State) :
   exec (.hedgeResize hedge rect slots) s = execHedgeResize hedge rect slots s := rfl
@[simp] theorem exec_coreFence (core : Nat) (s : State) :
   exec (.coreFence core) s = execCoreFence core s := rfl
@[simp] theorem exec_hedgeReset (hedge : Nat) (s : State) :
   exec (.hedgeReset hedge) s = execHedgeReset hedge s := rfl
@[simp] theorem exec_hedgeDestroy (hedge : Nat) (s : State) :
   exec (.hedgeDestroy hedge) s = execHedgeDestroy hedge s := rfl
@[simp] theorem exec_liveMigration (hedge : Nat) (faddr : BitVec 48) (target : BitVec 256) (s : State) :
   exec (.liveMigration hedge faddr target) s = execLiveMigration hedge faddr target s := rfl
@[simp] theorem exec_peerRequest (r : PeerReq) (s : State) :
   exec (.peerRequest r) s = execPeerRequest r s := rfl
@[simp] theorem exec_routeTimeout (hedge : Nat) (route : Nat) (s : State) :
   exec (.routeTimeout hedge route) s = execRouteTimeout hedge route s := rfl
@[simp] theorem exec_boot (image : List Byte) (s : State) :
   exec (.boot image) s = execBoot image s := rfl
@[simp] theorem exec_attestationReport (hedge : Nat) (nonce : BitVec 256) (s : State) :
   exec (.attestationReport hedge nonce) s = execAttestationReport hedge nonce s := rfl
@[simp] theorem exec_clockChange (core : Nat) (mhz : Nat) (forced : Bool) (s : State) :
   exec (.clockChange core mhz forced) s = execClockChange core mhz forced s := rfl
@[simp] theorem exec_mgmtCoreReset (die : Nat) (s : State) :
   exec (.mgmtCoreReset die) s = execMgmtCoreReset die s := rfl
@[simp] theorem exec_gDieAccess (hart : Nat) (hedge : Nat) (va : Word64) (op : GOp) (s : State) :
   exec (.gDieAccess hart hedge va op) s = execGDieAccess hart hedge va op s := rfl
@[simp] theorem exec_quarterBufferExpiry (core : Nat) (quarter : Nat) (line : Nat) (s : State) :
   exec (.quarterBufferExpiry core quarter line) s = execQuarterBufferExpiry core quarter line s := rfl
@[simp] theorem exec_cxlLinkLoss (port : Nat) (s : State) :
   exec (.cxlLinkLoss port) s = execCxlLinkLoss port s := rfl
@[simp] theorem exec_peerRefusal (g : Nat) (p : Nat) (code : Nat) (s : State) :
   exec (.peerRefusal g p code) s = execPeerRefusal g p code s := rfl
@[simp] theorem exec_fencedCoreClear (core : Nat) (s : State) :
   exec (.fencedCoreClear core) s = execFencedCoreClear core s := rfl
@[simp] theorem exec_serviceTableWrite (w : TableWrite) (s : State) :
   exec (.serviceTableWrite w) s = execServiceTableWrite w s := rfl

end Sys2Proof.Machine
end

