-- ==== Sys2Proof/Laws/Memory.lean ====
section
/-! SUPPORT. Byte memory: reading after writing, and the canonical form; and what the operations at a home may change. -/

namespace Sys2Proof.Machine

/-! ## Bytes by address -/

theorem Memory.wfFrom_mono {m : Memory} {lo lo' : Nat} (h : Memory.wfFrom lo m = true) (hl : lo' ≤ lo) :
    Memory.wfFrom lo' m = true := by
  cases m with
  | nil => rfl
  | cons p r => simp only [Memory.wfFrom, Bool.and_eq_true, decide_eq_true_eq] at h ⊢; exact ⟨⟨by omega, h.1.2⟩, h.2⟩

theorem Memory.read_below {m : Memory} {lo a : Nat} (h : Memory.wfFrom lo m = true) (ha : a < lo) : m.read a = 0 := by
  cases m with
  | nil => rfl
  | cons p r =>
    simp only [Memory.wfFrom, Bool.and_eq_true, decide_eq_true_eq] at h
    simp only [Memory.read, if_neg (show ¬a = p.1 by omega), if_pos (show a < p.1 by omega)]
    rfl

theorem Memory.read_erase {m : Memory} {lo : Nat} (h : Memory.wfFrom lo m = true) (a k : Nat) :
    (m.erase a).read k = if k = a then 0 else m.read k := by
  induction m generalizing lo with
  | nil => simp [Memory.erase, Memory.read, Memory.unlisted]
  | cons p r ih =>
    obtain ⟨q, v⟩ := p
    simp only [Memory.wfFrom, Bool.and_eq_true, decide_eq_true_eq] at h
    by_cases h1 : a = q
    · subst h1
      simp only [Memory.erase, if_true, Memory.read]
      by_cases h2 : k = a
      · subst h2; simp [Memory.read_below h.2 (Nat.lt_succ_self k)]
      · simp only [h2, if_false]
        split
        · rw [Memory.read_below h.2 (by omega)]; rfl
        · rfl
    · by_cases h2 : a < q
      · simp only [Memory.erase, if_neg h1, if_pos h2]
        split
        · subst_vars; simp [Memory.read, h1, h2, Memory.unlisted]
        · rfl
      · simp only [Memory.erase, if_neg h1, if_neg h2, Memory.read, ih h.2]
        by_cases h3 : k = q
        · simp [h3, Ne.symm h1]
        · simp only [h3, if_false]
          by_cases h4 : k < q
          · simp only [h4, if_true, if_neg (show ¬k = a by omega)]
          · simp only [h4, if_false]

theorem Memory.read_insert (m : Memory) (a k : Nat) (b : Byte) :
    (m.insert a b).read k = if k = a then b else m.read k := by
  induction m with
  | nil => by_cases h : k = a <;> simp [Memory.insert, Memory.read, h]
  | cons p r ih =>
    obtain ⟨q, v⟩ := p
    simp only [Memory.insert]
    split
    · rename_i h; subst h
      by_cases h : k = a <;> simp [Memory.read, h]
    · split
      · rename_i h1 h2
        by_cases h : k = a
        · simp [Memory.read, h]
        · simp only [Memory.read, h, if_false]
          by_cases h3 : k < a
          · simp [h3, show ¬k = q by omega, show k < q by omega]
          · simp [h3]
      · rename_i h1 h2
        simp only [Memory.read, ih]
        by_cases h : k = q
        · subst h; simp [Ne.symm h1]
        · simp only [h, if_false]
          by_cases h3 : k < q
          · simp [h3, show ¬k = a by omega]
          · simp [h3]

/-- Reading after one byte is written. -/
theorem Memory.read_write {m : Memory} (h : m.wf = true) (a k : Nat) (b : Byte) :
    (m.write a b).read k = if k = a then b else m.read k := by
  unfold Memory.write
  split
  · rename_i hb; rw [Memory.read_erase h, hb]; rfl
  · exact Memory.read_insert m a k b

theorem Memory.wfFrom_erase {m : Memory} {lo : Nat} (h : Memory.wfFrom lo m = true) (a : Nat) :
    Memory.wfFrom lo (m.erase a) = true := by
  induction m generalizing lo with
  | nil => rfl
  | cons p r ih =>
    obtain ⟨q, v⟩ := p
    simp only [Memory.wfFrom, Bool.and_eq_true, decide_eq_true_eq] at h
    simp only [Memory.erase]
    split
    · exact Memory.wfFrom_mono h.2 (by omega)
    · split
      · simp only [Memory.wfFrom, Bool.and_eq_true, decide_eq_true_eq]; exact h
      · simp only [Memory.wfFrom, Bool.and_eq_true, decide_eq_true_eq]; exact ⟨h.1, ih h.2⟩

theorem Memory.wfFrom_insert {m : Memory} {lo a : Nat} {b : Byte} (h : Memory.wfFrom lo m = true) (ha : lo ≤ a)
    (hb : b ≠ Memory.unlisted) : Memory.wfFrom lo (m.insert a b) = true := by
  have hb' : (b != Memory.unlisted) = true := by simpa using hb
  induction m generalizing lo with
  | nil => simp [Memory.insert, Memory.wfFrom, ha, hb']
  | cons p r ih =>
    obtain ⟨q, v⟩ := p
    simp only [Memory.wfFrom, Bool.and_eq_true, decide_eq_true_eq] at h
    simp only [Memory.insert]
    split
    · rename_i h1; subst h1
      simp only [Memory.wfFrom, Bool.and_eq_true, decide_eq_true_eq]; exact ⟨⟨ha, hb'⟩, h.2⟩
    · split
      · simp only [Memory.wfFrom, Bool.and_eq_true, decide_eq_true_eq]
        exact ⟨⟨ha, hb'⟩, ⟨by omega, h.1.2⟩, h.2⟩
      · simp only [Memory.wfFrom, Bool.and_eq_true, decide_eq_true_eq]
        exact ⟨h.1, ih h.2 (by omega)⟩

/-- A write of one byte keeps the canonical form. -/
theorem Memory.wf_write {m : Memory} (h : m.wf = true) (a : Nat) (b : Byte) : (m.write a b).wf = true := by
  unfold Memory.write
  split
  · exact Memory.wfFrom_erase h a
  · exact Memory.wfFrom_insert h (Nat.zero_le a) ‹_›

/-- A write of bytes keeps the canonical form. -/
theorem Memory.wf_writeN {m : Memory} (h : m.wf = true) (a : Nat) (bs : List Byte) : (m.writeN a bs).wf = true := by
  induction bs generalizing m a with
  | nil => exact h
  | cons b r ih => exact ih (Memory.wf_write h a b) (a + 1)

theorem Memory.wf_writeLE {m : Memory} (h : m.wf = true) (a n x : Nat) : (m.writeLE a n x).wf = true :=
  Memory.wf_writeN h a _

/-- Reading after bytes are written. -/
theorem Memory.read_writeN {m : Memory} (h : m.wf = true) (a k : Nat) (bs : List Byte) :
    (m.writeN a bs).read k = if a ≤ k ∧ k < a + bs.length then bs.getD (k - a) 0 else m.read k := by
  induction bs generalizing m a with
  | nil => simp [Memory.writeN]
  | cons b r ih =>
    simp only [Memory.writeN, ih (Memory.wf_write h a b), Memory.read_write h, List.length_cons]
    by_cases h1 : k = a
    · subst h1; simp
    · by_cases h2 : a + 1 ≤ k ∧ k < a + 1 + r.length
      · have h3 : a ≤ k ∧ k < a + (r.length + 1) := by omega
        simp only [h2, h3, and_self, if_true]
        rw [show k - a = (k - (a + 1)) + 1 by omega, List.getD_cons_succ]
      · have h3 : ¬(a ≤ k ∧ k < a + (r.length + 1)) := by omega
        rw [if_neg h2, if_neg h3, if_neg h1]

/-! ## What the operations at a home may change -/

/-- Everything of the machine but memory with its codes, frames, hedges, caches, tags, reservations, the free-value
counter and the rollbacks asked for is as before, and a canonical memory stays so. -/
structure State.AtHome (s t : State) : Prop where
  focus : t.focus = s.focus
  others : t.others = s.others
  grants : t.grants = s.grants
  nextId : t.nextId = s.nextId
  wgs : t.wgs = s.wgs
  ctrs : t.ctrs = s.ctrs
  adds : t.adds = s.adds
  copies : t.copies = s.copies
  shadows : t.shadows = s.shadows
  walks : t.walks = s.walks
  outbox : t.outbox = s.outbox
  physLog : t.physLog = s.physLog
  wf : s.memWf → t.memWf

theorem State.AtHome.refl (s : State) : s.AtHome s := ⟨rfl, rfl, rfl, rfl, rfl, rfl, rfl, rfl, rfl, rfl, rfl, rfl, id⟩

theorem State.AtHome.trans {s t u : State} (h : s.AtHome t) (k : t.AtHome u) : s.AtHome u :=
  ⟨k.focus.trans h.focus, k.others.trans h.others, k.grants.trans h.grants, k.nextId.trans h.nextId,
    k.wgs.trans h.wgs, k.ctrs.trans h.ctrs, k.adds.trans h.adds, k.copies.trans h.copies, k.shadows.trans h.shadows,
    k.walks.trans h.walks, k.outbox.trans h.outbox, k.physLog.trans h.physLog, fun x => k.wf (h.wf x)⟩

theorem State.AtHome.foldl {α : Type} {f : State → α → State} (hf : ∀ (s : State) x, s.AtHome (f s x)) (l : List α) (s : State) :
    s.AtHome (l.foldl f s) := by
  induction l generalizing s with
  | nil => exact .refl s
  | cons x r ih => exact (hf s x).trans (ih (f s x))

theorem State.AtHome.ite {s t u : State} {p : Prop} [Decidable p] (h : s.AtHome t) (k : s.AtHome u) :
    s.AtHome (if p then t else u) := by split <;> assumption

theorem State.atHome_mapHedge (s : State) (h : Nat) (f : Hedge → Hedge) : s.AtHome (s.mapHedge h f) :=
  ⟨rfl, rfl, rfl, rfl, rfl, rfl, rfl, rfl, rfl, rfl, rfl, rfl, id⟩
theorem State.atHome_mapCore (s : State) (c : Nat) (f : Core → Core) : s.AtHome (s.mapCore c f) :=
  ⟨rfl, rfl, rfl, rfl, rfl, rfl, rfl, rfl, rfl, rfl, rfl, rfl, id⟩
theorem State.atHome_mapFrame (s : State) (c : Nat) (f : Frame → Frame) : s.AtHome (s.mapFrame c f) :=
  ⟨rfl, rfl, rfl, rfl, rfl, rfl, rfl, rfl, rfl, rfl, rfl, rfl, id⟩
theorem State.atHome_free (s : State) (w : Nat) : s.AtHome (s.free w).2 :=
  ⟨rfl, rfl, rfl, rfl, rfl, rfl, rfl, rfl, rfl, rfl, rfl, rfl, id⟩
theorem State.atHome_breakReserve (s : State) (a n : Nat) : s.AtHome (s.breakReserve a n) :=
  ⟨rfl, rfl, rfl, rfl, rfl, rfl, rfl, rfl, rfl, rfl, rfl, rfl, id⟩
theorem State.atHome_tags (s : State) (ts : List (Nat × RelTag)) : s.AtHome { s with tags := ts } :=
  ⟨rfl, rfl, rfl, rfl, rfl, rfl, rfl, rfl, rfl, rfl, rfl, rfl, id⟩
theorem State.atHome_l2 (s : State) (bs : List SBlock) : s.AtHome { s with l2 := bs } :=
  ⟨rfl, rfl, rfl, rfl, rfl, rfl, rfl, rfl, rfl, rfl, rfl, rfl, id⟩
theorem State.atHome_slices (s : State) (bs : List SBlock) : s.AtHome { s with slices := bs } :=
  ⟨rfl, rfl, rfl, rfl, rfl, rfl, rfl, rfl, rfl, rfl, rfl, rfl, id⟩
theorem State.atHome_see (s : State) (who : BitVec 3) (pas : List Nat) : s.AtHome (s.see who pas) :=
  ⟨rfl, rfl, rfl, rfl, rfl, rfl, rfl, rfl, rfl, rfl, rfl, rfl, id⟩
theorem State.atHome_askRollback (s : State) (h : Nat) (c : RollCause) (a : RollAt) : s.AtHome (s.askRollback h c a) :=
  ⟨rfl, rfl, rfl, rfl, rfl, rfl, rfl, rfl, rfl, rfl, rfl, rfl, id⟩

theorem State.atHome_logAt (s : State) (x : Option (Option Nat)) (pa : Nat) (old : List Byte) : s.AtHome (s.logAt x pa old) := by
  unfold State.logAt; split
  · exact .refl s
  · exact s.atHome_mapHedge _ _

theorem State.atHome_logLine (s : State) (pa : Nat) : s.AtHome (s.logLine pa) := s.atHome_logAt _ _ _

theorem State.atHome_homeSet (s : State) (pa : Nat) (b : Byte) : s.AtHome (s.homeSet pa b) := by
  unfold State.homeSet
  dsimp only
  split
  · exact (s.atHome_breakReserve _ _).trans (State.atHome_mapFrame _ _ _)
  · exact ⟨rfl, rfl, rfl, rfl, rfl, rfl, rfl, rfl, rfl, rfl, rfl, rfl, fun h => Memory.wf_write h _ _⟩

theorem State.atHome_homeWrite (s : State) (pa : Nat) (b : Byte) : s.AtHome (s.homeWrite pa b) :=
  (s.atHome_logLine pa).trans (State.atHome_homeSet _ _ _)

theorem State.atHome_homeWriteN (s : State) (pa : Nat) (bs : List Byte) : s.AtHome (s.homeWriteN pa bs) := by
  induction bs generalizing s pa with
  | nil => exact .refl s
  | cons b r ih => exact (s.atHome_homeWrite pa b).trans (ih _ _)

theorem State.atHome_counterWord (s : State) (pa : Nat) (x : Word64) : s.AtHome (s.counterWord pa x) :=
  (s.atHome_logLine pa).trans
    ⟨rfl, rfl, rfl, rfl, rfl, rfl, rfl, rfl, rfl, rfl, rfl, rfl, fun h => Memory.wf_writeLE h _ _ _⟩

theorem State.atHome_hubWriteWord (s : State) (pa : Nat) (x : Word64) : s.AtHome (s.hubWriteWord pa x) :=
  State.AtHome.foldl (fun t _ => t.atHome_homeSet _ _) _ s

theorem State.atHome_countAccess (s : State) (pa : Nat) (r w : Bool) : s.AtHome (s.countAccess pa r w) :=
  s.atHome_mapFrame _ _

/-! ## Superblocks -/

theorem State.atHome_atAgent (s : State) (pa : Nat) (r w : Bool) : s.AtHome (s.atAgent pa r w) := by
  unfold State.atAgent
  exact .ite ((s.atHome_countAccess _ _ _).trans (State.atHome_slices _ _)) (s.atHome_countAccess _ _ _)

theorem State.atHome_recall (s : State) (o : Option Nat) (pa : Nat) (w : Bool) : s.AtHome (s.recall o pa w) := by
  unfold State.recall
  exact (State.AtHome.ite (s.atHome_atAgent _ _ _) (.refl s)).trans (State.atHome_l2 _ _)

theorem State.atHome_putDown (s : State) (d pa : Nat) : s.AtHome (s.putDown d pa) := by
  unfold State.putDown
  exact (s.atHome_recall _ _ _).trans (.ite (State.atHome_l2 _ _) (State.atHome_atAgent _ _ _ _))

theorem State.atHome_writeBackLine (s : State) (c : Nat) (l : Line) : s.AtHome (s.writeBackLine c l) := by
  unfold State.writeBackLine
  exact .ite (.refl s) (.ite (s.atHome_askRollback _ _ _)
    ((State.AtHome.foldl (fun t _ => t.atHome_homeWrite _ _) _ s).trans (State.atHome_putDown _ _ _)))

theorem State.atHome_flush (s : State) (c : Nat) (p : Line → Bool) : s.AtHome (s.flush c p) := by
  unfold State.flush
  exact (State.AtHome.foldl (fun t l => t.atHome_writeBackLine c l) _ s).trans (State.atHome_mapCore _ _ _)

theorem State.atHome_flushHome (s : State) (c : Nat) (p : Line → Bool) : s.AtHome (s.flushHome c p) := by
  unfold State.flushHome
  exact (s.atHome_flush c p).trans (State.AtHome.foldl (fun t _ => t.atHome_recall _ _ _) _ _)

theorem State.atHome_flushHedge (s : State) (c h : Nat) : s.AtHome (s.flushHedge c h) := s.atHome_flushHome c _

theorem State.atHome_flushLine (s : State) (c h pa : Nat) : s.AtHome (s.flushLine c h pa) := s.atHome_flushHome c _

theorem State.atHome_dropLines (s : State) (c : Nat) (p : Line → Bool) : s.AtHome (s.dropLines c p) :=
  (s.atHome_flush c p).trans (State.atHome_mapCore _ _ _)

theorem State.atHome_promote (s : State) (pa : Nat) (p : RelTag → Bool) : s.AtHome (s.promote pa p) := by
  unfold State.promote
  split
  · exact .ite ((s.atHome_flushHedge _ _).trans (State.atHome_tags _ _)) (.refl s)
  · exact .refl s

theorem State.atHome_setTag (s : State) (pa : Nat) (o : Option RelTag) : s.AtHome (s.setTag pa o) := by
  have h : ∀ (x : Option RelTag) (b : RelTag → Bool),
      s.AtHome (match x with | some o => if b o then s else s.flushHedge o.core o.hedge | none => s) := by
    intro x b
    split
    · exact .ite (.refl s) (s.atHome_flushHedge _ _)
    · exact .refl s
  unfold State.setTag
  cases o <;> exact (h _ _).trans (State.atHome_tags _ _)

theorem State.atHome_tagStore (s : State) (pa : Nat) (r : Option Scope) (sc : Scope) (c h : Nat) :
    s.AtHome (s.tagStore pa r sc c h) := by
  unfold State.tagStore
  split
  · exact s.atHome_setTag _ _
  · exact .ite (.refl s) (s.atHome_setTag _ _)

theorem State.atHome_evictSlice (s : State) (b : SBlock) : s.AtHome (s.evictSlice b) := by
  unfold State.evictSlice
  exact ((s.atHome_promote _ _).trans (State.AtHome.foldl (fun t _ => t.atHome_recall _ _ _) _ _)).trans
    (State.atHome_slices _ _)

theorem State.atHome_makeRoom (s : State) (o : Option SBlock) (f : State → SBlock → State)
    (hf : ∀ (u : State) v, u.AtHome (f u v)) : s.AtHome (match o with | some v => f (s.free 32).2 v | none => s) := by
  cases o with
  | none => exact .refl s
  | some v => exact (s.atHome_free 32).trans (hf _ v)

theorem State.atHome_fillSlice (s : State) (h pa : Nat) (w : Bool) : s.AtHome (s.fillSlice h pa w) := by
  unfold State.fillSlice
  exact .ite (s.atHome_slices _) (.ite (.refl s) ((s.atHome_makeRoom _ _ State.atHome_evictSlice).trans (State.atHome_slices _ _)))

theorem State.atHome_homeAccess (s : State) (h pa : Nat) (r w : Bool) : s.AtHome (s.homeAccess h pa r w) :=
  ((s.atHome_recall _ _ _).trans (State.atHome_atAgent _ _ _ _)).trans (State.atHome_fillSlice _ _ _ _)

theorem State.atHome_evictL2 (s : State) (b : SBlock) : s.AtHome (s.evictL2 b) := by
  unfold State.evictL2
  exact (State.AtHome.foldl (fun t _ => .ite (t.atHome_atAgent _ _ _) (.refl t)) _ s).trans (State.atHome_l2 _ _)

theorem State.atHome_readL2 (s : State) (d h pa : Nat) : s.AtHome (s.readL2 d h pa) := by
  unfold State.readL2
  exact .ite (.refl s) ((s.atHome_homeAccess h pa true false).trans (.ite (State.atHome_l2 _ _) (.ite (.refl _)
    ((State.atHome_makeRoom _ _ _ State.atHome_evictL2).trans (State.atHome_l2 _ _)))))

/-! ## Lines of a core -/

theorem State.atHome_insertLine (s : State) (c : Nat) (l : Line) : s.AtHome (s.insertLine c l) := by
  unfold State.insertLine
  dsimp only
  split
  · exact s.atHome_mapCore _ _
  · exact (s.atHome_free 32).trans ((State.atHome_writeBackLine _ _ _).trans (State.atHome_mapCore _ _ _))

theorem State.atHome_l1Bring (s : State) (c h n : Nat) : s.AtHome (s.l1Bring c h n) := by
  unfold State.l1Bring
  split
  · exact .refl s
  · exact (s.atHome_readL2 _ _ _).trans (State.atHome_insertLine _ _ _)

theorem State.atHome_touchLine (s : State) (c q h n : Nat) : s.AtHome (s.touchLine c q h n) := by
  unfold State.touchLine
  exact .ite (.refl s) ((s.atHome_l1Bring c h n).trans (State.atHome_mapCore _ _ _))

theorem State.atHome_weakWrite (s : State) (c q h pa : Nat) (b : Byte) : s.AtHome (s.weakWrite c q h pa b) := by
  unfold State.weakWrite
  exact (s.atHome_l1Bring c h _).trans (State.atHome_mapCore _ _ _)

theorem State.atHome_dropQuarter (s : State) (c q h : Nat) : s.AtHome (s.dropQuarter c q h) := s.atHome_mapCore _ _

theorem State.atHome_dropCleanL1 (s : State) (c h : Nat) : s.AtHome (s.dropCleanL1 c h) := by
  unfold State.dropCleanL1
  exact (State.AtHome.foldl (fun t _ => t.atHome_readL2 _ _ _) _ s).trans (State.atHome_mapCore _ _ _)

theorem State.atHome_dropClean (s : State) (c h : Nat) : s.AtHome (s.dropClean c h) :=
  (s.atHome_dropCleanL1 c h).trans (State.atHome_mapCore _ _ _)

theorem State.atHome_acquire (s : State) (g : Group) (sc : CtrScope) : s.AtHome (s.acquire g sc) := by
  cases sc <;> first
    | exact .refl s
    | exact s.atHome_dropQuarter _ _ _
    | exact (s.atHome_dropCleanL1 _ _).trans (State.atHome_dropQuarter _ _ _ _)

theorem State.atHome_release (s : State) (g : Group) (sc : CtrScope) : s.AtHome (s.release g sc) := by
  unfold State.release
  exact .ite (.refl s) (.ite (s.atHome_flushHedge _ _) (s.atHome_flush _ _))

theorem State.atHome_prepareLine (s : State) (v : Via) (r w : Bool) (k : Path) (n : Nat) :
    s.AtHome (s.prepareLine v r w k n) := by
  cases k
  · exact .ite (s.atHome_touchLine _ _ _ _) (.refl s)
  · exact (s.atHome_flushLine _ _ _).trans (State.atHome_readL2 _ _ _ _)
  · exact (s.atHome_flushLine _ _ _).trans (State.atHome_homeAccess _ _ _ _ _)

theorem State.atHome_prepare (s : State) (v : Via) (r w : Bool) (ps : List Place) : s.AtHome (s.prepare v r w ps) :=
  (State.AtHome.foldl (fun t _ => t.atHome_prepareLine _ _ _ _ _) _ s).trans (State.atHome_see _ _ _)

/-! ## Passing fences -/

/-- What a fence may change: what an operation at a home may, tags of counters, and of the group in focus the tags that
it has met and the scope of its releases. -/
structure State.AtFence (s t : State) : Prop where
  focus : ∃ m c r, t.focus = { s.focus with metTags := m, metCtrs := c, relScope := r }
  others : t.others = s.others
  grants : t.grants = s.grants
  wgs : t.wgs = s.wgs
  adds : t.adds = s.adds
  copies : t.copies = s.copies
  outbox : t.outbox = s.outbox
  physLog : t.physLog = s.physLog
  wf : s.memWf → t.memWf

theorem State.AtHome.fence {s t : State} (h : s.AtHome t) : s.AtFence t :=
  ⟨⟨_, _, _, h.focus⟩, h.others, h.grants, h.wgs, h.adds, h.copies, h.outbox, h.physLog, h.wf⟩

theorem State.AtFence.trans {s t u : State} (h : s.AtFence t) (k : t.AtFence u) : s.AtFence u := by
  obtain ⟨a, b, c, hf⟩ := h.focus
  obtain ⟨a', b', c', kf⟩ := k.focus
  exact ⟨⟨a', b', c', by rw [kf, hf]⟩, k.others.trans h.others, k.grants.trans h.grants, k.wgs.trans h.wgs,
    k.adds.trans h.adds, k.copies.trans h.copies, k.outbox.trans h.outbox, k.physLog.trans h.physLog,
    fun x => k.wf (h.wf x)⟩

theorem State.AtFence.foldl {α : Type} {f : State → α → State} (hf : ∀ (s : State) x, s.AtFence (f s x)) (l : List α)
    (s : State) : s.AtFence (l.foldl f s) := by
  induction l generalizing s with
  | nil => exact (State.AtHome.refl s).fence
  | cons x r ih => exact (hf s x).trans (ih (f s x))

theorem State.AtFence.ite {s t u : State} {p : Prop} [Decidable p] (h : s.AtFence t) (k : s.AtFence u) :
    s.AtFence (if p then t else u) := by split <;> assumption

theorem State.atFence_mapCtr (s : State) (r : CtrKey) (f : Ctr → Ctr) : s.AtFence (s.mapCtr r f) :=
  ⟨⟨_, _, _, rfl⟩, rfl, rfl, rfl, rfl, rfl, rfl, rfl, id⟩

theorem State.atFence_met (s : State) (m : List (Nat × RelTag)) (c : List (CtrKey × RelTag)) :
    s.AtFence { s with focus := { s.focus with metTags := m, metCtrs := c } } :=
  ⟨⟨_, _, _, rfl⟩, rfl, rfl, rfl, rfl, rfl, rfl, rfl, id⟩

theorem State.atFence_relScope (s : State) (r : Option Scope) :
    s.AtFence { s with focus := { s.focus with relScope := r } } :=
  ⟨⟨_, _, _, rfl⟩, rfl, rfl, rfl, rfl, rfl, rfl, rfl, id⟩

theorem State.atFence_fenceRelease (s : State) (sc : Scope) : s.AtFence (s.fenceRelease sc) :=
  (s.atHome_release _ _).fence.trans (State.atFence_relScope _ _)

theorem State.atFence_fenceAcquire (s : State) (sc : CtrScope) : s.AtFence (s.fenceAcquire sc) := by
  unfold State.fenceAcquire
  refine (((State.AtFence.foldl ?_ _ s).trans (State.AtFence.foldl ?_ _ _)).trans (State.atFence_met _ _ _)).trans
    (State.atHome_acquire _ _ _).fence
  · intro u p
    exact .ite (.ite ((u.atHome_flushHedge _ _).trans (State.atHome_tags _ _)).fence (u.atHome_flushHedge _ _).fence)
      (State.AtHome.refl u).fence
  · intro u p
    exact .ite (.ite ((u.atHome_flushHedge _ _).fence.trans (State.atFence_mapCtr _ _ _)) (u.atHome_flushHedge _ _).fence)
      (State.AtHome.refl u).fence

theorem State.atFence_fenceEffect (s : State) (f : PendingFence) : s.AtFence (s.fenceEffect f) := by
  unfold State.fenceEffect
  split
  · exact (s.atHome_flushHedge _ _).fence
  · split
    · exact s.atFence_fenceRelease _
    · exact s.atFence_fenceAcquire _
    · exact (s.atFence_fenceRelease _).trans (State.atFence_fenceAcquire _ _)

/-- Passing the fences takes some of them from the group in focus, with the tags that it has met and the scope of its
releases, and changes no other part of it. -/
theorem State.passFences_focus {s t : State} {w e : Bool} (h : s.passFences w e = .ok t) :
    (∃ m c r, t.focus = { s.focus with
      metTags := m, metCtrs := c, relScope := r, fences := s.focus.fences.filter fun f => !f.orders w e }) ∧
      t.others = s.others ∧ t.wgs = s.wgs ∧ (s.memWf → t.memWf) := by
  unfold State.passFences at h
  dsimp only at h
  split at h
  · cases h
  · cases h
    have k := State.AtFence.foldl (fun t f => State.atFence_fenceEffect t f)
      (s.focus.fences.filter fun f => f.orders w e) s
    obtain ⟨m, c, r, hf⟩ := k.focus
    exact ⟨⟨m, c, r, by simp [hf]⟩, k.others, k.wgs, fun h => k.wf h⟩

@[simp] theorem State.passFences_none {s : State} {w e : Bool} (h : s.focus.fences = []) : s.passFences w e = .ok s := by
  have hf : ({ s.focus with fences := [] } : Group) = s.focus := by rw [← h]
  unfold State.passFences
  simp only [h, List.filter_nil, List.any_nil, Bool.false_eq_true, if_false, List.foldl_nil, hf]

end Sys2Proof.Machine
end

