-- ==== Sys2Proof/Laws/Shapes.lean ====
section
/-! SUPPORT. What the shapes of the register instructions answer when their operands raise nothing: one lemma a shape. -/

namespace Sys2Proof.Machine

@[simp] theorem Except.ok_bind {ε α β : Type} (a : α) (f : α → Except ε β) : (Except.ok a >>= f) = f a := rfl

@[simp] theorem Except.error_bind {ε α β : Type} (e : ε) (f : α → Except ε β) : (Except.error e >>= f) = .error e := rfl

/-! ## Scalar -/

theorem State.scalar1_eq {s : State} {gd : Guard} {d a : Reg} {f : Word64 → Word64} (h : s.runs gd)
    (hd : s.focus.hasS d) (ha : s.focus.hasS a) :
    s.scalar1 gd d a f = s.gives (s.focus.setS (s.focus.regIndex d) (f (s.focus.sOf a))) := by
  refine State.issue_gives h ?_ ⟨rfl, rfl, rfl⟩
  have hr := Group.ready_ok (g := s.focus) (vs := []) (ss := [s.focus.regIndex d, s.focus.regIndex a]) (ps := [])
    (by simp) (by simp [hd.free, ha.free]) (by simp)
  simp only [Group.sNum_eq hd, Group.sNum_eq ha, Except.ok_bind, hr]
  rfl

theorem State.scalar2_eq {s : State} {gd : Guard} {d a b : Reg} {f : Word64 → Word64 → Word64} (h : s.runs gd)
    (hd : s.focus.hasS d) (ha : s.focus.hasS a) (hb : s.focus.hasS b) :
    s.scalar2 gd d a b f = s.gives (s.focus.setS (s.focus.regIndex d) (f (s.focus.sOf a) (s.focus.sOf b))) := by
  refine State.issue_gives h ?_ ⟨rfl, rfl, rfl⟩
  have hr := Group.ready_ok (g := s.focus) (vs := [])
    (ss := [s.focus.regIndex d, s.focus.regIndex a, s.focus.regIndex b]) (ps := [])
    (by simp) (by simp [hd.free, ha.free, hb.free]) (by simp)
  simp only [Group.sNum_eq hd, Group.sNum_eq ha, Group.sNum_eq hb, Except.ok_bind, hr]
  rfl

theorem State.scalar3_eq {s : State} {gd : Guard} {d a b c : Reg} {f : Word64 → Word64 → Word64 → Word64}
    (h : s.runs gd) (hd : s.focus.hasS d) (ha : s.focus.hasS a) (hb : s.focus.hasS b) (hc : s.focus.hasS c) :
    s.scalar3 gd d a b c f =
      s.gives (s.focus.setS (s.focus.regIndex d) (f (s.focus.sOf a) (s.focus.sOf b) (s.focus.sOf c))) := by
  refine State.issue_gives h ?_ ⟨rfl, rfl, rfl⟩
  have hr := Group.ready_ok (g := s.focus) (vs := [])
    (ss := [s.focus.regIndex d, s.focus.regIndex a, s.focus.regIndex b, s.focus.regIndex c]) (ps := [])
    (by simp) (by simp [hd.free, ha.free, hb.free, hc.free]) (by simp)
  simp only [Group.sNum_eq hd, Group.sNum_eq ha, Group.sNum_eq hb, Group.sNum_eq hc, Except.ok_bind, hr]
  rfl

/-! ## Vector integer -/

theorem State.vec1_eq {s : State} {gd : Guard} {d a : Reg} {ea : Expect} {t : Tag} {f : Word32 → Word32}
    (h : s.runs gd) (hd : s.focus.hasV d) (ha : s.focus.source a ea) :
    s.vec1 gd d a ea t f =
      s.gives (s.focus.setV (s.focus.eff gd) (s.focus.regIndex d) t fun l => f (s.focus.vOf a l)) := by
  refine State.issue_gives h ?_ (by simp [Group.sameWho])
  have hc := Group.check_ok (ds := [s.focus.regIndex d]) (ss := []) (ps := []) ha.clean (by simp [hd.free]) (by simp)
    (by simp)
  simp only [Group.vNum_eq hd, Group.vNum_eq ha.1, Except.ok_bind, hc]
  rfl

theorem State.vec2_eq {s : State} {gd : Guard} {d a : Reg} {b : BSrc} {ea eb : Expect} {t : Tag}
    {f : Word32 → Word32 → Word32} (h : s.runs gd) (hd : s.focus.hasV d) (ha : s.focus.source a ea)
    (hb : s.focus.bSource b eb) :
    s.vec2 gd d a b ea eb t f =
      s.gives (s.focus.setV (s.focus.eff gd) (s.focus.regIndex d) t fun l => f (s.focus.vOf a l) (s.focus.bOf b l)) := by
  refine State.issue_gives h ?_ (by simp [Group.sameWho])
  have hc := Group.check_ok (g := s.focus) (srcs := (s.focus.regIndex a, ea) :: (s.focus.bVal b).srcs eb)
    (ds := [s.focus.regIndex d]) (ss := (s.focus.bVal b).ss) (ps := [])
    (by simpa using ⟨by simpa using ha.clean, hb.clean⟩) (by simp [hd.free]) hb.ss (by simp)
  simp only [Group.vNum_eq hd, Group.vNum_eq ha.1, Group.bNum_eq hb, Except.ok_bind, hc, Group.bLane_bVal]
  rfl

theorem State.vec3_eq {s : State} {gd : Guard} {d a : Reg} {b : BSrc} {c : Reg} {ea eb ec : Expect} {t : Tag}
    {f : Word32 → Word32 → Word32 → Word32} (h : s.runs gd) (hd : s.focus.hasV d) (ha : s.focus.source a ea)
    (hb : s.focus.bSource b eb) (hc : s.focus.source c ec) :
    s.vec3 gd d a b c ea eb ec t f =
      s.gives (s.focus.setV (s.focus.eff gd) (s.focus.regIndex d) t fun l =>
        f (s.focus.vOf a l) (s.focus.bOf b l) (s.focus.vOf c l)) := by
  refine State.issue_gives h ?_ (by simp [Group.sameWho])
  have hk := Group.check_ok (g := s.focus)
    (srcs := (s.focus.regIndex a, ea) :: (s.focus.bVal b).srcs eb ++ [(s.focus.regIndex c, ec)])
    (ds := [s.focus.regIndex d]) (ss := (s.focus.bVal b).ss) (ps := [])
    (by simpa using ⟨by simpa using ha.clean, hb.clean, by simpa using hc.clean⟩) (by simp [hd.free]) hb.ss (by simp)
  simp only [Group.vNum_eq hd, Group.vNum_eq ha.1, Group.vNum_eq hc.1, Group.bNum_eq hb, Except.ok_bind, hk,
    Group.bLane_bVal]
  rfl

theorem State.vecCmp_eq {s : State} {gd : Guard} {d : BitVec 3} {a : Reg} {b : BSrc} {ex : Expect}
    {f : Word32 → Word32 → Bool} (h : s.runs gd) (hd : s.focus.awaitsP d = false) (ha : s.focus.source a ex)
    (hb : s.focus.bSource b ex) :
    s.vecCmp gd d a b ex f =
      s.gives (s.focus.setP (s.focus.eff gd) d (maskOf fun l => f (s.focus.vOf a l) (s.focus.bOf b l))) := by
  refine State.issue_gives h ?_ (by simp [Group.sameWho])
  have hc := Group.check_ok (g := s.focus) (srcs := (s.focus.regIndex a, ex) :: (s.focus.bVal b).srcs ex)
    (ds := []) (ss := (s.focus.bVal b).ss) (ps := [d])
    (by simpa using ⟨by simpa using ha.clean, hb.clean⟩) (by simp) hb.ss (by simp [hd])
  simp only [Group.vNum_eq ha.1, Group.bNum_eq hb, Except.ok_bind, hc, Group.bLane_bVal]
  rfl

/-! ## Floating point -/

@[simp] theorem Group.setVF_sameWho (g : Group) (e : Mask) (n : Nat) (t : Tag) (f : Nat → FRes) :
    (g.setVF e n t f).sameWho g := by simp [Group.sameWho, Group.setVF, Group.raise]

@[simp] theorem Group.setDF_sameWho (g : Group) (e : Mask) (n : Nat) (f : Nat → FRes) :
    (g.setDF e n f).sameWho g := by simp [Group.sameWho, Group.setDF, Group.setPair, Group.raise]

@[simp] theorem Group.setCmp_sameWho (g : Group) (e : Mask) (d : BitVec 3) (f : Nat → Bool × FpFlags) :
    (g.setCmp e d f).sameWho g := by simp [Group.sameWho, Group.setCmp, Group.raise]

theorem State.fp1_eq {s : State} {gd : Guard} {d a : Reg} {f : FVal → FRes} (h : s.runs gd) (hd : s.focus.hasV d)
    (ha : s.focus.source a .f32) :
    s.fp1 gd d a f =
      s.gives (s.focus.setVF (s.focus.eff gd) (s.focus.regIndex d) .f32 fun l => f (f32v (s.focus.vOf a l))) := by
  refine State.issue_gives h ?_ (Group.setVF_sameWho ..)
  have hc := Group.check_ok (ds := [s.focus.regIndex d]) (ss := []) (ps := []) ha.clean (by simp [hd.free]) (by simp)
    (by simp)
  simp only [Group.vNum_eq hd, Group.vNum_eq ha.1, Except.ok_bind, hc]
  rfl

theorem State.fp2_eq {s : State} {gd : Guard} {nb : Bool} {d a : Reg} {b : BSrc} {f : Word32 → Word32 → FRes}
    (h : s.runs gd) (hd : s.focus.hasV d) (ha : s.focus.source a .f32) (hb : s.focus.bSource b .f32) :
    s.fp2 gd nb d a b f =
      s.gives (s.focus.setVF (s.focus.eff gd) (s.focus.regIndex d) .f32 fun l =>
        f (s.focus.vOf a l) (negIf nb (s.focus.bOf b l))) := by
  refine State.issue_gives h ?_ (Group.setVF_sameWho ..)
  have hc := Group.check_ok (g := s.focus) (srcs := (s.focus.regIndex a, .f32) :: (s.focus.bVal b).srcs .f32)
    (ds := [s.focus.regIndex d]) (ss := (s.focus.bVal b).ss) (ps := [])
    (by simpa using ⟨by simpa using ha.clean, hb.clean⟩) (by simp [hd.free]) hb.ss (by simp)
  simp only [Group.vNum_eq hd, Group.vNum_eq ha.1, Group.bNum_eq hb, Except.ok_bind, hc, Group.bLane_bVal]
  rfl

theorem State.packed2_eq {s : State} {gd : Guard} {bf nb : Bool} {d a : Reg} {b : BSrc} {f : FpFmt → Nat → Nat → FRes}
    (h : s.runs gd) (hd : s.focus.hasV d) (ha : s.focus.source a (packedSrc bf))
    (hb : s.focus.bSource b (packedSrc bf)) :
    s.packed2 gd bf nb d a b f =
      s.gives (s.focus.setVF (s.focus.eff gd) (s.focus.regIndex d) (packedTag bf) fun l =>
        let el (j : Nat) : FRes :=
          f (packedFmt bf) (half (s.focus.vOf a l) j).toNat (negIf nb (half (s.focus.bOf b l) j)).toNat
        packTwo (el 0) (el 1)) := by
  refine State.issue_gives h ?_ (Group.setVF_sameWho ..)
  have hc := Group.check_ok (g := s.focus)
    (srcs := (s.focus.regIndex a, packedSrc bf) :: (s.focus.bVal b).srcs (packedSrc bf))
    (ds := [s.focus.regIndex d]) (ss := (s.focus.bVal b).ss) (ps := [])
    (by simpa using ⟨by simpa using ha.clean, hb.clean⟩) (by simp [hd.free]) hb.ss (by simp)
  simp only [Group.vNum_eq hd, Group.vNum_eq ha.1, Group.bNum_eq hb, Except.ok_bind, hc, Group.bLane_bVal]
  rfl

theorem State.dbl2_eq {s : State} {gd : Guard} {nb : Bool} {d a : Reg} {b : BSrc} {f : Word64 → Word64 → FRes}
    (h : s.runs gd) (hd : s.focus.hasV d 2) (ha : s.focus.pairSource a) (hb : s.focus.bPairSource b) :
    s.dbl2 gd nb d a b f =
      s.gives (s.focus.setDF (s.focus.eff gd) (s.focus.regIndex d) fun l =>
        f (s.focus.pairOf a l) (negIf nb (s.focus.bPairOf b l))) := by
  refine State.issue_gives h ?_ (Group.setDF_sameWho ..)
  have hc := Group.check_ok (g := s.focus) (srcs := pairSrc (s.focus.regIndex a) ++ (s.focus.bVal b).pairs)
    (ds := [s.focus.regIndex d, s.focus.regIndex d + 1]) (ss := (s.focus.bVal b).ss) (ps := [])
    (by simpa using ⟨ha.clean, hb.clean⟩) (by simp [hd.free, hd.free1]) hb.ss (by simp)
  simp only [Group.vNum_eq hd, Group.vNum_eq ha.1, Group.bNum_pair hb, Except.ok_bind, hc, Group.bPair_bVal]
  rfl

end Sys2Proof.Machine
end

