-- ==== Sys2Proof/Laws/Pend.lean ====
section
/-! SUPPORT. How an instruction that leaves an operation outstanding ends, when nothing stops it. -/

namespace Sys2Proof.Machine

theorem State.advance_single {s : State} (h : s.focus.role = .single) : s.advance = s.past s.focus := by
  unfold State.advance State.past Group.partner
  simp [h]

/-- An instruction of a single group that changes more than its group completes when its checks raise nothing. -/
theorem State.issueS_gives {s u : State} {gd : Guard} {f : Mask → State → Res State} (h : s.runs gd)
    (hf : f (s.focus.eff gd) s = .ok u) (hr : u.focus.role = .single) : s.issueS gd f = u.gives u.focus := by
  simp only [State.issueS, State.guarded, h.1, h.2.1, if_false, hf, Bool.false_eq_true]
  rw [State.advance_single hr]

/-- The index word of a buffer operand that may be read. -/
theorem Group.bufIndex_eq {g : Group} {b : BufSel} (h : g.hasBuf b) :
    ∃ l, g.bufIndex b = .ok (g.bufOf b, l) ∧ ∀ n ∈ l, g.awaitsS n = false := by
  cases b with
  | reg n sc =>
    refine ⟨[n.toNat], ?_, ?_⟩
    · simp only [Group.bufIndex, Group.sDirect, if_pos h.1, Group.bufOf]; rfl
    · simpa using h.2
  | window k =>
    refine ⟨[], ?_, by simp⟩
    simp only [Group.bufIndex, Group.bufOf]
    congr 2
    clear h
    revert k
    decide

theorem Group.check_eq {g : Group} {srcs : Sources} {ds ss : List Nat} (h : g.takes srcs)
    (hv : ∀ p ∈ srcs, g.awaitsV p.1 = false) (hd : ∀ n ∈ ds, g.awaitsV n = false)
    (hs : ∀ n ∈ ss, g.awaitsS n = false) : g.check srcs ds ss = .ok () :=
  Group.check_ok (fun p hp => ⟨hv p hp, h p hp⟩) hd hs (by simp)

theorem State.addOp_single {s : State} (h : s.focus.role = .single) (o : Op) :
    s.addOp o = .ok { s with focus := s.focus.leaving o } := by
  simp only [State.addOp, h]
  rfl

theorem State.passFences_role {s t : State} {w e : Bool} (h : s.passFences w e = .ok t) : t.focus.role = s.focus.role := by
  obtain ⟨⟨_, _, _, hf⟩, _⟩ := State.passFences_focus h
  rw [hf]

/-- The issue of a memory request that passes, in a single group. -/
theorem State.memOp_eq {s t : State} {e : Mask} {r : MemReq} {chk : List (Nat × List Place)} (hs : s.single)
    (h : s.lets r chk t) : s.memOp e r = .ok { t with focus := t.focus.leaving (r.op s e chk) } := by
  obtain ⟨a, b, c, d, f⟩ := h
  have hr : t.focus.role = .single := (State.passFences_role f).trans hs
  simp only [State.memOp, a, b, c, d, f, need, if_true, bind, Except.bind]
  exact State.addOp_single hr _

end Sys2Proof.Machine
end

