-- ==== Sys2Proof/Tests/Slice0.lean ====
section
/-! SUPPORT. Tests: well-formedness refuses what it must, words of the spec's examples decode to their instructions, and
for each statement of Certificates/Slice0/Obligations.lean a state and operands that meet its hypotheses. Expected
instructions are those printed beside the words in the spec's worked examples. -/

namespace Sys2Proof.Tests

set_option Elab.async false
set_option maxRecDepth 20000

open Sys2Proof.Machine

/-! ## Well-formedness: one ill-formed term for each check -/

/-- No guard: P7, not negated. -/
def g7 : Guard := ⟨7, false⟩

/-- A register field. -/
def r (n : BitVec 8) : Reg := ⟨n, false⟩

theorem test_wf_s_class : (Instr.smov g7 (r 128) (r 0)).wellFormed = false := by decide
theorem test_wf_s_source : (Instr.sadd g7 .wrap (r 0) (r 0) (r 200)).wellFormed = false := by decide
theorem test_wf_b_s_class : (Instr.vadd g7 ⟨false, false⟩ (r 0) (r 0) (.s (r 128))).wellFormed = false := by decide
theorem test_wf_count_class : (Instr.lshl g7 false none (r 0) (r 0) (.s (r 128))).wellFormed = false := by decide
theorem test_wf_member_class : (Instr.vote g7 (.any 0) 0 (some (r 128))).wellFormed = false := by decide
theorem test_wf_carry_p7 : (Instr.lshl g7 false (some 7) (r 0) (r 0) (.s (r 0))).wellFormed = false := by decide
theorem test_wf_cvt_pair : (Instr.cvt g7 .e8m0 .e8m0 false .rn (r 0) (r 0)).wellFormed = false := by decide
theorem test_wf_bcast_class : (Instr.bcast g7 (.s (r 128)) (r 0) (r 0)).wellFormed = false := by decide
theorem test_wf_tile_class : (Instr.mrd g7 0 (.imm 0) (r 0) (r 64)).wellFormed = false := by decide
theorem test_wf_col_span : (Instr.mrd g7 1 (.imm 31) (r 0) (r 0)).wellFormed = false := by decide
theorem test_wf_wait_class : (Instr.wait g7 (.s (r 128))).wellFormed = false := by decide
theorem test_wf_weak_scope : (Instr.ld g7 .n32 ⟨.weak, .reg 0 .pkg, 0, r 0⟩ (r 0)).wellFormed = false := by decide
theorem test_wf_load_order : (Instr.ld g7 .n32 ⟨.rel, .reg 0 .pkg, 0, r 0⟩ (r 0)).wellFormed = false := by decide
theorem test_wf_store_order : (Instr.st g7 .n32 ⟨.acq, .reg 0 .pkg, 0, r 0⟩ (r 0)).wellFormed = false := by decide
theorem test_wf_store_format : (Instr.st g7 .i8 ⟨.rlx, .reg 0 .pkg, 0, r 0⟩ (r 0)).wellFormed = false := by decide
theorem test_wf_sst_format : (Instr.sst g7 .i8 ⟨.rlx, .reg 0 .pkg, 0, r 0⟩ (r 0)).wellFormed = false := by decide
theorem test_wf_atomic_type : (Instr.atom g7 .add .raw ⟨.rlx, .reg 0 .pkg, 0, r 0⟩ (r 0)).wellFormed = false := by decide
theorem test_wf_red_order : (Instr.red g7 .add .n32 ⟨.acq, .reg 0 .pkg, 0, r 0⟩ (r 0)).wellFormed = false := by decide
theorem test_wf_place_scope : (Instr.place g7 .hbm (.reg 0 .pkg) 0 (r 0)).wellFormed = false := by decide
theorem test_wf_mma_formats :
    (Instr.mma g7 ⟨false, false, false, false, .f16, .i8, 0, 1, 0, 0, r 0⟩).wellFormed = false := by decide
theorem test_wf_mvb_formats : (Instr.mvb g7 .f64 .f64 0 0 0 (r 0)).wellFormed = false := by decide

/-! ## Decoding: words that the spec's worked examples print beside these instructions -/

theorem test_decode_scmp : decodeWord 0x0000000403061C13 = .ok (.scmp g7 (r 6) (r 3) (r 4)) := by rfl
theorem test_decode_sshl_imm : decodeWord 0x0000003404201C2A = .ok (.sshlImm g7 (r 32) (r 4) 52) := by rfl
theorem test_decode_vmovs_ps : decodeWord 0x0020000009011C43 = .ok (.vmovsPs g7 1 (r 9)) := by rfl
theorem test_decode_vmad_n_s :
    decodeWord 0x005009061E0A1C84 = .ok (.vmad g7 ⟨false, true⟩ (r 10) (r 30) (.s (r 6)) (r 9)) := by rfl
theorem test_decode_vshl_s : decodeWord 0x004000091E1F1CC4 = .ok (.vshl g7 (r 31) (r 30) (.s (r 9))) := by rfl
theorem test_decode_fcmp : decodeWord 0x020000070A030506 = .ok (.fcmp ⟨1, false⟩ .gt 3 (r 10) (.v (r 7) false)) := by rfl
theorem test_decode_cvt : decodeWord 0x26000000070B1D60 = .ok (.cvt g7 .f32 .e8m0 false .rn (r 11) (r 7)) := by rfl
theorem test_decode_dot4 :
    decodeWord 0x00800605040C1D80 = .ok (.dot4 g7 (.fp false false false .rn) (r 12) (r 4) ⟨r 5, false⟩ (r 6)) := by rfl
theorem test_decode_vote_ballot : decodeWord 0x00200000030B1D91 = .ok (.vote g7 (.ballot (r 11)) 3 none) := by rfl
theorem test_decode_lbind : decodeWord 0x0020000000001DC0 = .ok (.lbind g7 .w4) := by rfl
theorem test_decode_lmuls :
    decodeWord 0x4000090600081DC6 = .ok (.lmuls g7 false (some 3) (r 8) (r 0) (r 6) (r 9)) := by rfl
theorem test_decode_ld_acq :
    decodeWord 0x8880000402061E00 = .ok (.ld g7 .n32 ⟨.acq, .reg 4 .pkg, 0, r 2⟩ (r 6)) := by rfl
theorem test_decode_stsp :
    decodeWord 0x00002007050A1A05 = .ok (.stsp ⟨6, false⟩ .raw ⟨.weak, .reg 7 .grp, 32, 5⟩ (r 10)) := by rfl
theorem test_decode_red :
    decodeWord 0xACC4001403051E42 = .ok (.red g7 .add .f32 ⟨.rel, .reg 20 .sys, 0, r 3⟩ (r 5)) := by rfl
theorem test_decode_place : decodeWord 0x0040001403001E45 = .ok (.place g7 .hbm (.reg 20 .grp) 0 (r 3)) := by rfl
theorem test_decode_cnext :
    decodeWord 0x00400005040A1E81 = .ok (.cnext g7 ⟨.rlx, .pkg⟩ (r 10) (r 4) (r 5)) := by rfl
theorem test_decode_cwait :
    decodeWord 0x7EA0000908001E82 = .ok (.cwait g7 ⟨.acq, .rect .full .full⟩ (r 8) (r 9)) := by rfl
theorem test_decode_clink : decodeWord 0x0020000504001E86 = .ok (.clink g7 2 (r 4) (r 5)) := by rfl
theorem test_decode_cpy : decodeWord 0x00C0000820001EC0 = .ok (.cpy g7 true .pkg (r 32) (r 8)) := by rfl
theorem test_decode_mzero : decodeWord 0x0030000000021F01 = .ok (.mzero g7 .f32 (r 2)) := by rfl
theorem test_decode_mrd : decodeWord 0x0600000001041F04 = .ok (.mrd g7 3 (.imm 0) (r 4) (r 1)) := by rfl
theorem test_decode_mld :
    decodeWord 0x00C020041F011F02 = .ok (.mld g7 .f32 ⟨.weak, .reg 4 .grp, 32, r 31⟩ (r 1)) := by rfl
theorem test_decode_bra : decodeWord 0x0000000000120740 = .ok (.bra ⟨1, false⟩ 18) := by rfl
theorem test_decode_lnch : decodeWord 0x0000000504141F82 = .ok (.lnch g7 (r 20) (r 4) (r 5)) := by rfl
theorem test_decode_unassigned : decodeWord 0x0000000000001FFF = .error .unassigned := by rfl
theorem test_decode_reserved_bit : decodeWord 0x0008000403061C13 = .error .field := by rfl
theorem test_decode_reserved_modifier : decodeWord 0x0010000403061C13 = .error .modifier := by rfl
theorem test_decode_ru_without_latch : decodeWord 0x0004000403061C13 = .error .latch := by rfl
theorem test_table_word : decodeTableWord 64 0x0000000403061C13 = some (.scmp g7 (r 6) (r 3) (r 4)) := by rfl

/-! ## Witnesses: a state and operands that meet the hypotheses of each statement -/

/-- A V register of a tag, all lanes zero. -/
def vtag (t : Tag) : VReg := ⟨t, Vector.replicate 32 0⟩

/-- A group with a register of every tag, V0 to V13 in the order of the codes, 16 S registers that hold their numbers,
and a clause of one word in progress. -/
def g0 : Group := { Group.start 1 0 16 2 with
  vregs := [.raw, .i32, .n32, .f32, .dLo, .dHi, .h2, .b2, .e4x4, .e5x4, .e2x8, .i8x4, .i4x8, .limb, .f6ax5, .f6bx5,
    .raw, .raw, .raw, .raw, .raw, .raw, .raw, .raw].map vtag
  sregs := (List.range 16).map fun n => BitVec.ofNat 64 n
  code := ⟨0, 4096, 0, 64, 3⟩
  clause := some ⟨0, 0xA000000007FFFFE1, ⟨0, 0, 0, false, 15, 15, 15, 15, 0x3F, 1⟩, [0], 0, BitVec.allOnes 32, 1⟩ }

/-- The machine with that group in focus. -/
def s0 : State := { State.reset with focus := g0, nextId := 100 }

theorem s0_single : s0.single := rfl
theorem s0_runs : s0.runs g7 := ⟨by rfl, by decide, s0_single.unfaulted⟩
theorem hs (n : BitVec 8) (k : Nat := 1) (h : n.toNat + k ≤ 16 := by decide) : s0.focus.hasS (r n) k := Group.hasS_idle rfl h
theorem hv (n : BitVec 8) (k : Nat := 1) (h : n.toNat + k ≤ 24 := by decide) : s0.focus.hasV (r n) k := Group.hasV_idle rfl h
theorem hsrc (n : BitVec 8) (e : Expect) (h : n.toNat + 1 ≤ 24 := by decide)
    (ht : e.accepts (g0.tag n.toNat) = true := by decide) (h6 : isF6 (g0.tag n.toNat) = false := by decide) :
    s0.focus.source (r n) e := Group.source_idle rfl h ht h6
theorem hpair : s0.focus.pairSource (r 4) := ⟨hv 4 2, by decide, by decide⟩
theorem hp (p : BitVec 3) : s0.focus.awaitsP p = false := Group.awaitsP_idle rfl p

theorem witness_ScalarArithmetic : s0.runs g7 ∧ s0.focus.hasS (r 0) ∧ s0.focus.hasS (r 15) := ⟨s0_runs, hs 0, hs 15⟩

theorem witness_ScalarMovesCountsFields : s0.runs g7 ∧ s0.focus.hasS (r 15) ∧ s0.focus.hasV (r 23) ∧
    s0.focus.hasV (r 22) 2 ∧ s0.focus.source (r 0) .any ∧ s0.focus.awaitsP 0 = false :=
  ⟨s0_runs, hs 15, hv 23, hv 22 2, hsrc 0 .any, hp 0⟩

theorem witness_ScalarCompareSelect : s0.runs g7 ∧ s0.focus.hasS (r 15) ∧ (1 : BitVec 5) ≠ 0 := ⟨s0_runs, hs 15, by decide⟩

theorem witness_VectorIntegers : s0.runs g7 ∧ s0.focus.source (r 1) (.ofN false) ∧ s0.focus.source (r 2) (.ofN true) ∧
    s0.focus.source (r 0) (.ofN true) ∧ s0.focus.bSource (.v (r 1) false) (.ofN false) ∧
    s0.focus.bSource (.s (r 15)) (.ofN true) ∧ s0.focus.hasV (r 23) ∧ s0.focus.hasV (r 22) 2 ∧
    s0.focus.tag (s0.focus.regIndex (r 0)) ∈ [Tag.i32, .n32, .raw] ∧
    s0.focus.tag (s0.focus.regIndex (r 0) + 1) ∈ [Tag.i32, .raw] ∧ s0.focus.awaitsP 7 = false ∧
    s0.focus.source (r 13) .any ∧ s0.focus.bSource (.v (r 2) false) .int ∧ s0.focus.source (r 1) .i32 :=
  ⟨s0_runs, hsrc 1 _, hsrc 2 _, hsrc 0 _, hsrc 1 _, hs 15, hv 23, hv 22 2, by decide, by decide, hp 7, hsrc 13 _, hsrc 2 _,
    hsrc 1 _⟩

theorem witness_RoundingIsNearest : (3 : Nat) ≠ 0 ∧ (FpFmt.f32.round .rn false false 3 0).flags &&& flagOF = 0 ∧
    (FpFmt.f16.round .rz false true 1 (-30)).flags &&& flagOF = 0 := by decide

theorem witness_exactResults : (FVal.fin true 3 0).isFin = true ∧ (2 : Nat) ≠ 0 ∧
    (FVal.fin true 2 0).rat = (FVal.fin true 3 0).rat + (FVal.fin false 1 0).rat ∧
    (FVal.fin true 3 0).rat = (FVal.fin true 3 0).rat * (FVal.fin false 1 0).rat ∧
    (FVal.fin true 2 0).rat = (FVal.fin true 3 0).rat * (FVal.fin false 1 0).rat + (FVal.fin false 1 0).rat ∧
    (FVal.fin true 3 0).rat * (FVal.fin false 1 0).rat + (FVal.fin false 3 0).rat = 0 ∧
    (FVal.fin true 3 0).rat * (FVal.fin true 0 0).rat = 0 := by norm_num [FVal.rat, FVal.isFin]

theorem witness_chunkSums : (∀ t ∈ [FVal.fin true 0 0, .fin true 0 0], t.isFin = true) ∧
    (∀ t ∈ [FVal.fin true 0 0, .fin true 0 0], t.rat = 0) ∧
    (∃ t ∈ [FVal.fin false 0 0, .fin true 3 0], (2 : ℚ) ^ (1 : Int) ≤ |t.rat|) ∧
    ∀ t ∈ [FVal.fin false 0 0, .fin true 3 0], |t.rat| < (2 : ℚ) ^ ((1 : Int) + 1) := by
  norm_num [FVal.rat, FVal.isFin]

theorem witness_Float32 : s0.runs g7 ∧ s0.focus.source (r 3) .f32 ∧ s0.focus.bSource (.v (r 3) false) .f32 ∧
    s0.focus.bSource (.s (r 0)) .f32 ∧ s0.focus.hasV (r 23) ∧ s0.focus.awaitsP 0 = false ∧
    (FVal.nan true).isNan = true ∧ (FVal.fin true 3 0).isFin = true ∧
    (FVal.fin true 3 0).rat + (FVal.fin false 3 0).rat = 0 ∧ (FVal.fin true 0 0).isZero = true :=
  ⟨s0_runs, hsrc 3 _, hsrc 3 _, hs 0, hv 23, hp 0, rfl, rfl, by simp [FVal.rat], rfl⟩

theorem witness_FloatPacked : s0.runs g7 ∧ s0.focus.source (r 6) .h2 ∧ s0.focus.bSource (.v (r 6) false) .h2 ∧
    s0.focus.source (r 7) .b2 ∧ s0.focus.bSource (.s (r 0)) .b2 ∧ s0.focus.hasV (r 23) :=
  ⟨s0_runs, hsrc 6 _, hsrc 6 _, hsrc 7 _, hs 0, hv 23⟩

theorem witness_Float64AndClassify : s0.runs g7 ∧ s0.focus.source (r 3) .f32 ∧ s0.focus.pairSource (r 4) ∧
    s0.focus.bPairSource (.v (r 4) false) ∧ s0.focus.bPairSource (.s (r 0)) ∧ s0.focus.hasV (r 23) ∧
    s0.focus.hasV (r 22) 2 ∧ s0.focus.awaitsP 0 = false :=
  ⟨s0_runs, hsrc 3 _, hpair, hpair, hs 0, hv 23, hv 22 2, hp 0⟩

theorem witness_FloatFunctions : s0.runs g7 ∧ s0.focus.source (r 3) .f32 ∧ s0.focus.bSource (.s (r 0)) .f32 ∧
    s0.focus.hasV (r 23) ∧ (1 : Nat) ≠ 0 := ⟨s0_runs, hsrc 3 _, hs 0, hv 23, by decide⟩

theorem witness_Conversions : s0.runs g7 ∧ s0.focus.hasV (r 22) (cvtSpan .f64) ∧ s0.focus.hasV (r 3) (cvtSpan .f32) ∧
    (∀ p ∈ cvtSources (s0.focus.regIndex (r 3)) .f32, p.2.accepts (s0.focus.tag p.1) = true) ∧
    s0.focus.hasV (r 23) (cvtSpan .i32) ∧ s0.focus.hasV (r 4) (cvtSpan .f64) ∧
    (∀ p ∈ cvtSources (s0.focus.regIndex (r 4)) .f64, p.2.accepts (s0.focus.tag p.1) = true) :=
  ⟨s0_runs, hv 22 2, hv 3 1, by decide, hv 23 1, hv 4 2, by decide⟩

theorem witness_TagsPackingDots : s0.runs g7 ∧ s0.focus.hasV (r 23) ∧ s0.focus.source (r 0) .any ∧
    s0.focus.regIndex (r 1) < s0.focus.tiles.length ∧ s0.focus.hasV (r 16) 4 ∧
    (∀ i, i < (packShape .i8).1 → Expect.i32.accepts (s0.focus.tag (s0.focus.regIndex (r 16) + i)) = true) ∧
    packIsF6 .e4m3 = false ∧ s0.focus.source (r 8) (unpkSource .e4m3) ∧ s0.focus.source (r 11) .i8x4 ∧
    s0.focus.source (r 12) .i4x8 ∧ s0.focus.source (r 1) (.ofN false) ∧ s0.focus.source (r 8) .e4x4 ∧
    s0.focus.source (r 9) .e5x4 ∧ s0.focus.source (r 10) .e2x8 ∧ s0.focus.source (r 3) .f32 :=
  ⟨s0_runs, hv 23, hsrc 0 _, by decide, hv 16 4, by decide, rfl, hsrc 8 _, hsrc 11 _, hsrc 12 _, hsrc 1 _, hsrc 8 _, hsrc 9 _,
    hsrc 10 _, hsrc 3 _⟩

theorem witness_CrossLane : s0.runs g7 ∧ s0.focus.hasV (r 23) ∧ s0.focus.source (r 13) .any ∧
    s0.focus.bSource (.v (r 1) false) .int ∧ s0.focus.bSource (.s (r 15)) .int ∧ s0.focus.hasMM none ∧
    s0.focus.hasMM (some (r 15)) ∧ s0.focus.awaitsP 7 = false ∧ s0.focus.hasV (r 22) 2 ∧ s0.focus.pairSource (r 4) ∧
    redDouble (.fMin true) = true ∧ redDouble (.intAdd false false) = false ∧
    (∀ p ∈ redSources (.intAdd false false) (s0.focus.regIndex (r 1)), p.2.accepts (s0.focus.tag p.1) = true) :=
  ⟨s0_runs, hv 23, hsrc 13 _, hsrc 1 _, hs 15, trivial, hs 15, hp 7, hv 22 2, hpair, rfl, rfl, by decide⟩

/-- The same, bound at 4 limbs. -/
def s1 : State := { s0 with focus := { g0 with limb := some .w4 } }

theorem s1_runs : s1.runs g7 := ⟨by rfl, by decide, State.single.unfaulted rfl⟩
theorem s1_bound : s1.focus.boundAt (s1.focus.eff g7) 4 := ⟨⟨.w4, rfl, rfl⟩, by decide⟩

theorem witness_LimbBindingCompareCount : s0.runs g7 ∧ s0.focus.limb = none ∧ s0.focus.hasV (r 23) ∧
    s0.focus.source (r 13) .limb ∧ s1.runs g7 ∧ s1.focus.boundAt (s1.focus.eff g7) 4 ∧ s1.focus.source (r 13) .limb ∧
    s1.focus.awaitsP 0 = false ∧ s1.focus.hasV (r 23) ∧ (∀ w, ¬ s0.focus.boundAt (s0.focus.eff g7) w) ∧
    s0.focus.source (r 2) .int ∧ s0.focus.hasS (r 15) :=
  ⟨s0_runs, rfl, hv 23, hsrc 13 _, s1_runs, s1_bound, Group.source_idle rfl (by decide) (by decide) (by decide),
    Group.awaitsP_idle rfl _, Group.hasV_idle rfl (by decide),
    (fun _ h => by obtain ⟨⟨_, h, _⟩, _⟩ := h; cases h), hsrc 2 _, hs 15⟩

theorem witness_LimbArithmetic : s1.runs g7 ∧ s1.focus.boundAt (s1.focus.eff g7) 4 ∧ s1.focus.hasV (r 23) ∧
    s1.focus.source (r 13) .limb ∧ s1.focus.source (r 2) .int ∧ s1.focus.hasS (r 15) ∧ s1.focus.awaitsP 6 = false ∧
    (∀ co : Nat → Bool, co 28 = true → someSet (s1.focus.eff g7) 4 fun j => co j = true) ∧
    ¬ (true = true ∧ someSet (s1.focus.eff g7) 4 fun _ => False) :=
  ⟨s1_runs, s1_bound, Group.hasV_idle rfl (by decide), Group.source_idle rfl (by decide) (by decide) (by decide),
    Group.source_idle rfl (by decide) (by decide) (by decide), Group.hasS_idle rfl (by decide), Group.awaitsP_idle rfl _,
    fun _ h => ⟨31, by decide, by decide, h⟩, fun ⟨_, _, _, _, h⟩ => h⟩

theorem s0_go (dest : Nat → Int) (h : ∀ l, l < 32 → 0 ≤ dest l ∧ dest l < 4096) : s0.focus.mayGo dest :=
  ⟨fun l hl _ => h l hl, fun b hb => by cases hb⟩

theorem witness_Branches : s0.acts g7 ∧ s0.focus.wholeMask s0.focus.active ∧ s0.focus.wholeMask (s0.focus.eff g7) ∧
    s0.focus.target 2 = 16 ∧ s0.focus.mayGo (fun l => if (s0.focus.eff g7).getLsbD l then 16 else s0.focus.fall) ∧
    s0.focus.eff g7 ≠ 0 ∧ s0.focus.source (r 0) .int ∧ s0.focus.hasV (r 23) :=
  ⟨⟨by rfl, s0_single.unfaulted⟩, (fun b h => by cases h), (fun b h => by cases h), by decide, s0_go _ (by decide), by decide,
    hsrc 0 _, hv 23⟩

/-- A bound group whose first lane alone has P0. -/
def s1p : State := { s1 with focus := { s1.focus with preds := #v[1, 0, 0, 0, 0, 0, 0] } }

/-- Under that predicate E splits a set (R187). -/
theorem witness_split : s1p.runs ⟨0, false⟩ ∧ ∀ w, ¬ s1p.focus.boundAt (s1p.focus.eff ⟨0, false⟩) w := by
  refine ⟨⟨by rfl, by decide, State.single.unfaulted rfl⟩, fun w h => ?_⟩
  obtain ⟨⟨x, hx, hw⟩, hm⟩ := h
  cases hx
  subst hw
  revert hm
  decide

theorem witness_BranchFaults : s0.acts g7 ∧ s0.focus.active.getLsbD 0 = true ∧
    (s0.focus.code.tlen : Int) ≤ s0.focus.target 512 ∧ s0.focus.target 0xFFFFFFFF < 0 ∧ s1p.acts ⟨0, false⟩ ∧
    s1p.focus.wholeMask s1p.focus.active ∧ ¬ s1p.focus.wholeMask (s1p.focus.eff ⟨0, false⟩) := by
  refine ⟨⟨by rfl, s0_single.unfaulted⟩, by decide, by decide, by decide, ⟨by rfl, State.single.unfaulted rfl⟩,
    fun b h => ?_, fun h => absurd (h .w4 rfl) (by decide)⟩
  cases h
  decide

/-! ### A machine with a hedge, a workgroup, buffers and identity translation -/

/-- The parameters of a hedge on the cores 0, 1, 16 and 17 of die 0. -/
def hp0 : HedgeParams where
  id := 0
  rect := ⟨0, 0, 1, 1, 1⟩
  slots := [0, 1]
  checked := false
  debug := true
  gCores := [3]
  features := 0x1FFF
  scratchPages := some 64
  clusterCounters := 16
  waiterSlice := 4
  watchQuota := 4
  shadowQuota := 4
  pinQuota := 4
  stalledShare := 8
  l2blocks := 8
  sliceBlocks := 8
  l2tlb := 256
  walkers := 1
  turns := 1
  tokenHbm := 1
  tokenLpddr := 1
  tokenPool := 1
  cmask := 1
  lmask := 1
  quotaHbm := 100
  quotaLpddr := 100
  quotaPool := 0
  logLines := 1000
  nslot := 16
  guestSize := 2 ^ 30
  vsatp := 0xA000000000000100
  hgatp := 0xA000000000000200
  contextBase := 0x300000

/-- A launch of one workgroup of one group. -/
def l0 : Launch where
  seq := 5
  cls := 0
  spec := none
  p := 1
  groups := 1
  wgcount := 1
  rect := ⟨0, 0, 0, 0, 1⟩
  deps := []
  done := none
  v := 24
  s := 16
  acc := 2
  scr := 4096
  code := ⟨0, 4096, 0x2000, 64, 3⟩
  entry := 0
  binds := []
  admitted := true
  placed := 1
  finished := 0
  complete := false
  rotLost := none

/-- Word 2 of an entry of hedge 0: valid, readable, writable, executable, atomic, with further bits. -/
def attr (more : Word64) : Word64 := 0x5F ||| more

/-- The hedge: buffer 0 plain, 1 of counters, 2 publishable, 3 the code, 4 weights in a bank layout, 5 a reduction
window. -/
def h0 : Hedge where
  p := hp0
  rect := hp0.rect
  slots := hp0.slots
  map := [0, 1, 16, 17]
  vsatp := hp0.vsatp
  hgatp := hp0.hgatp
  bufs := [(0, [0x10000, 4096, attr 0, 0]), (1, [0x12000, 256, 0x2000000 * 0 ||| 0x400000063, 0]),
    (2, [0x14000, 8192, attr 0x100000000, 0]), (3, [0, 4096, attr 0, 0]),
    (4, [0x18000, 8192, attr 0x1000000000, 1]), (5, [0x1C000, 128, attr 0x800000000, 1])]
  interleave := []
  banks := []
  routes := []
  windows := []
  accs := []
  farWatches := []
  epoch := 1
  launches := [l0]
  nextSeq := 6
  errq := none
  interval := 1
  log := []
  freed := []
  snap := none
  rolled := []
  sentAdds := 0
  sentBytes := 0
  key := 1
  nextToken := 1
  nextGpa := 2 ^ 30
  calls := []
  unconsumed := 0
  wantSnap := false
  resize := none
  moving := none

/-- The workgroup, on core 0. -/
def w0 : Workgroup where
  id := 7
  hedge := 0
  lseq := 5
  index := 0
  lcore := 0
  pos := 0
  core := some 0
  wgid := 0
  size := 4096
  scratch := []
  absent := []
  copies := 0
  rots := 0
  retired := []
  ended := []
  swapped := none
  image := none

/-- The group, with one lane in its clause. -/
def g2 : Group := { g0 with
  lseq := 5, wg := 7, seat := some ⟨0, 0, 0, 0⟩
  clause := some ⟨0, 0xA000000007FFFFE1, ⟨0, 0, 0, false, 15, 15, 15, 15, 0x3F, 1⟩, [0], 0, 1, 1⟩ }

/-- The translation that core 0 holds: the first gigabyte, as it is. -/
def t0 : TlbEntry := ⟨0, 0, 2 ^ 30, 0, ⟨true, true, true, true⟩, ⟨true, true, true, true⟩, false⟩

/-- The machine. The two bytes in memory are the root entries of the two stages, which map the first gigabyte. -/
def s2 : State := { State.reset with
  focus := g2, nextId := 100, hedges := [h0], wgs := [w0], stage := .up
  cores := [(0, { Core.initial 0 with tlb := [t0], slots := [some 0, some 0] ++ List.replicate 14 none })]
  mem := [(0x100000, 0xDF), (0x200000, 0xDF)] }

theorem s2_single : s2.single := rfl
theorem s2_clean {s : State} (h : s.cores = s2.cores) : s.l1Clean := by simp [State.l1Clean, h, s2, Core.initial]
theorem s2_runs : s2.runs g7 := ⟨by rfl, by decide, s2_single.unfaulted⟩
theorem hs2 (n : BitVec 8) (k : Nat := 1) (h : n.toNat + k ≤ 16 := by decide) : s2.focus.hasS (r n) k := Group.hasS_idle rfl h
theorem hv2 (n : BitVec 8) (k : Nat := 1) (h : n.toNat + k ≤ 24 := by decide) : s2.focus.hasV (r n) k := Group.hasV_idle rfl h
theorem hsrc2 (n : BitVec 8) (e : Expect) (h : n.toNat + 1 ≤ 24 := by decide)
    (ht : e.accepts (g0.tag n.toNat) = true := by decide) (h6 : isF6 (g0.tag n.toNat) = false := by decide) :
    s2.focus.source (r n) e := Group.source_idle rfl h ht h6

theorem test_walk : ((s2.walk none h0 0x12345).toOption.map (·.1)) = some t0 := by decide
theorem test_translate : s2.translate 0 0 0x10004 needRW = .ok (0x10004, false) := by rfl

/-- The group as the leading one of a checked pair, which has read 5 with its first instruction, and the trailing one. -/
def gLead : Group := { g2 with role := .leading 2, rdsrs := [(0, 5)] }
def gTrail : Group := { g2 with id := 2, role := .trailing 1 }
def sLead : State := { s2 with focus := gLead, others := [gTrail] }
def sTrail : State := { s2 with focus := gTrail, others := [gLead] }
theorem sLead_runs : sLead.runs g7 := ⟨by rfl, by decide, fun _ h => by cases h; rfl⟩
theorem sTrail_runs : sTrail.runs g7 := ⟨by rfl, by decide, fun _ h => by cases h; rfl⟩

theorem witness_ControlAndStatus : s0.runs g7 ∧ s0.focus.waitUntil = none ∧ s0.focus.hasS (r 15) ∧ s2.runs g7 ∧
    s2.hedge s2.focus.hedge = some h0 ∧ h0.p.debug = true ∧ s0.focus.hasV (r 23) ∧ s0.single ∧ RdsrSel.hedge ≠ .lane ∧
    sLead.runs g7 ∧ sLead.focus.role = .leading 2 ∧ sLead.focus.hasS (r 15) ∧ sTrail.runs g7 ∧
    sTrail.focus.role = .trailing 1 ∧ sTrail.focus.hasS (r 15) ∧ 1 ≠ sTrail.focus.id ∧ sTrail.group 1 = some gLead ∧
    find1 gLead.rdsrs sTrail.focus.issued = some 5 :=
  ⟨s0_runs, rfl, hs 15, s2_runs, rfl, rfl, hv 23, s0_single, by decide, sLead_runs, rfl, Group.hasS_idle rfl (by decide),
    sTrail_runs, rfl, Group.hasS_idle rfl (by decide), by decide, rfl, rfl⟩

/-- A load of one lane from scratch, and a store of one byte-long element to buffer 0. -/
def scratchLoad : MemReq :=
  ⟨.load, .load, .load, 1, 0xFFF, fun _ => 0, 4, [0], noData, noData, .v 23 .n32, true, false, .weak, .core⟩

theorem witness_LoadsStores : s2.runs g7 ∧ s2.single ∧ s2.focus.hasBuf (.reg 0 .grp) ∧ s2.focus.hasBuf (.window 15) ∧
    s2.focus.hasV (r 23) ∧ s2.focus.hasV (r 22) 2 ∧ s2.focus.source (r 0) .int ∧ (∀ p ∈ storeSources .n32 2, p.2.accepts (s2.focus.tag p.1) = true) ∧
    (∀ p ∈ [(s2.focus.regIndex (r 16), Expect.int), (s2.focus.regIndex (r 16) + 1, .int)], p.2.accepts (s2.focus.tag p.1) = true ∧
      isF6 (s2.focus.tag p.1) = false) ∧
    (∃ chk t, s2.lets scratchLoad chk t) ∧ (∃ chk t, s2.lets { scratchLoad with iw := 0 } chk t) ∧
    s2.focus.hasS (r 15) ∧ s2.focus.code.clen / 8 ≤ (s2.focus.sOf (r 8)).toNat ∧
    (s2.focus.sOf (r 7)).toNat < s2.focus.code.clen / 8 ∧ s2.requestRoom = true ∧ s2.focus.fences = [] ∧
    (∀ k, k < 8 → s2.translate (s2.coreOf s2.focus) 0 ((s2.focus.code.const + 8 * 7 + k) % 2 ^ 64) needR =
      .ok (56 + k, false)) := by
  refine ⟨s2_runs, s2_single, ⟨by decide, by rfl⟩, trivial, hv2 23, hv2 22 2, hsrc2 0 _, by decide, by decide,
    ⟨_, _, by rfl, by rfl, by rfl, by rfl, by rfl⟩, ⟨_, _, by rfl, by rfl, by rfl, by rfl, by rfl⟩, hs2 15, by decide,
    by decide, by rfl, rfl, ?_⟩
  intro k hk
  interval_cases k <;> rfl

theorem witness_Atomics : s2.runs g7 ∧ s2.single ∧ s2.focus.hasBuf (.window 15) ∧ s2.focus.source (r 0) .int ∧
    s2.focus.hasV (r 23) 1 ∧ s2.focus.hasV (r 16) 2 ∧ (∀ p ∈ atomSources .n32 23, p.2.accepts (s2.focus.tag p.1) = true) ∧
    (∀ p ∈ atomSources .n64 16 ++ atomSources .n64 18, p.2.accepts (s2.focus.tag p.1) = true) ∧ s2.focus.hasV (r 16) 4 ∧
    (∃ chk t, s2.lets { scratchLoad with acc := .atomic, align := 4, reads := true, writes := true } chk t) :=
  ⟨s2_runs, s2_single, trivial, hsrc2 0 _, hv2 23, hv2 16 2, by decide, by decide, hv2 16 4,
    ⟨_, _, by rfl, by rfl, by rfl, by rfl, by rfl⟩⟩

theorem witness_HintsFencesPlacement : s2.runs g7 ∧ s2.single ∧ s2.focus.hasBuf (.reg 0 .grp) ∧ s2.focus.source (r 0) .int ∧
    isWindow (s2.focus.s 0) = false ∧ isWindow (s2.focus.bufOf (.window 15)) = true ∧
    (∃ chk, s2.maintLanes s2.focus 0 (fun _ => 0) 4 [0] = .ok chk) ∧ s2.requestRoom = true ∧ s2.focus.fences = [] ∧
    (∃ chk, s2.checkLanes s2.focus .either none 1 0 (fun _ => 0) 1 [0] [] [] = .ok chk) ∧ (∃ ps, s2.prefetchLanes s2.focus 0 (fun _ => 0) 4 [0] = .ok ps) ∧
    s2.pageOf s2.focus 0 0 = .ok 0x10000 ∧ s2.focus.hasS (r 15) ∧
    (∃ ps, s2.checkLane s2.focus .either 1 0 0 5 1 = .ok ps) :=
  ⟨s2_runs, s2_single, ⟨by decide, by rfl⟩, hsrc2 0 _, by decide, by decide, ⟨_, by rfl⟩, by rfl, rfl, ⟨_, by rfl⟩, ⟨_, by rfl⟩, by rfl,
    hs2 15, ⟨_, by rfl⟩⟩

theorem witness_AccessChecks : s2.hedge s2.focus.hedge = some h0 ∧ h0.entry 9 = none ∧
    (∃ e, h0.entry 0 = some e ∧ e.fabred = false ∧ e.owner = 0 ∧ e.r = true ∧ e.len = 4096) ∧
    (∃ e, h0.entry 1 = some e ∧ e.counter = true) ∧ (∃ e, h0.entry 5 = some e ∧ e.fabred = true) ∧
    s2.specOf s2.focus = none ∧ (∀ va, h0.otherSpec s2.focus.lseq va = false) ∧
    s2.translate 0 0 0x10FFF needR = .ok (0x10FFF, false) ∧
    (∃ st, s2.translate 0 0 0x40000000 needR = .error st) ∧ s2.wgOf s2.focus.wg = some w0 ∧ w0.size = 4096 ∧
    s2.focus.tiles.length = 2 ∧
    (∃ sp, { s2 with hedges := [{ h0 with launches := [{ l0 with spec := some ⟨[2], [], [], false⟩ }] }] }.specOf s2.focus =
      some sp ∧ 0 ∉ sp.wset) :=
  ⟨rfl, by rfl, ⟨_, by rfl, by decide, by decide, by decide, by decide⟩, ⟨_, by rfl, by decide⟩, ⟨_, by rfl, by decide⟩,
    by rfl, fun _ => by rfl, by rfl, ⟨_, by rfl⟩, rfl, rfl, rfl, ⟨_, by rfl, by decide⟩⟩

/-- The machine with one operation of the group outstanding. -/
def withOp (o : Op) : State := { s2 with focus := { g2 with pend := [o], nextOp := 1 } }

/-- A load of 4 bytes at issue. -/
def load0 : Op := { s2.newOp .load .load 1 with dst := .v 23 .n32, reads := true, accs := [⟨0, (List.range 4).map fun i => Place.home (0x10000 + i), [], [], 0x10000, 0⟩] }

/-- The same load where core 0 holds the line, weak and cached. -/
def sLine : State := { withOp { load0 with accs := [⟨0, (List.range 4).map fun i => Place.mem (512 * 128 + (124 + i)), [], [], 0x1007C, 124⟩] } with
  cores := [(0, { Core.initial 0 with l1 := [⟨512, 0, List.replicate 128 5, 0, false⟩] })] }

theorem witness_LoadLands : (withOp load0).group 1 = some (withOp load0).focus ∧
    (withOp load0).focus.pend.find? (fun o => o.id == 0) = some load0 ∧ load0.kind = .load ∧ load0.dst ≠ .none ∧
    load0.writes = false ∧ load0.rel = false ∧ (withOp load0).focus.role = .single ∧
    (withOp load0).mayPerform (withOp load0).focus load0 = true ∧ (withOp load0).l1Clean ∧ (withOp load0).opError (withOp load0).focus load0 = none ∧
    load0.strong = false ∧ load0.acq = false ∧ sLine.focus.seat.isSome = true ∧
    ((sLine.core 0).line 0 0 512).map (·.num) = some 512 :=
  ⟨rfl, rfl, rfl, by decide, rfl, rfl, rfl, by rfl, s2_clean rfl, by rfl, rfl, rfl, rfl, by rfl⟩

/-- A store of 4 bytes to buffer 0, and one to scratch. -/
def store0 (p : Nat → Place) : Op := { s2.newOp .store .store 1 with
  writes := true, accs := [⟨0, (List.range 4).map p, [1, 2, 3, 4], [], 0x10000, 0⟩] }
def storeHome : Op := store0 fun i => .home (0x10000 + i)
def storeScratch : Op := store0 fun i => .scratch 7 (4092 + i)

theorem witness_StorePerforms : (withOp storeHome).group 1 = some (withOp storeHome).focus ∧
    (withOp storeHome).focus.pend.find? (fun o => o.id == 0) = some storeHome ∧ storeHome.kind = .store ∧
    storeHome.dst = .none ∧ storeHome.rel = false ∧ storeHome.acq = false ∧
    (withOp storeHome).mayPerform (withOp storeHome).focus storeHome = true ∧ (withOp storeHome).l1Clean ∧
    storeHome.reads = false ∧ (withOp storeHome).memWf ∧ ((withOp storeHome).frame (frameOf 0x10000)).mig = none ∧
    (∀ i, i < 4 → (withOp storeHome).isMismatched (0x10000 + i) = false) ∧
    (withOp storeHome).logFits (((List.range 4).map fun i => Place.home (0x10000 + i)).filterMap Place.logged) = true ∧
    (withOp storeScratch).mayPerform (withOp storeScratch).focus storeScratch = true ∧
    (withOp storeScratch).wgOf 7 = some w0 ∧ w0.scratch.wf = true :=
  ⟨rfl, rfl, rfl, rfl, rfl, rfl, by rfl, s2_clean rfl, rfl, by rfl, by rfl, by decide, by rfl, by rfl, rfl, rfl⟩

/-- An atomic of 4 bytes in scratch. -/
def atom0 (k : OpKind) (cls : OpClass) (d : Dst) : Op := { s2.newOp cls k 1 with
  writes := true, reads := true, dst := d
  accs := [⟨0, (List.range 4).map fun i => .scratch 7 (4092 + i), leBytes 4 9, if k = .cas .n32 then leBytes 4 7 else [], 0, 4092⟩] }

theorem witness_AtomicPerforms : ∀ o ∈ [atom0 (.atom .add .n32) .load (.old 23 .n32), atom0 (.atom .max .i32) .store .none,
      atom0 (.cas .n32) .load (.old 23 .n32)],
    (withOp o).focus.pend.find? (fun x => x.id == 0) = some o ∧ o.rel = false ∧ o.acq = false ∧ o.writes = true ∧
      (withOp o).mayPerform (withOp o).focus o = true ∧ (withOp o).opError (withOp o).focus o = none ∧ (withOp o).wgOf 7 = some w0 ∧
      9 < 2 ^ (8 * atomBytes .n32) := by decide

/-! ### Counters: S0 names one of class 1, S1 of class 2, S2 of class 3 in buffer 1, S3 of class 0 -/

def g3 : Group := { g2 with sregs := [0x10000000, 0x20000000, 0x30010000, 3, 1, 0x1000000F, 0x8000000000000000] ++ List.replicate 9 0 }
def s3 : State := { s2 with focus := g3 }
theorem s3_runs : s3.runs g7 := ⟨by rfl, by decide, State.single.unfaulted rfl⟩

theorem witness_CounterHandles : s3.hedge s3.focus.hedge = some h0 ∧
    (handleClass 0x00000007 = 0 ∧ (7 : Nat) < 8) ∧
    (handleClass 0x1000063F = 1 ∧ 0x63F / 512 < h0.cores ∧ 0x63F % 512 < 32 * h0.slots.length) ∧
    (handleClass 0x2000000F = 2 ∧ 0xF / 2 ^ 13 < (diesOf h0.rect.dies).length ∧ 0xF % 2 ^ 13 < h0.p.clusterCounters) ∧
    (handleClass 0x30010000 = 3 ∧ handlePeer 0x30010000 = 0) ∧ handleClass 0x40000000 = 4 ∧
    2 ^ 63 ≤ (0x8000000000000000 : Word64).toNat ∧ h0.entry 9 = none ∧
    (∃ e, h0.entry 1 = some e ∧ 8 * 31 + 8 ≤ e.len ∧ e.len < 8 * 32 + 8 ∧ e.owner = 0 ∧ e.counter = true) ∧
    (∃ e, h0.entry 0 = some e ∧ e.counter = false) :=
  ⟨rfl, by decide, by decide, by decide, by decide, by decide, by decide, by rfl, ⟨_, by rfl, by decide⟩, ⟨_, by rfl, by decide⟩⟩

theorem witness_CounterInstructions : s3.runs g7 ∧ s3.single ∧ s3.focus.hasS (r 0) ∧
    (∃ k, s3.handles [(useAdd, s3.focus.s 0)] none false = .ok [k]) ∧
    (∃ k, s3.handles [(useAdd, s3.focus.s 2)] (some (s3.focus.s 4)) false = .ok [k]) ∧
    (∃ k, s3.handles [(useRead, s3.focus.s 1)] none false = .ok [k]) ∧
    (∃ k, s3.handles [(useAdd, s3.focus.s 0)] none true = .ok [k]) ∧
    (∃ k p, s3.handles [(useLink, s3.focus.s 0), (useLink, s3.focus.s 1)] none true = .ok [k, .here p]) ∧
    handleClass (s3.focus.s 0) = 1 ∧ handleClass (s3.focus.s 0) < handleClass (s3.focus.s 1) ∧
    (∃ k t, s3.handles [(useSource, s3.focus.s 0), (useAdd, s3.focus.s 1)] (some (s3.focus.s 4)) true = .ok [k, t]) ∧
    s3.watchesOf 0 (s3.lcoreOf s3.focus) < s3.watchQuota 0 ∧ s3.requestRoom = true ∧
    s3.passFences true false = .ok s3 ∧ s3.focus.awaitsP 0 = false :=
  ⟨s3_runs, rfl, Group.hasS_idle rfl (by decide), ⟨_, by rfl⟩, ⟨_, by rfl⟩, ⟨_, by rfl⟩, ⟨_, by rfl⟩, ⟨_, _, by rfl⟩, by decide,
    by decide, ⟨_, _, by rfl⟩, by decide, by rfl, by rfl, Group.awaitsP_idle rfl _⟩

/-- The same where the hedge owns no slot number, and so no share of waiters on a core. -/
def s3full : State := { s3 with hedges := [{ h0 with slots := [] }] }

theorem witness_CounterWaits : s3.runs g7 ∧ s3.single ∧ s3.handles [(useRead, s3.focus.s 0)] none false = .ok [.here (.c1 0 0 0)] ∧
    s3.focus.ctrPending (.c1 0 0 0) = false ∧ s3.ctrBad (.c1 0 0 0) = none ∧ s3.passFences false false = .ok s3 ∧ s3.focus.cwaits = [] ∧ s3.others = [] ∧
    (s3.ctrView (.c1 0 0 0) 0 5 - s3.focus.s 15).toNat < 2 ^ 63 ∧
    2 ^ 63 ≤ (s3.ctrView (.c1 0 0 0) 0 5 - s3.focus.s 4).toNat ∧ s3.shareRoom 0 (s3.homeId (.c1 0 0 0)) = true ∧
    s3.relayFor (some 0) (.c1 0 0 0) ⟨.cwait 1 0, 0, 1⟩ = none ∧ s3.l1Clean ∧
    s3.focus.nextOp = 0 ∧ s3full.shareRoom 0 (s3full.homeId (.c1 0 0 0)) = false :=
  ⟨s3_runs, rfl, by rfl, by rfl, by rfl, by rfl, rfl, rfl, by decide, by decide, by rfl, by rfl, s2_clean rfl, rfl, by rfl⟩

/-- A linked counter near a crossing, with a CWAIT, a watch and one that waits for more. -/
def c1 : Ctr := { Ctr.initial with value := 3, link := some (.c2 0 0 0, 2), waiters := [⟨.cwait 1 9, 0, 4⟩,
  ⟨.watch 0 (.here (.c2 0 0 1)) 1 none ⟨none, none⟩ (0, 0), 0, 4⟩, ⟨.cwait 1 8, 0, 100⟩] }
def s4 : State := { s2 with ctrs := [(.c1 0 0 0, c1)], crossings := [⟨.c1 0 0 0, .c2 0 0 0, 1⟩]
                            adds := [⟨.here (.c1 0 0 0), 0, none, 1, some (0x10000000, 0x10000000), none, false⟩], flips := [⟨.c1 0 0 0, .c2 0 0 0, 1, []⟩]
                            focus := { g2 with cwaits := [⟨9, .c1 0 0 0, 4, false, .grp, .answered, []⟩, ⟨8, .c1 0 0 0, 3, false, .grp, .polled, []⟩] } }

/-- A counter operation of the group, outstanding. -/
def ctr0 (a : CtrAct) (d : Dst) : Op := { s2.newOp .load (.ctr (.here (.c1 0 0 0)) a) 1 with dst := d }

theorem witness_CounterOperations : (s4.ctr (.c1 0 0 0)).pending = [] ∧ (s4.ctr (.c1 0 0 0)).link = some (.c2 0 0 0, 2) ∧
    (s4.ctr (.c2 0 0 0)).link = none ∧
    Waiter.mk (.cwait 1 9) g2.hedge 4 ∈ (s4.ctr (.c1 0 0 0)).waiters ∧ (s4.group 1).isSome = true ∧
    (∀ o ∈ [ctr0 (.add 1) .none, ctr0 (.next 1) (.s64 0), ctr0 (.test 3) (.pred 0), ctr0 .read (.s64 0), ctr0 (.init 5) .none,
        ctr0 (.link (.c2 0 0 0) 3) .none, ctr0 .unlink .none, ctr0 (.watch 3 (.here (.c2 0 0 1)) 1 none false (0, 0)) .none],
      (withOp o).focus.pend.find? (fun x => x.id == 0) = some o ∧ (withOp o).mayPerform (withOp o).focus o = true ∧
        o.rel = false ∧ o.acq = false ∧ (withOp o).specOf (withOp o).focus = none ∧ o.got = [] ∧
        (withOp o).ctrRoom (.c1 0 0 0) = true ∧ (withOp o).ctrBad (.c1 0 0 0) = none) ∧
    s4.crossings[0]? = some ⟨.c1 0 0 0, .c2 0 0 0, 1⟩ ∧ s4.flips[0]? = some ⟨.c1 0 0 0, .c2 0 0 0, 1, []⟩ ∧
    s4.adds[0]? = some ⟨.here (.c1 0 0 0), 0, none, 1, some (0x10000000, 0x10000000), none, false⟩ ∧ s4.ctrLives 0 (.c1 0 0 0) = true ∧ s4.ctrRoom (.c1 0 0 0) = true ∧ s4.ctrRoom (.c2 0 0 0) = true ∧
    s4.targetLives 0 0x10000000 = true ∧ ((withOp (ctr0 .unlink .none)).ctr (.c1 0 0 0)).proxies = [] ∧
    s4.focus.cwaits.find? (fun c => c.id == 9) = some ⟨9, .c1 0 0 0, 4, false, .grp, .answered, []⟩ ∧
    s4.focus.cwaits.find? (fun c => c.id == 8) = some ⟨8, .c1 0 0 0, 3, false, .grp, .polled, []⟩ ∧
    (s4.ctrView (.c1 0 0 0) 0 5 - 3).toNat < 2 ^ 63 := by decide

/-! ### Copies: S0 to S2 describe 64 bytes from buffer 0 to scratch, S8 to S11 a gather -/

def g5 : Group := { g2 with sregs := [0x000FFF2000000040, 0, 0, 3, 0, 0, 0, 0, 0x000FFF0000000020, 0, 0, 32, 0x2000000000, 0, 0, 0] }
def s5 : State := { s2 with focus := g5 }
theorem s5_runs : s5.runs g7 := ⟨by rfl, by decide, State.single.unfaulted rfl⟩
theorem s5_room : s5.copyRoom := ⟨by decide, rfl, by decide, by decide, by decide⟩

theorem witness_CollectiveCopies : s5.focus.awaitsP g7.p = false ∧ s5.single ∧ s5.copyRoom ∧ s5.focus.eff ⟨7, true⟩ = 0 ∧
    s5.focus.eff g7 ≠ 0 ∧
    (∃ q src dst, s5.tensorReq (r 0) (r 3) none = .ok (q, src, dst) ∧ s5.checkSlice s5.focus false q src dst false = .ok ()) ∧
    s5.copies.find? (fun _ => true) = none ∧ s5.joined s5.focus.wg < 4 ∧ s5.wgOf s5.focus.wg = some w0 ∧
    s5.launch 0 5 = some l0 ∧ (s5.focus.s 12).toNat / 2 ^ 32 = 32 ∧ (s5.focus.s 12).toNat % 2 ^ 32 = 0 ∧
    s5.handleShape useAdd 3 = .ok () ∧ s5.handleBuffer useAdd 3 = .ok () ∧ l0.wgcount = 2 ^ l0.rect.lw * 2 ^ l0.rect.lh * l0.p :=
  ⟨by rfl, rfl, s5_room, by decide, by decide, ⟨_, _, _, by rfl, by rfl⟩, rfl, by decide, rfl, rfl, by decide, by decide, by rfl,
    by rfl, by decide⟩

theorem witness_SingleCopiesAndPublish : s5.runs g7 ∧ s5.single ∧ s5.copyRoom ∧
    (∃ q src dst, s5.tensorReq (r 0) (r 3) (some (r 4)) = .ok (q, src, dst) ∧
      s5.checkSlice s5.focus true q src dst false = .ok ()) ∧
    s5.focus.hasS (r 8) 4 ∧ s5.focus.hasS (r 3) ∧ s5.focus.source (r 0) .int ∧
    (s5.focus.s 8).toNat / 2 ^ 32 % 2 ^ 8 = 0 ∧ (s5.focus.s 8).toNat % 2 ^ 32 = 32 ∧
    s5.checkSlice s5.focus false ⟨0, 0xFFF, .rows [⟨0, 0, 32⟩], 3, []⟩ (runsSpan [(0, 32)]) (runsSpan [(0, 32)]) false = .ok () ∧
    (∃ x, h0.entry 2 = some x ∧ x.pub = true ∧ x.w = true ∧ x.owner = 0 ∧ x.len = 8192) ∧ s5.specOf s5.focus = none :=
  ⟨s5_runs, rfl, s5_room, ⟨_, _, _, by rfl, by rfl⟩, Group.hasS_idle rfl (by decide), Group.hasS_idle rfl (by decide),
    hsrc2 0 _, by decide, by decide, by rfl, ⟨_, by rfl, by decide⟩, by rfl⟩

/-! ### Engines -/

/-- A slice of 64 bytes of scratch that takes its two sectors to offset 1024, with a handle; and one to the publishable
buffer 2. -/
def y0 : Slice := ⟨1, 0, 7, 0, .own 7, .own 7, .rows [⟨0, 1024, 64⟩], some 3, false, .grp, 0, [], 0, 0, 0, [], [], [], [], false⟩
def yPub : Slice := { y0 with dst := .buf 2, geom := .rows [⟨0, 0, 64⟩], pub := true, handle := some 0x10000000, landed := [0], put := [0, 1] }

def cp0 : Copy := ⟨50, 0, 5, some 7, 0, false, [y0], false, false, false, []⟩

def withCopy (c : Copy) : State := { s2 with copies := [c], wgs := [{ w0 with retired := [0] }] }

/-- A group whose publish of a range is outstanding. -/
def publ0 : Op := { s2.newOp .copy (.publ 0 4096) 1 with writes := true, strong := true, rel := true, buf := 2 }

/-- Both sectors read, for the landing of the one chunk. -/
def cpRead : Copy := { cp0 with
  started := true
  slices := [{ y0 with handle := some 0x10000000, got := [(0, List.replicate 32 5), (1, List.replicate 32 6)] }] }

theorem witness_EngineSteps :
    (withCopy cp0).copies.find? (fun x => x.id == 50) = some cp0 ∧ (withCopy cp0).hedge 0 = some h0 ∧
    (withCopy cp0).allSupplied cp0 { w0 with retired := [0] } = true ∧ (withCopy cp0).sliceHeld y0 = false ∧
    (let c : Copy := { cp0 with wg := none, rot := true }
     (withCopy c).launch 0 5 = some l0 ∧ ((withCopy c).wgs.filter fun w => w.hedge == 0 && w.lseq == 5).length = l0.wgcount ∧
      ∀ w ∈ (withCopy c).wgs, (withCopy c).allSupplied c w = true) ∧
    ((0 : Int) ∈ y0.sectors ∧ (1 : Int) ∈ y0.sectors ∧ find1 y0.got (1 : Int) = none ∧
      (withCopy { cp0 with started := true }).scratchAbsent 7 32 = false ∧
      (let ps := (List.range 32).map fun j => Place.scratch 7 (32 * 1 + j)
       (withCopy cp0).torn ps = false ∧ (withCopy cp0).consumeFault ps = none)) ∧
    (let c : Copy := { cp0 with started := true, slices := [yPub] }
     (withCopy c).copyLanded c = true ∧
      (∃ ts, (c.slices.mapM fun y => if y.pub then (y.handle.bind ((withCopy c).handleAt h0 y.group)).map some else some none) =
        some ts) ∧ ∃ t, (withCopy c).publishAll h0 c.lseq ((withCopy c).pubPages c h0) = some t) ∧
    (let c : Copy := { cp0 with started := true, slices := [{ y0 with src := .buf 9 }] }
     (withCopy c).unresolved h0 c = true) ∧ (withCopy { cp0 with rot := true }).rotMisfit cp0 = false ∧
    (withCopy { cp0 with rot := true }).rotMisfit { cp0 with slices := [{ y0 with geom := .rows [⟨0, 4096, 64⟩] }] } = true ∧
    (let s : State := { withCopy cp0 with focus := { g2 with pend := [publ0] } }
     s.group 1 = some s.focus ∧ s.focus.pend.find? (fun o => o.id == 0) = some publ0 ∧ s.mayPerform s.focus publ0 = true ∧
      s.publWaits s.focus publ0 0 4096 = false ∧
      ∃ u, (s.release s.focus publ0.scope).publishAll h0 s.focus.lseq
        ((pagesOf (((h0.entry 2).map (·.vbase)).getD 0) [((0 : Int), 4096)]).map fun j =>
          ⟨publ0.buf, j, scopeKind publ0.scope, 0⟩) = some u) ∧
    (let s := withCopy cpRead
     s.copies.find? (fun x => x.id == 50) = some cpRead ∧ (∀ d ∈ s.copies, d.id = 50 → d = cpRead) ∧
      ∃ y p data ctr, cpRead.slices[0]? = some y ∧ s.sliceHeld y = false ∧
        ((y.pieces.filter fun q => q.chunk == 2).filter fun q => q.sector == 32) = [p] ∧ p.dst = 1024 ∧ (32 : Int) ∉ y.put ∧
        y.pieceBytes p = some data ∧ ((y.pieces.filter fun q => q.chunk == 2).mapM y.pieceBytes).isSome = true ∧
        y.handle.bind (s.handleAt h0 y.group) = some ctr ∧
        s.passedAccess (placeLines ((List.range p.len).map fun j => Place.scratch 7 (p.dst.toNat + j))) = false ∧
        (∃ q ∈ y.pieces.filter fun q => q.chunk == 2, q.sector ≠ 32 ∧ q.sector ∉ y.put) ∧
        ∀ q ∈ y.pieces.filter fun q => q.chunk == 2, q.sector = 32 ∨ q.sector ∈ ({ y with put := [33] } : Slice).put) :=
  ⟨rfl, rfl, by decide, by rfl, ⟨rfl, rfl, by decide⟩, ⟨by decide, by decide, rfl, by rfl, by rfl, by rfl⟩,
    ⟨by decide, ⟨_, by rfl⟩, ⟨_, by rfl⟩⟩, by rfl, by rfl, by rfl, ⟨rfl, rfl, by rfl, by rfl, ⟨_, by rfl⟩⟩,
    ⟨rfl, fun d hd _ => List.mem_singleton.1 hd, ⟨_, _, _, _, rfl, by rfl, by rfl, by rfl, by decide, by rfl, by rfl, by rfl, by rfl, by decide, by decide⟩⟩⟩

/-! ### The matrix engine: S0 names the weights of buffer 4, S1 and S2 a vector and a result, S3 and S4 operands -/

def g6 : Group := { g2 with sregs := [4, 0, 128, 0, 2048, 0x8000000000000000] ++ List.replicate 10 0 }
def h6 : Hedge := { h0 with banks := [(1, [0x1000000010, 32, 0x3001, 0])] }
def s6 : State := { s2 with focus := g6, hedges := [h6] }
theorem s6_runs : s6.runs g7 := ⟨by rfl, by decide, State.single.unfaulted rfl⟩

/-- An MMA on 8-bit integers, of all 32 columns and of a depth of 32. -/
def ma0 : MmaArg := ⟨false, false, false, false, .i8, .i8, 31, 32, 4, 3, r 0⟩

theorem witness_MatrixInstructions : s6.runs g7 ∧ s6.single ∧ s6.focus.fences = [] ∧ s6.focus.hasTile (r 1) ∧
    s6.focus.hasTile ma0.t ∧ ma0.sa.toNat < s6.focus.sregs.length ∧ s6.focus.awaitsS ma0.sa.toNat = false ∧
    ma0.sb.toNat < s6.focus.sregs.length ∧ s6.focus.awaitsS ma0.sb.toNat = false ∧ (s6.focus.tile 0).tag = .raw ∧
    (∃ as bs, s6.operand g6 (g6.s 3) 32 32 8 false = .ok as ∧ s6.operand g6 (g6.s 4) 32 32 8 false = .ok bs ∧
      s6.present (as.2 ++ bs.2) = .ok ()) ∧ s6.focus.openTarget 1 = false ∧ s6.focus.committedTarget 1 = false ∧
    s6.focus.openBatch.count = 0 ∧ s6.focus.batches.length < 8 ∧ (1 : Nat) ≠ 0 :=
  ⟨s6_runs, rfl, rfl, (by decide : (1 : Nat) < 2), (by decide : (0 : Nat) < 2), by decide, Group.awaitsS_idle rfl _, by decide, Group.awaitsS_idle rfl _, rfl,
    ⟨_, _, by rfl, by rfl, by rfl⟩, rfl, rfl, rfl, by decide, by decide⟩

theorem witness_TileMoves : s6.runs g7 ∧ s6.single ∧ s6.focus.hasTile (r 1) ∧ s6.focus.openTarget 1 = false ∧
    s6.focus.committedTarget 1 = false ∧ s6.focus.hasS (r 15) ∧ s6.focus.tileBusy 1 = false ∧ s6.focus.hasV (r 20) 4 ∧
    s6.focus.hasV (r 23) 1 ∧
    s6.focus.takes ((List.range 4).map fun j => (s6.focus.regIndex (r 16) + j, wordExpect (s6.focus.tile 1).tag ((31 + j) % 32))) ∧
    s6.focus.hasBuf (.reg 1 .grp) ∧ s6.focus.source (r 0) .int ∧ s6.focus.fences = [] ∧ s6.requestRoom = true ∧
    (∃ chk, s6.checkLanes s6.focus .tileLoad (some false) 32 (s6.focus.bufOf (.reg 1 .grp)) (fun _ => 0) 128 [0] [] [] = .ok chk ∧
      s6.present (chk.flatMap (·.2)) = .ok ()) ∧
    (∃ chk, s6.checkLanes s6.focus .tileStore none 32 (s6.focus.bufOf (.window 15)) (fun _ => 3968) 128 [0] [] [] = .ok chk ∧
      s6.present (chk.flatMap (·.2)) = .ok ()) ∧ (s6.focus.tile 1).tag = .raw :=
  ⟨s6_runs, rfl, (by decide : (1 : Nat) < 2), rfl, rfl, Group.hasS_idle rfl (by decide), rfl, Group.hasV_idle rfl (by decide),
    Group.hasV_idle rfl (by decide), fun p hp => ⟨(by decide : ∀ p ∈ (List.range 4).map fun j => ((16 + j : Nat), wordExpect .raw ((31 + j) % 32)), p.2.accepts (s6.focus.tag p.1) = true) p hp,
      .inl ((by decide : ∀ p ∈ (List.range 4).map fun j => ((16 + j : Nat), wordExpect .raw ((31 + j) % 32)), isF6 (s6.focus.tag p.1) = false) p hp)⟩, ⟨by decide, by rfl⟩, Group.source_idle rfl (by decide) (by decide) (by decide),
    rfl, by rfl, ⟨_, by rfl, by rfl⟩, ⟨_, by rfl, by rfl⟩, rfl⟩

theorem witness_BankProducts : s6.runs g7 ∧ s6.single ∧ s6.requestRoom = true ∧ s6.focus.hasS (r 2) ∧
    s6.focus.awaitsS 0 = false ∧ s6.focus.awaitsS 1 = false ∧ s6.hedge s6.focus.hedge = some h6 ∧
    (∃ x b, h6.entry 4 = some x ∧ x.bankmv = true ∧ x.r = true ∧ x.owner = 0 ∧ h6.bank x = some b ∧ b.fmt = matCode .e4m3 ∧
      0 + 32 ≤ b.rows ∧ x.vbase = 0x18000 ∧ b.pitch = 32 ∧ (b.cols * matBits .e4m3 + 7) / 8 = 16) ∧
    (∀ q < 32, ∀ i < 16, s6.translate 0 0 ((0x18000 + q * 32 + i) % 2 ^ 64) needR = .ok (0x18000 + q * 32 + i, false)) ∧
    (∃ vec res, s6.operand g6 (g6.s 1) 1 16 8 true = .ok vec ∧ s6.operand g6 (g6.s 2) 1 32 32 true = .ok res ∧
      s6.present vec.2 = .ok () ∧ res.1.flatten = (List.range 128).map fun i => Place.scratch 7 (128 + i)) :=
  ⟨s6_runs, rfl, by rfl, Group.hasS_idle rfl (by decide), Group.awaitsS_idle rfl _, Group.awaitsS_idle rfl _, rfl,
    ⟨_, _, by rfl, by decide, by decide, by decide, by rfl, by decide, by decide, by decide, by decide, by decide⟩, by decide,
    ⟨_, _, by rfl, by rfl, by rfl, by rfl⟩⟩

/-- An MMA of one column and of depth 1, committed, with its fragments in scratch. -/
def mo0 : MmaOp := ⟨0, ⟨false, false, false, false, .n8, .i8, 0, 1, 4, 3, r 1⟩, 1, 1,
  (List.range 32).map fun i => [.scratch 7 (32 * i)], [[.scratch 7 2048]], 0, 2048, 0, 0, 0⟩
def s7 : State := { s6 with focus := { g6 with batches := [⟨[1], 1, [mo0], []⟩] } }

/-- The same of the elements of each format. -/
def moOf (f : MatFmt) : MmaOp := ⟨0, ⟨false, false, false, false, f, f, 0, 1, 4, 3, r 1⟩, 1, 1,
  (List.range 32).map fun i => (List.range ((matBits f + 7) / 8)).map fun j => .scratch 7 (32 * i + j),
  [(List.range ((matBits f + 7) / 8)).map fun j => .scratch 7 (2048 + j)], 0, 2048, 0, 0, 0⟩
def s7Of (f : MatFmt) : State := { s6 with focus := { g6 with batches := [⟨[1], 1, [moOf f], []⟩] } }

theorem witness_MatrixProducts_classes : ∀ f ∈ [MatFmt.f64, .f16, .bf16, .e4m3, .e5m2, .e2m1, .i8, .i4, .n4],
    (s7Of f).focus.nextMma = some (moOf f) ∧ (moOf f).t < (s7Of f).focus.tiles.length ∧
    (s7Of f).focus.tileEarlier 1 0 = false ∧ (s7Of f).focus.latch = none ∧
    (∀ x ∈ (moOf f).aRows ++ (moOf f).bRows, x.length = (matBits f + 7) / 8) ∧
    (moOf f).aRows.length = 32 ∧ (moOf f).bRows.length = 1 ∧
    (s7Of f).engineWaits [] ((moOf f).aRows.flatten ++ (moOf f).bRows.flatten) = false ∧
    (s7Of f).consumeFault ((moOf f).aRows.flatten ++ (moOf f).bRows.flatten) = none := by decide +kernel

theorem witness_MatrixProducts : s7.group 1 = some s7.focus ∧ s7.focus.nextMma = some mo0 ∧ mo0.t < s7.focus.tiles.length ∧
    s7.focus.tileEarlier 1 0 = false ∧ s7.focus.latch = none ∧ (∀ x ∈ mo0.aRows, x.length = 1) ∧
    (∀ x ∈ mo0.bRows, x.length = 1) ∧ mo0.aRows.length = 32 ∧ mo0.bRows.length = 1 ∧
    s7.engineWaits [] (mo0.aRows.flatten ++ mo0.bRows.flatten) = false ∧
    s7.consumeFault (mo0.aRows.flatten ++ mo0.bRows.flatten) = none ∧
    (∀ x ∈ mo0.aRows ++ mo0.bRows, ∀ p ∈ x, ∃ w o, p = Place.scratch w o) := by
  refine ⟨rfl, rfl, by decide, rfl, rfl, by decide, by decide, by decide, by decide, by rfl, by rfl, fun x hx p hp => ?_⟩
  simp only [mo0, List.mem_append, List.mem_map, List.mem_singleton] at hx
  rcases hx with ⟨i, -, rfl⟩ | rfl
  · simp only [List.mem_singleton] at hp
    exact ⟨_, _, hp⟩
  · simp only [List.mem_singleton] at hp
    exact ⟨_, _, hp⟩

/-- MZERO, MLD and MST of a row, and MVB, outstanding. -/
def mzero0 : Op := s2.newOp .tile (.mzero 1) 1
def row0 : List LaneAcc := [⟨0, (List.range 32).map fun i => .scratch 7 (4064 + i), [], [], 0, 4064⟩]
def mld0 : Op := { s2.newOp .tile .load 1 with dst := .tile 1 .f32, reads := true, accs := row0 }
def mst0 : Op := { s2.newOp .tile .store 1 with dst := .tile 1 .f32, writes := true, accs := row0 }
def mvb0 : Op := { s2.newOp .tile (.mvb .e4m3 .e4m3 [[.home 0x18000]] [.scratch 7 0] 16 1
  ((List.range (4 * 1)).map fun i => .scratch 7 (128 + i)) [0]) 1 with writes := true, buf := 4 }

/-- The same with its vector, and the one line of its result, read. -/
def mvbRead : Op := { mvb0 with got := [(0, [0]), (1, [1, 2, 3, 4])] }

theorem witness_MatrixSteps :
    (let s : State := { s6 with focus := { g6 with batches := [⟨[1], 1, [], []⟩] } }
     s.group 1 = some s.focus ∧ s.focus.batches = [⟨[1], 1, [], []⟩]) ∧
    (∀ o ∈ [mzero0, mld0, mst0, mvb0], (withOp o).focus.pend.find? (fun x => x.id == 0) = some o ∧
      (withOp o).focus.tileTurn 1 o.id = true ∧ (withOp o).mayPerform (withOp o).focus o = true ∧ o.acq = false ∧
      o.rel = false ∧ o.strong = false ∧ (withOp o).opError (withOp o).focus o = none) ∧
    (withOp mst0).wgOf 7 = some w0 ∧ w0.scratch.wf = true ∧
    (let reads : List Place := [.home 0x18000, .scratch 7 0]
     find1 mvb0.got 1 = none ∧ (withOp mvb0).engineWaits [(7, 1)] reads = false ∧ (withOp mvb0).consumeFault reads = none ∧
      { withOp mvb0 with bad := [0x18000 / 128] }.engineWaits [(7, 1)] reads = false ∧
      { withOp mvb0 with bad := [0x18000 / 128] }.consumeFault reads = some .uncorr) ∧ (withOp mvb0).l1Clean ∧
    find1 mvbRead.got 1 = some [1, 2, 3, 4] ∧ (withOp mvbRead).focus.pend.find? (fun x => x.id == 0) = some mvbRead ∧
    (withOp mvbRead).mayPerform (withOp mvbRead).focus mvbRead = true ∧
    (withOp mvb0).passedAccess [(7, 128 / 128 + 0)] = false ∧ w0.core.isSome = true ∧ 128 % 32 = 0 ∧ 128 / 128 + 0 ≤ (128 + 4 * 1 - 1) / 128 :=
  ⟨⟨rfl, rfl⟩, by decide, rfl, rfl, ⟨rfl, by rfl, by rfl, by rfl, by rfl⟩, s2_clean rfl, rfl, rfl, by rfl, by rfl, rfl, by decide,
    by decide⟩

/-! ### Control that the service kernel takes over, speculation, issue and clauses -/

theorem s2_go (x : Int) (h0 : 0 ≤ x) (h1 : x < 4096) : s2.focus.mayGo fun _ => x :=
  ⟨fun _ _ _ => ⟨h0, h1⟩, fun b hb => by cases hb⟩

/-- The machine with the context area's frame, and no room in the interval log. -/
def sNoLog : State := { s2 with
  hedges := [{ h0 with p := { hp0 with logLines := 0 } }], frames := [(48, { Frame.free .hbm with owner := some 0 })] }

theorem witness_ServiceCallsAndTraps : s2.acts g7 ∧ s2.single ∧ s2.focus.wholeMask s2.focus.active ∧
    s2.focus.mayGo (fun _ => s2.focus.fall) ∧ s2.focus.eff ⟨7, true⟩ = 0 ∧ s2.focus.eff g7 ≠ 0 ∧
    s2.hedge s2.focus.hedge = some h0 ∧ s2.focus.hasV (r 16) 8 ∧ s2.focus.hasV (r 21) 3 ∧ s2.specOf s2.focus = none ∧
    0 ≤ s2.focus.fall ∧ s2.focus.fall < s2.focus.code.tlen ∧ s2.focus.settled = true ∧ s2.focus.fences = [] ∧
    s2.focus.takes ((List.range 8).map fun k => (s2.focus.regIndex (r 16) + k, .any)) ∧
    (let u := s2.release s2.focus .sys
     u.hedge 0 = some h0 ∧ ∀ pa ∈ [h0.ticketAt, h0.fillAt, h0.slotAt ((u.ctrValue (.c3 h0.ticketAt)).toNat % 16)], u.logRoom pa = true) ∧
    (let u := sNoLog.release s2.focus .sys
     u.hedge 0 = some { h0 with p := { hp0 with logLines := 0 } } ∧ u.logRoom h0.ticketAt = false) :=
  ⟨⟨by rfl, s2_single.unfaulted⟩, rfl, (fun b h => by cases h), s2_go _ (by decide) (by decide), by decide, by decide, rfl,
    hv2 16 8, hv2 21 3, by rfl, by decide, by decide, rfl, rfl,
    fun p hp => ((by decide : ∀ p ∈ (List.range 8).map fun k => ((16 + k : Nat), Expect.any),
      p.2.accepts (s2.focus.tag p.1) = true ∧ isF6 (s2.focus.tag p.1) = false) p hp).imp id .inl, ⟨by rfl, by decide⟩, by rfl, by rfl⟩

/-- A launch record of one workgroup of one group at the start of buffer 0, and the code object header of a kernel of 8 V
and 8 S registers, with 64 bytes of text at 1024, at the start of buffer 6 (R384, R385); the tables of translation lie
below both. -/
def hLnch : Hedge := { h0 with
  vsatp := 0xA000000000000001, hgatp := 0xA000000000000004, bufs := h0.bufs ++ [(6, [0x20000, 4096, attr 0, 0])] }
def sLnch : State := { s2 with
  focus := { g2 with sregs := List.replicate 16 0 }
  hedges := [hLnch]
  mem := [(0x1000, 0xDF), (0x4000, 0xDF), (0x10000, 1), (0x10004, 1), (0x10005, 1), (0x10007, 1), (0x1000E, 1), (0x10010, 6),
    (0x20003, 0x20), (0x20004, 4), (0x20005, 1), (0x20006, 0xC0), (0x20007, 0xE9), (0x20009, 4), (0x20010, 64), (0x20019, 4)] ++
    (List.range 48).map fun i => (0x20060 + i, 0xFF) }

/-- How LNCH translates in the statement. -/
def lnchTr (s : State) (e : Mask) (idx base va : Nat) : Res (Nat × Bool) :=
  match s.translate (s.coreOf s.focus) 0 va needR with
  | .error st => .error (atLane (lowest e) va ((va : Int) - base) idx st)
  | .ok r => .ok r

/-- The request is well formed. -/
def launches : Res (State × Except (Nat × Nat) Launch) → Bool
  | .ok (_, .ok _) => true
  | _ => false

theorem launches_spec {x : Res (State × Except (Nat × Nat) Launch)} (h : launches x = true) : ∃ u l, x = .ok (u, .ok l) := by
  unfold launches at h
  split at h
  · exact ⟨_, _, rfl⟩
  · cases h

theorem witness_LaunchesAndCheckpoints : sLnch.runs g7 ∧ sLnch.single ∧ sLnch.focus.hasS (r 15) ∧
    sLnch.specOf sLnch.focus = none ∧ sLnch.hedge 0 = some hLnch ∧ sLnch.focus.settled = true ∧ sLnch.focus.fences = [] ∧
    (let v := sLnch.release sLnch.focus .sys
     v.hedge 0 = some hLnch ∧ (∃ u l, v.launchForm ⟨promotedAt .sys, dieAgents 0, fun u _ => u⟩ hLnch 5 0 0 (lnchTr v 1) = .ok (u, .ok l)) ∧
      ∃ u, v.launchForm ⟨promotedAt .sys, dieAgents 0, fun u _ => u⟩ hLnch 5 0xFF0 0 (lnchTr v 1) = .ok (u, .error (1, ewindow))) :=
  ⟨⟨by rfl, by decide, State.single.unfaulted rfl⟩, rfl, Group.hasS_idle rfl (by decide), by rfl, rfl, rfl, rfl,
    by rfl, launches_spec (by decide +kernel), ⟨_, by rfl⟩⟩

/-- A speculative launch that may write buffer 2, with a shadow of its first page. -/
def sSpec : State := { s2 with
  hedges := [{ h0 with launches := [{ l0 with spec := some ⟨[2], [], [], false⟩ }] }]
  focus := { g2 with sregs := [0, 2, 2, 1] ++ List.replicate 12 0 }, shadows := [⟨0, some 5, 0x14, [(7, 9)]⟩] }

/-- The same with SPCMT.FINAL outstanding, with these pages still to come. -/
def resolve0 (todo : List (Nat × Nat)) : Op := s2.newOp .none (.resolve 5 true true todo) 1
def sResolve (todo : List (Nat × Nat)) : State := { sSpec with focus := { g2 with pend := [resolve0 todo] } }

theorem witness_SpeculationResolves : sSpec.runs g7 ∧ sSpec.single ∧ sSpec.focus.hasS (r 0) ∧ sSpec.focus.hasS (r 1) ∧
    sSpec.focus.hasS (r 2) ∧ (∃ h q sp, sSpec.resolveCheck 0 1 2 = .ok (h, q, sp, [(2, 0), (2, 1)])) ∧
    sSpec.focus.settled = true ∧ sSpec.focus.fences = [] ∧
    (∀ todo, (sResolve todo).focus.pend.find? (fun o => o.id == 0) = some (resolve0 todo) ∧
      (sResolve todo).focus.pend.find? Op.isResolve = some (resolve0 todo)) ∧ (sResolve []).specAt 0 5 ≠ none ∧
    (∃ h, (sResolve [(2, 0)]).hedge 0 = some h ∧ (sResolve [(2, 0)]).commitRoom h 5 (2, 0) = true) ∧
    sSpec.shadow 0 (some 5) 0x14 = some ⟨0, some 5, 0x14, [(7, 9)]⟩ ∧ sSpec.memWf ∧ sSpec.l1Clean ∧
    (∀ i, i < 4096 → (sSpec.frame (frameOf (0x14 * 4096 + i))).mig = none) :=
  ⟨⟨by rfl, by decide, State.single.unfaulted rfl⟩, rfl, Group.hasS_idle rfl (by decide), Group.hasS_idle rfl (by decide),
    Group.hasS_idle rfl (by decide), ⟨_, _, _, by rfl⟩, rfl, rfl, fun _ => ⟨rfl, rfl⟩, by decide, ⟨_, rfl, by rfl⟩, rfl, by rfl,
    s2_clean rfl, fun _ _ => rfl⟩

/-- The same core with its clock gated: no slot number is assigned (R351). -/
def sGated : State := { s2 with cores := [(0, { Core.initial 0 with slots := List.replicate 16 none })], focus := { g2 with seat := none } }

theorem witness_IssueCycles : (s2.core 0).slots.getD 0 none = some 0 ∧ (s2.core 0).slots.getD 2 none = none ∧
    s2.gated 0 = false ∧ sGated.gated 0 = true ∧ (s2.slotPicks 0 0 0).map (·.id) = [1] ∧ s2.quarterPicks 0 0 0 = [1] ∧
    (s2.slotGroups 0 0 0).map (·.id) = [1] ∧ g2.inProgress = true ∧
    (∃ g, (s2.slotGroups 0 0 0).find? Group.inProgress = some g) ∧
    ∀ g ∈ ({ s2 with focus := { g2 with clause := none } } : State).slotGroups 0 0 0, g.inProgress = false := by
  refine ⟨by rfl, by rfl, by rfl, by rfl, by rfl, by rfl, by rfl, by rfl, ⟨_, by rfl⟩, fun g h => ?_⟩
  rw [show ({ s2 with focus := { g2 with clause := none } } : State).slotGroups 0 0 0 = [{ g2 with clause := none }] by rfl] at h
  rw [List.mem_singleton.1 h]
  rfl

/-- A group between two clauses, with a clause of one word, an SCMP, in memory. -/
def gNext : Group := { g2 with clause := none, frontier := [⟨0, 0, 1⟩] }
def sNext : State := { s2 with
  focus := gNext
  mem := [(0, 0xE1), (1, 0xFF), (2, 0xFF), (3, 7), (7, 0xA0), (8, 0x13), (9, 0x1C), (10, 6), (11, 3), (12, 4),
    (0x100000, 0xDF), (0x200000, 0xDF)] }

/-- A group that is ready again, and one at the end of a clause with two passes to go. -/
def gReady : Group := { g2 with stop := some ⟨.xlat, true, true, 4, false, 0x10000⟩ }
def gLast : Group := { g2 with clause := some ⟨0, 0, ⟨0, 0, 0, false, 15, 15, 15, 15, 0x3F, 1⟩, [0], 1, 1, 2⟩ }

/-- A group before the last pass of a replayed clause, and one that takes an error of engine work. -/
def gReplay : Group := { gNext with replay := gLast.clause }
def gLate : Group := { gNext with lateFault := some ⟨.uncorr, 0, 0, 0, 1⟩ }
def gLateParked : Group := { g2 with lateFault := some ⟨.uncorr, 0, 0, 0, 1⟩, presence := true }

/-- A group whose next clause has been reached before. -/
def gReached : Group := { gNext with selected := some ⟨0, 0, 1⟩, reached := gLast.clause }

/-- The machine with another group in focus. -/
def sf (g : Group) : State := { s2 with focus := g }

theorem witness_Clauses :
    ((sf gReady).group 1 = some gReady ∧ gReady.role = .single ∧ (sf gReady).snapHeld gReady = false ∧ (sf gReady).resumable gReady = true) ∧
    (sNext.group 1 = some gNext ∧ gNext.role = .single ∧ sNext.snapHeld gNext = false ∧ gNext.stop = none ∧
      gNext.free_ false = true ∧ gNext.pairFault = none ∧ gNext.lateFault = none ∧ gNext.replyFirst = false ∧ gNext.replay = none ∧
      gNext.nextEntry = some ⟨0, 0, 1⟩ ∧ gNext.reachedAt ⟨0, 0, 1⟩ = none ∧ ∃ c, (sNext.focusOn 1).fetchClause gNext ⟨0, 0, 1⟩ = .ok c ∧ c.head.rep = false ∧
        gNext.meetsHeader c.head = true ∧ c.head.wst ≠ 0) ∧
    ((sf gReplay).group 1 = some gReplay ∧ (sf gReplay).snapHeld gReplay = false ∧ gReplay.clause = none ∧
      gReplay.free_ false = true ∧ gReplay.replyFirst = false ∧ ∃ c, gReplay.replay = some c ∧ gReplay.meetsHeader c.head = true) ∧
    (gReached.nextEntry = some ⟨0, 0, 1⟩ ∧ gReached.reachedAt ⟨0, 0, 1⟩ = gLast.clause ∧ gReached.free_ false = true ∧
      gReached.meetsHeader ⟨0, 0, 0, false, 15, 15, 15, 15, 0x3F, 1⟩ = true) ∧
    (∀ g ∈ [gLate, gLateParked], (sf g).group 1 = some g ∧ g.lateFault = some ⟨.uncorr, 0, 0, 0, 1⟩ ∧ g.takesLate = true) ∧
    ((sf gLast).group 1 = some gLast ∧ gLast.lateFault = none ∧ gLast.sysHeld = false ∧ gLast.stop = none ∧ gLast.presence = false ∧ gLast.emu = .none ∧ gLast.moves = none ∧
      ∃ c, gLast.clause = some c ∧ c.words.length ≤ c.idx ∧ 1 < c.passes ∧
        c.off + 8 * (c.head.n + 1) < gLast.code.tlen) :=
  ⟨⟨rfl, rfl, by rfl, by rfl⟩,
    ⟨rfl, rfl, by rfl, rfl, by rfl, rfl, rfl, rfl, rfl, by rfl, by rfl, ⟨_, by rfl, by rfl, by rfl, by decide⟩⟩,
    ⟨rfl, by rfl, by rfl, by rfl, by rfl, ⟨_, by rfl, by rfl⟩⟩, ⟨by rfl, by rfl, by rfl, by rfl⟩,
    by decide,
    ⟨rfl, rfl, rfl, rfl, rfl, rfl, rfl, ⟨_, rfl, by decide, by decide, by decide⟩⟩⟩

/-- Groups parked by WAIT, for presence, by FMTEMU, and one served; a management core with 64 traps of the hedge. -/
def gWait (d : Word64) : Group := { g2 with waitUntil := some d }
def gEmu (e : Emu) : Group := { g2 with emu := e }
def sMgmt (e : Emu) (turn : Nat) (q : List (Nat × Nat)) : State :=
  { sf (gEmu e) with mgmt := [⟨List.replicate 256 (some 0), turn, q, [⟨.save 7, 0x310000, some (.c3 0x318000), false⟩],
    [.mismatch ⟨0, [], 0, 1, 2, 3⟩], []⟩] }

def sWait (d : Word64) : State := { sf (gWait d) with cores := [(0, { Core.initial 0 with cycle := 0 })] }
theorem cycle2 (d : Word64) : ((sWait d).core ((sWait d).coreOf (gWait d))).cycle = 0 := rfl

theorem witness_Parking : (sWait 0).group 1 = some (gWait 0) ∧ (gWait 0).seat.isSome = true ∧
    (((sWait 0).core ((sWait 0).coreOf (gWait 0))).cycle - 0).toNat < 2 ^ 63 ∧
    2 ^ 63 ≤ (((sWait 1).core ((sWait 1).coreOf (gWait 1))).cycle - 1).toNat ∧
    (let g : Group := { g2 with presence := true }
     (sf g).group 1 = some g ∧ g.stop = none) ∧ g2.role = .single ∧
    (sMgmt .trapped 0 []).group 1 = some (gEmu .trapped) ∧
    (∃ m, (sMgmt .trapped 0 []).mgmt[dieOf ((sMgmt .trapped 0 []).coreOf g2)]? = some m ∧ m.waiting 0 < 64) ∧
    (∃ m, (sMgmt .trapped 0 (List.replicate 64 (0, 9))).mgmt[0]? = some m ∧ 64 ≤ m.waiting 0) ∧
    (((sMgmt .trapped 0 []).groups.find? fun x => x.emu == .trapped && x.hedge == 0 &&
      dieOf ((sMgmt .trapped 0 []).coreOf x) == 0) = some (gEmu .trapped)) ∧
    (∃ m, (sMgmt .none 7 []).mgmt[0]? = some m ∧ m.turn % 8 = 7 ∧ (∀ e ∈ m.events, ∃ x, e = .mismatch x) ∧ ∃ r rest,
      m.requests = r :: rest ∧ r.taken = false ∧ r.what = .save g2.wg ∧ g2.seat.isSome = true) ∧
    (∃ m, (sMgmt .queued 6 [(0, 1)]).mgmt[0]? = some m ∧ m.turn % 8 ≠ 7 ∧ m.table.getD m.turn none = some 0 ∧
      (m.queue.find? fun x => x.1 == 0) = some (0, 1)) :=
  ⟨rfl, rfl, by rw [cycle2]; decide, by rw [cycle2]; decide, ⟨rfl, rfl⟩, rfl, rfl, ⟨_, by rfl, by decide⟩,
    ⟨_, by rfl, by decide⟩, by rfl,
    ⟨_, by rfl, by decide, fun e h => ⟨_, List.mem_singleton.1 h⟩, _, _, rfl, rfl, rfl, rfl⟩,
    ⟨_, by rfl, by decide, by rfl, by rfl⟩⟩

theorem ok_of {ε α : Type} {x : Except ε α} {a : α} (h : x.toOption = some a) : x = .ok a := by
  cases x with
  | error e => cases h
  | ok y => cases h; rfl

/-- The walk ends in XLAT. -/
def unmapped {α : Type} : Walked α → Bool
  | .error (.xlat _, _) => true
  | _ => false

theorem unmapped_spec {α : Type} {x : Walked α} (h : unmapped x = true) : ∃ a reads, x = .error (.xlat a, reads) := by
  unfold unmapped at h
  split at h
  · exact ⟨_, _, rfl⟩
  · cases h

/-- A walk's translation. -/
def walked (x : Walked TlbEntry) (t : TlbEntry) : Bool :=
  match x with
  | .ok (y, _) => y == t
  | .error _ => false

theorem walked_spec {x : Walked TlbEntry} {t : TlbEntry} (h : walked x t = true) :
    ∃ reads, x = .ok (t, reads) := by
  unfold walked at h
  split at h
  · exact ⟨_, by rw [beq_iff_eq.1 h]⟩
  · cases h

/-- A group at its end, stopped, waiting for memory that migrates, and saved; and a group that does not wait. -/
def gDone : Group := { gNext with frontier := [], exited := BitVec.allOnes 32 }
def gStop (c : FaultCode) (ready : Bool) : Group := { g2 with stop := some ⟨c, true, ready, 9, false, 0x10000⟩ }

/-- A machine whose management core has a request, which a system turn has taken up or not; a group that is held to be saved;
and one that does nothing but wait for a reply. -/
def withReq (x : Service) (taken : Bool) (s : State) : State :=
  { s with mgmt := [⟨List.replicate 256 (some 0), 0, [], [⟨x, 0x310000, some (.c3 0x318000), taken⟩], [], []⟩] }
def gHeld : Group := { gNext with holds := [.save] }
def gWaits : Group := { gDone with svcReplies := [⟨0, false⟩] }

/-- A pair that is held to be saved, with open batches of different sizes. -/
def sPairHeld : State := { s2 with
  focus := { gHeld with role := .leading 2, openBatch := ⟨[1], 1, [], []⟩ }
  others := [{ gHeld with id := 2, role := .trailing 1, openBatch := ⟨[1], 2, [], []⟩ }] }

/-- The workgroup out of its core, its group saved between two clauses. -/
def sOut : State := { s2 with focus := { gNext with seat := none }, wgs := [{ w0 with core := none }] }

theorem witness_GroupsComeAndGo :
    ((sf gDone).group 1 = some gDone ∧ gDone.role = .single ∧ (sf gDone).retirable gDone = true ∧
      (∀ x ∈ (sf gDone).others, x.id ≠ (sf gDone).focus.id) ∧ 1 < (sf gDone).nextId ∧ (sf gDone).wgOf gDone.wg = some w0 ∧
      ((sf gDone).wgs.map (·.id)).Nodup) ∧ s2.retirable g2 = false ∧
    ((sf (gStop .tagmis false)).group 1 = some (gStop .tagmis false) ∧
      ∃ x, (gStop .tagmis false).stop = some x ∧ x.ready = false ∧ x.code ≠ .uncorr ∧ x.code ≠ .sdc ∧
        (sf (gStop .tagmis false)).drained (gStop .tagmis false) = true ∧ x.resumable = true ∧ x.token = (9 : Word32).toNat ∧ (9 : Word32) ≠ 0) ∧
    (s2.wgOf g2.wg = some w0 ∧ w0.core = some 0 ∧ g2.seat.isSome = true ∧ s2.saving 7 = false ∧ g2.awaitsReply = false) ∧
    (gWaits.seat.isSome = true ∧ gWaits.awaitsReply = true ∧ (sf gWaits).taken (.saveGroup 1) = false ∧
      (let s := withReq (.saveGroup 1) true (sf gWaits)
       s.saving 7 = false ∧ s.taken (.saveGroup 1) = true ∧ s.pairSavable gWaits = true ∧ ∀ r ∈ gWaits.svcReplies, r.ready = false)) ∧
    (let s := withReq (.save 7) true (sf gHeld)
     s.saving 7 = true ∧ s.taken (.save 7) = true ∧ (∀ x ∈ s.groups, x.holds.contains .save = true ∧ s.pairSavable x = true) ∧
      s.openDiff (s.seated 7) = none) ∧
    (let s := withReq (.save 7) true sPairHeld
     s.saving 7 = true ∧ s.taken (.save 7) = true ∧ (∀ x ∈ s.groups, x.holds.contains .save = true ∧ s.pairSavable x = true) ∧
      (s.openDiff (s.seated 7)).isSome = true) ∧
    (let s := withReq (.save 7) true (sf { g2 with holds := [.save] })
     s.saving 7 = true ∧ ∃ x ∈ s.groups, x.wg = 7 ∧ x.seat.isSome = true ∧ s.pairSavable x = false) ∧
    (∃ w c, sOut.wgOf 7 = some w ∧ w.core = none ∧ sOut.hedge 0 = some h0 ∧ sOut.launch 0 5 = some l0 ∧ sOut.wgDone w = false ∧
      h0.wantSnap = false ∧ h0.resize = none ∧ h0.oversized l0 = false ∧ sOut.imageVersionOk w = true ∧ sOut.nextDispatch h0 = some (.place c 0) ∧
      c.wg = some 7) ∧ sOut.logRoom h0.freeAt = true ∧ sOut.taken (.restore 7) = false ∧
    (let s := withReq (.restore 7) true sOut
     s.taken (.restore 7) = true ∧ ((s.nextDispatch h0).map fun d => d == .place ⟨5, 0, 0, some 7⟩ 0) = some true ∧ s.memWf ∧ s.l1Clean ∧
      (∀ x ∈ s.groups, x.svcReplies = []) ∧ s.redirect 0x318000 = 0x318000) ∧
    (let s := sf (gStop .migr false)
     (∃ reads, s.walk none h0 0x10000 = .ok (t0, reads)) ∧ frameOf (t0.addr 0x10000) = 1 ∧ s.poolOk (frameOf (s.redirect (t0.addr 0x10000))) = true ∧
      s.windowRoom (s.redirect (t0.addr 0x10000)) = true) ∧
    (let s : State := { s2 with walks := [⟨0, 0, 16, none⟩, ⟨0, 0, 2 ^ 18, none⟩] }
     (∃ reads, s.walk (some 0) h0 (16 * 4096) = .ok (t0, reads)) ∧ (∃ a reads, s.walk (some 0) h0 (2 ^ 18 * 4096) = .error (.xlat a, reads)) ∧
      s.walkerFree h0 0 16 = true ∧ s.walkerFree h0 1 16 = false) :=
  ⟨⟨rfl, rfl, by rfl, (fun _ h => by cases h), by decide, rfl, by decide⟩, by rfl,
    ⟨rfl, ⟨_, rfl, rfl, by decide, by decide, by rfl, rfl, rfl, by decide⟩⟩, ⟨rfl, rfl, rfl, by rfl, by rfl⟩,
    ⟨rfl, by rfl, by rfl, by rfl, by rfl, by rfl, by decide⟩,
    ⟨by rfl, by rfl, fun x h => by rw [List.mem_singleton.1 h]; exact ⟨rfl, by rfl⟩, by rfl⟩,
    ⟨by rfl, by rfl, by decide +kernel, by decide +kernel⟩,
    ⟨by rfl, _, List.mem_singleton.2 rfl, rfl, rfl, by rfl⟩,
    ⟨_, _, rfl, rfl, rfl, rfl, by rfl, rfl, rfl, by decide +kernel, by rfl, by rfl, by rfl⟩, by rfl, by rfl,
    ⟨by rfl, by decide +kernel, by rfl, s2_clean rfl, fun x h => by rw [List.mem_singleton.1 h]; rfl, by rfl⟩,
    ⟨walked_spec (by decide +kernel), by decide +kernel, by decide +kernel, by decide +kernel⟩,
    ⟨walked_spec (by decide +kernel), unmapped_spec (by decide +kernel), by rfl, by rfl⟩⟩

/-- A launch that has not been placed, one that waits for a counter, and one that is done and adds to a counter. -/
def withLaunch (l : Launch) : State := { s2 with
  focus := { g2 with lseq := 4, wg := 0, seat := none, hedge := 9 }, wgs := [], hedges := [{ h0 with launches := [l] }] }
def lNew : Launch := { l0 with placed := 0 }
def lWait : Launch := { l0 with admitted := false, placed := 0, deps := [⟨.c1 0 0 0, 1, false⟩, ⟨.c1 0 0 1, 1, true⟩] }
def lDone : Launch := { l0 with finished := 1, done := some (.c1 0 0 0) }

/-- A launch whose scratch leaves no room beside that of a workgroup that is parked and comes after it. -/
def hBig : Hedge := { h0 with launches := [{ l0 with seq := 4, placed := 0, scr := 64 * 65536 }, { l0 with held := [0] }] }
def sBig : State := { sf (gWait 5) with hedges := [hBig] }

theorem witness_LaunchLife :
    (let s := withLaunch lNew
     let h : Hedge := { h0 with launches := [lNew] }
     s.hedge h.p.id = some h ∧ h.wantSnap = false ∧ h.resize = none ∧
      (∃ c, s.freeWgs.nextDispatch h = some (.place c 0) ∧ c.wg = none ∧ s.launch 0 c.lseq = some lNew) ∧ h.p.checked = false ∧
      (∀ x ∈ s.groups, x.id < s.nextId) ∧ ∀ w ∈ s.wgs, w.id < s.nextId) ∧
    s2.freeWgs.nextDispatch h0 = none ∧
    (sBig.freeWgs.hedge 0 = some hBig ∧ sBig.freeWgs.nextDispatch hBig = some (.evict 7 (some 4)) ∧
      (sBig.freeWgs.askSave 7).saving 7 = true ∧ (let s : State := { sBig with mgmt := [] }
        s.freeWgs.nextDispatch hBig = some (.evict 7 (some 4)) ∧ (s.freeWgs.askSave 7).saving 7 = false)) ∧
    (sOut.freeWgs.nextDispatch h0 = some (.place ⟨5, 0, 0, some 7⟩ 0) ∧ (sOut.freeWgs.wgOf 7).isSome = true) ∧
    ((withLaunch lWait).launch 0 5 = some lWait ∧ ∃ d ∈ lWait.deps, d.met = false) ∧
    ((withLaunch { lWait with deps := [] }).launch 0 5 = some { lWait with deps := [] }) ∧ l0.finished < l0.wgcount ∧
    ((withLaunch lDone).launch 0 5 = some lDone ∧ lDone.complete = false ∧ lDone.admitted = true ∧
      lDone.wgcount ≤ lDone.finished ∧ (withLaunch lDone).copiesSettled 0 5 = true ∧ lDone.spec = none) ∧
    (s2.freeWgs.l1Clean) ∧
    (∃ u l, sLnch.launchForm ⟨fun t => t.narrower .sys, offDie, fun u va => u.hubReach hLnch va⟩ hLnch 0 0 0 (fun _ _ va => match sLnch.hubTranslate hLnch va needR with
      | some x => .ok x
      | none => .error .wait) = .ok (u, .ok l)) := by
  refine ⟨⟨rfl, rfl, rfl, ⟨_, by rfl, by rfl, by rfl⟩, rfl, by decide, by decide⟩, by rfl,
    ⟨by rfl, by decide +kernel, by decide +kernel, by decide +kernel, by decide +kernel⟩, ⟨by decide +kernel, by rfl⟩, ⟨rfl, by decide⟩, rfl, by decide,
    ⟨rfl, rfl, rfl, by decide, by rfl, rfl⟩, s2_clean (by rfl), launches_spec (by decide +kernel)⟩

/-! ### The service kernel: slot 0 holds a call for lane 3 -/

def hCall : Hedge := { h0 with calls := [(0, [3])] }
def sCall (g : Group) (bs : List (Nat × Byte)) : State := { sf g with
  hedges := [hCall], mem := [(0x100000, 0xDF), (0x200000, 0xDF)] ++ bs }

/-- Call n with its four words, each below 256 times a power of 2, as bytes. -/
def callOf (n : Byte) (ws : List (Nat × Byte)) : State := sCall g2 ((0x308140, n) :: ws.map fun p => (0x308148 + p.1, p.2))

/-- The words that a slot holds for its lane. -/
abbrev laneWords (s : State) (n : Nat) (ws : List Word64) : Prop := s.nextLane hCall 0 = some (3, n, ws)

/-- An answer is there. -/
def answers (x : Option (State × Nat × Word64)) : Bool := x.isSome

theorem answers_spec {x : Option (State × Nat × Word64)} (h : answers x = true) : ∃ t c r, x = some (t, c, r) := by
  cases x with
  | none => cases h
  | some y => exact ⟨_, _, _, rfl⟩

theorem isOk_spec {ε α : Type} {x : Except ε α} (h : x.toBool = true) : ∃ y, x = .ok y := by
  cases x with
  | error e => cases h
  | ok y => exact ⟨_, rfl⟩

theorem okAnd_spec {ε α : Type} {x : Except ε α} {p : α → Bool} (h : (x.toOption.map p).getD false = true) :
    ∃ y, x = .ok y ∧ p y = true := by
  cases x with
  | error e => cases h
  | ok y => exact ⟨y, rfl, h⟩

/-- A group that waits for a free slot, and one whose reply is there. -/
def gFree : Group := { g2 with svcWait := some ⟨some 0, 2048, 16, 1, ⟨0, 0, 1⟩, 0, [(0, [0, 0, 0, 0])], true⟩ }
def gReply : Group := { gNext with svcReplies := [⟨0, true⟩] }

/-- BUFALLOC of 100 bytes by a hedge without buffers, whose tables of both stages are one page each, which points to
itself at every level but the last. -/
def hAlloc : Hedge := { hCall with bufs := [], nextGpa := 0x20000, vsatp := 0xA000000000000001, hgatp := 0xA000000000000004 }
def sAlloc : State := { s2 with
  hedges := [hAlloc]
  mem := [(0x4000, 1), (0x4001, 0x10), (0x4008, 0xDF), (0x4009, 0x14), (0x5000, 1), (0x5001, 4), (0x5F80, 1), (0x5F81, 4),
    (0x308140, 1), (0x308148, 100)] }

theorem witness_allocate : sAlloc.nextLane hAlloc 0 = some (3, 1, [100, 0, 0, 0]) ∧
    ∃ y, sAlloc.allocate hAlloc 100 0 0 0 = .ok y := ⟨by decide +kernel, isOk_spec (by decide +kernel)⟩

theorem witness_ServiceCalls : (∀ s : State, s.frames = [] → ∀ pa, s.logRoom pa = true) ∧ (callOf 0 []).frames = [] ∧
    (sf gFree).frames = [] ∧ (callOf 0 []).hedge 0 = some hCall ∧ laneWords (callOf 0 []) 0 [0, 0, 0, 0] ∧
    laneWords (callOf 8 []) 8 [0, 0, 0, 0] ∧
    laneWords (sCall g2 [(0x308141, 8)]) 2048 [0, 0, 0, 0] ∧ laneWords (callOf 1 []) 1 [0, 0, 0, 0] ∧
    (laneWords (callOf 1 [(2, 1)]) 1 [0x10000, 0, 0, 0] ∧ (callOf 1 [(2, 1)]).allocate hCall 0x10000 1 0 0 = .error einval) ∧
    (laneWords (callOf 2 [(0, 9)]) 2 [9, 0, 0, 0] ∧ hCall.entry 9 = none) ∧
    (laneWords (callOf 2 []) 2 [0, 0, 0, 0] ∧ (∃ e, hCall.entry 0 = some e ∧ e.owner = 0) ∧ (callOf 2 []).quiet 0 = true) ∧
    { callOf 2 [] with focus := { g2 with pend := [load0] } }.quiet 0 = false ∧
    (laneWords (callOf 3 [(2, 1), (9, 16), (16, 2)]) 3 [0x10000, 4096, 2, 0] ∧
      (callOf 3 [(2, 1), (9, 16), (16, 2)]).vaArg hCall 0x10000 4096 = .ok () ∧
      decodeEntry hCall.features [0x10000, 4096, hCall.entryWord 2, 0] ≠ none ∧ hCall.freeIndex = some 6) ∧
    (laneWords (sCall (gStop .tagmis false) [(0x308140, 4), (0x308148, 9)]) 4 [9, 0, 0, 0] ∧
      ((sCall (gStop .tagmis false) []).resumeToken 0 9).isSome = true ∧ (sCall g2 []).resumeToken 0 9 = none) ∧
    (laneWords (callOf 5 [(1, 3), (7, 0xA0)]) 5 [0xA000000000000300, 0, 0, 0] ∧ vsatpOk 0xA000000000000300 = true ∧
      vsatpOk 0 = false ∧ ∀ i, i < 16 → (callOf 5 []).guestPa hCall (0x300 * 4096 + 8 * (0x1F0 + i)) ≠ none) ∧
    laneWords (callOf 6 []) 6 [0, 0, 0, 0] ∧
    (laneWords (callOf 7 [(8, 4), (16, 1)]) 7 [0, 4, 1, 0] ∧
      (∃ e, (callOf 7 []).bufArg hCall 0 0 (64 * 2 ^ 4 + 16) true true = .ok e) ∧
      ∃ b, (callOf 7 []).bufArg hCall 1 0 64 true false = .ok b ∧ b.counter = true) ∧
    (∀ f ∈ [callAlloc, callFree, callMap, callResume, callVsatp, callInval, callEq],
      ∃ t c r, f s2 h0 [0, 0, 0, 0] = some (t, c, r)) ∧ find1 hCall.calls 0 = some [3] ∧
    ((sf gFree).group 1 = some gFree ∧ gFree.role = .single ∧ gFree.seat.isSome = true ∧
      (∃ w, gFree.svcWait = some w ∧ w.ready = true ∧ w.ticket = some 0) ∧
      (sf gFree).logFits [(none, h0.fillAt), (none, h0.slotAt 0)] = true ∧ sNoLog.logFits [(none, h0.fillAt), (none, h0.slotAt 0)] = false) ∧
    (let h : Hedge := { h0 with p := { hp0 with logLines := 0 }, calls := [(0, [3])] }
     { sNoLog with hedges := [h] }.nextLane h 0 = some (3, 0, [0, 0, 0, 0]) ∧ { sNoLog with hedges := [h] }.logRoom (h.blockAt 0 3) = false) ∧
    ((sf gReply).group 1 = some gReply ∧ gReply.seat.isSome = true ∧
      gReply.svcReplies.find? (fun r => r.slot == 0 && r.ready) = some ⟨0, true⟩ ∧ gReply.clause = none ∧ gReply.replay = none ∧
      (sf gReply).wgOf gReply.wg = some w0 ∧ gReply.number ∉ w0.ended) := by
  refine ⟨fun s h pa => by simp [State.logRoom, State.logFits, State.frame, h, find1, Frame.free], rfl, rfl, rfl, by decide +kernel, by decide +kernel, by decide +kernel, by decide +kernel, ⟨by decide +kernel, by rfl⟩, ⟨by decide +kernel, by decide +kernel⟩,
    ⟨by decide +kernel, ⟨_, by rfl, by decide⟩, by decide +kernel⟩, by decide +kernel, ⟨by decide +kernel, by decide +kernel, by decide, by decide +kernel⟩,
    ⟨by decide +kernel, by decide +kernel, by decide +kernel⟩, ⟨by decide +kernel, by decide +kernel, by decide +kernel, by decide +kernel⟩, by decide +kernel,
    ⟨by decide +kernel, isOk_spec (by decide +kernel), okAnd_spec (by decide +kernel)⟩,
    fun f hf => answers_spec ((by decide +kernel : ∀ f ∈ [callAlloc, callFree, callMap, callResume, callVsatp, callInval,
      callEq], answers (f s2 h0 [0, 0, 0, 0]) = true) f hf), by decide +kernel,
    ⟨rfl, rfl, rfl, ⟨_, rfl, rfl, rfl⟩, by decide +kernel, by decide +kernel⟩, ⟨by decide +kernel, by decide +kernel⟩, ⟨rfl, rfl, rfl, rfl, rfl, rfl, by decide⟩⟩

/-! ### Frames: frame 2 is the hedge's, and no buffer lies in it -/

def fr (f : Frame → Frame) : List (Nat × Frame) := [(2, f { Frame.free .hbm with owner := some 0, slice := some 3 })]
def sFr (f : Frame → Frame) : State := { s2 with frames := fr f }
def place0 (t : Tier) : PlaceReq := ⟨0, 3, 2, t, 0⟩
def pool0 (owned asked : Bool) (rs : List (BitVec 48)) : Pool := ⟨if owned then none else some 9, [], rs, asked⟩
def sPool (p : Pool) : State := sFr fun x => { x with pool := some p }

/-- A hedge whose tables map nothing, with a frame in FORWARD. -/
def hBare : Hedge := { h0 with bufs := [] }
def sFwd : State := { sFr (fun x => { x with mig := some (.forward 3) }) with hedges := [hBare], mem := [] }

/-- A store to buffer 0 while its frame is copied. -/
def sStall : State := { withOp storeHome with frames := [(1, { Frame.free .hbm with
  owner := some 0, slice := some 3, mig := some (.copy 12582912 .lpddr []) })] }

/-- Frame 2 where the hedge's tables map nothing, so that no leaf is split; with a shadow in it; with a share of a pool that has
no extents; and in FORWARD under a leaf of the root that covers all, with no quota for the tables that splitting it takes. -/
def sMap : State := { sFr id with mem := [], places := [place0 .lpddr] }
def hPool : Hedge := { h0 with p := { hp0 with quotaPool := 5 } }
def sNoPool : State := { sMap with hedges := [hPool], places := [place0 .pool], poolFrames := 0 }
def hNone : Hedge := { h0 with bufs := [], p := { hp0 with quotaHbm := 0, quotaLpddr := 0 } }
def sStuck : State := { sFr (fun x => { x with mig := some (.forward 3) }) with hedges := [hNone] }

theorem witness_splitG : (sMap.splitG h0 2).toBool = true ∧ (sNoPool.splitG hPool 2).toBool = true ∧
    ∀ l ∈ sMap.guestPages h0 2, l.2.2.1 ≤ 65536 := by decide +kernel

theorem witness_remapG_fails : sStuck.quiet 0 = true ∧ (sStuck.remapG hNone 2 3).toBool = false := by decide +kernel

theorem witness_Migrations_places : sMap.placeOver (place0 .lpddr) = false ∧ sMap.mayCopy h0 2 .lpddr 0 = true ∧
    sMap.freeFrame .lpddr = some 12582912 ∧ sMap.placeOver (place0 .hbm) = true ∧
    (let s : State := { sMap with shadows := [⟨0, none, 0x20, []⟩] }
     s.placeOver (place0 .lpddr) = false ∧ s.mayCopy h0 2 .lpddr 0 = false) ∧
    sNoPool.placeOver (place0 .pool) = false ∧ sNoPool.mayCopy hPool 2 .pool 0 = true ∧ sNoPool.freeFrame .pool = none := by
  decide +kernel

theorem witness_Migrations_poison : { sFr (fun x => { x with mig := some (.copy 3 .hbm []) }) with bad := [1024] }.poisoned 2 [] ≠ [] ∧
    (sFr fun x => { x with mig := some (.copy 3 .hbm [(0x20000, 5)]) }).poisoned 2 [(0x20000, 5)] = [] := by decide +kernel

/-- A request queued where the frame is in COPY, and one where the interval has written the frame. -/
def hLogged : Hedge := { h0 with log := [⟨none, 1024, List.replicate 128 1, []⟩] }

theorem witness_Migrations_pool :
    (sFr fun x => { x with pool := some (pool0 true false [7]), mig := some (.copy 3 .hbm []) }).inCopy (2 * 65536) = true ∧
    (let s : State := { sPool (pool0 true false [7]) with hedges := [hLogged] }
     s.inCopy (2 * 65536) = false ∧ s.frameBusy 2 = false ∧ (s.frame 2).owner.bind s.hedge = some hLogged) ∧
    hLogged.loggedFrame 2 = true ∧ (pool0 false true []).owner = some 9 ∧ (pool0 false false []).asked = false := by decide +kernel

theorem witness_Migrations :
    (((sFr id).frame 2).owner.bind (sFr id).hedge = some h0 ∧ (sFr id).mayCopy h0 2 .lpddr 0 = true ∧
      tierOfFrame 12582912 = .lpddr ∧ 12582912 ∉ (sFr id).usedFrames ∧ (sFr id).mayCopy h0 2 .hbm 0 = false ∧
      (let s : State := { sFr id with places := [place0 .lpddr] }
       s.places[0]? = some (place0 .lpddr) ∧ s.freeFrame .lpddr = some 12582912 ∧ s.mayCopy h0 2 .lpddr 0 = true ∧
        s.hedge 0 = some h0) ∧
      let s : State := { sFr id with places := [place0 .hbm] }
      s.places[0]? = some (place0 .hbm) ∧ s.freeFrame .hbm = some 0 ∧ s.mayCopy h0 2 .hbm 0 = false ∧ s.copying (some 3) < 16) ∧
    (let s := sFr fun x => { x with mig := some (.copy 3 .hbm [(0x20000, 5)]) }
     (s.frame 2).mig = some (.copy 3 .hbm [(0x20000, 5)]) ∧ (s.frame 2).owner = some 0 ∧ s.memWf ∧
      ∀ x ∈ s.bad, frameOf (x * 128) ≠ 2) ∧
    ((sFwd.frame 2).mig = some (.forward 3) ∧ (sFwd.frame 2).owner.bind sFwd.hedge = some hBare ∧ sFwd.quiet 0 = true ∧
      { sFwd with focus := { g2 with pend := [load0] } }.quiet 0 = false) ∧
    (((sPool (pool0 true false [])).frame 2).pool = some (pool0 true false []) ∧
      ((sPool (pool0 true false [7])).frame 2).pool = some (pool0 true false [7]) ∧
      (sPool (pool0 true false [7])).inCopy (2 * 65536) = false ∧ (sPool (pool0 true false [7])).frameBusy 2 = false ∧
      (∀ h, ((sPool (pool0 true false [7])).frame 2).owner.bind (sPool (pool0 true false [7])).hedge = some h →
        h.loggedFrame 2 = false) ∧
      ((sPool (pool0 false false [])).frame 2).pool = some (pool0 false false []) ∧
      ((sPool (pool0 false true [])).frame 2).pool = some (pool0 false true [])) ∧
    (let s := sFr fun x => { x with owner := none, scrub := true }
     (s.frame 2).scrub = true ∧ (s.frames.map (·.1)).Nodup ∧ (s.frame 2).retired = false ∧ (s.frame 2).owner = none ∧
      ((sFr fun x => { x with scrub := true }).frame 2).owner ≠ none) ∧
    (sStall.group 1 = some sStall.focus ∧ sStall.focus.pend.find? (fun o => o.id == 0) = some storeHome ∧
      storeHome.accs = [⟨0, (List.range [1, 2, 3, 4].length).map fun i => Place.home (0x10000 + i), [1, 2, 3, 4], [], 0x10000, 0⟩] ∧
      sStall.mayPerform sStall.focus storeHome = true ∧ sStall.opError sStall.focus storeHome = none ∧ sStall.l1Clean ∧
      0x10000 / 65536 = (0x10000 + 4 - 1) / 65536 ∧ (sStall.frame (frameOf 0x10000)).mig = some (.copy 12582912 .lpddr []) ∧
      sStall.logFits ((List.range 4).map fun i => (none, 0x10000 + i)) = true ∧
      ∀ i, i < 4 → sStall.windowRoom (0x10000 + i) = true ∧
        sStall.isMismatched (0x10000 + i) = false) := by
  refine ⟨⟨rfl, by decide +kernel, by decide +kernel, by decide +kernel, by decide +kernel, ⟨rfl, by decide +kernel,
    by decide +kernel, rfl⟩, ⟨rfl, by decide +kernel, by decide +kernel, by decide +kernel⟩⟩, ⟨rfl, rfl, by rfl,
    fun x hx => by cases hx⟩, ⟨rfl, rfl, by decide +kernel, by decide +kernel⟩, ⟨rfl, rfl, by decide +kernel, by decide +kernel,
    fun h hh => ?_, rfl, rfl⟩, ⟨rfl, by decide +kernel, rfl, rfl, by decide +kernel⟩,
    ⟨rfl, rfl, rfl, by decide +kernel, by decide +kernel, s2_clean rfl, by decide, rfl, by decide +kernel, by decide +kernel⟩⟩
  cases hh
  rfl

theorem witness_forwardEnd : ∃ t, sFwd.remapG hBare 2 3 = .ok t := isOk_spec (by decide +kernel)

/-! ### Snapshots and hedges -/

/-- A snapshot of the hedge. -/
def snap0 : Snapshot where
  interval := 1
  groups := []
  wgs := []
  ctrs := []
  launches := []
  nextSeq := 1
  shadows := []
  copies := []
  counts := []
  bufs := []
  vsatp := 0xA000000000000100
  calls := []
  accs := []
  harts := []

/-- The hedge with a snapshot and a log of one line, and one that has rolled back in the interval. -/
def hSnap (rs : List (RollCause × Nat)) : Hedge := { h0 with snap := some snap0, log := [⟨none, 512, List.replicate 128 1, []⟩], rolled := rs }
def sHedge (h : Hedge) : State := { s2 with hedges := [h], focus := gNext }

/-- The management core assists the snapshot of the hedge; a pair whose open batches differ; and the hedge with an error queue
in buffer 0, whose counter block is in buffer 2. -/
def sAssist (s : State) : State := withReq (.snapshot 0 0) true s
def hEq : Hedge := { hSnap [] with errq := some ⟨0, 4, 2, 0⟩ }

theorem witness_SnapshotsAndRollbacks_hub : (0x10000, 64 * 2 ^ 4 + 16) ∈ (sHedge hEq).hubRuns hEq ∧ (sHedge (hSnap [])).hubRuns (hSnap []) = [] ∧
    ((hSnap []).log.find? fun x => x.shadow.isNone && decide (x.line * 128 ≤ 65536) && decide (65536 < x.line * 128 + x.data.length)).isSome = true ∧
    ((hSnap []).log.find? fun x => x.shadow.isNone && decide (x.line * 128 ≤ 99) && decide (99 < x.line * 128 + x.data.length)).isSome = false ∧
    (∀ l ∈ (sHedge hEq).bad, ((sHedge hEq).frame (frameOf (l * 128))).owner ≠ some 0) := by decide +kernel

theorem witness_SnapshotsAndRollbacks : (sHedge h0).hedge 0 = some h0 ∧ h0.moving = none ∧
    ((sAssist (sHedge h0)).assisted h0 = true ∧ (sAssist (sHedge h0)).snapReady 0 = true ∧
      (sAssist (sHedge h0)).openDiff ((sAssist (sHedge h0)).hedgeGroups 0) = none ∧
      { sAssist (sHedge h0) with mgmt := [⟨[], 0, [], [⟨.snapshot 0 0, 0, none, true⟩], [], []⟩] }.assisted h0 = true) ∧
    ((sAssist sPairHeld).assisted h0 = true ∧ (sAssist sPairHeld).snapReady 0 = true ∧
      ((sAssist sPairHeld).openDiff ((sAssist sPairHeld).hedgeGroups 0)).isSome = true) ∧
    (sHedge h0).assisted h0 = false ∧ s2.snapReady 0 = false ∧ (sHedge (hSnap [])).memWf ∧ (hSnap []).log ≠ [] ∧
    (sHedge (hSnap [])).hedge 0 = some (hSnap []) ∧ (hSnap []).snap = some snap0 ∧ (∀ r ∈ (hSnap []).rolled, r.1 ≠ .uncorr) ∧
    (sHedge (hSnap [(.uncorr, 1)])).hedge 0 = some (hSnap [(.uncorr, 1)]) ∧ (∃ r ∈ (hSnap [(.uncorr, 1)]).rolled, r.1 = .uncorr) ∧
    h0.snap = none :=
  ⟨rfl, rfl, ⟨by decide +kernel, by decide +kernel, by decide +kernel, by decide +kernel⟩, ⟨by decide +kernel, by decide +kernel, by decide +kernel⟩,
    by decide +kernel, by decide +kernel, by rfl, by decide, rfl, rfl, (fun _ h => by cases h), rfl, by decide, rfl⟩

/-- A package that is up and has no hedge. -/
def sUp : State := { State.reset with stage := .up }

/-- Parameters that can be met: the smallest quotas, and the request area in frames of their own. -/
def hpOk : HedgeParams := { hp0 with nslot := 16 }

/-- The hedge as it arrives from package 9, without frames, in the place that it has here, and with too few slot numbers. -/
def hGoes : Hedge := { h0 with moving := some 9, routes := [(1, [0xF000000000000007, 1, 4, 0])] }
def arrival0 (ss : List Nat) : Arrival := ⟨⟨h0, snap0, [], [], [], [], [], [], [], 9⟩, hp0.rect, ss, []⟩
def sArrive (a : Arrival) : State := { sUp with arrivals := [a] }

theorem witness_Hedges_moves : (∀ ss, (sArrive (arrival0 ss)).hedge 0 = none ∧
      (sArrive (arrival0 ss)).arrivals.find? (fun x => x.moved.hedge.p.id == 0) = some (arrival0 ss)) ∧
    (sArrive (arrival0 [0, 1])).arrivalOk (arrival0 [0, 1]) = true ∧ (sArrive (arrival0 [0])).arrivalOk (arrival0 [0]) = false ∧
    (sAssist (sHedge hGoes)).assisted hGoes = true ∧ (sAssist (sHedge hGoes)).snapReady 0 = true ∧
    (sAssist (sHedge hGoes)).noCopy 0 = true ∧ (sAssist (sHedge hGoes)).openDiff ((sAssist (sHedge hGoes)).hedgeGroups 0) = none ∧
    (7, 1) ∉ hGoes.peers ∧ hGoes.peers.length = 1 ∧ (sHedge hGoes).assisted hGoes = false :=
  ⟨fun _ => ⟨rfl, rfl⟩, by decide +kernel, by decide +kernel, by decide +kernel, by decide +kernel, by decide +kernel,
    by decide +kernel, by decide +kernel, by decide +kernel, by decide +kernel⟩

/-- A management core that has gathered a failure, before a system turn. -/
def sFail (e : ErrEvent) : State := { s2 with mgmt := [⟨List.replicate 256 (some 0), 7, [], [], [.failure 0 e 5], []⟩] }

theorem witness_Hedges_failures : (∀ e ∈ [ErrEvent.die, .page none, .counter 5], ∃ m, (sFail e).mgmt[0]? = some m ∧ m.turn % 8 = 7 ∧
      m.events = [.failure 0 e 5]) ∧
    (handleClass 0x20000003 ≠ 0 ∧ handlePeer 0x20000003 = 0 ∧ h0.handleOk useAdd 0x20000003 = true ∧
      s2.handleAt h0 0 0x20000003 = some (.here (.c2 0 0 3)) ∧ s2.ctrBusy (.c2 0 0 3) = false ∧ s2.ctrBad (.c2 0 0 3) = none ∧
      { s2 with ctrs := [(.c2 0 0 3, { Ctr.initial with waiters := [⟨.cwait 1 0, 0, 5⟩] })] }.ctrBusy (.c2 0 0 3) = true) ∧
    (∀ f ∈ s2.usedFrames, tierOfFrame f = .pool → f < 29360128 + 7) ∧ (s2.hedges.map fun h => h.p.quotaPool).sum ≤ 7 :=
  ⟨fun e _ => ⟨_, rfl, rfl, rfl⟩, by decide +kernel, by decide +kernel, by decide +kernel⟩

theorem witness_Hedges : sUp.createOk hpOk = true ∧ (sHedge h0).createOk hpOk = false ∧ (sHedge h0).hedge 0 = some h0 ∧
    h0.resize = none ∧ (sHedge h0).resizeOk h0 ⟨0, 0, 1, 1, 0⟩ [0] = false ∧
    (sHedge h0).resizeOk h0 hp0.rect [0, 1] = true ∧ (∃ m, (sHedge h0).newMap h0 hp0.rect = some m ∧
      (sHedge h0).displaced h0 m [0, 1] = [] ∧ (sHedge h0).displaced h0 m [0] ≠ []) ∧
    (sHedge h0).resizeOk h0 hp0.rect [0] = true ∧
    h0.features &&& ~~~(0 : BitVec 256) ≠ 0 ∧ h0.features &&& ~~~h0.features = 0 ∧ s2.snapReady 0 = false ∧
    (sHedge h0).snapReady 0 = true ∧ (sHedge h0).noCopy 0 = true ∧ h0.interleaveOk 0 0 = true ∧
    h0.interleaveOk 0 0x10000 = false ∧ h0.features.getLsbD 5 = true ∧ h0.features.getLsbD 6 = true ∧ s2.hedge 0 = some h0 ∧
    (∀ h ∈ s2.hedges, 99 ∉ h.map) ∧ s2.wgOf 7 = some w0 ∧ (sUp.core 0).slots.length = 16 :=
  ⟨by decide +kernel, by decide +kernel, rfl, rfl, by decide +kernel, by decide +kernel, ⟨_, by rfl, by decide +kernel,
    by decide +kernel⟩, by decide +kernel, by decide, by decide, by decide +kernel, by decide +kernel, by decide +kernel,
    by decide +kernel, by decide +kernel, by decide, by decide, rfl, by decide, rfl, by decide +kernel⟩

/-! ### Peers and the G-die -/

/-- The hedge with a route on which the package with fabric address 7 may do everything. -/
def hPeer : Hedge := { h0 with routes := [(1, [0xF000000000000007, 1, 4, 0])], windows := [(1, [0x200000000007, 0, 0, 0])] }
def sPeer : State := { s2 with hedges := [hPeer] }
def req (op : PeerOp) : PeerReq := ⟨7, 0, 1, 0, op⟩
def sJob (op : PeerOp) : State := { sPeer with jobs := [⟨req op, []⟩] }
def wr0 (n : Nat) : PeerOp := .rmaWrite 0 n [1, 2, 3] none
def sMoved : State := { s2 with movedAway := [(9, 5, [(7, 0)])] }
def reqGone : PeerReq := { req (wr0 0) with hedge := 9 }

/-- The hedge with a watch at its peer. -/
def hFar : Hedge := { hPeer with farWatches := [⟨1, 0x0001000030010000, 0x10000000, .c1 0 0 0⟩] }

/-- An add to a counter of the peer that has been sent. -/
def sentReq : AddReq := ⟨.peer 0x0001000030010000, 0, none, 1, none, none, true⟩

/-- A CADD to a counter of the peer that the group has sent. -/
def sentAdd : Op := { s2.newOp .load (.ctr (.peer 0x0001000030010000) (.add 1)) 1 with got := [(0, [])] }

theorem witness_Peers : State.reset.stage ≠ .up ∧ s2.stage = .up ∧ s2.hedge 9 = none ∧ s2.movedTo reqGone = none ∧
    sMoved.movedTo reqGone = some 5 ∧ (∀ x ∈ sMoved.movedAway, x.2.2.Nodup) ∧
    opSwitches (wr0 0) = false ∧ onRoute { req .switched with op := .switched } [0xF000000000000007, 1, 4, 0] = true ∧ h0.routeOf (req (wr0 0)) = none ∧
    sPeer.hedge 0 = some hPeer ∧ (hPeer.routeOf (req (wr0 0))).map (·.1) = some 1 ∧
    sPeer.peerRefuses hPeer 1 [] (req (wr0 4094)) = some eaddr ∧ sPeer.peerRefuses hPeer 1 [] (req (wr0 4093)) = none ∧
    peerAmountOk (wr0 4093) = true ∧ peerAmountOk (.cadd 0x30010000 0x8000000000000000) = false ∧ sPeer.l1Clean ∧
    (∀ op ∈ [PeerOp.cadd 0x30010000 1, .cnext 0x30010000 1, .cinit 0x30010000 1, .watch 0x30010000 1 0x30010000 1 true],
      (sJob op).jobs[0]? = some ⟨req op, []⟩ ∧ peerHandle op = some 0x30010000 ∧ (sJob op).jobBehind 0 (req op) = false ∧
        (sJob op).logRoom 0x12000 = true ∧ hPeer.jobWatch (req op) = none ∧ (hPeer.routeOf (req op)).isSome = true) ∧ hPeer.wantSnap = false ∧
    sPeer.findCtr hPeer 0x30010000 needCtr = .at_ 0x12000 false ∧ sPeer.findCtr hPeer 0x30010000 needR = .at_ 0x12000 false ∧
    (hFar.jobWatch (req (.cadd 0x10000000 1))).isSome = true ∧
    { sPeer with frames := [(1, { Frame.free .hbm with owner := some 0, pool := some (pool0 false false []) })] }.findCtr hPeer 0x30010000 needCtr =
      .later 1 ∧
    (∃ e, hPeer.entry 0 = some e ∧ (e.pub = false ∧ e.fabred = false ∧ e.vbase = 0x10000)) ∧
    hPeer.inWriteSet 0 0 = false ∧ sPeer.logRoom 0x10000 = true ∧ sPeer.windowRoom 0x10000 = true ∧
    sPeer.isMismatched 0x10000 = false ∧ sPeer.isBad 0x10000 = false ∧ 29 / 32 = (29 + 3 - 1) / 32 ∧
    sPeer.find hPeer 0x10000 needW = .at_ 0x10000 false ∧ sPeer.find hPeer 0x10000 needRW = .at_ 0x10000 false ∧
    sPeer.find hPeer 0x10000 needR = .at_ 0x10000 false ∧ sPeer.consumeFault [.home 0x10000] = none ∧ (∀ k, k < 32 → (sPeer.frame (frameOf (0x10000 + k))).mig = none) ∧
    (∃ e, hPeer.entry 5 = some e ∧ e.fabred = true) ∧
    hPeer.sentTo sentAdd = some (1, 0x0001000030010000) ∧ (withOp sentAdd).group 1 = some (withOp sentAdd).focus ∧
    (withOp sentAdd).focus.pend.find? (fun y => y.id == sentAdd.id) = some sentAdd ∧
    sentReq.sentTo = some 0x0001000030010000 ∧ [sentReq].count sentReq = 1 ∧ (sPeer.hedge sentReq.hedge).isSome = true := by
  refine ⟨by decide, rfl, rfl, rfl, rfl, by decide, rfl, by decide +kernel, by rfl, rfl, by rfl, by rfl, by rfl, rfl, rfl, s2_clean rfl, by decide +kernel, rfl,
    by decide +kernel, by decide +kernel, by decide +kernel, by decide +kernel, ⟨_, by rfl, by decide⟩, by decide +kernel, by decide +kernel, by decide +kernel, by decide +kernel, by decide +kernel, by decide, by decide +kernel, by decide +kernel,
    by decide +kernel, by decide +kernel, fun _ _ => rfl,
    ⟨_, by rfl, by decide⟩, by rfl, rfl, by decide +kernel, rfl, by decide +kernel, by rfl⟩

theorem witness_GDieAccesses : s2.hedge 0 = some h0 ∧ 3 ∈ h0.p.gCores ∧ 4 ∉ h0.p.gCores ∧ h0.wantSnap = false ∧
    (∀ op ∈ [GOp.load 4, .store 8 1, .lr 8 true false, .sc 4 false true 1, .amo 8 .add true true 1], gWidthOk op = true) ∧
    (∀ i, i < 8 → s2.find h0 ((0x10FF8 + i) % 2 ^ 64) needRW = .at_ (0x10FF8 + i) false ∧
      h0.specCovers ((0x10FF8 + i) % 2 ^ 64) = false ∧ s2.logRoom (0x10FF8 + i) = true ∧ s2.windowRoom (0x10FF8 + i) = true ∧
      s2.isBad (0x10FF8 + i) = false ∧ s2.isMismatched (0x10FF8 + i) = false ∧ (s2.frame (frameOf (0x10FF8 + i))).mig = none) ∧
    (∃ i, i < 4 ∧ s2.find h0 ((0x3FFFFFFC + 4 + i) % 2 ^ 64) needR = .missing) ∧
    (∀ op ∈ [GOp.load 8, .store 8 1, .lr 8 true false, .sc 8 false true 1, .amo 8 .add true true 1],
      h0.gAllows 0x10FF8 op = true ∧ h0.addsCounter 0x10FF8 op = false) ∧
    h0.gAllows 0x12000 (.store 8 1) = false ∧ h0.gAllows 0x12000 (.amo 8 .add true true 1) = true ∧
    h0.addsCounter 0x12000 (.amo 8 .add true true 1) = true ∧
    s2.find h0 0x12000 { needRW with ctr := true } = .at_ 0x12000 false ∧ s2.logFits ((List.range 8).map fun i => (none, 0x10FF8 + i)) = true ∧
    (handleClass 0x30010000 ≠ 0 ∧ h0.handleOk useRead 0x30010000 = true ∧ s2.handleAt h0 0 0x30010000 needR = some (.here (.c3 0x12000))) ∧
    h0.handleOk useRead 0x40000000 = false ∧ s2.l1Clean ∧ 0x10FF9 % 4 ≠ 0 ∧
    h0.gAllows 0x10FF9 (.load 4) = true ∧ (s2.hart 3).todo = none ∧ (s2.hart 3).reserved ≠ some (0x10FF8, 8) ∧
    (let s : State := { s2 with harts := [(3, ⟨some (0x10FF8, 8), 0, false, some (0x10FF9, [5]), [], []⟩)] }
     (s.hart 3).reserved = some (0x10FF8, 8) ∧ (s.hart 3).todo = some (0x10FF9, [5])) := by
  refine ⟨rfl, by decide, by decide, rfl, by decide, by decide +kernel, ⟨0, by decide, by decide +kernel⟩, by decide +kernel,
    by decide +kernel, by decide +kernel, by decide +kernel, by decide +kernel, by decide +kernel, by decide +kernel, by decide +kernel, s2_clean rfl, by decide, by decide +kernel,
    by decide +kernel, by decide +kernel, by rfl, by rfl⟩

/-! ### The package -/

def sStage (x : Stage) : State := { State.reset with stage := x }

/-- Core 0 holds a line with two dirty bytes. -/
def line0 : Line := ⟨512, 0, List.replicate 128 5, 0x80000000000000000000000000000001, false⟩
def sDirty : State := { s2 with cores := [(0, { Core.initial 0 with l1 := [line0] })] }

theorem witness_PackageEvents : (∀ x ∈ [Stage.rom, .romB, .loader, .loaderB, .kernel, .mgmt, .gdie, .up, .recovery],
      (sStage x).stage = x) ∧ s2.hedge 0 = some h0 ∧
    (∃ m, (sMgmt .queued 6 [(0, 1)]).mgmt[0]? = some m ∧ (0, 1) ∈ m.queue) ∧
    (sMgmt .queued 6 [(0, 1)]).group 1 = some (gEmu .queued) ∧ (7 : Nat) < 8 ∧ 7 ∉ s2.cxlDown ∧
    (sDirty.memWf ∧ ((sDirty.core 0).l1.filter fun x => x.num == line0.num) = [line0] ∧ line0.data.length = 128 ∧ line0.bad = false ∧
      (sDirty.frame (frameOf (line0.num * 128))).mig = none ∧ sDirty.placesRoom true (line0.dirtyBytes.map fun p => Place.home p.1) = true) ∧
    (∃ m, (sStage .mgmt).mgmt[0]? = some m) ∧ 0 ∉ (sStage .mgmt).deadDies ∧ 0 ∈ ({ sStage .mgmt with deadDies := [0] } : State).deadDies ∧
    s2.quiet 0 = true ∧ (withOp load0).quiet 0 = false ∧ s2.l1Clean ∧
    400 ≤ 1600 ∧ 1600 % 100 = 0 ∧ 575 < 576 ∧ ¬ 450 % 100 = 0 :=
  ⟨by decide, rfl, ⟨_, by rfl, by decide⟩, by rfl, by decide, by decide,
    ⟨by rfl, by decide +kernel, by decide +kernel, rfl, by rfl, by decide +kernel⟩, ⟨_, by rfl⟩, by decide, by decide, by decide +kernel, by decide +kernel, s2_clean rfl, by decide⟩

/-! ### Masks, faults, the step -/

theorem witness_MasksAndRegisters : (31 : Nat) < 32 ∧ (6 : BitVec 3) ≠ 7 ∧ 23 < g0.vregs.length ∧
    (BitVec.allOnes 32 : Mask) &&& ~~~g0.exited ≠ 0 ∧ (0 : Mask) &&& ~~~g0.exited = 0 ∧ ∃ c, g0.clause = some c :=
  ⟨by decide, by decide, by decide, by decide, by decide, ⟨_, rfl⟩⟩

/-- The group with an operation outstanding that writes V1, and one that writes P0. -/
def awaiting (d : Dst) : State := { s0 with focus := { g0 with pend := [{ s2.newOp .load .load 1 with dst := d }] } }

theorem witness_IssueChecks : s0.single ∧ encode (.scmp g7 (r 6) (r 3) (r 4)) = some 0x0000000403061C13 ∧
    clauseEnding 0x0000000403061C13 = false ∧ (0x0000000403061C13 : Word64).extractLsb' 0 10 ≠ 0x2C0 ∧
    (0x0000000403061C13 : Word64).extractLsb' 0 10 ≠ 0x2C3 ∧ s0.focus.awaitsP 7 = false ∧ s0.focus.eff ⟨7, true⟩ = 0 ∧
    (awaiting (.pred 0)).focus.awaitsP 0 = true ∧ s0.runs g7 ∧ ¬ (g0.regIndex (r 24) < g0.vregs.length) ∧
    (awaiting (.v 1 .n32)).focus.awaitsV 1 = true ∧ ¬ ((Expect.ofN false).accepts (g0.tag 3) = true) ∧
    s0.focus.hasV (r 23) ∧ s0.focus.hasV (r 14) ∧ isF6 (g0.tag 14) = true ∧ g0.emu ≠ .done :=
  ⟨rfl, by rfl, by decide, by decide, by decide, hp 7, by decide, by decide, s0_runs, by decide, by decide, by decide, hv 23,
    hv 14, by decide, by decide⟩

theorem witness_GroupStateChanges : encode (.mcommit g7) = some 0x0000000000001F06 ∧
    ∃ t, exec (.mcommit g7) s0 = .next t := ⟨by rfl, ⟨_, by rfl⟩⟩

/-- The leading group of a pair, and its trailing group, which has raised a fault or not. -/
def gFirst (n : Nat) : Group := { g0 with role := .leading 2, issued := n }
def gSecond (f : Option FaultCode) : Group := { g0 with id := 2, role := .trailing 1, issued := 3, pairFault := f }
def sPair (n : Nat) (f : Option FaultCode) : State := { s0 with focus := gFirst n, others := [gSecond f] }

theorem witness_TakingFaults : s0.single ∧ (∀ f, (sPair 3 f).focus.partner.bind (sPair 3 f).group = some (gSecond f)) ∧
    (gSecond none).issued = (sPair 3 none).focus.issued ∧ (gSecond none).pairFault = none ∧
    (gSecond (some .tagmis)).pairFault = some .tagmis ∧ FaultCode.tagmis ≠ .regbound ∧
    (sPair 2 none).focus.issued < (gSecond none).issued ∧ g0.clause = some ⟨0, 0xA000000007FFFFE1, ⟨0, 0, 0, false, 15, 15, 15, 15,
      0x3F, 1⟩, [0], 0, BitVec.allOnes 32, 1⟩ ∧ (0x80000000 : Mask) ≠ 0 ∧
    ∃ m, (sPair 3 none).mgmt[dieOf ((sPair 3 none).coreOf (sPair 3 none).focus)]? = some m :=
  ⟨rfl, fun _ => rfl, rfl, rfl, rfl, by decide, by decide, rfl, by decide, ⟨_, by rfl⟩⟩

/-- The group that was picked, with an SCMP or an unassigned word as its next instruction. -/
def gWord (w : Word64) : Group := { g2 with
  clause := some ⟨0, 0xA000000007FFFFE1, ⟨0, 0, 0, false, 15, 15, 15, 15, 0x3F, 1⟩, [w], 0, 1, 1⟩ }
def sPicked (g : Group) : State := { sf g with grants := [[1]] }

/-- A next state whose focus has a property. -/
def nextHas (p : Group → Bool) : Host.Outcome State Fault Refusal → Bool
  | .next u => p u.focus
  | _ => false

theorem nextHas_spec {p : Group → Bool} {o : Host.Outcome State Fault Refusal} (h : nextHas p o = true) :
    ∃ u, o = .next u ∧ p u.focus = true := by
  unfold nextHas at h
  split at h
  · exact ⟨_, rfl, h⟩
  · cases h

theorem witness_StepRunsDecoded : { s2 with agenda := [Instr.epochBoundary] }.agenda = [Instr.epochBoundary] ∧
    (∀ w ∈ [(0x0000000403061C13 : Word64), 0x0000000000001FFF],
      (sPicked (gWord w)).group 1 = some (gWord w) ∧ (gWord w).runnable = true) ∧
    decodeWord 0x0000000403061C13 = .ok (.scmp g7 (r 6) (r 3) (r 4)) ∧ decodeWord 0x0000000000001FFF = .error .unassigned ∧
    (sPicked gNext).group 1 = some gNext ∧ gNext.runnable = false ∧
    (∃ c, sNext.fetchClause gNext ⟨0, 0, 1⟩ = .ok c ∧ decide (c.words = [0x0000000403061C13]) = true) ∧
    (∃ u, exec (.clauseStart 1) sNext = .next u ∧ Group.runnable u.focus = true) ∧
    ∃ u, exec (.clauseStart 1) (sf { gNext with holds := [.save] }) = .next u ∧ (!Group.runnable u.focus) = true :=
  ⟨rfl, fun _ _ => ⟨rfl, by rfl⟩, by rfl, by rfl, by rfl, by rfl, okAnd_spec (by decide +kernel),
    nextHas_spec (by decide +kernel), nextHas_spec (p := fun g => !g.runnable) (by decide +kernel)⟩

theorem witness_DecodeWords : (0 : Word64).extractLsb' 60 4 ≠ 0xA := by decide

theorem witness_EncodeDecode : encode (.scmp g7 (r 6) (r 3) (r 4)) = some 0x0000000403061C13 ∧
    (Instr.scmp g7 (r 6) (r 3) (r 4)).wellFormed = true ∧
    decodeWord 0x0000000403061C13 = .ok (.scmp g7 (r 6) (r 3) (r 4)) := ⟨by rfl, by decide, by rfl⟩

theorem witness_StepKeepsMemoryCanonical : { s0 with agenda := [.mcommit g7] }.memWf ∧
    ∃ t, step { s0 with agenda := [.mcommit g7] } = .next t := ⟨by rfl, ⟨_, by rfl⟩⟩

end Sys2Proof.Tests
end

section
/-! Masks and registers of a group: what P0 to P7 and V hold after a write, lane by lane, and the masks that an instruction
acts under (R14, R16, R17, R29). -/

namespace Sys2Proof.Machine

/-! ## P registers -/

/-- P7 is the one P register without storage (R11, R14). -/
theorem pred_toNat_lt {p : BitVec 3} (h : p ≠ 7) : p.toNat < 7 := by bv_omega

theorem Group.predMask_seven (g : Group) : g.predMask 7 = BitVec.allOnes 32 := rfl

theorem Group.predMask_stored (g : Group) {p : BitVec 3} (h : p ≠ 7) :
    g.predMask p = g.preds[p.toNat]'(pred_toNat_lt h) := dif_pos (pred_toNat_lt h)

theorem Group.setP_seven (g : Group) (e m : Mask) : g.setP e 7 m = g := rfl

theorem Group.setP_stored (g : Group) (e m : Mask) {p : BitVec 3} (h : p ≠ 7) :
    g.setP e p m = { g with
      preds := g.preds.set p.toNat (g.predMask p &&& ~~~(e &&& ~~~g.exited) ||| m &&& (e &&& ~~~g.exited))
        (pred_toNat_lt h) } := by
  rw [g.predMask_stored h]
  exact dif_pos (pred_toNat_lt h)

theorem Group.predMask_setP_same (g : Group) (e m : Mask) {p : BitVec 3} (h : p ≠ 7) :
    (g.setP e p m).predMask p = g.predMask p &&& ~~~(e &&& ~~~g.exited) ||| m &&& (e &&& ~~~g.exited) := by
  rw [g.setP_stored e m h, Group.predMask_stored _ h, Vector.getElem_set_self]

theorem Group.predMask_setP_other (g : Group) (e m : Mask) {p q : BitVec 3} (h : q ≠ p) :
    (g.setP e p m).predMask q = g.predMask q := by
  by_cases hp : p = 7
  · rw [hp, setP_seven]
  by_cases hq : q = 7
  · rw [hq, predMask_seven, predMask_seven]
  · have hne : p.toNat ≠ q.toNat := fun he => h (BitVec.eq_of_toNat_eq he).symm
    rw [g.setP_stored e m hp, Group.predMask_stored _ hq, g.predMask_stored hq, Vector.getElem_set_ne _ _ hne]

theorem Group.setP_keeps_rest (g : Group) (e m : Mask) (p : BitVec 3) : { g.setP e p m with preds := g.preds } = g := by
  by_cases hp : p = 7
  · rw [hp, setP_seven]
  · rw [g.setP_stored e m hp]

/-- A lane takes the value of `m` where `e` has it and it has not exited, and that of `old` elsewhere (R17). -/
theorem getLsbD_mergeMask (old e exited m : Mask) {l : Nat} (hl : l < 32) :
    (old &&& ~~~(e &&& ~~~exited) ||| m &&& (e &&& ~~~exited)).getLsbD l =
      if e.getLsbD l ∧ exited.getLsbD l = false then m.getLsbD l else old.getLsbD l := by
  simp only [BitVec.getLsbD_or, BitVec.getLsbD_and, BitVec.getLsbD_not, hl]
  cases e.getLsbD l <;> cases exited.getLsbD l <;> simp

/-! ## V registers -/

theorem mixLanes_getD (e : Mask) (old : Lanes) (f : Nat → Word32) {l : Nat} (hl : l < 32) :
    (mixLanes e old f).toList.getD l 0 = if e.getLsbD l then f l else old.toList.getD l 0 := by
  simp [mixLanes, hl]

theorem Group.setV_empty (g : Group) (n : Nat) (t : Tag) (f : Nat → Word32) : g.setV 0 n t f = g := if_pos rfl

theorem Group.setV_nonempty (g : Group) {e : Mask} (n : Nat) (t : Tag) (f : Nat → Word32) (h : e ≠ 0) :
    g.setV e n t f = { g with vregs := g.vregs.set n ⟨t, mixLanes (e &&& ~~~g.exited) (g.v n).lanes f⟩ } := if_neg h

theorem Group.v_setV_same (g : Group) {e : Mask} {n : Nat} (t : Tag) (f : Nat → Word32) (h : e ≠ 0)
    (hn : n < g.vregs.length) : (g.setV e n t f).v n = ⟨t, mixLanes (e &&& ~~~g.exited) (g.v n).lanes f⟩ := by
  simp [g.setV_nonempty n t f h, Group.v, hn]

theorem Group.v_setV_other (g : Group) (e : Mask) {n k : Nat} (t : Tag) (f : Nat → Word32) (h : k ≠ n) :
    (g.setV e n t f).v k = g.v k := by
  by_cases he : e = 0
  · rw [he, setV_empty]
  · simp [g.setV_nonempty n t f he, Group.v, h.symm]

theorem Group.tag_setV_same (g : Group) {e : Mask} {n : Nat} (t : Tag) (f : Nat → Word32) (h : e ≠ 0)
    (hn : n < g.vregs.length) : (g.setV e n t f).tag n = t := by
  rw [Group.tag, g.v_setV_same t f h hn]

theorem Group.lane_setV_same (g : Group) (e : Mask) {n l : Nat} (t : Tag) (f : Nat → Word32) (hn : n < g.vregs.length)
    (hl : l < 32) : (g.setV e n t f).lane n l =
      if e.getLsbD l ∧ g.exited.getLsbD l = false then f l else g.lane n l := by
  by_cases he : e = 0
  · rw [he, setV_empty]
    simp
  · rw [Group.lane, g.v_setV_same t f he hn, mixLanes_getD _ _ _ hl]
    simp [Group.lane, hl]

theorem Group.setV_keeps_rest (g : Group) (e : Mask) (n : Nat) (t : Tag) (f : Nat → Word32) :
    { g.setV e n t f with vregs := g.vregs } = g := by
  by_cases he : e = 0
  · rw [he, setV_empty]
  · rw [g.setV_nonempty n t f he]

/-! ## The masks of an instruction -/

theorem Group.active_of_clause {g : Group} {c : Clause} (h : g.clause = some c) : g.active = c.mask &&& ~~~g.exited := by
  simp [Group.active, h]

theorem Group.getLsbD_eff (g : Group) (gd : Guard) {l : Nat} (hl : l < 32) :
    (g.eff gd).getLsbD l = (g.active.getLsbD l && ((g.predMask gd.p).getLsbD l ^^ gd.neg)) := by
  cases h : gd.neg <;> simp [Group.eff, h, hl]

/-! ## The obligation -/

/-- Settles O51: from what a write of a P or V register gives each lane, what it keeps, and the lanes of E. -/
theorem masksAndRegisters : Obligations.MasksAndRegisters := by
  unfold Obligations.MasksAndRegisters
  intro g
  refine ⟨?p7Reads, g.setP_seven, ?setP, ?setV, fun gd l => g.getLsbD_eff gd, ?active, fun _ => rfl⟩
  case p7Reads =>
    intro l hl
    rw [g.predMask_seven, BitVec.getLsbD_allOnes, decide_eq_true hl]
  case setP =>
    intro e p m hp
    refine ⟨fun l hl => ?_, fun q => g.predMask_setP_other e m, g.setP_keeps_rest e m p⟩
    rw [g.predMask_setP_same e m hp]
    exact getLsbD_mergeMask _ _ _ _ hl
  case setV =>
    intro e n t f hn
    refine ⟨?_, fun he => g.tag_setV_same t f he hn, fun l => g.lane_setV_same e t f hn,
      fun k => g.v_setV_other e t f, g.setV_keeps_rest e n t f⟩
    rintro rfl
    exact g.setV_empty n t f
  case active =>
    intro c hc l hl
    simp [Group.active_of_clause hc, hl]

end Sys2Proof.Machine
end

section
/-! Values of rows 0 to 3: the model's counts, shifts, fields, flag word and saturation, said in terms of numbers and of single
bits (R59, R81 to R85, R92, R97 to R99). -/

namespace Sys2Proof.Machine

/-! ## Masks made of bits -/

theorem getLsbD_foldl_setBits (f : Nat → Bool) (ls : List Nat) (m : Mask) {l : Nat} (hl : l < 32) :
    (ls.foldl (fun m k => if f k then m ||| (1#32 <<< k) else m) m).getLsbD l =
      (m.getLsbD l || (decide (l ∈ ls) && f l)) := by
  induction ls generalizing m with
  | nil => simp
  | cons k ks ih =>
    rw [List.foldl_cons, ih]
    by_cases hk : l = k
    · subst hk
      cases hf : f l <;> simp [hl]
    · have hbit : (1#32 <<< k).getLsbD l = false := by simp; omega
      cases f k <;> simp [hk, hbit]

theorem getLsbD_maskOf (f : Nat → Bool) {l : Nat} (hl : l < 32) : (maskOf f).getLsbD l = f l := by
  rw [maskOf, getLsbD_foldl_setBits f _ _ hl]
  simp [hl]

theorem maskOf_getLsbD (x : Word64) : maskOf (fun l => x.getLsbD l) = x.extractLsb' 0 32 :=
  BitVec.eq_of_getLsbD_eq fun l hl => by
    rw [getLsbD_maskOf _ hl]
    simp [hl]

/-! ## Counts and shifts -/

theorem ofNat_clz {w : Nat} (x : BitVec w) : BitVec.ofNat w (clz x) = x.clz := by
  by_cases h0 : x = 0
  · subst h0
    rw [clz, if_pos (by simp)]
    exact (BitVec.clz_eq_iff_eq_zero.2 rfl).symm
  · have hne : x.toNat ≠ 0 := fun h => h0 (BitVec.eq_of_toNat_eq h)
    have hlt : x.clz.toNat < w := by
      have h : x.clz.toNat < (w : BitVec w).toNat := BitVec.clz_lt_iff_ne_zero.2 h0
      exact h.trans_le (Nat.mod_le w _)
    have hlog : x.toNat.log2 = w - 1 - x.clz.toNat := by
      refine (Nat.log2_eq_iff hne).2 ⟨BitVec.two_pow_sub_clz_le_toNat_of_ne_zero (by omega) h0, ?_⟩
      rw [show w - 1 - x.clz.toNat + 1 = w - x.clz.toNat by omega]
      exact BitVec.toNat_lt_two_pow_sub_clz
    rw [clz, if_neg hne, hlog, show w - 1 - (w - 1 - x.clz.toNat) = x.clz.toNat by omega, BitVec.ofNat_toNat,
      BitVec.setWidth_eq]

theorem popcount_eq {w : Nat} (x : BitVec w) : popcount x = (List.range w).countP fun i => x.getLsbD i :=
  List.countP_eq_length_filter.symm

theorem shl_eq {w : Nat} (x y : BitVec w) : shl x y = x <<< y := by
  by_cases h : w ≤ y.toNat
  · rw [shl, if_pos h, BitVec.shiftLeft_eq', BitVec.shiftLeft_eq_zero h]
    rfl
  · exact if_neg h

theorem shr_eq {w : Nat} (x y : BitVec w) : shr x y = x >>> y := by
  by_cases h : w ≤ y.toNat
  · rw [shr, if_pos h, BitVec.ushiftRight_eq', BitVec.ushiftRight_eq_zero h]
    rfl
  · exact if_neg h

theorem sra_eq {w : Nat} (x y : BitVec w) : sra x y = x.sshiftRight' y := by
  by_cases h : w ≤ y.toNat
  · rw [sra, if_pos h]
    refine BitVec.eq_of_getLsbD_eq fun i hi => ?_
    rw [BitVec.getLsbD_sshiftRight, BitVec.getLsbD_sshiftRight', if_neg (by omega), if_neg (by omega)]
  · exact if_neg h

/-! ## Bit fields -/

theorem fieldExtract_unsigned {w : Nat} (x : BitVec w) (pos n : Nat) :
    fieldExtract false x pos n = ((x >>> pos).extractLsb' 0 n).setWidth w := by
  by_cases hn : n = 0
  · subst hn
    simp [fieldExtract]
  · simp [fieldExtract, hn]

theorem fieldExtract_signed {w : Nat} (x : BitVec w) (pos n : Nat) :
    fieldExtract true x pos n = ((x >>> pos).extractLsb' 0 n).signExtend w := by
  by_cases hn : n = 0
  · subst hn
    simp [fieldExtract, BitVec.signExtend]
  · simp [fieldExtract, hn]

theorem getLsbD_fieldInsert {w : Nat} (c a : BitVec w) (pos n : Nat) {i : Nat} (hi : i < w) :
    (fieldInsert c a pos n).getLsbD i = if pos ≤ i ∧ i < pos + n then a.getLsbD (i - pos) else c.getLsbD i := by
  have hmask : (BitVec.ofNat w (2 ^ n - 1) <<< pos).getLsbD i = decide (pos ≤ i ∧ i < pos + n) := by
    rw [BitVec.getLsbD_shiftLeft, BitVec.getLsbD_ofNat, Nat.testBit_two_pow_sub_one, Bool.eq_iff_iff]
    simp
    omega
  simp only [fieldInsert, BitVec.getLsbD_or, BitVec.getLsbD_and, BitVec.getLsbD_not, hmask]
  by_cases hf : pos ≤ i ∧ i < pos + n
  · simp only [hf, decide_true, Bool.not_true, Bool.and_false, Bool.false_or, Bool.and_true, and_self, if_true,
      BitVec.getLsbD_shiftLeft, hi, decide_eq_false (not_lt.2 hf.1), Bool.not_false, Bool.true_and]
  · simp [hf, hi]

theorem fieldOf_eq (b : Word64) :
    fieldOf b = (b.toNat % 64, min (min (b.toNat / 256 % 128) 64) (64 - b.toNat % 64)) := by
  simp [fieldOf, BitVec.extractLsb'_toNat, Nat.shiftRight_eq_div_pow]

/-! ## The flag word and the test of SSEL (R84) -/

/-- Five flags side by side, as the sum of the powers of two of those set. -/
theorem flagWord_eq_sum (eq lt gt ltu gtu : Bool) :
    (BitVec.ofBool gtu ++ BitVec.ofBool ltu ++ BitVec.ofBool gt ++ BitVec.ofBool lt ++ BitVec.ofBool eq :
        BitVec 5).setWidth 64 =
      BitVec.ofNat 64 ((if eq then 1 else 0) + (if lt then 2 else 0) + (if gt then 4 else 0) + (if ltu then 8 else 0) +
        (if gtu then 16 else 0)) := by
  revert eq lt gt ltu gtu
  decide

theorem scmpFlags_eq (x y : Word64) : scmpFlags x y = BitVec.ofNat 64
    ((if x = y then 1 else 0) + (if x.toInt < y.toInt then 2 else 0) + (if y.toInt < x.toInt then 4 else 0) +
      (if x.toNat < y.toNat then 8 else 0) + (if y.toNat < x.toNat then 16 else 0)) := by
  rw [scmpFlags, flagWord_eq_sum]
  simp only [beq_iff_eq, BitVec.slt_iff_toInt_lt, BitVec.ult_iff_toNat_lt]

theorem selects_zero (c : Word64) : selects 0 c = true ↔ c ≠ 0 := by simp [selects]

theorem selects_nonzero {mask : BitVec 5} (h : mask ≠ 0) (c : Word64) :
    selects mask c = true ↔ c.extractLsb' 0 5 &&& mask ≠ 0 := by
  have hwide : c &&& mask.setWidth 64 = (c.extractLsb' 0 5 &&& mask).setWidth 64 := by
    refine BitVec.eq_of_getLsbD_eq fun i hi => ?_
    by_cases h5 : i < 5
    · simp [hi, decide_eq_true h5]
    · simp [hi, BitVec.getLsbD_of_ge _ _ (not_lt.1 h5)]
  have hzero : (c.extractLsb' 0 5 &&& mask).setWidth 64 = 0 ↔ c.extractLsb' 0 5 &&& mask = 0 := by
    generalize c.extractLsb' 0 5 &&& mask = m
    bv_omega
  rw [selects, if_neg (by simpa using h), hwide, bne_iff_ne, ne_eq, hzero]

/-! ## Saturation (R59, R92) -/

theorem satInt_eq (n : Bool) (w : Nat) (r : Int) : satInt n w r = if n then satUnsigned w r else satSigned w r := rfl

theorem narrow_eq (sat n : Bool) (w : Nat) (r : Int) :
    narrow sat n w r = BitVec.ofInt w (if sat then (if n then satUnsigned w r else satSigned w r) else r) := by
  rw [narrow, satInt_eq]

/-! ## Byte permutation (R99) -/

theorem permByte_eq (a b : Word32) (sel : BitVec 4) :
    permByte a b sel = if 8 ≤ sel.toNat then 0 else (b ++ a).extractLsb' (8 * sel.toNat) 8 := by
  have hbit : sel.getLsbD 3 = true ↔ 8 ≤ sel.toNat := by
    revert sel
    decide
  simp only [permByte, hbit]
  rfl

theorem extractLsb'_fourBytes (p : Nat → Byte) {k : Nat} (hk : k < 4) :
    (p 3 ++ p 2 ++ p 1 ++ p 0 : BitVec (8 + 8 + 8 + 8)).extractLsb' (8 * k) 8 = p k := by
  obtain rfl | rfl | rfl | rfl : k = 0 ∨ k = 1 ∨ k = 2 ∨ k = 3 := by omega
  all_goals simp only [BitVec.extractLsb'_append_eq_ite]
  all_goals simp

theorem extractLsb'_permBytes (a b c : Word32) {k : Nat} (hk : k < 4) :
    (permBytes a b c).extractLsb' (8 * k) 8 = permByte a b (c.extractLsb' (4 * k) 4) :=
  extractLsb'_fourBytes (fun k => permByte a b (c.extractLsb' (4 * k) 4)) hk

theorem toNat_nibble (c : Word32) (k : Nat) : (c.extractLsb' (4 * k) 4).toNat = c.toNat / 2 ^ (4 * k) % 16 := by
  rw [BitVec.extractLsb'_toNat, Nat.shiftRight_eq_div_pow]

end Sys2Proof.Machine
end

section
/-! Instructions of rows 0 to 3 that complete: what they set, once for each shape, and for the instructions that have a shape of
their own (R90, R94, R96). -/

namespace Sys2Proof.Machine

/-! ## Scalar shapes -/

theorem State.setsS_scalar1 {s : State} {i : Instr} {gd : Guard} {d a : Reg} {f : Word64 → Word64} {x : Word64}
    (hi : exec i s = s.scalar1 gd d a f) (h : s.runs gd) (hd : s.focus.hasS d) (ha : s.focus.hasS a)
    (hx : f (s.focus.sOf a) = x) : s.setsS i d x := by
  rw [State.setsS, hi, State.scalar1_eq h hd ha, hx]

theorem State.setsS_scalarImm {s : State} {i : Instr} {gd : Guard} {d a : Reg} {imm : Word32}
    {f : Word64 → Word64 → Word64} {x : Word64} (hi : exec i s = s.scalarImm gd d a imm f) (h : s.runs gd)
    (hd : s.focus.hasS d) (ha : s.focus.hasS a) (hx : f (s.focus.sOf a) (imm.signExtend 64) = x) : s.setsS i d x :=
  State.setsS_scalar1 hi h hd ha hx

theorem State.setsS_scalar2 {s : State} {i : Instr} {gd : Guard} {d a b : Reg} {f : Word64 → Word64 → Word64}
    {x : Word64} (hi : exec i s = s.scalar2 gd d a b f) (h : s.runs gd) (hd : s.focus.hasS d) (ha : s.focus.hasS a)
    (hb : s.focus.hasS b) (hx : f (s.focus.sOf a) (s.focus.sOf b) = x) : s.setsS i d x := by
  rw [State.setsS, hi, State.scalar2_eq h hd ha hb, hx]

theorem State.setsS_scalar3 {s : State} {i : Instr} {gd : Guard} {d a b c : Reg}
    {f : Word64 → Word64 → Word64 → Word64} {x : Word64} (hi : exec i s = s.scalar3 gd d a b c f) (h : s.runs gd)
    (hd : s.focus.hasS d) (ha : s.focus.hasS a) (hb : s.focus.hasS b) (hc : s.focus.hasS c)
    (hx : f (s.focus.sOf a) (s.focus.sOf b) (s.focus.sOf c) = x) : s.setsS i d x := by
  rw [State.setsS, hi, State.scalar3_eq h hd ha hb hc, hx]

/-- An instruction whose checks raise nothing and which then writes S[D]. -/
theorem State.setsS_issue {s : State} {i : Instr} {gd : Guard} {d : Reg} {f : Mask → Group → Res Group} {x : Word64}
    (hi : exec i s = s.issue gd f) (h : s.runs gd)
    (hf : f (s.focus.eff gd) s.focus = .ok (s.focus.setS (s.focus.regIndex d) x)) : s.setsS i d x :=
  hi.trans (State.issue_gives h hf ⟨rfl, rfl, rfl⟩)

theorem State.setsS_sli {s : State} {gd : Guard} {d : Reg} (h : s.runs gd) (hd : s.focus.hasS d) (imm : Word32) :
    s.setsS (.sli gd d imm) d (imm.signExtend 64) := by
  refine State.setsS_issue (exec_sli ..) h ?_
  have hr := Group.ready_ok (g := s.focus) (vs := []) (ss := [s.focus.regIndex d]) (ps := []) (by simp)
    (by simp [hd.free]) (by simp)
  simp only [Group.sNum_eq hd, Except.ok_bind, hr, sextImm]

theorem State.setsS_slih {s : State} {gd : Guard} {d : Reg} (h : s.runs gd) (hd : s.focus.hasS d) (imm : Word32) :
    s.setsS (.slih gd d imm) d (imm ++ (s.focus.sOf d).extractLsb' 0 32) := by
  refine State.setsS_issue (exec_slih ..) h ?_
  have hr := Group.ready_ok (g := s.focus) (vs := []) (ss := [s.focus.regIndex d]) (ps := []) (by simp)
    (by simp [hd.free]) (by simp)
  simp only [Group.sNum_eq hd, Except.ok_bind, hr, Group.sOf]

/-! ## VMOVS (R90) -/

theorem State.setsS_vmovsSp {s : State} {gd : Guard} {d : Reg} {p : BitVec 3} (h : s.runs gd) (hd : s.focus.hasS d)
    (hp : s.focus.awaitsP p = false) : s.setsS (.vmovsSp gd d p) d ((s.focus.predMask p).setWidth 64) := by
  refine State.setsS_issue (exec_vmovsSp ..) h ?_
  have hr := Group.ready_ok (g := s.focus) (vs := []) (ss := [s.focus.regIndex d]) (ps := [p]) (by simp)
    (by simp [hd.free]) (by simp [hp])
  simp only [Group.sNum_eq hd, Except.ok_bind, hr]

theorem State.setsS_vmovsSv {s : State} {gd : Guard} {d a b : Reg} (h : s.runs gd) (hd : s.focus.hasS d)
    (ha : s.focus.source a .any) (hb : s.focus.hasS b) :
    s.setsS (.vmovsSv gd d a b) d ((s.focus.vOf a ((s.focus.sOf b).toNat % 32)).setWidth 64) := by
  refine State.setsS_issue (exec_vmovsSv ..) h ?_
  have hc := Group.check_ok (ds := []) (ss := [s.focus.regIndex d, s.focus.regIndex b]) (ps := []) ha.clean (by simp)
    (by simp [hd.free, hb.free]) (by simp)
  have hl : ((s.focus.sOf b).extractLsb' 0 5).toNat = (s.focus.sOf b).toNat % 32 := BitVec.extractLsb'_toNat 0 5 _
  simp only [Group.sNum_eq hd, Group.vNum_eq ha.1, Group.sNum_eq hb, Except.ok_bind, hc, ← hl]
  rfl

theorem State.setsP_vmovsPs {s : State} {gd : Guard} {p : BitVec 3} {a : Reg} (h : s.runs gd) (ha : s.focus.hasS a)
    (hp : s.focus.awaitsP p = false) : s.setsP (.vmovsPs gd p a) gd p fun l => (s.focus.sOf a).getLsbD l := by
  rw [State.setsP, exec_vmovsPs, maskOf_getLsbD]
  refine State.issue_gives h ?_ (by simp [Group.sameWho])
  have hr := Group.ready_ok (g := s.focus) (vs := []) (ss := [s.focus.regIndex a]) (ps := [p]) (by simp)
    (by simp [ha.free]) (by simp [hp])
  simp only [Group.sNum_eq ha, Except.ok_bind, hr, Group.sOf]

theorem State.setsV_vmovsVs {s : State} {gd : Guard} {d a : Reg} (h : s.runs gd) (hd : s.focus.hasV d)
    (ha : s.focus.hasS a) (t : Tag) (hi : Bool) : s.setsV (.vmovsVs gd t hi d a) gd d t fun _ =>
      if hi then (s.focus.sOf a).extractLsb' 32 32 else (s.focus.sOf a).extractLsb' 0 32 := by
  rw [State.setsV, exec_vmovsVs]
  refine State.issue_gives h ?_ (by simp [Group.sameWho])
  have hr := Group.ready_ok (g := s.focus) (vs := [s.focus.regIndex d]) (ss := [s.focus.regIndex a]) (ps := [])
    (by simp [hd.free]) (by simp [ha.free]) (by simp)
  simp only [Group.vNum_eq hd, Group.sNum_eq ha, Except.ok_bind, hr, Group.sOf]

@[simp] theorem Group.setPair_sameWho (g : Group) (e : Mask) (n : Nat) (lo hi : Tag) (f : Nat → Word64) :
    (g.setPair e n lo hi f).sameWho g := by simp [Group.sameWho, Group.setPair]

theorem State.setsPair_vmovsDs {s : State} {gd : Guard} {d a : Reg} (h : s.runs gd) (hd : s.focus.hasV d 2)
    (ha : s.focus.hasS a) : s.setsPair (.vmovsDs gd d a) gd d .dLo .dHi fun _ => s.focus.sOf a := by
  rw [State.setsPair, exec_vmovsDs]
  refine State.issue_gives h ?_ (Group.setPair_sameWho ..)
  have hr := Group.ready_ok (g := s.focus) (vs := [s.focus.regIndex d, s.focus.regIndex d + 1])
    (ss := [s.focus.regIndex a]) (ps := []) (by simp [hd.free, hd.free1]) (by simp [ha.free]) (by simp)
  simp only [Group.vNum_eq hd, Group.sNum_eq ha, Except.ok_bind, hr, Group.sOf]

/-! ## Vector shapes -/

theorem State.setsV_vec1 {s : State} {i : Instr} {gd : Guard} {d a : Reg} {ea : Expect} {t : Tag} {f : Word32 → Word32}
    {r : Nat → Word32} (hi : exec i s = s.vec1 gd d a ea t f) (h : s.runs gd) (hd : s.focus.hasV d)
    (ha : s.focus.source a ea) (hr : ∀ l, f (s.focus.vOf a l) = r l) : s.setsV i gd d t r := by
  rw [State.setsV, hi, State.vec1_eq h hd ha, funext hr]

theorem State.setsV_vec2 {s : State} {i : Instr} {gd : Guard} {d a : Reg} {b : BSrc} {ea eb : Expect} {t : Tag}
    {f : Word32 → Word32 → Word32} {r : Nat → Word32} (hi : exec i s = s.vec2 gd d a b ea eb t f) (h : s.runs gd)
    (hd : s.focus.hasV d) (ha : s.focus.source a ea) (hb : s.focus.bSource b eb)
    (hr : ∀ l, f (s.focus.vOf a l) (s.focus.bOf b l) = r l) : s.setsV i gd d t r := by
  rw [State.setsV, hi, State.vec2_eq h hd ha hb, funext hr]

theorem State.setsV_vec3 {s : State} {i : Instr} {gd : Guard} {d a : Reg} {b : BSrc} {c : Reg} {ea eb ec : Expect}
    {t : Tag} {f : Word32 → Word32 → Word32 → Word32} {r : Nat → Word32}
    (hi : exec i s = s.vec3 gd d a b c ea eb ec t f) (h : s.runs gd) (hd : s.focus.hasV d) (ha : s.focus.source a ea)
    (hb : s.focus.bSource b eb) (hc : s.focus.source c ec)
    (hr : ∀ l, f (s.focus.vOf a l) (s.focus.bOf b l) (s.focus.vOf c l) = r l) : s.setsV i gd d t r := by
  rw [State.setsV, hi, State.vec3_eq h hd ha hb hc, funext hr]

/-! ## Comparison, selection and moves of row 2 (R95, R96) -/

theorem Cond.holds_ne (a b : Int) : Cond.holds .ne a b = decide (a ≠ b) := by simp [Cond.holds, bne, beq_eq_decide]

theorem State.setsP_vcmp {s : State} {gd : Guard} {cc : Cond} {n : Bool} {p : BitVec 3} {a : Reg} {b : BSrc}
    {r : Nat → Bool} (h : s.runs gd) (ha : s.focus.source a (.ofN n)) (hb : s.focus.bSource b (.ofN n))
    (hp : s.focus.awaitsP p = false)
    (hr : ∀ l, Cond.holds cc (readInt n (s.focus.vOf a l)) (readInt n (s.focus.bOf b l)) = r l) :
    s.setsP (.vcmp gd cc n p a b) gd p r := by
  rw [State.setsP, exec_vcmp, execVcmp, State.vecCmp_eq h hp ha hb, funext hr]

theorem State.setsV_vli {s : State} {gd : Guard} {d : Reg} (h : s.runs gd) (hd : s.focus.hasV d) (t : Tag)
    (imm : Word32) : s.setsV (.vli gd t d imm) gd d t fun _ => imm := by
  rw [State.setsV, exec_vli]
  refine State.issue_gives h ?_ (by simp [Group.sameWho])
  have hr := Group.ready_ok (g := s.focus) (vs := [s.focus.regIndex d]) (ss := []) (ps := []) (by simp [hd.free])
    (by simp) (by simp)
  simp only [Group.vNum_eq hd, Except.ok_bind, hr]

theorem State.setsV_vmov {s : State} {gd : Guard} {d a : Reg} (h : s.runs gd) (hd : s.focus.hasV d)
    (ha : s.focus.source a .any) :
    s.setsV (.vmov gd d a) gd d (s.focus.tag (s.focus.regIndex a)) fun l => s.focus.vOf a l := by
  rw [State.setsV, exec_vmov]
  refine State.issue_gives h ?_ (by simp [Group.sameWho])
  have hc := Group.check_ok (ds := [s.focus.regIndex d]) (ss := []) (ps := []) ha.clean (by simp [hd.free]) (by simp)
    (by simp)
  simp only [Group.vNum_eq hd, Group.vNum_eq ha.1, Except.ok_bind, hc]
  rfl

/-- The tag that VSEL gives its result: A's where B has the same or comes from an S register (R96). -/
def Group.selTag (g : Group) (a : Reg) (b : BSrc) : Tag :=
  match b with
  | .s _ => g.tag (g.regIndex a)
  | .v r _ => if g.tag (g.regIndex r) = g.tag (g.regIndex a) then g.tag (g.regIndex a) else .raw

theorem State.setsV_vsel {s : State} {gd : Guard} {d a : Reg} {b : BSrc} {p : BitVec 3} (h : s.runs gd)
    (hd : s.focus.hasV d) (ha : s.focus.source a .any) (hb : s.focus.bSource b .any) (hp : s.focus.awaitsP p = false) :
    s.setsV (.vsel gd d a b p) gd d (s.focus.selTag a b)
      fun l => if (s.focus.predMask p).getLsbD l then s.focus.vOf a l else s.focus.bOf b l := by
  rw [State.setsV, exec_vsel]
  refine State.issue_gives h ?_ (by simp [Group.sameWho])
  have hc := Group.check_ok (g := s.focus) (srcs := (s.focus.regIndex a, .any) :: (s.focus.bVal b).srcs .any)
    (ds := [s.focus.regIndex d]) (ss := (s.focus.bVal b).ss) (ps := [p])
    (by simpa using ⟨by simpa using ha.clean, hb.clean⟩) (by simp [hd.free]) hb.ss (by simp [hp])
  simp only [Group.vNum_eq hd, Group.vNum_eq ha.1, Group.bNum_eq hb, Except.ok_bind, hc, Group.bLane_bVal]
  cases b with
  | s r => rfl
  | v r ru => simp only [Group.bVal, Group.selTag, Group.vOf, eq_comm (a := s.focus.tag (s.focus.regIndex r))]

/-! ## VMADW (R94) -/

/-- The pair C of VMADW raises nothing: its low word has an integer tag or RAW, its high word the tag of the signedness or
RAW. -/
theorem Group.clean_integerPair {g : Group} {c : Reg} {n : Bool} (hc : g.hasV c 2)
    (hlo : g.tag (g.regIndex c) ∈ [.i32, .n32, .raw]) (hhi : g.tag (g.regIndex c + 1) ∈ [tagOfN n, .raw]) :
    g.clean [(g.regIndex c, .int), (g.regIndex c + 1, .ofN n)] := by
  have low : ∀ t ∈ [Tag.i32, .n32, .raw], Expect.int.accepts t = true ∧ isF6 t = false := by decide
  have high : ∀ n, ∀ t ∈ [tagOfN n, .raw], (Expect.ofN n).accepts t = true ∧ isF6 t = false := by decide
  obtain ⟨hloTag, hloHw⟩ := low _ hlo
  obtain ⟨hhiTag, hhiHw⟩ := high n _ hhi
  simp [hc.free, hc.free1, hloTag, hloHw, hhiTag, hhiHw]

theorem State.setsPair_vmadw {s : State} {gd : Guard} {m : IntMod} {d a c : Reg} {b : BSrc} (h : s.runs gd)
    (hd : s.focus.hasV d 2) (ha : s.focus.source a (.ofN m.n)) (hb : s.focus.bSource b (.ofN m.n))
    (hc : s.focus.hasV c 2) (hlo : s.focus.tag (s.focus.regIndex c) ∈ [.i32, .n32, .raw])
    (hhi : s.focus.tag (s.focus.regIndex c + 1) ∈ [tagOfN m.n, .raw]) :
    s.setsPair (.vmadw gd m d a b c) gd d .n32 (tagOfN m.n) fun l => narrow m.sat m.n 64
      (readInt m.n (s.focus.vOf a l) * readInt m.n (s.focus.bOf b l) + readInt m.n (s.focus.pairOf c l)) := by
  rw [State.setsPair, exec_vmadw]
  refine State.issue_gives h ?_ (Group.setPair_sameWho ..)
  have hk := Group.check_ok (g := s.focus)
    (srcs := (s.focus.regIndex a, .ofN m.n) :: (s.focus.bVal b).srcs (.ofN m.n) ++
      [(s.focus.regIndex c, .int), (s.focus.regIndex c + 1, .ofN m.n)])
    (ds := [s.focus.regIndex d, s.focus.regIndex d + 1]) (ss := (s.focus.bVal b).ss) (ps := [])
    (by simpa using ⟨by simpa using ha.clean, hb.clean, by simpa using Group.clean_integerPair hc hlo hhi⟩)
    (by simp [hd.free, hd.free1]) hb.ss (by simp)
  simp only [Group.vNum_eq hd, Group.vNum_eq ha.1, Group.vNum_eq hc, Group.bNum_eq hb, Except.ok_bind, hk,
    Group.bLane_bVal]
  rfl

end Sys2Proof.Machine
end

section
/-! The scalar and vector integer instructions of spec 03 that are no scalar arithmetic: moves, counts, fields, comparison and
selection of row 0, VMOVS, and rows 2 and 3. -/

namespace Sys2Proof.Machine

/-! ## Row 0 and VMOVS -/

/-- Settles O2: each instruction has one of the scalar shapes or is a VMOVS, with the counts and fields of R81 and R85. -/
theorem scalarMovesCountsFields : Obligations.ScalarMovesCountsFields := by
  unfold Obligations.ScalarMovesCountsFields
  refine ⟨fun s gd d h hd => ⟨fun imm => ⟨State.setsS_sli h hd imm, State.setsS_slih h hd imm⟩, fun a ha =>
    ⟨?smov, ?sclz, ?spop, fun b hb => ⟨?sbfe, ?sbfeSigned, fun c hc => ?sbfi⟩⟩⟩, fun s gd h => ?vmovs⟩
  case smov => exact State.setsS_scalar1 (exec_smov ..) h hd ha rfl
  case sclz => exact State.setsS_scalar1 (exec_sclz ..) h hd ha (ofNat_clz _)
  case spop => exact State.setsS_scalar1 (exec_spop ..) h hd ha (by rw [popcount_eq])
  case sbfe => exact State.setsS_scalar2 (exec_sbfe ..) h hd ha hb (by rw [fieldOf_eq, fieldExtract_unsigned])
  case sbfeSigned => exact State.setsS_scalar2 (exec_sbfe ..) h hd ha hb (by rw [fieldOf_eq, fieldExtract_signed])
  case sbfi =>
    refine ⟨_, State.setsS_scalar3 (exec_sbfi ..) h hd ha hb hc rfl, fun i hi => ?_⟩
    rw [fieldOf_eq]
    exact getLsbD_fieldInsert _ _ _ _ hi
  case vmovs =>
    exact ⟨fun d a ha => ⟨fun hd t => ⟨State.setsV_vmovsVs h hd ha t false, State.setsV_vmovsVs h hd ha t true⟩,
        fun hd => State.setsPair_vmovsDs h hd ha⟩,
      fun p a => State.setsP_vmovsPs h, fun d p => State.setsS_vmovsSp h, fun d a b => State.setsS_vmovsSv h⟩

/-- Settles O3: the flag word as a sum, and SSEL's test as one on the low five bits of S[C], or on all of it. -/
theorem scalarCompareSelect : Obligations.ScalarCompareSelect := by
  unfold Obligations.ScalarCompareSelect
  refine fun s gd d a h hd ha => ⟨fun imm => ?scmpImm, fun b hb => ⟨?scmp, fun c hc => ⟨fun mask hm => ?byMask, ?byWord⟩⟩⟩
  case scmpImm => exact State.setsS_scalarImm (exec_scmpImm ..) h hd ha (scmpFlags_eq ..)
  case scmp => exact State.setsS_scalar2 (exec_scmp ..) h hd ha hb (scmpFlags_eq ..)
  case byMask =>
    refine State.setsS_scalar3 (exec_ssel ..) h hd ha hb hc ?_
    simp only [selects_nonzero hm, ne_eq, ite_not]
  case byWord =>
    refine State.setsS_scalar3 (exec_ssel ..) h hd ha hb hc ?_
    simp only [selects_zero, ne_eq, ite_not]

/-! ## Rows 2 and 3 -/

/-- Settles O4: each instruction has one of the vector shapes or a lemma of its own, with the arithmetic of R92 and the
shifts, fields and permutation of R97 to R99. -/
theorem vectorIntegers : Obligations.VectorIntegers := by
  unfold Obligations.VectorIntegers
  refine ⟨fun s gd sat n d a b h ha hb => ⟨fun hd => ?arithmetic, fun c hd hc hlo hhi => ?vmadw⟩,
    fun s gd a h => ⟨fun n p b ha hb hp => ?vcmp, fun d hd => ⟨State.setsV_vli h hd, fun ha =>
      ⟨State.setsV_vmov h hd ha, fun b p => State.setsV_vsel h hd ha⟩⟩⟩,
    fun s gd d a h hd ha => ⟨?vnot, ?vclz, ?vpop, ?vbrev, fun lenM1 pos => ?vbfe, fun b hb => ?logic,
      fun b hb => ?shifts, fun b hb => ⟨fun lenM1 pos => ?vbfi, fun c hc => ?vpermb⟩⟩⟩
  case arithmetic =>
    refine ⟨?vadd, ?vsub, ?vmul, ?vmulh, ?vmin, ?vmax, ?vabs, fun c hc => ?vmad⟩
    case vadd => exact State.setsV_vec2 (exec_vadd ..) h hd ha hb fun _ => narrow_eq ..
    case vsub => exact State.setsV_vec2 (exec_vsub ..) h hd ha hb fun _ => narrow_eq ..
    case vmul => exact State.setsV_vec2 (exec_vmul ..) h hd ha hb fun _ => narrow_eq ..
    case vmulh => exact State.setsV_vec2 (exec_vmulh ..) h hd ha hb fun _ => rfl
    case vmin => exact State.setsV_vec2 (exec_vmin ..) h hd ha hb fun _ => rfl
    case vmax => exact State.setsV_vec2 (exec_vmax ..) h hd ha hb fun _ => rfl
    case vabs =>
      rintro rfl
      refine State.setsV_vec1 (exec_vabs ..) h hd ha fun l => ?_
      rw [narrow_eq, Int.natCast_natAbs]
      rfl
    case vmad => exact State.setsV_vec3 (exec_vmad ..) h hd ha hb hc fun _ => narrow_eq ..
  case vmadw =>
    have hw := State.setsPair_vmadw (m := ⟨sat, n⟩) h hd ha hb hc hlo hhi
    simp only [narrow_eq] at hw
    exact hw
  case vcmp =>
    have complete {cc : Cond} {r : Nat → Bool} := State.setsP_vcmp (cc := cc) (r := r) h ha hb hp
    exact ⟨complete fun _ => rfl, complete fun _ => Cond.holds_ne .., complete fun _ => rfl, complete fun _ => rfl,
      complete fun _ => rfl, complete fun _ => rfl⟩
  case vnot => exact State.setsV_vec1 (exec_vnot ..) h hd ha fun _ => rfl
  case vclz => exact State.setsV_vec1 (exec_vclz ..) h hd ha fun _ => ofNat_clz _
  case vpop => exact State.setsV_vec1 (exec_vpop ..) h hd ha fun _ => by rw [popcount_eq]
  case vbrev => exact State.setsV_vec1 (exec_vbrev ..) h hd ha fun _ => rfl
  case vbfe =>
    exact ⟨State.setsV_vec1 (exec_vbfe ..) h hd ha fun _ => fieldExtract_unsigned ..,
      State.setsV_vec1 (exec_vbfe ..) h hd ha fun _ => fieldExtract_signed ..⟩
  case logic =>
    exact ⟨State.setsV_vec2 (exec_vand ..) h hd ha hb fun _ => rfl, State.setsV_vec2 (exec_vor ..) h hd ha hb fun _ => rfl,
      State.setsV_vec2 (exec_vxor ..) h hd ha hb fun _ => rfl⟩
  case shifts =>
    exact ⟨State.setsV_vec2 (exec_vshl ..) h hd ha hb fun _ => shl_eq .., State.setsV_vec2 (exec_vshr ..) h hd ha hb
      fun _ => shr_eq .., State.setsV_vec2 (exec_vrot ..) h hd ha hb fun _ => BitVec.rotateLeft_mod_eq_rotateLeft,
      fun ha => State.setsV_vec2 (exec_vsra ..) h hd ha hb fun _ => sra_eq ..⟩
  case vbfi =>
    exact ⟨_, State.setsV_vec2 (exec_vbfi ..) h hd ha hb fun _ => rfl, fun l i hi => getLsbD_fieldInsert _ _ _ _ hi⟩
  case vpermb =>
    refine ⟨_, State.setsV_vec3 (exec_vpermb ..) h hd ha hb hc fun _ => rfl, fun l k hk => ?_⟩
    rw [extractLsb'_permBytes _ _ _ hk, permByte_eq, toNat_nibble]
    rfl

end Sys2Proof.Machine
end

section
/-! Row 6 (R176 to R183): member sets and the masks of VOTE and MATCH, the exact sum of REDX and SCANX, and what each
cross-lane instruction sets when its operands raise nothing. -/

namespace Sys2Proof.Machine

/-! ## Masks over a member set -/

theorem maskOf_const (b : Bool) : maskOf (fun _ => b) = allLanes b := by cases b <;> rfl

theorem and_maskOf (m : Mask) (f : Nat → Bool) : m &&& maskOf f = maskOf fun k => m.getLsbD k && f k :=
  BitVec.eq_of_getLsbD_eq fun l hl => by rw [BitVec.getLsbD_and, getLsbD_maskOf _ hl, getLsbD_maskOf _ hl]

theorem countLanes_eq (m : Mask) :
    countLanes m = BitVec.ofNat 32 ((List.range 32).countP fun l => m.getLsbD l) := by
  rw [countLanes, lanesOf, List.countP_eq_length_filter]

theorem filter_lanesOf (m : Mask) (p : Nat → Bool) :
    (lanesOf m).filter p = (List.range 32).filter fun l => m.getLsbD l && p l := by
  rw [lanesOf, List.filter_filter]
  simp only [Bool.and_comm]

/-! ## The register of .MM (R177) -/

theorem Group.mmNum_eq {g : Group} {mm : Option Reg} (h : g.hasMM mm) : g.mmNum mm = .ok (mm.map g.regIndex) := by
  cases mm with
  | none => rfl
  | some r => simp only [Group.mmNum, Group.sNum_eq (show g.hasS r from h), Except.ok_bind, Option.map_some]

theorem Group.hasMM.ss {g : Group} {mm : Option Reg} (h : g.hasMM mm) :
    ∀ n ∈ (mm.map g.regIndex).toList, g.awaitsS n = false := by
  cases mm with
  | none => simp
  | some r => simpa using Group.hasS.free (k := 1) h

@[simp] theorem Group.members_map_regIndex (g : Group) (e : Mask) (mm : Option Reg) :
    g.members e (mm.map g.regIndex) = g.membersOf e mm := by
  cases mm <;> rfl

/-! ## SHFL and BCAST -/

/-- An instruction whose checks raise nothing and which then writes V[D]. -/
theorem State.setsV_issue {s : State} {i : Instr} {gd : Guard} {d : Reg} {t : Tag} {f : Mask → Group → Res Group}
    {x : Nat → Word32} (hi : exec i s = s.issue gd f) (h : s.runs gd)
    (hf : f (s.focus.eff gd) s.focus = .ok (s.focus.setV (s.focus.eff gd) (s.focus.regIndex d) t x)) :
    s.setsV i gd d t x :=
  hi.trans (State.issue_gives h hf (by simp [Group.sameWho]))

/-- An instruction whose checks raise nothing and which then writes P[D]. -/
theorem State.setsP_issue {s : State} {i : Instr} {gd : Guard} {d : BitVec 3} {f : Mask → Group → Res Group}
    {x : Nat → Bool} (hi : exec i s = s.issue gd f) (h : s.runs gd)
    (hf : f (s.focus.eff gd) s.focus = .ok (s.focus.setP (s.focus.eff gd) d (maskOf x))) : s.setsP i gd d x :=
  hi.trans (State.issue_gives h hf (by simp [Group.sameWho]))

theorem State.setsV_shfl {s : State} {gd : Guard} {d a : Reg} {b : BSrc} (h : s.runs gd) (hd : s.focus.hasV d)
    (ha : s.focus.source a .any) (hb : s.focus.bSource b .int) (seg : Seg) (m : ShflMode) :
    s.setsV (.shfl gd seg m d a b) gd d (s.focus.tag (s.focus.regIndex a))
      fun l => s.focus.vOf a (shflSource (segWidth seg) m l (s.focus.bOf b l).toNat) := by
  refine State.setsV_issue (exec_shfl ..) h ?_
  have hc := Group.check_ok (g := s.focus) (srcs := (s.focus.regIndex a, .any) :: (s.focus.bVal b).srcs .int)
    (ds := [s.focus.regIndex d]) (ss := (s.focus.bVal b).ss) (ps := [])
    (by simpa using ⟨by simpa using ha.clean, hb.clean⟩) (by simp [hd.free]) hb.ss (by simp)
  simp only [Group.vNum_eq hd, Group.vNum_eq ha.1, Group.bNum_eq hb, Except.ok_bind, hc, Group.bLane_bVal, Group.vOf]

theorem State.setsV_bcastLane {s : State} {gd : Guard} {d a : Reg} (h : s.runs gd) (hd : s.focus.hasV d)
    (ha : s.focus.source a .any) (k : BitVec 5) :
    s.setsV (.bcast gd (.lane k) d a) gd d (s.focus.tag (s.focus.regIndex a)) fun _ => s.focus.vOf a k.toNat := by
  refine State.setsV_issue (exec_bcast ..) h ?_
  have hc := Group.check_ok (ds := [s.focus.regIndex d]) (ss := []) (ps := []) ha.clean (by simp [hd.free]) (by simp)
    (by simp)
  simp only [Group.vNum_eq hd, Group.vNum_eq ha.1, Except.ok_bind, hc, Group.vOf]

theorem State.setsV_bcastS {s : State} {gd : Guard} {d a r : Reg} (h : s.runs gd) (hd : s.focus.hasV d)
    (ha : s.focus.source a .any) (hr : s.focus.hasS r) :
    s.setsV (.bcast gd (.s r) d a) gd d (s.focus.tag (s.focus.regIndex a))
      fun _ => s.focus.vOf a ((s.focus.sOf r).toNat % 32) := by
  refine State.setsV_issue (exec_bcast ..) h ?_
  have hc := Group.check_ok (ds := [s.focus.regIndex d]) (ss := [s.focus.regIndex r]) (ps := []) ha.clean
    (by simp [hd.free]) (by simp [hr.free]) (by simp)
  have hl : ((s.focus.sOf r).extractLsb' 0 5).toNat = (s.focus.sOf r).toNat % 32 := BitVec.extractLsb'_toNat 0 5 _
  simp only [Group.vNum_eq hd, Group.vNum_eq ha.1, Group.sNum_eq hr, Except.ok_bind, hc, ← hl]
  rfl

/-! ## VOTE (R181) -/

section Vote

variable {s : State} {gd : Guard} {mm : Option Reg} {q : BitVec 3}

theorem State.setsP_voteAny {p : BitVec 3} (h : s.runs gd) (hm : s.focus.hasMM mm) (hq : s.focus.awaitsP q = false)
    (hp : s.focus.awaitsP p = false) : s.setsP (.vote gd (.any p) q mm) gd p fun _ =>
      decide (s.focus.membersOf (s.focus.eff gd) mm &&& s.focus.predMask q ≠ 0) := by
  refine State.setsP_issue (exec_vote ..) h ?_
  have hc := Group.check_ok (g := s.focus) (srcs := []) (ds := []) (ps := [q, p]) (by simp) (by simp) hm.ss
    (by simp [hq, hp])
  simp only [Group.mmNum_eq hm, Except.ok_bind, hc, Group.members_map_regIndex, maskOf_const, bne, beq_eq_decide, ne_eq,
    decide_not]

theorem State.setsP_voteAll {p : BitVec 3} (h : s.runs gd) (hm : s.focus.hasMM mm) (hq : s.focus.awaitsP q = false)
    (hp : s.focus.awaitsP p = false) : s.setsP (.vote gd (.all p) q mm) gd p fun _ =>
      s.focus.membersOf (s.focus.eff gd) mm &&& s.focus.predMask q == s.focus.membersOf (s.focus.eff gd) mm := by
  refine State.setsP_issue (exec_vote ..) h ?_
  have hc := Group.check_ok (g := s.focus) (srcs := []) (ds := []) (ps := [q, p]) (by simp) (by simp) hm.ss
    (by simp [hq, hp])
  simp only [Group.mmNum_eq hm, Except.ok_bind, hc, Group.members_map_regIndex, maskOf_const]

theorem State.setsV_voteBallot {d : Reg} (h : s.runs gd) (hm : s.focus.hasMM mm) (hq : s.focus.awaitsP q = false)
    (hd : s.focus.hasV d) : s.setsV (.vote gd (.ballot d) q mm) gd d .n32 fun _ =>
      s.focus.membersOf (s.focus.eff gd) mm &&& s.focus.predMask q := by
  refine State.setsV_issue (exec_vote ..) h ?_
  have hc := Group.check_ok (g := s.focus) (srcs := []) (ds := [s.focus.regIndex d]) (ps := [q]) (by simp)
    (by simp [hd.free]) hm.ss (by simp [hq])
  simp only [Group.mmNum_eq hm, Group.vNum_eq hd, Except.ok_bind, hc, Group.members_map_regIndex]

theorem State.setsV_voteCount {d : Reg} (h : s.runs gd) (hm : s.focus.hasMM mm) (hq : s.focus.awaitsP q = false)
    (hd : s.focus.hasV d) : s.setsV (.vote gd (.count d) q mm) gd d .n32 fun _ => BitVec.ofNat 32
      ((List.range 32).countP fun l => (s.focus.membersOf (s.focus.eff gd) mm &&& s.focus.predMask q).getLsbD l) := by
  refine State.setsV_issue (exec_vote ..) h ?_
  have hc := Group.check_ok (g := s.focus) (srcs := []) (ds := [s.focus.regIndex d]) (ps := [q]) (by simp)
    (by simp [hd.free]) hm.ss (by simp [hq])
  simp only [Group.mmNum_eq hm, Group.vNum_eq hd, Except.ok_bind, hc, Group.members_map_regIndex, countLanes_eq]

end Vote

/-! ## MATCH (R183) -/

/-- The members whose lane of V[A] equals that of lane l. -/
def Group.sameAs (g : Group) (m : Mask) (a : Reg) (l : Nat) : Mask :=
  maskOf fun k => m.getLsbD k && g.vOf a k == g.vOf a l

theorem State.setsV_matchAny {s : State} {gd : Guard} {d a : Reg} {mm : Option Reg} (h : s.runs gd)
    (hm : s.focus.hasMM mm) (ha : s.focus.source a .any) (hd : s.focus.hasV d) :
    s.setsV (.matchx gd (.any d) a mm) gd d .n32 (s.focus.sameAs (s.focus.membersOf (s.focus.eff gd) mm) a) := by
  refine State.setsV_issue (exec_matchx ..) h ?_
  have hc := Group.check_ok (ds := [s.focus.regIndex d]) (ps := []) ha.clean (by simp [hd.free]) hm.ss (by simp)
  simp only [Group.vNum_eq ha.1, Group.mmNum_eq hm, Group.vNum_eq hd, Except.ok_bind, hc, Group.members_map_regIndex,
    and_maskOf]
  rfl

theorem State.setsP_matchAll {s : State} {gd : Guard} {p : BitVec 3} {a : Reg} {mm : Option Reg} (h : s.runs gd)
    (hm : s.focus.hasMM mm) (ha : s.focus.source a .any) (hp : s.focus.awaitsP p = false) :
    s.setsP (.matchx gd (.all p) a mm) gd p fun l =>
      s.focus.sameAs (s.focus.membersOf (s.focus.eff gd) mm) a l == s.focus.membersOf (s.focus.eff gd) mm := by
  refine State.setsP_issue (exec_matchx ..) h ?_
  have hc := Group.check_ok (ds := []) (ps := [p]) ha.clean (by simp) hm.ss (by simp [hp])
  simp only [Group.vNum_eq ha.1, Group.mmNum_eq hm, Except.ok_bind, hc, Group.members_map_regIndex, and_maskOf]
  rfl

/-! ## REDX and SCANX (R182) -/

@[simp] theorem Group.setRed_sameWho (g : Group) (e : Mask) (k : RedKind) (d : Nat) (f : Nat → FRes) :
    (g.setRed e k d f).sameWho g := by
  cases k with
  | intAdd n _ | intOp n _ => simp [Group.setRed, Group.sameWho, Group.raise]
  | fAdd dbl _ | fMin dbl | fMax dbl => cases dbl <;> simp [Group.setRed, Group.sameWho, Group.raise, Group.setPair]

/-- The operands of a reduction raise nothing. -/
def Group.redOperands (g : Group) (k : RedKind) (d a : Reg) : Prop :=
  if redDouble k then g.hasV d 2 ∧ g.pairSource a
  else g.hasV d ∧ g.hasV a ∧ ∀ p ∈ redSources k (g.regIndex a), p.2.accepts (g.tag p.1) = true

theorem redSources_double {k : RedKind} (h : redDouble k = true) (a : Nat) : redSources k a = pairSrc a := by
  cases k with
  | intAdd | intOp => cases h
  | fAdd dbl _ | fMin dbl | fMax dbl => exact if_pos h

theorem isF6_of_accepts_ofN {n : Bool} {t : Tag} (h : (Expect.ofN n).accepts t = true) : isF6 t = false := by
  have ht : t = tagOfN n ∨ t = .raw := by cases n <;> simpa [Expect.ofN, Expect.accepts, tagOfN] using h
  obtain rfl | rfl := ht
  · cases n <;> rfl
  · rfl

theorem isF6_of_accepts_f32 {t : Tag} (h : Expect.f32.accepts t = true) : isF6 t = false := by
  obtain rfl : t = .f32 := by simpa [Expect.accepts] using h
  rfl

/-- A reduction that is no FP64 has one source, which takes no FP6 tag. -/
theorem redSources_single {k : RedKind} (h : redDouble k = false) (a : Nat) :
    ∃ ex, redSources k a = [(a, ex)] ∧ ∀ t, ex.accepts t = true → isF6 t = false := by
  cases k with
  | intAdd n _ | intOp n _ => exact ⟨_, rfl, fun _ => isF6_of_accepts_ofN⟩
  | fAdd dbl _ | fMin dbl | fMax dbl =>
    obtain rfl : dbl = false := h
    exact ⟨_, rfl, fun _ => isF6_of_accepts_f32⟩

/-- The combination of the values that V[A] holds in the members that `p` takes. -/
def Group.redAmong (g : Group) (k : RedKind) (m : Mask) (a : Reg) (p : Nat → Bool) : FRes :=
  redValue k (((List.range 32).filter fun l => m.getLsbD l && p l).map (g.redLane k (g.regIndex a)))

theorem State.reduce_eq {s : State} {gd : Guard} {k : RedKind} {d a : Reg} {mm : Option Reg} (h : s.runs gd)
    (hm : s.focus.hasMM mm) (ho : s.focus.redOperands k d a) (pick : Nat → Nat → Bool) :
    s.reduce gd k d a mm pick = s.gives (s.focus.setRed (s.focus.eff gd) k (s.focus.regIndex d) fun l =>
      s.focus.redAmong k (s.focus.membersOf (s.focus.eff gd) mm) a (pick l)) := by
  refine State.issue_gives h ?_ (Group.setRed_sameWho ..)
  cases hk : redDouble k with
  | true =>
    simp only [Group.redOperands, hk, if_true] at ho
    obtain ⟨hd, ha⟩ := ho
    have hc := Group.check_ok (ds := [s.focus.regIndex d, s.focus.regIndex d + 1]) (ps := []) ha.clean
      (by simp [hd.free, hd.free1]) hm.ss (by simp)
    simp only [if_true, Group.vNum_eq hd, Group.vNum_eq ha.1, Group.mmNum_eq hm, Except.ok_bind, redSources_double hk,
      hc, Group.members_map_regIndex, filter_lanesOf]
    rfl
  | false =>
    simp only [Group.redOperands, hk, Bool.false_eq_true, if_false] at ho
    obtain ⟨hd, ha, ht⟩ := ho
    obtain ⟨ex, hsrc, h6⟩ := redSources_single hk (s.focus.regIndex a)
    have hex : ex.accepts (s.focus.tag (s.focus.regIndex a)) = true := ht (s.focus.regIndex a, ex) (by simp [hsrc])
    have has : s.focus.source a ex := ⟨ha, hex, .inl (h6 _ hex)⟩
    have hc := Group.check_ok (ds := [s.focus.regIndex d]) (ps := []) has.clean (by simp [hd.free]) hm.ss (by simp)
    simp only [Bool.false_eq_true, if_false, Group.vNum_eq hd, Group.vNum_eq ha, Group.mmNum_eq hm, Except.ok_bind, hsrc,
      hc, Group.members_map_regIndex, filter_lanesOf]
    rfl

/-! ## Integer sums (R182) -/

theorem redValue_intAdd (n sat : Bool) (xs : List Word64) :
    redValue (.intAdd n sat) xs =
      ⟨(narrow sat n 32 ((xs.map fun x => x.extractLsb' 0 32).map (readInt n)).sum).toNat, 0⟩ := by
  rw [List.sum_eq_foldl, List.foldl_map]
  rfl

theorem toNat_narrow_unsigned (r : Nat) : (narrow true true 32 (r : Int)).toNat = min r (2 ^ 32 - 1) := by
  rw [narrow_eq, if_pos rfl, if_pos rfl, satUnsigned, BitVec.toNat_ofInt]
  omega

/-! ## The obligation -/

/-- Settles O12: what each cross-lane instruction sets, SHFL's four source lanes being the branches of `shflSource`; REDX and
SCANX as one reduction with three choices of members; and the integer sum as one of exact numbers. -/
theorem crossLane : Obligations.CrossLane := by
  unfold Obligations.CrossLane
  refine ⟨fun s gd a h => ⟨fun d hd ha => ⟨fun seg b hb => ?shfl, State.setsV_bcastLane h hd ha,
      fun r => State.setsV_bcastS h hd ha⟩, fun mm hm => ⟨fun q hq => ?vote, fun ha => ?matchx⟩⟩,
    fun s gd k d a mm h hm ho => ?reductions, fun xs => ?sums, ?identities⟩
  case shfl =>
    have complete := State.setsV_shfl h hd ha hb seg
    exact ⟨complete .idx, complete .up, complete .down, complete .xor⟩
  case vote =>
    exact ⟨fun p hp => ⟨State.setsP_voteAny h hm hq hp, State.setsP_voteAll h hm hq hp⟩,
      fun d hd => ⟨State.setsV_voteBallot h hm hq hd, State.setsV_voteCount h hm hq hd⟩⟩
  case matchx =>
    exact ⟨fun d => State.setsV_matchAny h hm ha, fun p => State.setsP_matchAll h hm ha⟩
  case reductions =>
    have complete := State.reduce_eq h hm ho
    exact ⟨complete fun _ _ => true, complete fun l j => decide (j ≤ l), complete fun l j => decide (j < l)⟩
  case sums =>
    refine ⟨?wraps, ?saturates, ?unsigned⟩
    case wraps => rw [redValue_intAdd, narrow_eq]; rfl
    case saturates => rw [redValue_intAdd, narrow_eq]; rfl
    case unsigned =>
      rw [redValue_intAdd, ← toNat_narrow_unsigned, Nat.cast_list_sum, List.map_map (f := BitVec.toNat)]
      rfl
  case identities =>
    exact ⟨rfl, rfl, rfl, rfl, fun n => ⟨rfl, rfl, rfl⟩, fun _ => rfl, rfl, rfl⟩

end Sys2Proof.Machine
end
